-- ==== Sys2Proof/Word.lean ====
section
/-! DEFINITION. The word types of the TFD9200 and the plainest arithmetic on them (spec/00 R12, spec/03, spec/06 R142).
Indices of parts of the package are bounded naturals (spec/01 R21), words are bit vectors. -/

namespace Sys2Proof

/-- One byte of memory. -/
abbrev Byte := BitVec 8
/-- A 32-bit lane, bank element or counter. -/
abbrev W32 := BitVec 32
/-- A scalar register or an operand word. -/
abbrev W64 := BitVec 64
/-- Cluster index g, 0-95 (spec/01 R21). -/
abbrev Cl := Fin 96
/-- Function number, which is the tenant space (spec/15 R337). -/
abbrev Fn := Fin 64
/-- Queue number of a function (spec/15 R340). -/
abbrev Qn := Fin 256
/-- Package index in the yard (spec/01 R18). -/
abbrev Pk := Fin 16
/-- Region index, 0-7 (spec/01 R21). -/
abbrev Rg := Fin 8
/-- Nuermevo port, 0-7 (spec/16 R361). -/
abbrev Pt := Fin 8
/-- Groom class: 0 SEC, 1 PWR, 2 SCH, 3 VIS (spec/18 R393). -/
abbrev Gc := Fin 4

/-- Sign extension of the low `n` bits of a natural number, as an integer. -/
def sext (n : Nat) (v : Nat) : Int :=
  let m := v % 2 ^ n
  if m < 2 ^ (n - 1) then (m : Int) else (m : Int) - (2 ^ n : Nat)

/-- Ceiling of a quotient of naturals; 0 when the divisor is 0. -/
def ceilDiv (a b : Nat) : Nat := if b = 0 then 0 else (a + b - 1) / b

/-- `a` rounded up to a multiple of `b`. -/
def roundUp (a b : Nat) : Nat := ceilDiv a b * b

/-- Signed difference of two 32-bit numbers (spec/02 R45): how far `a` lies after `b`, in −2³¹ … 2³¹ − 1. -/
def diff32 (a b : W32) : Int := (a - b).toInt

end Sys2Proof
end

