-- ==== Sys2Proof/Syntax.lean ====
section
/-! DEFINITION. The commands of the block: one constructor per row of spec/opcode_table.json, nearly in the table's order.
The table gives names and rules and no operands; the operands are the model's reading of what the row acts on
(log entry 10). A Yangany instruction carries the cluster that issues it and its 64-bit word(s), by spec/05 R134. -/

namespace Sys2Proof

/-- Where an arriving signal comes from (spec/06 R164): a signal of this package in flight, or one from the fabric. -/
inductive SigSource where
  /-- the i-th signal of this package still in flight -/
  | inFlight (i : Nat)
  /-- a SIGR of another package: its package, the cluster there whose sequencer sent it and the number in that pair, the frame of
  its command's dispatch, its tenant space there, its gang (0 none), target cluster, counter, increment -/
  | fabric (pkg : Pk) (from' : Cl) (seq : Nat) (frame : W32) (tenant : Fn) (gang : BitVec 16) (g : Cl) (ctr : Fin 64) (inc : BitVec 16)
deriving DecidableEq, Repr

/-- How a read of host memory fails (spec/15 R349). -/
inductive ReadFault where
  | unsupported | completerAbort | poisoned
deriving DecidableEq, Repr

/-- What the host memory answered to an entry fetch (spec/15 R343, R349). -/
inductive Fetched where
  /-- the read of the entry itself failed -/
  | failed (why : ReadFault)
  /-- the entry came, and the read of its lists, its arguments or its parameters failed -/
  | listFailed (why : ReadFault) (bytes : List Byte)
  /-- the entry's 128 bytes, the extent list, the batch list and the argument block -/
  | entry (bytes extents batch args : List Byte)
deriving DecidableEq, Repr

/-- A BAR that a host write with no row of its own names (spec/15 R338). -/
inductive Bar where
  | bar0 | bar2
deriving DecidableEq, Repr

/-- What resets a function from configuration space (spec/15 R336). -/
inductive FlrCause where
  | flr | d3hot | d0
deriving DecidableEq, Repr

/-- A reset of a function from configuration space. -/
structure FnReset where
  fn : Fn
  cause : FlrCause
deriving DecidableEq, Repr

/-- Where a host write goes: the BAR and the offset in it. -/
structure BarOff where
  bar : Bar
  off : W32
deriving DecidableEq, Repr

/-- A sequencer of another package and the number of its message in that pair (spec/16 R364). -/
structure FabSource where
  pkg : Pk
  cl : Cl
  seq : Nat
deriving DecidableEq, Repr

/-- For whom a request of another package is made: the tenant space there, and the frame of its command's dispatch. -/
structure Asker where
  tenant : Fn
  frame : W32
deriving DecidableEq, Repr

/-- The cause a gang kill notice carries (spec/05 R123). -/
inductive GangCause where
  | rerun | aborted | faulted
deriving DecidableEq, Repr

/-- What caused a device reset (spec/15 R356, spec/23 R475). -/
inductive ResetCause where
  | devReset | pfFlr | hotReset | perst
deriving DecidableEq, Repr

/-- The causes of a link failure (spec/16 R368). -/
inductive LinkCause where
  | signalLost | lanes | replays | identity
deriving DecidableEq, Repr

/-- A request arriving over the fabric (spec/16 R364). -/
inductive RemoteReq where
  /-- a read of `len` bytes at a device-virtual address of the paired tenant space -/
  | read (va : BitVec 48) (len : Nat)
  /-- writes into a cluster buffer of this package, as (address, bit mask, value) (spec/07 R175, R188) -/
  | write (ws : List (BitVec 48 × Byte × Byte))
  /-- a mirror of a prefix of this package made, or given up (spec/13 R308, R309) -/
  | mirror (handle : W64) (made : Bool)
deriving DecidableEq, Repr

/-- The result of an ECC-checked access (spec/10 R245-R247). -/
inductive EccResult where
  | good | corrected | uncorrectable
deriving DecidableEq, Repr

/-- What a controller does with a refresh (spec/10 R241). -/
inductive RefreshAct where
  | issue | postpone | makeUp
deriving DecidableEq, Repr

/-- The result of one migration chunk (spec/09 R230, R231). -/
inductive ChunkResult where
  | landed | sourceError | destError
  /-- a loft access of the engine passed the tier timeout -/
  | late
deriving DecidableEq, Repr

/-- A part of the analogue checks (spec/22 R469). -/
inductive AnalogPart where
  | sensor (i : Fin 36) | monitor (r : Rg) | droop (r : Rg) | lane (i : Fin 16)
deriving DecidableEq, Repr

/-- The phases of a loop-back test of a port (spec/16 R371). -/
inductive LoopPhase where
  | start | drained | ended (ok : Bool)
deriving DecidableEq, Repr

/-- The result of the start-up self-test (spec/22 R459): clusters failing scan or memory, regions failing PLL lock,
ports failing loop-back, PCI Express lanes failing loop-back, suspect parts. -/
structure SelfTest where
  clusters : BitVec 96
  plls : BitVec 8
  ports : BitVec 8
  suspect : BitVec 52
  lanes : BitVec 16 := 0
deriving DecidableEq, Repr

/-- A unit of a cluster that runs operations (spec/04 R84, spec/05 R109). -/
inductive UnitId where
  | me (m : Fin 8) | vu | ce (stream : Fin 4)
deriving DecidableEq, Repr

/-- Where a parity or ECC error inside a cluster was found (spec/14 R333). -/
inductive Upset where
  | sequencer | registers | buffer
  /-- what the controller found in the word at a physical address that the operation reads (spec/10 R243, R245, R247) -/
  | memory (pa : BitVec 48) (res : EccResult)
deriving DecidableEq, Repr

/-- The end of an operation of a unit: which of those that can end, and the parity or ECC error it met inside its cluster. -/
structure OpEnd where
  n : Nat
  upset : Option Upset
deriving DecidableEq, Repr

/-- The commands. -/
inductive Instr where
  -- control (spec/06 R140, R141)
  | nop (g : Cl) (w : W64)
  | halt (g : Cl) (w : W64)
  | commit (g : Cl) (w : W64)
  | br (g : Cl) (w : W64)
  | brp (g : Cl) (w : W64)
  | loop (g : Cl) (w : W64)
  | call (g : Cl) (w : W64)
  | ret (g : Cl) (w : W64)
  -- scalar (spec/06 R142-R146)
  | add (g : Cl) (w : W64)
  | sub (g : Cl) (w : W64)
  | mul (g : Cl) (w : W64)
  | and (g : Cl) (w : W64)
  | or (g : Cl) (w : W64)
  | xor (g : Cl) (w : W64)
  | shl (g : Cl) (w : W64)
  | shr (g : Cl) (w : W64)
  | ldi (g : Cl) (w : W64)
  | cmp (g : Cl) (w : W64)
  | lds (g : Cl) (w : W64)
  | sts (g : Cl) (w : W64)
  | csrr (g : Cl) (w : W64)
  | csrw (g : Cl) (w : W64)
  -- descriptors (spec/06 R147, R148)
  | tdl (g : Cl) (w : W64)
  | tds (g : Cl) (w : W64)
  | tdset (g : Cl) (w : W64)
  | tdoff (g : Cl) (w : W64)
  -- copies and coding (spec/06 R149-R152)
  | cpy (g : Cl) (w w2 : W64)
  | cpyr (g : Cl) (w : W64)
  | fill (g : Cl) (w : W64)
  | pref (g : Cl) (w : W64)
  | kva (g : Cl) (w : W64)
  | kvg (g : Cl) (w : W64)
  | kvf (g : Cl) (w : W64)
  | codeHist (g : Cl) (w : W64)
  | codeTable (g : Cl) (w : W64)
  | codeEnc (g : Cl) (w : W64)
  -- matrix (spec/06 R153-R155)
  | opa (g : Cl) (w w2 : W64)
  | opz (g : Cl) (w : W64)
  | accl (g : Cl) (w : W64)
  | accs (g : Cl) (w : W64)
  | accw (g : Cl) (w : W64)
  -- vector (spec/06 R156-R161)
  | vld (g : Cl) (w : W64)
  | vst (g : Cl) (w : W64)
  | vadd (g : Cl) (w : W64)
  | vsub (g : Cl) (w : W64)
  | vmul (g : Cl) (w : W64)
  | vmax (g : Cl) (w : W64)
  | vmin (g : Cl) (w : W64)
  | vand (g : Cl) (w : W64)
  | vor (g : Cl) (w : W64)
  | vxor (g : Cl) (w : W64)
  | vshl (g : Cl) (w : W64)
  | vshr (g : Cl) (w : W64)
  | vcmp (g : Cl) (w : W64)
  | vsel (g : Cl) (w : W64)
  | vfma (g : Cl) (w : W64)
  | vsf (g : Cl) (w : W64)
  | vbcast (g : Cl) (w : W64)
  | vred (g : Cl) (w : W64)
  | vmrg (g : Cl) (w : W64)
  | vsamp (g : Cl) (w : W64)
  | vcvt (g : Cl) (w : W64)
  | vperm (g : Cl) (w : W64)
  | vmask (g : Cl) (w : W64)
  -- synchronisation (spec/06 R162-R164, spec/05 R125-R131)
  | wait (g : Cl) (w : W64)
  | waitResolve (g : Cl)
  | sig (g : Cl) (w : W64)
  | sigr (g : Cl) (w : W64)
  | signalArrival (src : SigSource)
  | bar (g : Cl) (w : W64)
  /-- who sent it, tenant space there, gang, barrier number and beat of arrival of a yard barrier message -/
  | barArrivalMessage (src : FabSource) (tenant : Fn) (gang : BitVec 16) (num : Fin 8) (beat : W32)
  /-- the command whose barrier releases, its scope (0 cluster, 1 region, 2 package, 3 yard), its number, and the region for scope 1 or the cluster for scope 0 -/
  | barrierRelease (id : Nat) (scope : Fin 4) (num : Fin 8) (g : Cl)
  | gate (g : Cl) (w : W64)
  | gatePass (g : Cl)
  | tickw (g : Cl) (w : W64)
  | tickwResolve (g : Cl)
  | fence (g : Cl) (w : W64)
  | fenceResolve (g : Cl)
  | unitOperationComplete (g : Cl) (u : UnitId) (e : OpEnd)
  | unassignedOpcode (g : Cl) (w : W64)
  -- coded streams and program load
  /-- expander x of cluster g reads block n of the coded tensor whose 256-bit descriptor is d -/
  | expanderBlockCheck (g : Cl) (x : Fin 17) (d : BitVec 256) (n : Nat)
  | blockCrcCheck (g : Cl) (x : Fin 17) (d : BitVec 256) (n : Nat)
  | programImageLoad (g : Cl)
  -- host queues (spec/15)
  | sqTail (f : Fn) (q : Qn) (tail : W32)
  | entryFetch (f : Fn) (q : Qn) (data : Fetched)
  | cqHead (f : Fn) (q : Qn) (head : W32)
  | abort (f : Fn) (q : Qn) (v : W32)
  | notBeforeRelease (id : Nat)
  | commandDispatch
  | expressDispatch
  | deadlineExpiry (id : Nat)
  | instanceReady (id : Nat) (g : Cl)
  | commandCommit (id : Nat)
  | ceDrainComplete (id : Nat)
  | gangReadyNotice (pkg : Pk) (tenant : Fn) (gang : BitVec 16) (beat : W64) (epoch : W32)
  | gangCommit (id : Nat)
  | gangKillNotice (pkg : Pk) (tenant : Fn) (gang : BitVec 16) (cause : GangCause)
  | tickRelease (f : Fn) (q : Qn)
  -- functions (spec/15 R354-R360)
  | fnCtrlEnable (f : Fn) (v : Bool)
  | negotiate (f : Fn)
  | fnReset
  | flr (r : FnReset)
  | devReset (cause : ResetCause)
  | recover
  | queueEnable (f : Fn) (q : Qn) (v : Bool)
  | queueCheck (f : Fn) (q : Qn)
  /-- a BAR4 access: the offset, and the bytes written, or the number of bytes read -/
  | recoveryWindowAccess (off : W32) (data : List Byte ⊕ Nat)
  /-- a host write into BAR0 or BAR2 of function f: offset, width in bytes, value -/
  | registerWrite (f : Fn) (at' : BarOff) (size : Nat) (v : W64)
  -- requests (spec/15 R351): function, CID, operand words
  | map (f : Fn) (cid : BitVec 16) (va bytes p2 : W64)
  | unmap (f : Fn) (cid : BitVec 16) (va bytes : W64)
  | transfer (f : Fn) (cid : BitVec 16) (va host bytes dir : W64) (data : List Byte)
  | programLoad (f : Fn) (cid : BitVec 16) (image : List Byte)
  | programDrop (f : Fn) (cid : BitVec 16) (prog : W64)
  | tsetInstall (f : Fn) (cid : BitVec 16) (tset : W64) (param : List Byte)
  | ownerInstall (f : Fn) (cid : BitVec 16) (table frame : W64) (param : List Byte)
  | ownerTableSwitch (t : Fn) (table : Fin 1024)
  | gateRegister (f : Fn) (cid : BitVec 16) (gt : W64) (param : List Byte)
  | gateSwap (f : Fn) (cid : BitVec 16) (gt : W64) (param : List Byte)
  | gateClose (t : Fn) (gt : Fin 64)
  | layerCopyStart (t : Fn) (gt : Fin 64)
  | layerCopyCommit (t : Fn) (gt : Fin 64)
  | layerCopyFail (t : Fn) (gt : Fin 64)
  | gateHoldKill (t : Fn) (gt : Fin 64)
  | gateResume (f : Fn) (cid : BitVec 16) (gt : W64)
  | gateUnregister (f : Fn) (cid : BitVec 16) (gt : W64)
  | layoutRegister (f : Fn) (cid : BitVec 16) (layout : W64) (param : List Byte)
  | layoutMask (f : Fn) (cid : BitVec 16) (layout mask : W64)
  | layoutRecode (f : Fn) (cid : BitVec 16) (layout record : W64)
  | openContext (f : Fn) (cid : BitVec 16) (acct lay maxLen variant client tag : W64)
  | closeContext (f : Fn) (cid : BitVec 16) (ctx : W64)
  | parkContext (f : Fn) (cid : BitVec 16) (ctx : W64)
  | cancelContext (f : Fn) (cid : BitVec 16) (ctx flags : W64)
  | importPages (f : Fn) (cid : BitVec 16) (ctx va count : W64)
  | importEffect (f : Fn) (cid : BitVec 16)
  | registerPrefix (f : Fn) (cid : BitVec 16) (ctx len : W64)
  | loadVariant (f : Fn) (cid : BitVec 16) (layout va count : W64)
  /-- the owner's page-list entries arrive over the fabric, 16 bytes each -/
  | mirrorPrefix (f : Fn) (cid : BitVec 16) (pkg handle : W64) (pages : Option (List Byte))
  | retirePrefix (f : Fn) (cid : BitVec 16) (handle : W64)
  | account (f : Fn) (cid : BitVec 16) (acct rate cap weight clear : W64)
  | query (f : Fn) (cid : BitVec 16) (ctx host : W64)
  | share (f : Fn) (cid : BitVec 16) (tenant weight : W64)
  | expressCap (f : Fn) (cid : BitVec 16) (fn cap : W64)
  -- serving actions of SCH (spec/12, spec/13, spec/14)
  | contextPark (ctx : Fin 65536)
  | contextUnpark (ctx : Fin 65536)
  | catchupFlush (ctx : Fin 65536)
  | contextRelease (ctx : Fin 65536)
  | mergeStart (ctx : Fin 65536) (i : Nat)
  | mergeEffect (ctx : Fin 65536)
  | accountRefill
  | deficitUpdate
  | sliceChange (n : Fin 8)
  -- site time (spec/02)
  /-- an edge of SYNC_PPS: rising or falling, and how many ns after the last beat edge it came -/
  | ppsEdge (rising : Bool) (off : Fin 1000)
  | arm
  | holdoverEntry
  -- yard and fabric (spec/01, spec/16)
  | presenceWord (pkg : Pk) (lo hi : BitVec 16)
  | liveSetUpdate
  | portTrainingDone (p : Pt) (ok : Bool)
  | ident (p : Pt) (yard : W32) (pkg : Pk) (port : Pt) (hash : BitVec 512)
  | portRetrain (p : Pt)
  /-- links of other packages that are not in service, as (package, port) -/
  | routeUpdate (down : List (Pk × Pt))
  | linkFail (p : Pt) (cause : LinkCause)
  | flitReplay (p : Pt)
  | routeWaitTimeout (id : Nat)
  /-- source package and source of the pair, sequence number, the frame of its command's dispatch, tenant space there, the
  request -/
  | remoteRequestArrival (pkg : Pk) (src : Nat) (seq : Nat) (who : Asker) (req : RemoteReq)
  | fabricLoopback (p : Pt) (ph : LoopPhase)
  -- power (spec/17)
  /-- average power over the tick just ended, in 1/8 W -/
  | limiterTick (avg : BitVec 16)
  /-- hottest readings of the dies 0, 1 and the I/O die, in 1/16 °C -/
  | grantUpdate (t0 t1 tio : BitVec 16)
  | opChange (r : Rg)
  | opClockSwitch (r : Rg)
  | pwrCabBudget (v : W32)
  | demandReport (pkg : Pk) (demand floor largest : Nat)
  | cabinetDivision
  /-- B and the caps of the lead's broadcast, or the tick boundary at which a waiting cap applies -/
  | capApply (recv : Option (BitVec 14 × List (Pk × BitVec 10)))
  | stableRegion (r : Rg)
  | wakeRegion (r : Rg)
  | wakeDone (r : Rg)
  | droopDetect (r : Rg)
  | droopEnd (r : Rg)
  | thermalForce (d : Fin 3) (reading : BitVec 16)
  | thermalRelease (d : Fin 3)
  | voltageTrip (d : Fin 2)
  | thermtrip (d : Fin 3) (reading : BitVec 16)
  -- memory tiers and controllers (spec/09, spec/10)
  | loftRequestTimeout (id : Nat) (ch : Fin 32)
  | hbmRefresh (ch : Fin 128) (bank : Fin 32) (act : RefreshAct)
  | loftRefresh (ch : Fin 32) (rank : Fin 2)
  | patrolScrubRead (loft : Bool) (pa : BitVec 48) (res : EccResult)
  | loftRateChange
  | loftRateChangeEnd
  | memChRetrain (mask : W32)
  | loftRetrainDone (ch : Fin 32) (ok : Bool)
  /-- SCH's policy: the frame to move and the frame it moves to, as physical addresses -/
  | migrationStart (src dst : BitVec 48)
  | migrationChunk (src : BitVec 48) (res : ChunkResult)
  | migrationComplete (src : BitVec 48)
  | frameZero (frame : BitVec 48)
  | accessCountHalve
  | segmentRetag (g : Cl) (seg : Fin 96) (tag : Option Fn)
  -- grooms and configuration (spec/18)
  | watchdogExpiry (c : Gc)
  | stage
  | activate
  | trialStart
  | trialReady (c : Gc)
  | trialTimeout
  | probationEnd
  | load
  | configApply
  | grmOvlNext (v : W64)
  | overlaySwitch
  | boot
  | startupSelfTest (res : SelfTest)
  -- security (spec/19)
  | secRomLoad (len : BitVec 23)
  | memoryClearDone
  | secOwnerArm
  | secOwnerDebug
  | recoverNPress
  | presenceTimeout
  | fnAttReq (f : Fn)
  | attestationReport
  -- flash (spec/20): the writing groom and the words it writes to the window, as (address, word)
  | wordProgram (c : Gc) (ws : List (W32 × W32))
  | bufferProgram (c : Gc) (ws : List (W32 × W32))
  | sectorErase (c : Gc) (ws : List (W32 × W32))
  | flashStatus (c : Gc) (ws : List (W32 × W32))
  | flashReset (c : Gc) (addr : W32)
  | seqTimeout
  /-- pulses used (erase) or whether every 0 bit was reached (program) -/
  | flashOpDone (pulses : Nat) (ok : Bool)
  | flashWindowRead (c : Gc) (addr : W32) (fetch : Bool)
  | healthRecordWrite
  -- camera (spec/21)
  | camHpd (p : Fin 2) (level : Bool)
  | camFrameStart (p : Fin 2) (vc : Fin 32)
  /-- a received line: virtual channel, data type, samples, header and payload checks -/
  | camLine (p : Fin 2) (vc : Fin 32) (dt : Byte) (px : List (BitVec 16)) (hdrOk crcOk : Bool)
  | camFrameEnd (p : Fin 2) (vc : Fin 32)
  | camSilenceTimeout (s : Fin 16)
  | camPresenceTimeout (s : Fin 16)
  | camPipelineRun
  | camDeliver (n : Fin 64)
  | camSettingsWrite (s : Fin 16)
  -- farrier (spec/22)
  | farSliceStart
  /-- whether the logic and the memory signature match, and whether a stored table lists the stepping -/
  | farSliceJudge (logic memory stored : Bool)
  | farSliceAbandon
  | farReferenceCheck (part : AnalogPart) (ok : Bool)
  -- board (spec/23)
  /-- SYS_PWROK rises: whether the monitored rails are in range and the hottest sensor in 1/16 °C -/
  | sysPwrokRise (railsOk : Bool) (hottest : BitVec 16)
  | railRecheck (railsOk : Bool)
  | sysPwrokFall
  | perstN (level : Bool)
  | vddAonRemoved
  | syncRef10Change (present inRange : Bool)
  | loftTrainingLost (ch : Fin 32)
  | busMasterEnable (f : Fn) (v : Bool)
  | vfEnable (v : Bool)
  | groomBackInService (c : Gc)
  /-- the rail's index in the table "Supply rails" (0 VDD_CD0, 1 VDD_CD1, ...), and whether it answers -/
  | regulatorNotAnswering (rail : Fin 12) (answers : Bool)
  | laneFailure (p : Pt) (good : BitVec 8)
  | transferDone (f : Fn) (cid : BitVec 16)
  | variantLoadEffect (f : Fn) (cid : BitVec 16)
  | pageRecodeEffect (f : Fn) (cid : BitVec 16)
deriving DecidableEq, Repr

end Sys2Proof
end

