-- ==== Sys2Proof/Machine/State.lean ====
section
/-! DEFINITION. The state of one TFD9200 package, as plain data, and the state after reset.
Tables are sparse: a list of (key, value) pairs with keys rising, where an unlisted key holds the table's default, which
is the entry's reset value. INVENTORY.md lists every field with the rule that names it. -/

namespace Sys2Proof.Machine

/-- A sparse table: (key, value) pairs, keys strictly rising, no entry equal to the table's default. -/
abbrev SMap (v : Type) := List (Nat × v)

/-- Reasons the machine stops. -/
inductive Fault where
  /-- A command on a device whose clocks the trip of spec/17 R387 stopped. No row raises it: such a command is answered with the
  state unchanged. Safe. -/
  | clocksStopped
deriving DecidableEq, Repr

/-- Reasons a command has no meaning. -/
inductive Refusal where
  /-- Raised by an arm of `exec` whose row has no meaning yet. Safe. -/
  | notModelled (mnemonic : String)
deriving DecidableEq, Repr

/-! ### Clusters and program instances (spec/04, spec/05) -/

/-- What an instance waits on (spec/05 R109, spec/06 R162). -/
inductive WaitOn where
  | counter (c : Nat) (threshold : W32) (consume : Bool)
  | barrier (scope num : Nat) (target : W32)
  | gate (dst gateNo layer : Nat)
  | tick (t : W32)
  | fence (mask : BitVec 14)
deriving DecidableEq, Repr

/-- An open LOOP (spec/06 R141): first and last word of its body, iterations left. -/
structure LoopRec where
  first : Nat
  last : Nat
  left : Nat
deriving DecidableEq, Repr

/-- A signal held to commit (spec/05 R112): the destination package (none: this one), cluster, counter, increment. -/
structure HeldSig where
  pkg : Option Nat
  cl : Nat
  ctr : Nat
  inc : Nat
deriving DecidableEq, Repr

/-- A SETTLE of a KVA (spec/12 R276, R278): batch slot and keep mask. -/
structure Settle where
  slot : Nat
  keep : BitVec 16
deriving DecidableEq, Repr

/-- A page prepared by KVF (spec/12 R280): batch slot, its first unit, units, tokens, FIRST, table use, whether a later
SETTLE voided it. -/
structure Flush where
  slot : Nat
  unit : Nat
  units : Nat
  tokens : Nat
  first : Nat
  tuse : BitVec 8
  void : Bool
  hist : List Nat
deriving DecidableEq, Repr

/-- A page-list entry of a context (spec/12 R273). -/
structure Page where
  addr : Nat
  pkg : Nat
  size : Nat
  ro : Bool
  first : Nat
  tokens : Nat
  tuse : BitVec 8
deriving DecidableEq, Repr

/-- A table record held to commit (spec/08 R200): table set, index, the 256 bytes. -/
structure HeldTable where
  tset : Nat
  idx : Nat
  bytes : List Byte
deriving DecidableEq, Repr

/-- A tier hint held to commit (spec/06 R152): a page address and a tier. -/
structure Hint where
  va : Nat
  tier : Nat
deriving DecidableEq, Repr

/-- One cluster instance of a command (spec/05 R106). -/
structure Inst where
  cmd : Nat
  rank : Nat
  size : Nat
  pc : Nat := 0
  /-- the image is resident (spec/05 R103) -/
  loaded : Bool := false
  sreg : SMap W64 := []
  desc : SMap (BitVec 256) := []
  /-- current offsets: key 8·t + d (spec/07 R166) -/
  offs : SMap W32 := []
  /-- p0-p7; bit 0 always reads 1 -/
  pred : BitVec 8 := 1
  ctr : SMap W32 := []
  /-- VU registers: key 256·v + lane -/
  vreg : SMap W32 := []
  /-- the stochastic generator (spec/03 R70, R71) -/
  gen : W32 := 1
  /-- return address and loop depth of each CALL, innermost first -/
  calls : List (Nat × Nat) := []
  /-- open loops, innermost first -/
  loops : List LoopRec := []
  args : List Byte := []
  wait : Option WaitOn := none
  /-- COMMIT has issued (spec/05 R113) -/
  done : Bool := false
  /-- initialised marks of the 32 banks: bit 4·m + b (spec/04 R82) -/
  bankInit : BitVec 32 := 0
  sigs : List HeldSig := []
  /-- counts of the running command: ME_ACC, ME_NOTREADY, EXP_STALL, BUF_CONFLICT, ME_THROTTLE, ACCS_CODED, ACCS_STORED,
  CVT_SATURATED, CVT_NAN_ZEROED, OOB_WRITES, CE_CODED, CE_STORED (spec/04 R101, 03 R66, 07 R173, 08 R214) -/
  delta : SMap W64 := []
  meCycles : W64 := 0
  vuCycles : W64 := 0
  hints : List Hint := []
  tables : List HeldTable := []
  settles : List Settle := []
  flushes : List Flush := []
  /-- gates and the layer held of each, the last GATE first (spec/05 R130) -/
  holds : List (Nat × Nat) := []
  /-- the region's cycle count at the start, and the CYCLE last read (spec/05 R108) -/
  start : Nat := 0
  cycle : Nat := 0
deriving DecidableEq, Repr

/-- One accumulator bank of one ME (spec/04 R82, R83): INT32 type mark, recorded tenant space, elements by 64·i + j. -/
structure Bank where
  int : Bool := false
  tenant : Nat := 0
  el : SMap W32 := []
deriving DecidableEq, Repr

/-- The blocks an expander is to take for an operation, in the order they enter its store: each with the first and the last of the
operation's port cycles that need it (spec/08 R205). -/
structure Feed where
  exp : Nat
  desc : BitVec 256
  todo : List (Nat × Nat × Nat)
deriving DecidableEq, Repr

/-- An operation in a unit's queue or a CE entry (spec/04 R84, 05 R109, 07 R178). -/
structure UnitOp where
  unit : UnitId
  cmd : Nat
  id : Nat
  express : Bool
  /-- the killed run's entry is still draining (spec/07 R181) -/
  killed : Bool := false
  /-- remote packages the operation reads (spec/16 R369) -/
  remote : List Nat := []
  /-- loft channels it touches (spec/09 R232) -/
  loft : W32 := 0
  /-- the batch slot it works for, if it is a KVA, KVG or KVF (spec/13 R298) -/
  slot : Option Nat := none
  /-- byte extent of its pending writes into its own buffer (spec/07 R180) -/
  held : Nat × Nat := (0, 0)
  /-- the beat of its issue (spec/09 R232) -/
  issued : Nat := 0
  /-- an ME operation's path (0 array, 1 store, 2 load, 3 none), its bank, and the bank before it (spec/04 R84, R99) -/
  path : Nat := 3
  bank : Nat := 0
  before : Option Bank := none
  /-- rows and columns of the bank that an OPA accumulates into, its accumulates, and its cycles not ready (spec/04 R79, R87) -/
  tile : Nat × Nat := (64, 64)
  acc : Nat × Nat := (0, 0)
  /-- the least and the greatest throttling duty since its issue, as exponents of 2 (spec/04 R88) -/
  duty : Nat × Nat := (0, 0)
  /-- the blocks its expanders are still to take (spec/08 R205) -/
  feeds : List Feed := []
deriving DecidableEq, Repr

/-- What an SCH copy in phase MAINT works for: the front layer of a gate of a tenant space, or the merge of a context into a unit
(spec/11 R259, spec/12 R288). -/
inductive Maint where
  | layer (tenant gate : Nat)
  | merge (ctx unit : Nat)
deriving DecidableEq, Repr

/-- A block assembler (spec/04 R93): the descriptor register, the format, the number of its first element in the raw image,
converted elements so far. -/
structure Assembler where
  reg : Nat
  fmt : Nat
  start : Nat
  els : List Nat
deriving DecidableEq, Repr

/-- A resident program image (spec/05 R103). -/
structure Resident where
  tenant : Nat
  prog : Nat
  words : List W64
deriving DecidableEq, Repr

/-- A cached table record (spec/08 R208). -/
structure CachedRec where
  tenant : Nat
  tset : Nat
  idx : Nat
  bytes : List Byte
deriving DecidableEq, Repr

/-- A block in an expander's store (spec/08 R205, R212): descriptor, block number, the record cached when its header was checked,
its elements once it is decoded. -/
structure StoreBlk where
  desc : BitVec 256
  no : Nat
  rcd : List Byte
  els : Option (List Nat) := none
  /-- the operation it was taken for, and the last of its port cycles that needs it -/
  op : Nat := 0
  last : Nat := 0
deriving DecidableEq, Repr

/-- One cluster. -/
structure Cluster where
  issuing : Option Inst := none
  draining : Option Inst := none
  /-- key 4·m + b -/
  banks : SMap Bank := []
  /-- key m -/
  asm : SMap (Option Assembler) := []
  /-- segment tags (spec/04 R97) -/
  segs : SMap (Option Nat) := []
  /-- shared counters c32-c63, keys 32-63 (spec/05 R107) -/
  shared : SMap W32 := []
  sharedTag : SMap (Option Nat) := []
  ops : List UnitOp := []
  /-- the up to four blocks each expander holds, newest first (spec/08 R205) -/
  store : SMap (List StoreBlk) := []
  /-- most recently used first -/
  recCache : List CachedRec := []
  /-- most recently used first -/
  progs : List Resident := []
  /-- counters per tenant space: key 16·tenant + counter (spec/04 R101) -/
  totals : SMap W64 := []
  /-- drained by the farrier (spec/22 R462) -/
  drained : Bool := false
  /-- CE entries of SCH's copies in phase MAINT -/
  maint : List Maint := []
deriving DecidableEq, Repr

/-- One byte of a write accepted and not yet visible to every requester (spec/05 R125, R126). -/
structure PWrite where
  cl : Nat
  /-- FENCE mask bit of the writer -/
  writer : Nat
  op : Nat
  cmd : Nat
  addr : Nat
  mask : Byte
  val : Byte
deriving DecidableEq, Repr

/-! ### Commands (spec/05, spec/14, spec/15) -/

inductive CmdPhase where
  /-- latched and not dispatched -/
  | queued
  /-- dispatched and not ready -/
  | running
  /-- ready; it cannot be killed (spec/05 R113) -/
  | ready
  /-- killed for re-run, its CE entries not yet free (spec/14 R331) -/
  | draining
deriving DecidableEq, Repr

/-- A context descriptor (spec/13 R294) with its page list (spec/12 R273). -/
structure Ctx where
  /-- 0 FREE, 1 OPEN, 2 RUNNING, 3 PARKED, 4 CLOSING -/
  state : Nat := 0
  stopped : Bool := false
  tenant : Nat := 0
  account : Nat := 0
  layout : Nat := 0
  trough : Nat := 0
  candMax : Nat := 0
  fill : Nat := 0
  map : W64 := 0
  len : Nat := 0
  plist : Nat := 0
  pages : List Page := []
  epoch : W32 := 0
  maxLen : Nat := 0
  pfxLen : Nat := 0
  variant : W64 := 0
  client : W64 := 0
  lastTick : W32 := 0
  steps : W32 := 0
  charged : W64 := 0
  tag : W64 := 0
  /-- order of latching of the last CANCEL that names it (spec/13 R313) -/
  cancelSeq : Nat := 0
deriving DecidableEq, Repr

/-- A gang notice received (spec/05 R122, 11 R263): package, beat, epoch. -/
structure Notice where
  pkg : Nat
  beat : Nat
  epoch : W32
  /-- the beat that latched it (spec/16 R366) -/
  lat : Nat
deriving DecidableEq, Repr

/-- A fault latched in the current beat (spec/05 R117): the instance's cluster, the code, the batch slot, the location. -/
structure FaultRec where
  cl : Nat
  code : Byte
  slot : Option Nat
  loc : W32
deriving DecidableEq, Repr

/-- A command entry whose completion is not yet written (spec/15 R347). -/
structure Cmd where
  id : Nat
  fn : Nat
  q : Nat
  cid : BitVec 16
  /-- order of latching (spec/02 R43) -/
  seq : Nat
  express : Bool
  phase : Nat
  program : Nat
  batch : List Nat
  report : Option Nat
  gang : Nat
  gangSize : Nat
  notBefore : Option W32
  deadline : Option W32
  /-- held by an account: dispatched at this tick's boundary at the earliest (spec/13 R304) -/
  hold : Nat := 0
  args : List Byte
  outs : List (Nat × Nat)
  scr : List (Nat × Nat)
  ins : List (Nat × Nat)
  mask : BitVec 96
  place : List Nat := []
  st : CmdPhase := .queued
  runs : Nat := 0
  epoch : W32 := 0
  /-- the event number and the frame of the dispatch (spec/07 R186, spec/01 R25) -/
  dispSeq : Nat := 0
  dispFrame : Nat := 0
  readyBeat : Nat := 0
  /-- contexts of the batch as they stood at dispatch (spec/12 R276, R284) -/
  snap : List Ctx := []
  notices : List Notice := []
  /-- ready instances with their clusters, which are free of them (spec/05 R113) -/
  insts : List (Nat × Inst) := []
  /-- aborts by the host, and cancellations by request CID, held by R122 -/
  heldAborts : Nat := 0
  heldCancels : List (BitVec 16) := []
  /-- cancelled contexts of the batch (spec/13 R313) -/
  cancelled : List Nat := []
  /-- its clusters are reserved for it (spec/14 R317) -/
  reserved : Bool := false
  /-- its last dispatch was an express one (spec/14 R326, R329) -/
  xrun : Bool := false
  /-- faults of its instances latched in the current beat (spec/05 R117) -/
  faults : List FaultRec := []
deriving DecidableEq, Repr

/-- A signal sent and not yet arrived (spec/06 R164): sender's command, its cluster, target cluster, counter, increment. -/
structure SigFlight where
  cmd : Nat
  cl : Nat
  ctr : Nat
  inc : Nat
  tenant : Nat
deriving DecidableEq, Repr

/-- A barrier arrival (spec/05 R127, R128): command, scope, number, cluster (or package for a remote gang member's),
beat. -/
structure Arrival where
  cmd : Nat
  scope : Nat
  num : Nat
  who : Nat
  beat : Nat
  target : W32
deriving DecidableEq, Repr

/-- The uncompleted commands of the package. -/
structure Cmds where
  list : List Cmd := []
  /-- numbers of the next command and the next operation; 0 is no command's and no operation's -/
  nextId : Nat := 1
  nextSeq : Nat := 0
  nextOp : Nat := 1
  sigs : List SigFlight := []
  arrivals : List Arrival := []
deriving DecidableEq, Repr

/-! ### Functions and queues (spec/15) -/

/-- A completion entry before it is written (spec/15 R350). -/
structure Compl where
  result : W64
  loc : W32
  tick : W32
  cid : BitVec 16
  status : Byte
  kind : Nat
  detail : W64
deriving DecidableEq, Repr

structure Queue where
  sqBase : W64 := 0
  cqBase : W64 := 0
  /-- FN_Q_n_CFG -/
  cfg : W32 := 0
  active : Bool := false
  refusal : Nat := 0
  overrun : Bool := false
  cqFull : Bool := false
  sqTail : W32 := 0
  sqHead : W32 := 0
  /-- doorbells latched whose entries are not all fetched: tail and order of latching (spec/02 R43) -/
  marks : List (W32 × Nat) := []
  /-- completions written, and consumed by the host -/
  cqTail : W32 := 0
  cqHead : W32 := 0
  /-- completions held for a full CQ or a closed Bus Master Enable, oldest first -/
  held : List Compl := []
  /-- completions held for tick release, with the tick of their commit -/
  trel : List (Nat × Compl) := []
  /-- ENABLE was written 0 and what was submitted before has not yet ended (spec/15 R341) -/
  closing : Bool := false
  /-- bytes of the doorbell page's four PUSH records (spec/15 R342, R344) -/
  push : SMap Byte := []
deriving DecidableEq, Repr

/-- A request entry fetched and not yet completed (spec/15 R351): what SCH carries out, and whether it has begun. -/
structure Req where
  cid : BitVec 16
  code : Nat
  /-- PARAM_ADDR, PARAM_LEN and the operand words that the code names -/
  addr : W64 := 0
  len : Nat := 0
  ops : List W64 := []
  begun : Bool := false
  /-- the request itself once SCH has taken it -/
  what : Option Instr := none
  /-- an import held by its account is taken at this tick's boundary at the earliest (spec/13 R304) -/
  hold : Nat := 0
  /-- a cancellation that waits for a PARKED context has been latched and acted (spec/13 R313) -/
  latched : Bool := false
deriving DecidableEq, Repr

/-- One function's FN block. -/
structure FnBlk where
  enable : Bool := false
  /-- 0 STOPPED, 1 NEGOTIATING, 2 RUNNING, 3 REFUSED, 4 RESETTING -/
  state : Nat := 0
  recoverArmed : Bool := false
  code : Byte := 0
  minor : Byte := 0
  major : Byte := 0
  drv : W32 := 0
  /-- FN counters: key (offset − 0x100) ÷ 8 -/
  counters : SMap W64 := []
  recBase : BitVec 16 := 0
  recMiss : Bool := false
  queues : SMap Queue := []
  msixAddr : SMap W64 := []
  msixData : SMap W32 := []
  msixMask : BitVec 32 := 0xFFFFFFFF
  msixPend : BitVec 32 := 0
  busMaster : Bool := false
  /-- its power state is D3hot, not D0 (spec/15 R336) -/
  d3hot : Bool := false
  reqs : List Req := []
  /-- beat of the last function reset (spec/15 R357) -/
  resetBeat : Option Nat := none
  /-- errors logged through AER: bit 0 Unsupported Request, 1 Completer Abort, 2 poisoned (spec/15 R336, R349) -/
  aer : BitVec 3 := 0
  attBusy : Bool := false
  attDone : Bool := false
  attCode : BitVec 4 := 0
  attDst : W64 := 0
  attNonce : SMap W32 := []
deriving DecidableEq, Repr

/-! ### Tenant spaces (spec/07-spec/12) -/

/-- A translation leaf (spec/09 R219): virtual address, size in bytes, physical address, W, PIN, HINT. -/
structure Leaf where
  va : Nat
  size : Nat
  pa : Nat
  w : Bool
  pin : Bool
  hint : Nat
deriving DecidableEq, Repr

/-- A version of an owner table (spec/07 R184, R186): BLOCK_LOG2, entries (address, package, valid), switch frame,
event number of the switch (none while it waits). -/
structure OwnerVer where
  log2 : Nat
  entries : List (Nat × Nat × Bool)
  frame : W32
  since : Option Nat
  /-- the request that installs it, until it is answered -/
  cid : Option (BitVec 16)
deriving DecidableEq, Repr

/-- A table set (spec/08 R197): MIN_GAIN and eight records of 256 bytes (empty: never written, not VALID). -/
structure TableSet where
  minGain : Nat
  records : SMap (List Byte)
deriving DecidableEq, Repr

/-- A layer entry of a manifest (spec/11 R252). -/
structure Layer where
  va : Nat
  bytes : Nat
  format : Nat
  tset : Nat
deriving DecidableEq, Repr

structure Manifest where
  model : W32
  epoch : W32
  shard : Nat
  shards : Nat
  owner : Nat
  layers : List Layer
deriving DecidableEq, Repr

/-- A registered gate (spec/11). -/
structure GateRec where
  man : Manifest
  /-- 0 IDLE, 1 SWAPPING, 2 STALLED -/
  state : Nat := 0
  epoch : W32
  /-- the accepted swap's manifest and request, before and during the swap -/
  staging : Option Manifest := none
  swapCid : BitVec 16 := 0
  /-- accepted, waiting for the frame boundary -/
  closing : Bool := false
  held : Option (BitVec 16 × Manifest) := none
  front : Nat := 0
  swapped : Nat := 0
  copying : Bool := false
  attempts : Nat := 0
  /-- tick since which the front layer has met condition 1 of R259 -/
  since : Nat := 0
  /-- the front layer holds neither epoch -/
  torn : Bool := false
  /-- addresses of the leaves whose W the registration cleared -/
  wSet : List Nat := []
deriving DecidableEq, Repr

/-- A cache layout (spec/12 R269): counts of layers and heads, the head dimension D, and the record's other fields. -/
structure LayoutRec where
  layers : Nat
  heads : Nat
  dim : Nat
  format : Nat
  tset : Nat
  mask : BitVec 8
  poolBase : Nat
  poolUnits : Nat
  troughBase : Nat
  troughSlots : Nat
  /-- a TABLE_MASK that applies from a frame on (spec/12 R283) -/
  maskNext : Option (Nat × BitVec 8) := none
  /-- runs of units in use: first unit, units -/
  units : List (Nat × Nat) := []
  /-- trough slots in use -/
  slots : List Nat := []
  /-- runs a killed flush is returning (spec/12 R281): first unit, units, the killed command -/
  returning : List (Nat × Nat × Nat) := []
deriving DecidableEq, Repr

structure Tenant where
  leaves : List Leaf := []
  quotaHbm : Nat := 0
  quotaLoft : Nat := 0
  useHbm : Nat := 0
  useLoft : Nat := 0
  /-- a quota was lowered below the use, which has not fallen below it since (spec/09 R225) -/
  overHbm : Bool := false
  overLoft : Bool := false
  progs : SMap (List W64) := []
  tsets : SMap (Option TableSet) := []
  owners : SMap (List OwnerVer) := []
  gates : SMap (Option GateRec) := []
  layouts : SMap (Option LayoutRec) := []
  weight : BitVec 16 := 1
  deficit : Int := 0
  active : Bool := false
  meCycles : W64 := 0
  vuCycles : W64 := 0
  ctxQuota : Nat := 65536
  /-- frames an UNMAP leaves with commands dispatched before it (spec/09 R222): frame, event number -/
  leaving : List (Nat × Nat) := []
deriving DecidableEq, Repr

/-! ### Serving (spec/12, spec/13) -/

structure Account where
  valid : Bool := false
  /-- owning tenant space -/
  owner : Option Nat := none
  rate : Nat := 0
  cap : Nat := 0
  weight : Nat := 1
  balance : Int := 0
  prompt : W64 := 0
  produced : W64 := 0
  deficit : Int := 0
  meCycles : W64 := 0
  vuCycles : W64 := 0
deriving DecidableEq, Repr

/-- A registered prefix (spec/13 R305-R310). -/
structure Pfx where
  tenant : Nat
  variantKind : Bool
  layout : Nat
  serial : Nat
  pages : List Page
  tokens : Nat
  /-- the variant and client handles it was built on, 0 when none -/
  onVariant : W64
  onClient : W64
  retired : Bool
  /-- it is a mirror: the owner package and its handle there (spec/13 R308) -/
  mirrorOf : Option (Nat × W64) := none
  /-- mirrors other packages hold of it -/
  mirrors : Nat
  /-- runs of units it owns -/
  own : List (Nat × Nat)
deriving DecidableEq, Repr

/-- A merge in flight (spec/12 R288): context, index of the first entry, the run taken, event number. -/
structure Merge where
  ctx : Nat
  idx : Nat
  unit : Nat
  units : Nat
  seq : Nat
deriving DecidableEq, Repr

/-- A copy job of SCH in flight: an IMPORT, a LOAD_VARIANT (spec/13 R302, R307): function, CID, context (or layout),
pages with the run each takes. -/
structure CopyJob where
  fn : Nat
  cid : BitVec 16
  variantOf : Option Nat
  ctx : Nat
  pages : List Page
  runs : List (Nat × Nat)
deriving DecidableEq, Repr

structure Serv where
  ctxs : SMap Ctx := []
  accts : SMap Account := []
  pfxs : List Pfx := []
  gen : W32 := 0
  nextSerial : Nat := 0
  merges : List Merge := []
  jobs : List CopyJob := []
  /-- runs to return once older commands are done: tenant, layout, first unit, units, event number (spec/12 R289) -/
  oldRuns : List (Nat × Nat × Nat × Nat × Nat) := []
  kvFlushes : W64 := 0
  kvMerges : W64 := 0
  kvRefused : W64 := 0
  compactEnable : Bool := true
  compactMax : Nat := 8
  compactStreams : Nat := 4
  idleTicks : W32 := 0x9C40
  acctSel : BitVec 12 := 0
deriving DecidableEq, Repr

/-! ### Scheduling (spec/14) -/

structure Slice where
  tenant : Nat := 0
  idle : Bool := true
  /-- TICKS: the length minus 1 -/
  ticks : Nat := 0
deriving DecidableEq, Repr

structure Paddock where
  regions : Byte := 0
  /-- ENTRIES, the number of entries minus 1 -/
  entries : Nat := 0
  current : Nat := 0
  /-- the tick at which the entry in effect ends -/
  ends : Nat := 0
  slices : SMap Slice := []
  /-- tables of an overlay or base, from the next tick boundary (spec/14 R332) -/
  next : Option (Byte × List Slice) := none
  /-- the tick in which they were set -/
  nextAt : Nat := 0
deriving DecidableEq, Repr

structure Express where
  cap : BitVec 16 := 0
  /-- charges of the frame they belong to (spec/14 R329) -/
  sum : Nat := 0
  frame : Nat := 0
deriving DecidableEq, Repr

/-- A policy write that SCH made and that is not yet in effect (spec/02 R41, R42). -/
inductive Policy where
  | share (tenant : Nat) (w : BitVec 16)
  | cap (fn : Nat) (cap : BitVec 16)
  /-- ACCOUNT of a tenant space: account, RATE, CAP, w_a, or cleared (spec/13 R303) -/
  | account (f a rate cap weight : Nat) (clear : Bool)
deriving DecidableEq, Repr

structure Sched where
  paddock : Bool := false
  /-- policy writes with the beat that made each, oldest first -/
  writes : List (Nat × Policy) := []
  overlay : Nat := 0xF
  paddocks : SMap Paddock := []
  express : SMap Express := []
  kills : SMap W64 := []
  gateSel : BitVec 6 := 0
  holdLimit : BitVec 16 := 0x10
  holdKills : W64 := 0
  gangReruns : W64 := 0
deriving DecidableEq, Repr

/-! ### Site time, yard and power (spec/01, spec/02, spec/17) -/

structure Tim where
  ns : Nat := 0
  todNext : W64 := 0
  arm : Bool := false
  ref10En : Bool := false
  ppsFalling : Bool := false
  locked : Bool := false
  holdover : Bool := false
  ref10Ok : Bool := false
  todLoaded : Bool := false
  todRejected : Bool := false
  ppsFault : Bool := false
  ppsError : W32 := 0
  holdoverBeats : W64 := 0
  /-- error still to be slewed out, in tenths of a ns, added to the counter -/
  slew : Int := 0
  /-- the disciplined rate, in ppb against SYS_CLK25 (spec/02 R37, R52) -/
  rate : Int := 0
  /-- ns from the last accepted edge to the last beat edge, once one came -/
  edgeAge : Option Int := none
  ignored : Nat := 0
deriving DecidableEq, Repr

/-- The yard record of the base configuration (spec/01 R24). Cabling: key 8·index + port, value neighbour index and port.
Pairing: key 16·yard tenant + index, value the tenant space. -/
structure YardRec where
  id : W32
  count : Nat
  hashes : List (BitVec 512)
  cabling : SMap (Option (Nat × Nat))
  pairing : SMap (Option Nat)
deriving DecidableEq, Repr

structure Glb where
  yard : Option YardRec := none
  index : Nat := 0
  valid : Bool := false
  count : Nat := 0
  lead : Nat := 0
  isLead : Bool := false
  partitioned : Bool := false
  live : BitVec 16 := 0
  /-- presence words heard in the current frame: package, protocol range (spec/18 R398) -/
  heard : List (Nat × Nat × Nat) := []
  /-- the live set of the last whole-yard frame -/
  whole : BitVec 16 := 0
  disable : BitVec 96 := 0
  yardId : W32 := 0
  /-- yard records that have switched out, oldest first: event number and frame of the switch, the record and the index it gave
  (spec/01 R25) -/
  olds : List (Nat × Nat × Option YardRec × Nat) := []
deriving DecidableEq, Repr

structure Region where
  grant : Nat := 0
  current : Nat := 0
  /-- an upward change whose clock has not switched (spec/17 R374) -/
  rising : Option Nat := none
  /-- 0 RUNNING, 1 STABLED, 2 WAKING -/
  state : Nat := 0
  /-- a stable request that reached the region while waking (spec/17 R383) -/
  stableNext : Bool := false
  /-- the beat at which its wake began, and whole ticks without a command on it (spec/17 R382, R383) -/
  wokenAt : Nat := 0
  idleTicks : Nat := 0
  halved : Bool := false
  /-- phases of the commands issuing or draining since the last tick boundary (spec/17 R375) -/
  seen : BitVec 6 := 0
  /-- region cycles run in the current tick, and in the tick just ended (spec/14 R320) -/
  cycles : Nat := 0
  lastCycles : Nat := 0
  /-- region cycles run since reset (spec/05 R108) -/
  total : Nat := 0
deriving DecidableEq, Repr

structure Pwr where
  cap : Nat := 160
  next : Nat := 0
  /-- the tick at whose first beat `next` applies -/
  nextAt : Nat := 0
  cooled : Bool := false
  budget : Nat := 160
  /-- last cabinet budget received with a division (spec/17 R381) -/
  lastB : Nat := 160
  underBudget : Bool := false
  leadChanged : Bool := false
  notLead : Bool := false
  capUnreachable : Bool := false
  duty : Nat := 0
  ceiling : Nat := 7
  /-- sensors that force: compute dies 0 and 1, and the I/O die, which forces both (spec/17 R385) -/
  force : BitVec 3 := 0
  vtrip : Bool := false
  thermtripSeen : Bool := false
  /-- preferred points that apply at the next tick boundary (spec/18 R402) -/
  phaseNext : Option (Nat × W32) := none
  phaseOp : W32 := 0x4 <<< 12 ||| 0x3 <<< 9 ||| 0x5 <<< 6 ||| 0x5 <<< 3 ||| 0x6
  regions : SMap Region := []
  tempMax : SMap (BitVec 16) := []
  tempPeak : SMap (BitVec 16) := []
  policyC : Nat := 0x5F
  thresh : Nat := 0x28
  droopEvents : SMap W64 := []
  energy : W64 := 0
  avg : BitVec 16 := 0
  /-- estimates of OP0-OP7 in W (spec/17 R376) -/
  est : SMap Nat := []
  /-- each package's last demand report: package, D, F, M -/
  reports : List (Nat × Nat × Nat × Nat) := []
  /-- caps of the last division of a whole yard, by package (spec/01 R31) -/
  lastCaps : SMap Nat := []
  /-- targets of VDD_CD0 and VDD_CD1 in mV; an unlisted one is the boot voltage 750 (spec/23 R473) -/
  rail : SMap Nat := []
  /-- rails whose regulator does not answer (spec/23 R477) -/
  silent : BitVec 12 := 0
  /-- die of a voltage trip's force, and ticks left before it may be released -/
  vtripDie : BitVec 2 := 0
  vtripAt : SMap Nat := []
  /-- whole ticks below 100 °C per die -/
  cool : SMap Nat := []
  /-- steps by which PWR lowers the grants of a hot compute die (spec/17 R385) -/
  drop : SMap Nat := []
  stableLeast : Nat := 1
  stableIdle : Nat := 0
deriving DecidableEq, Repr

/-! ### Memory tiers and controllers (spec/09, spec/10) -/

/-- A 2 MiB frame, by physical address ÷ 2 MiB. -/
structure Frame where
  /-- the tenant space that last held it (none: none since reset) -/
  holder : Option Nat := none
  /-- it is held now -/
  charged : Bool := false
  /-- the access count, and the bytes since it last rose (spec/09 R228) -/
  count : Nat := 0
  part : Nat := 0
  corrections : Nat := 0
  retired : Bool := false
  /-- it is known to be zeroed since its last holder -/
  zeroed : Bool := false
deriving DecidableEq, Repr

structure Migration where
  tenant : Nat
  src : Nat
  dst : Nat
  chunk : Nat := 0
deriving DecidableEq, Repr

/-- A request at a channel's inlet or in its queue (spec/10 R235): operation and command (0: no command's), source (16 · cluster +
FENCE mask bit of the stream; from 1536 the sources that are no CE stream), whether its command is an express one, its 64-byte
burst. -/
structure ChReq where
  op : Nat
  cmd : Nat
  src : Nat
  express : Bool
  burst : Nat
  /-- it reads; the bytes it moves (spec/09 R228) -/
  read : Bool := false
  bytes : Nat := 64
  /-- the beat at which it came to its inlet, and whether it has missed its deadline (spec/09 R232) -/
  issued : Nat := 0
  missed : Bool := false
  /-- a refresh has delayed it (spec/10 R241) -/
  delayed : Bool := false
deriving DecidableEq, Repr

/-- A channel controller (spec/10 R235, R236): its queue of up to 32 requests, first served first, the source its inlet served
last, and the open row of each bank, plus 1. -/
structure Chan where
  queue : List ChReq := []
  last : Nat := 0
  rows : SMap Nat := []
deriving DecidableEq, Repr

structure Memc where
  /-- requests at the channels' inlets, in order of arrival -/
  waiting : List ChReq := []
  /-- HBM channels 0-127, loft channels 128-159 -/
  chans : SMap Chan := []
  /-- the next word of each tier's scrub pass, by address ÷ 32 (spec/10 R246) -/
  scrubHbm : Nat := 0
  scrubLoft : Nat := 0
  /-- the timing set of each loft channel (spec/10 R248) -/
  chRate : SMap Nat := []
  /-- frames lost on a failed loft channel: frame, channel, site time (spec/09 R233, spec/10 R249); bytes of them written since -/
  lost : List (Nat × Nat × Nat) := []
  fresh : List Nat := []
  separate : Bool := true
  loftGib : Nat := 0
  tierTimeout : BitVec 16 := 0x07D0
  chFail : W32 := 0
  missRow : SMap Nat := []
  loftTimeouts : W64 := 0
  migDone : W64 := 0
  migAborts : W64 := 0
  frames : SMap Frame := []
  migs : List Migration := []
  hbmOrder : Nat := 2
  loftOrder : Nat := 2
  mapLock : Bool := false
  rateTarget : Nat := 0
  rateCurrent : Nat := 0
  rateBusy : Bool := false
  /-- TARGET was written and no change has started since; the rate of the change that runs -/
  rateAsked : Bool := false
  rateNext : Nat := 0
  rateChanges : W64 := 0
  hbmHours : Byte := 0x18
  loftHours : Byte := 0x18
  retireAt : Byte := 0x10
  eccCorr : W64 := 0
  eccUncorr : W64 := 0
  eccAddr : BitVec 48 := 0
  eccTier : Bool := false
  eccSource : Nat := 0
  eccValid : Bool := false
  retrain : W32 := 0
  /-- poisoned HBM words; loft words on which a migration failed (spec/09 R231): by address ÷ 32 -/
  poison : List Nat := []
  loftBad : List Nat := []
  /-- words that an error has spoiled, by address ÷ 32: the bad symbols of an HBM4 word, or how often the next reads of a loft word
  fail, 1 or 2 for more (spec/10 R243, R247) -/
  upset : SMap Nat := []
  /-- loft requests served past their deadlines whose commands have not failed yet: channel, request (spec/09 R232) -/
  late : List (Nat × ChReq) := []
  /-- refreshes postponed: key 32·channel + bank -/
  postponed : SMap Nat := []
deriving DecidableEq, Repr

/-! ### Fabric (spec/16) -/

structure Port where
  /-- 0 DARK, 1 TRAINING, 2 IDENT, 3 UP, 4 DEGRADED, 5 MISCABLED, 6 FAILED, 7 TEST -/
  state : Nat := 0
  narrow : Bool := false
  nbrPkg : Nat := 0
  nbrPort : Nat := 0
  replays : W64 := 0
  downs : W64 := 0
  frameReplays : Nat := 0
  good : Byte := 0xFF
  /-- taken out of the routes for a loop-back test (spec/16 R371) -/
  test : Bool := false
  /-- site time at which it became MISCABLED or FAILED (spec/16 R362) -/
  since : Nat := 0
deriving DecidableEq, Repr

structure Route where
  ports : Byte := 0
  hops : Nat := 0
  valid : Bool := false
deriving DecidableEq, Repr

/-- Messages of the fabric (spec/16 R361, R365), as sent or resent. -/
inductive Msg where
  /-- destination, the source's number and the sequence number of the pair, the frame of the command's dispatch, what it asks -/
  | sigr (pkg src seq frame cl ctr inc tenant gang : Nat)
  | barrier (pkg src seq tenant gang num beat : Nat)
  | remoteRead (pkg src seq frame tenant : Nat) (addrs : List Nat)
  | remoteWrite (pkg src seq frame tenant : Nat) (ws : List (Nat × Byte × Byte))
  /-- this end of a link in its identity exchange: port, yard ID, index, port number, identity hash (spec/01 R27) -/
  | ident (port : Nat) (yard : W32) (index : Nat) (hash : BitVec 512)
  | ready (pkg tenant gang beat : Nat) (epoch : W32)
  | kill (pkg tenant gang : Nat) (cause : GangCause)
  | presence (lo hi : Nat)
  | demand (pkg d f m : Nat)
  | division (b : Nat) (caps : List (Nat × Nat))
  | mirror (pkg : Nat) (handle : W64) (made : Bool)
  /-- the answer to a remote request, by package and pair and sequence number: bytes, or the fault (spec/07 R187) -/
  | reply (pkg src seq : Nat) (data : List Byte ⊕ Byte)
deriving DecidableEq, Repr

/-- What a source of another package asks of this one (spec/16 R364). -/
inductive FabReq where
  | req (tenant : Nat) (frame : W32) (r : RemoteReq)
  | signal (tenant gang cl ctr inc : Nat) (frame : W32)
  | barrier (tenant gang num : Nat) (beat : W32)
deriving DecidableEq, Repr

/-- A command's request that waits for a route: the package it goes to, and the site time at which the wait began (spec/16 R368). -/
structure RouteWait where
  cmd : Nat
  pkg : Nat
  since : Nat
deriving DecidableEq, Repr

/-- A write, a signal or an arrival sent and not yet acknowledged end to end: its command, its CE operation (0 for a sequencer's),
package, source and message; `lost` with a failed link and not yet resent (spec/16 R364, R369). -/
structure Unacked where
  cmd : Nat
  op : Nat
  pkg : Nat
  src : Nat
  msg : Msg
  lost : Bool := false
deriving DecidableEq, Repr

structure Fab where
  ports : SMap Port := []
  routes : SMap Route := []
  /-- routes computed, applied at the next frame boundary -/
  nextRoutes : Option (SMap Route) := none
  barLate : W64 := 0
  gangLate : W64 := 0
  sigDropped : W64 := 0
  routeWait : BitVec 16 := 0x000A
  outbox : List Msg := []
  /-- next sequence number of each pair, in and out: key 65536·package + source; sources are 16·cluster + FENCE mask bit of a CE
  stream, and 16·cluster + 15 for a sequencer -/
  seqIn : SMap Nat := []
  seqOut : SMap Nat := []
  /-- requests on an empty route -/
  waiting : List RouteWait := []
  /-- requests that came ahead of their turn: pair, sequence number, request (spec/16 R364) -/
  early : List (Nat × Nat × FabReq) := []
  /-- oldest first -/
  unacked : List Unacked := []
deriving DecidableEq, Repr

/-! ### Grooms and configuration (spec/18, spec/19) -/

/-- An image manifest (spec/18 R393) with its hash. -/
structure Image where
  cls : Nat
  version : W32
  svn : Nat
  steppings : W32
  hia : W32
  yard : W32
  peers : List (W32 × W32)
  /-- SHA-512 of the manifest: the measurement of spec/19 R407 -/
  hash : BitVec 512
deriving DecidableEq, Repr

structure Groom where
  /-- 0 STOPPED, 1 RUNNING, 2 RESTARTING, 3 TRIAL, 4 FAILING -/
  state : Nat := 0
  slotB : Bool := false
  version : W32 := 0
  restarts : W64 := 0
  wdog : BitVec 16 := 0x64
  /-- site times of recent watchdog expiries (spec/18 R392) -/
  expiries : List Nat := []
  running : Option Image := none
  measure : BitVec 512 := 0
  /-- its trial image has reported ready (spec/18 R399) -/
  ready : Bool := false
  /-- its core was reset and is not back in service (spec/18 R391) -/
  down : Bool := false
  /-- a refused fetch has faulted its core (spec/20 R431) -/
  faulted : Bool := false
deriving DecidableEq, Repr

/-- A stored configuration record (spec/18 R401): its bytes, SEQ and entries (tag, value). -/
structure Record where
  bytes : List Byte
  seq : W32
  entries : List (Nat × List Byte)
  /-- it was signed by an owner key that is no longer current (spec/19 R412) -/
  oldKey : Bool := false
deriving DecidableEq, Repr

structure Grm where
  grooms : SMap Groom := []
  updSrc : BitVec 48 := 0
  cfgSrc : BitVec 48 := 0
  updClass : Nat := 0
  updSet : BitVec 4 := 0
  /-- 0 IDLE, 1 BUSY, 2 TRIAL -/
  updState : Nat := 0
  stagedBits : BitVec 4 := 0
  updCode : BitVec 4 := 0
  probation : BitVec 12 := 0x3C
  /-- a class being staged, into slot B or A (spec/18 R394) -/
  staging : Option (Nat × Bool) := none
  /-- an activation accepted, waiting for its frame boundary -/
  activating : Bool := false
  trialSet : BitVec 4 := 0
  trialStartNs : Nat := 0
  /-- site time at which probation ends, once the last image is ready -/
  probEnd : Option Nat := none
  cfgBusy : Bool := false
  cfgCode : BitVec 4 := 0
  /-- SEQ of the base in effect (spec/18 R402) -/
  baseSeq : W32 := 0
  ovlNext : BitVec 4 := 0xF
  ovlFrame : W32 := 0
  /-- an accepted overlay switch: overlay number (0xF the base alone), and the frame it applies at (spec/18 R403) -/
  ovlSwitch : Option (Nat × W32) := none
  /-- the frame of the last overlay switch that applied -/
  ovlAt : Option Nat := none
  ovlCurrent : Nat := 0xF
  /-- the overlay in effect -/
  ovlRecord : Option Record := none
  ovlLate : Bool := false
  ovlNotLoaded : Bool := false
  base : Option Record := none
  /-- an accepted base that applies at the next frame boundary -/
  baseNext : Option Record := none
  overlays : SMap (Option Record) := []
  /-- the overlay in effect has new contents for the next frame boundary -/
  ovlRenew : Bool := false
  protoInUse : BitVec 16 := 0
  /-- a yard version is in use (spec/18 R398) -/
  protoSet : Bool := false
  excluded : Bool := false
deriving DecidableEq, Repr

structure Sec where
  bootMode : Nat := 0
  debug : Bool := false
  /-- 0 nothing, 1 recovery boot, 2 owner change, 3 debug unlock -/
  presence : Nat := 0
  romReject : Bool := false
  seed : BitVec 256 := 0
  vendorHash : BitVec 512 := 0
  owners : List (BitVec 512) := []
  /-- blown bits of the anti-rollback banks by class -/
  arb : SMap Nat := []
  jtagOff : Bool := false
  ownerDone : Bool := false
  ownerCode : BitVec 4 := 0
  ownerSrc : BitVec 48 := 0
  /-- the new owner key's hash of an armed owner change -/
  armHash : BitVec 512 := 0
  armBeat : Nat := 0
  idHash : BitVec 512 := 0
  /-- the clearing of spec/19 R419 runs -/
  clearing : Bool := false
  /-- a report begun and not yet written: function, the report (spec/19 R414) -/
  attRun : Option (Nat × List Byte) := none
  /-- a press that waits for SEC to be back in service (spec/19 R411) -/
  pressed : Bool := false
  /-- the next boot is a recovery boot (spec/15 R358) -/
  recNext : Bool := false
  /-- SEC runs an image that the ROM took from memory (spec/19 R408) -/
  romImage : Bool := false
  /-- a debug unlock takes effect once the reset has cleared the device (spec/19 R421) -/
  debugNext : Bool := false
deriving DecidableEq, Repr

/-! ### Flash (spec/20) -/

/-- Where a command sequence stands (spec/20 R425). -/
inductive FlsSeq where
  | read
  | unlock1
  | unlocked
  | program
  | bufCount (sector : Nat)
  | bufData (sector n : Nat) (words : List (Nat × W32))
  | erase
  | erase1
  | erase2
deriving DecidableEq, Repr

/-- An operation the die runs (spec/20 R428). -/
inductive FlsOp where
  | word (addr : Nat) (w : W32)
  | buffer (words : List (Nat × W32))
  | erase (sector : Nat)
deriving DecidableEq, Repr

/-- A step of SEC's own work on the die, by sector numbers before relocation (spec/20 R432-R436). -/
inductive FlsStep where
  /-- the journal entry of an erase: what it takes, and the entry itself with its SEQ -/
  | journal (n : Nat)
  | entry (n seq : Nat)
  | erase (n : Nat)
  /-- DONE of a sector's pending entry -/
  | mark (n : Nat)
  /-- on SEC's return: the pending entries, and one of them (spec/20 R435) -/
  | resume
  | settle (n : Nat)
  /-- a commit-record sector is erased if it holds a record -/
  | wipe (n : Nat)
  /-- contents from an offset on, programmed line by line from a first sector; their read back -/
  | fill (first off : Nat) (bs : List Byte)
  | check (first : Nat) (bs : List Byte)
  /-- a commit record for slot A or B, by the two slots' commit-record sectors -/
  | commit (a b : Nat) (second : Bool) (len : Nat) (hash : List Byte)
  /-- the rollback count of a class (spec/19 R413) -/
  | fuse (c svn : Nat)
  /-- the stored signatures (spec/22 R465) -/
  | sigs (bs : List Byte)
  | abandon
deriving DecidableEq, Repr

/-- What SEC's work on the die is for. -/
inductive FlsWhat where
  | stage (c : Nat) (b : Bool)
  | load (bs : List Byte)
  | health
  | trial
  | other
deriving DecidableEq, Repr

structure FlsJob where
  what : FlsWhat
  steps : List FlsStep
deriving DecidableEq, Repr

structure FlsRegion where
  first : BitVec 10 := 0
  last : BitVec 10 := 0
  fetch : BitVec 4 := 0
  valid : Bool := false
deriving DecidableEq, Repr

structure Fls where
  arr : SMap Byte := []
  busy : Bool := false
  done : Bool := false
  seqErr : Bool := false
  progErr : Bool := false
  progFail : Bool := false
  eraseFail : Bool := false
  xoHit : Bool := false
  busyHit : Bool := false
  wear : Bool := false
  op : Nat := 0
  sector : BitVec 10 := 0
  lock : Bool := false
  lastPulses : BitVec 7 := 0
  lastResult : Bool := false
  lastSector : BitVec 10 := 0
  wearCount : BitVec 10 := 0
  wearLast : BitVec 10 := 0
  usable : BitVec 10 := 543
  ring : BitVec 9 := 355
  xoAddr : BitVec 27 := 0
  denied : W64 := 0
  erases : W64 := 0
  xo : SMap FlsRegion := []
  seq : FlsSeq := .read
  run : Option FlsOp := none
  statusNext : Bool := false
  unusable : List Nat := []
  /-- highest pulses per sector -/
  pulses : SMap Nat := []
  reloc : SMap Nat := []
  /-- the health record's contents changed since the last write; a change that is written at once (spec/20 R436) -/
  healthDirty : Bool := false
  healthUrgent : Bool := false
  /-- site time of the last write of the health record -/
  healthNs : Option Nat := none
  /-- events of the health record, oldest first: site time, code, argument (spec/22 R470) -/
  events : List (Nat × Nat × Nat) := []
  /-- sectors with a failed program: 1, and 2 once re-erased, with the first address of that program (spec/20 R438) -/
  failedOnce : SMap (Nat × Nat) := []
  /-- SEC's work on the die, the first first; the operation that runs is a step of it -/
  jobs : List FlsJob := []
  mine : Bool := false
  /-- fetches that wait for the busy sector: groom class, array offset (spec/20 R430) -/
  fetches : List (Nat × Nat) := []
  /-- the log ring's next write: sector, offset (spec/20 R424) -/
  ringAt : Nat × Nat := (188, 0)
deriving DecidableEq, Repr

/-! ### Camera (spec/21) -/

/-- A sensor record (spec/21 R443). -/
structure SensRec where
  port : Nat := 0
  slot : Nat := 0
  vc : Nat := 0
  dt : Nat := 0
  cfa : Nat := 0
  stripes : Bool := false
  width : Nat := 0
  height : Nat := 0
  maxFps : Nat := 0
  latency : Nat := 0
  pedestal : Nat := 0
  fill : Nat := 0
  embOffset : Nat := 0
  i3c : Nat := 0
  workVa : Nat := 0
deriving DecidableEq, Repr

/-- A binding record (spec/21 R446). -/
structure BindRec where
  sensor : Nat
  kind : Nat
  tenant : Nat
  slots : Nat
  ringVa : Nat
  counter : Nat
  cluster : Nat
  vfmt : Nat
  outW : Nat
  outH : Nat
  crop : List Nat
  ab : List (BitVec 16)
deriving DecidableEq, Repr

/-- A delivery of a frame: the binding, its record at the frame's start, the SEQ it will have (spec/21 R449, R457). -/
structure CamDue where
  bind : Nat
  rcd : BindRec
  seq : W64
deriving DecidableEq, Repr

/-- A frame being assembled, or assembled and waiting (spec/21 R447-R455). Its lines are in the sensor's work area. -/
structure CamFrame where
  count : Nat
  /-- site time of its start's beat and its end's -/
  start : Nat
  endNs : Nat := 0
  /-- assembly frame 0 or 1 of the work area -/
  buf : Nat
  /-- lines written to the assembly frame, lines received -/
  lines : Nat := 0
  received : Nat := 0
  flags : BitVec 16 := 0
  lineErrors : Nat := 0
  emb : Option (BitVec 16) := none
  tag : BitVec 16 := 0
  /-- stripes the pipeline has run -/
  stripes : Nat := 0
  /-- the sensor's record and the deliveries, as they were at its start (spec/21 R457) -/
  sens : SensRec := {}
  binds : List CamDue := []
  /-- the draw of its picture and statistics, and its samples where a binding delivers them (spec/21 R447, R453) -/
  draw : Nat := 0
  raw : List Byte := []
deriving DecidableEq, Repr

structure Sensor where
  cfg : Option SensRec := none
  /-- a record that applies at the next frame start (spec/21 R457) -/
  next : Option (Option SensRec) := none
  /-- the virtual channel that the configuration names for it, were it DISABLED too (spec/21 R441) -/
  vc : Option Nat := none
  /-- STATE and CODE that it takes when its frame in progress ends -/
  after : Option (Nat × Byte) := none
  /-- 0 ABSENT, 1 PRESENT, 2 DISABLED -/
  state : Nat := 0
  code : Byte := 0
  tag : BitVec 16 := 0
  frames : W64 := 0
  truncated : W64 := 0
  overlong : W64 := 0
  lineErrors : W64 := 0
  crcErrors : W64 := 0
  skipped : W64 := 0
  cur : Option CamFrame := none
  /-- assembled frames not yet through the pipeline, oldest first -/
  waiting : List CamFrame := []
  /-- processed frames whose deliveries are due, those left -/
  out : List CamFrame := []
  frameNo : Nat := 0
  /-- tag writes, oldest first: frame number they belong to (a frame before the last presence: negative), tag -/
  writes : List (Int × BitVec 16) := []
  /-- site time of the last line or frame packet -/
  lastNs : Nat := 0
deriving DecidableEq, Repr

structure Binding where
  cfg : Option BindRec := none
  next : Option (Option BindRec) := none
  /-- 0 UNUSED, 1 ACTIVE, 2 REFUSED, 3 SUSPENDED -/
  state : Nat := 0
  sigDropped : Bool := false
  code : Byte := 0
  faults : BitVec 16 := 0
  seq : W64 := 0
deriving DecidableEq, Repr

structure CamPort where
  hpd : Bool := false
  link : Bool := false
  stray : Bool := false
deriving DecidableEq, Repr

structure Cam where
  ports : SMap CamPort := []
  sensors : SMap Sensor := []
  binds : SMap Binding := []
  rawMask : W64 := 0
deriving DecidableEq, Repr

/-! ### Farrier and board (spec/22, spec/23) -/

/-- A cluster in the health record (spec/22 R470): frame of the last pass, passes, intermittent results, disable cause. -/
structure ClusterHealth where
  lastPass : W32 := 0
  passes : BitVec 16 := 0
  inter : Byte := 0
  cause : Nat := 0
deriving DecidableEq, Repr

structure Far where
  /-- 0 IDLE, 1 DRAINING, 2 TESTING, 3 CLEARING -/
  state : Nat := 0
  cluster : Nat := 0
  startupDone : Bool := false
  nextCluster : Nat := 0
  nextTick : W32 := 0
  interval : Nat := 900
  lastCluster : Nat := 0
  lastPset : Nat := 0
  lastResult : Nat := 0
  lastTick : W32 := 0
  slices : W64 := 0
  intermittent : W64 := 0
  failed : W64 := 0
  abandoned : W64 := 0
  deferred : SMap W64 := []
  nosig : W64 := 0
  suspect : W64 := 0
  pcieLow : BitVec 16 := 0
  repeating : Bool := false
  /-- the tick at which the drain, the clear before the scan, or the last clear began; the result to be shown (spec/22 R462) -/
  stepAt : Nat := 0
  verdict : Nat := 0
  /-- ticks from which a loop-back test is due, and the port whose turn is next (spec/22 R469) -/
  loops : List Nat := []
  nextPort : Nat := 0
  /-- clusters at the front of the order, first first (spec/22 R460) -/
  front : List Nat := []
  /-- the cluster whose turn came last in ascending order -/
  turn : Nat := 0
  /-- the health record's figures per cluster -/
  health : SMap ClusterHealth := []
deriving DecidableEq, Repr

structure Board where
  /-- SYS_PWROK and PERST_N, high once reset is released (log entry 9) -/
  pwrok : Bool := true
  perst : Bool := true
  /-- the trip of spec/17 R387 holds THERMTRIP_N low -/
  tripped : Bool := false
  supplyFault : Bool := false
  /-- reset has been released and the boot has not run -/
  bootPending : Bool := true
  booted : Bool := false
  /-- VDD_AON is present -/
  aon : Bool := true
  /-- the trip is to be recorded in the health record at the next boot -/
  tripRecord : Bool := false
  refPresent : Bool := false
  vfEnable : Bool := false
deriving DecidableEq, Repr

/-- Halves of split 64-bit accesses, by function (spec/00 R9, R10): the held low word with its register's offset, and the
latched high words, each with its register's offset. -/
structure Latch where
  low : SMap (Option (Nat × W32)) := []
  high : SMap (List (Nat × W32)) := []
deriving DecidableEq, Repr

/-! ### The machine -/

/-- One package, with the queue of commands that wait and the draws of free values made. -/
structure State where
  pending : List Instr := []
  freeIx : Nat := 0
  mem : List Host.Cell := []
  hostMem : SMap Byte := []
  infl : List PWrite := []
  clusters : SMap Cluster := []
  cmds : Cmds := {}
  fns : SMap FnBlk := []
  tens : SMap Tenant := []
  serv : Serv := {}
  sched : Sched := {}
  tim : Tim := {}
  glb : Glb := {}
  pwr : Pwr := {}
  memc : Memc := {}
  fab : Fab := {}
  grm : Grm := {}
  sec : Sec := {}
  fls : Fls := {}
  cam : Cam := {}
  far : Far := {}
  board : Board := {}
  latch : Latch := {}
deriving DecidableEq, Repr

/-- The machine right after reset: every field at the value the spec states for reset, or at the value a log entry
names where the spec states none (log entries 2-9). -/
def State.reset : State := {}

end Sys2Proof.Machine
end

