-- ==== Sys2Proof/Machine/Table.lean ====
section
/-! DEFINITION. Sparse tables, bytes of memory and little-endian fields (spec/00 R12).
A table lists its entries with keys strictly rising and never lists the default, so equal tables are equal data. -/

namespace Sys2Proof.Machine

/-- The entry at `k`, the default `d` where none is listed. -/
def smGet (d : v) : SMap v → Nat → v
  | [], _ => d
  | (j, x) :: m, k => if j = k then x else if k < j then d else smGet d m k

/-- The table with `k` unlisted. -/
def smDel : SMap v → Nat → SMap v
  | [], _ => []
  | (j, x) :: m, k => if j = k then m else if k < j then (j, x) :: m else (j, x) :: smDel m k

/-- The table with `x` listed at `k`. -/
def smIns : SMap v → Nat → v → SMap v
  | [], k, x => [(k, x)]
  | (j, y) :: m, k, x =>
    if j = k then (k, x) :: m else if k < j then (k, x) :: (j, y) :: m else (j, y) :: smIns m k x

/-- The table holding `x` at `k`; the default removes the entry. -/
def smPut [DecidableEq v] (d : v) (m : SMap v) (k : Nat) (x : v) : SMap v :=
  if x = d then smDel m k else smIns m k x

/-- The entry at `k` replaced by its image. -/
def smMod [DecidableEq v] (d : v) (m : SMap v) (k : Nat) (f : v → v) : SMap v :=
  smPut d m k (f (smGet d m k))

/-- The canonical form: keys strictly rising, no default listed. -/
def smWf [DecidableEq v] (d : v) : SMap v → Bool
  | [] => true
  | [(_, x)] => !decide (x = d)
  | (j, x) :: (k, y) :: m => !decide (x = d) && decide (j < k) && smWf d ((k, y) :: m)

/-- Everything outside [lo, hi) kept. -/
def smCut (m : SMap v) (lo hi : Nat) : SMap v := m.filter fun e => !(decide (lo ≤ e.1) && decide (e.1 < hi))

/-- Everything inside [lo, hi) kept. -/
def smKeep (m : SMap v) (lo hi : Nat) : SMap v := m.filter fun e => decide (lo ≤ e.1) && decide (e.1 < hi)

/-- Every entry mapped; entries mapped to the default go. -/
def smMap [DecidableEq v] (d : v) (m : SMap v) (f : Nat → v → v) : SMap v :=
  (m.map fun e => (e.1, f e.1 e.2)).filter fun e => !decide (e.2 = d)

/-- Byte `a` of a memory; an unlisted byte reads 0 (log entry 3). -/
def memGet (m : SMap Byte) (a : Nat) : Byte := smGet 0 m a

/-- The memory with byte `a` written. -/
def memPut (m : SMap Byte) (a : Nat) (b : Byte) : SMap Byte := smPut 0 m a b

/-- Consecutive bytes written from `a` upward. -/
def memPuts (m : SMap Byte) (a : Nat) : List Byte → SMap Byte
  | [] => m
  | b :: bs => memPuts (memPut m a b) (a + 1) bs

/-- `n` consecutive bytes read from `a`. -/
def memGets (m : SMap Byte) (a n : Nat) : List Byte := (List.range n).map fun i => memGet m (a + i)

/-- Zeros over [a, a + n). -/
def memZero (m : SMap Byte) (a n : Nat) : SMap Byte := smCut m a (a + n)

/-- The bytes of [src, src + n) copied to [dst, dst + n); the ranges are disjoint wherever the rules use it. -/
def memMove (m : SMap Byte) (src dst n : Nat) : SMap Byte :=
  (smKeep m src (src + n)).foldl (fun a e => memPut a (dst + (e.1 - src)) e.2) (memZero m dst n)

/-- The canonical form of a memory. -/
abbrev Memory.wf (m : SMap Byte) : Prop := smWf (0 : Byte) m = true

/-- A natural number as `n` little-endian bytes. -/
def leBytes : Nat → Nat → List Byte
  | 0, _ => []
  | n + 1, x => BitVec.ofNat 8 x :: leBytes n (x / 256)

/-- The number that little-endian bytes hold. -/
def leNat : List Byte → Nat
  | [] => 0
  | b :: bs => b.toNat + 256 * leNat bs

/-- Bits hi:lo of a number. -/
def bits (x hi lo : Nat) : Nat := x / 2 ^ lo % 2 ^ (hi + 1 - lo)

/-- Bit i of a number. -/
def bitN (x i : Nat) : Bool := x / 2 ^ i % 2 == 1

/-- A Bool as a number. -/
def b2n (b : Bool) : Nat := if b then 1 else 0

/-- Bytes i to i + n − 1 of a list as a number. -/
def fieldN (bs : List Byte) (i n : Nat) : Nat := leNat ((bs.drop i).take n)

/-- Whether every byte of [i, j) of a list is 0. -/
def zerosN (bs : List Byte) (i j : Nat) : Bool := ((bs.drop i).take (j - i)).all (· == 0)

/-- A list padded with zeros to n bytes, cut at n. -/
def padTo (n : Nat) (bs : List Byte) : List Byte := (bs ++ List.replicate (n - bs.length) 0).take n

/-- The numbers of the set bits of a vector, rising. -/
def setBits {w : Nat} (m : BitVec w) : List Nat := (List.range w).filter fun i => m.getLsbD i

/-- Bit i of a vector set to b. -/
def putBit {w : Nat} (m : BitVec w) (i : Nat) (b : Bool) : BitVec w :=
  let one : BitVec w := BitVec.ofNat w (2 ^ i)
  if b then m ||| one else m &&& ~~~ one

/-- Bits hi:lo of m replaced by x. -/
def putBits {w : Nat} (m : BitVec w) (hi lo x : Nat) : BitVec w :=
  let k := 2 ^ (hi + 1 - lo)
  let o := m.toNat
  BitVec.ofNat w (o - (o / 2 ^ lo % k) * 2 ^ lo + (x % k) * 2 ^ lo)

/-- 64-bit saturating increment (spec/13 R294 STEPS, 32 bits there). -/
def satAdd {w : Nat} (x : BitVec w) (n : Nat) : BitVec w :=
  if x.toNat + n < 2 ^ w then BitVec.ofNat w (x.toNat + n) else BitVec.ofNat w (2 ^ w - 1)

/-- The last entry of a list that satisfies p. -/
def findLast (p : α → Bool) (l : List α) : Option α := l.reverse.find? p

/-- The first index of a list whose entry satisfies p. -/
def indexOf (p : α → Bool) : List α → Option Nat
  | [] => none
  | x :: xs => if p x then some 0 else (indexOf p xs).map (· + 1)

/-- Sum of a list of naturals. -/
def sumN : List Nat → Nat
  | [] => 0
  | x :: xs => x + sumN xs

/-- Whether the half-open ranges [a, a + m) and [b, b + n) share a byte. -/
def overlaps (a m b n : Nat) : Bool := decide (0 < m) && decide (0 < n) && decide (a < b + n) && decide (b < a + m)

end Sys2Proof.Machine
end

