-- ==== Sys2Proof/Machine/Number.lean ====
section
/-! DEFINITION. The twelve number formats: exact values, rounding, overflow, block formats, INT32, the stochastic generator,
and the bounds of the vector unit's functions (spec/03). -/

namespace Sys2Proof.Machine

/-- An exact value: a NaN, an infinity, or (−1)^neg · m · 2^e; a zero keeps its sign (spec/03 R59). -/
inductive Val where
  | nan
  | inf (neg : Bool)
  | fin (neg : Bool) (m : Nat) (e : Int)
deriving DecidableEq, Repr

/-- 2^k for an integer exponent, as a shift of a numerator: m·2^k for k ≥ 0, floor(m ÷ 2^−k) below. -/
def shiftN (m : Nat) (k : Int) : Nat := if 0 ≤ k then m * 2 ^ k.toNat else m / 2 ^ (-k).toNat

/-- The value as a signed integer multiple of 2^q, for q at or below its exponent. -/
def Val.scaled (q : Int) : Val → Int
  | .fin n m e => (if n then -1 else 1) * (shiftN m (e - q) : Int)
  | _ => 0

def Val.exp0 : Val → Int
  | .fin _ _ e => e
  | _ => 0

def Val.isNan : Val → Bool | .nan => true | _ => false
def Val.isInf : Val → Bool | .inf _ => true | _ => false
def Val.isZero : Val → Bool | .fin _ 0 _ => true | _ => false
def Val.neg : Val → Bool | .fin n _ _ => n | .inf n => n | .nan => false
def Val.negate : Val → Val | .fin n m e => .fin (!n) m e | .inf n => .inf (!n) | .nan => .nan

/-- An integer as a value. -/
def Val.ofInt (i : Int) (e : Int) : Val := .fin (decide (i < 0)) i.natAbs e

/-- Exact product; infinity times zero is NaN (spec/03 R75). -/
def Val.mul : Val → Val → Val
  | .nan, _ => .nan
  | _, .nan => .nan
  | .inf a, .inf b => .inf (a != b)
  | .inf a, .fin b m _ => if m = 0 then .nan else .inf (a != b)
  | .fin a m _, .inf b => if m = 0 then .nan else .inf (a != b)
  | .fin a m e, .fin b n f => .fin (a != b) (m * n) (e + f)

/-- Exact sum; infinities of opposite sign give NaN; an exact zero of unlike signs is +0. -/
def Val.add : Val → Val → Val
  | .nan, _ => .nan
  | _, .nan => .nan
  | .inf a, .inf b => if a = b then .inf a else .nan
  | .inf a, _ => .inf a
  | _, .inf b => .inf b
  | .fin a m e, .fin b n f =>
    let q := if e ≤ f then e else f
    let x := (Val.fin a m e).scaled q + (Val.fin b n f).scaled q
    if x = 0 then .fin (a && b) 0 0 else .ofInt x q

/-- Exact sum of a list, from +0 upward. -/
def Val.sum : List Val → Val
  | [] => .fin false 0 0
  | [x] => x
  | x :: xs => x.add (Val.sum xs)

/-- Order of two finite or infinite values: whether a < b, zeros equal. -/
def Val.lt : Val → Val → Bool
  | .nan, _ => false
  | _, .nan => false
  | .inf a, .inf b => a && !b
  | .inf a, _ => a
  | _, .inf b => !b
  | .fin a m e, .fin b n f =>
    let q := if e ≤ f then e else f
    decide ((Val.fin a m e).scaled q < (Val.fin b n f).scaled q)

def Val.eqv (a b : Val) : Bool := !a.isNan && !b.isNan && !a.lt b && !b.lt a

/-! ### Formats (spec/03 R53-R58) -/

def fmtWidth : Nat → Nat
  | 0 => 32 | 1 => 16 | 2 => 16 | 3 => 8 | 4 => 8 | 5 => 6 | 6 => 6 | 7 => 4 | 8 => 8 | 9 => 4 | 10 => 8 | 11 => 4
  | _ => 8
def fmtValid (f : Nat) : Bool := decide (f < 12)
def fmtFloat (f : Nat) : Bool := decide (f < 8)
def fmtInt (f : Nat) : Bool := f == 8 || f == 9
def fmtBlock (f : Nat) : Bool := f == 10 || f == 11
/-- Operand class: 0 16-bit, 1 8-bit, 2 ≤6-bit, 3 none (spec/03 R53). -/
def fmtClass : Nat → Nat
  | 0 => 3 | 1 => 0 | 2 => 0 | 3 => 1 | 4 => 1 | 5 => 2 | 6 => 2 | 7 => 2 | 8 => 1 | 9 => 2 | 10 => 1 | 11 => 2 | _ => 3
def expBits : Nat → Nat
  | 0 => 8 | 1 => 8 | 2 => 5 | 3 => 5 | 4 => 4 | 5 => 3 | 6 => 2 | _ => 2
def manBits : Nat → Nat
  | 0 => 23 | 1 => 7 | 2 => 10 | 3 => 2 | 4 => 3 | 5 => 2 | 6 => 3 | _ => 1
def fmtBias : Nat → Int
  | 0 => 127 | 1 => 127 | 2 => 15 | 3 => 15 | 4 => 7 | 5 => 3 | 6 => 1 | _ => 1
/-- The formats with infinities (spec/03 R58). -/
def fmtHasInf (f : Nat) : Bool := decide (f < 4)

/-- Largest finite exponent and mantissa fields (spec/03 R58). -/
def maxExp (f : Nat) : Nat := if fmtHasInf f then 2 ^ expBits f - 2 else 2 ^ expBits f - 1
def maxMan (f : Nat) : Nat := if f = 4 then 6 else 2 ^ manBits f - 1

/-- Exponent of the last place of a subnormal. -/
def minPlace (f : Nat) : Int := 1 - fmtBias f - manBits f

/-- The value of a floating element's bits (spec/03 R55, R58). -/
def floatVal (f x : Nat) : Val :=
  let m := manBits f
  let M := x % 2 ^ m
  let E := x / 2 ^ m % 2 ^ expBits f
  let S := x / 2 ^ (m + expBits f) % 2 == 1
  if fmtHasInf f && E == 2 ^ expBits f - 1 then (if M = 0 then .inf S else .nan)
  else if f == 4 && E == 15 && M == 7 then .nan
  else if E = 0 then .fin S M (minPlace f)
  else .fin S (2 ^ m + M) ((E : Int) - fmtBias f - m)

/-- The value of an element: its bits, and the scale of its block for a block format (spec/03 R55, R60). -/
def elemVal (f x scale : Nat) : Val :=
  if fmtFloat f then floatVal f x
  else if fmtBlock f then (if scale = 255 then .nan else .ofInt (sext (fmtWidth f) x) ((scale : Int) - 127))
  else .ofInt (sext (fmtWidth f) x) 0

/-! ### Rounding (spec/03 R62-R65, R69) -/

/-- Nearest even, or stochastic with a 16-bit draw. -/
inductive Rounding where
  | nearest
  | draw (r : Nat)
deriving DecidableEq, Repr

/-- The magnitude m ÷ 2^k of a value of sign `neg` rounded to an integer. A stochastic rounding measures from the lower of the
two neighbours as signed values, which for a negative value is the larger magnitude (spec/03 R69). -/
def roundShift (r : Rounding) (neg : Bool) (m k : Nat) : Nat :=
  let q := m / 2 ^ k
  let rem := m % 2 ^ k
  if rem = 0 then q else
    match r with
    | .nearest => if 2 * rem < 2 ^ k then q else if 2 ^ k < 2 * rem then q + 1 else q + q % 2
    | .draw d =>
      if neg then (if 65536 ≤ (2 ^ k - rem) * 65536 / 2 ^ k + d then q else q + 1)
      else if 65536 ≤ rem * 65536 / 2 ^ k + d then q + 1 else q

/-- m·2^e of sign `neg` rounded to a multiple of 2^u: the multiple. -/
def roundPlace (r : Rounding) (neg : Bool) (m : Nat) (e u : Int) : Nat :=
  if u ≤ e then m * 2 ^ (e - u).toNat else roundShift r neg m (u - e).toNat

/-- Sign bit of a format's element. -/
def signBit (f : Nat) (n : Bool) : Nat := if n then 2 ^ (manBits f + expBits f) else 0

/-- The canonical NaN (spec/03 R59). -/
def nanBits (f : Nat) : Nat :=
  match f with | 0 => 0x7FC00000 | 1 => 0x7FC0 | 2 => 0x7E00 | 3 => 0x7E | 4 => 0x7F | _ => 0

def infBits (f : Nat) (n : Bool) : Nat := signBit f n + (2 ^ expBits f - 1) * 2 ^ manBits f
def maxBits (f : Nat) (n : Bool) : Nat := signBit f n + maxExp f * 2 ^ manBits f + maxMan f

/-- A conversion's result: the element's bits, whether it saturated, whether a NaN became +0 (spec/03 R66). -/
structure Conv where
  bits : Nat
  sat : Bool := false
  nanz : Bool := false
deriving DecidableEq, Repr

/-- The result of an overflow into a floating format by the OVF table (spec/03 R64). -/
def overflow (f ovf : Nat) (n : Bool) : Conv :=
  if fmtHasInf f then (if ovf = 1 then { bits := maxBits f n, sat := true } else { bits := infBits f n })
  else if f = 4 ∧ ovf = 2 then { bits := nanBits 4 }
  else { bits := maxBits f n, sat := true }

/-- A value rounded once into a floating format (spec/03 R62-R65). -/
def toFloat (r : Rounding) (f ovf : Nat) : Val → Conv
  | .nan => if f ≤ 4 then { bits := nanBits f } else { bits := 0, nanz := true }
  | .inf n => overflow f ovf n
  | .fin n m e =>
    if m = 0 then { bits := signBit f n } else
      let place := (m.log2 : Int) + e - manBits f
      let u := if place < minPlace f then minPlace f else place
      let q := roundPlace r n m e u
      -- a carry out of the mantissa moves to the next exponent
      let (q, u) := if 2 ^ (manBits f + 1) ≤ q then (q / 2, u + 1) else (q, u)
      if q < 2 ^ manBits f then { bits := signBit f n + q }
      else
        let E := (u - minPlace f + 1).toNat
        let M := q - 2 ^ manBits f
        if maxExp f < E ∨ (E = maxExp f ∧ maxMan f < M) then overflow f ovf n
        else { bits := signBit f n + E * 2 ^ manBits f + M }

/-- A value rounded to the nearest integer and saturated to [lo, hi]: the integer, saturated, NaN made 0. -/
def toInt (r : Rounding) (lo hi : Int) : Val → Int × Bool × Bool
  | .nan => (0, false, true)
  | .inf n => (if n then lo else hi, true, false)
  | .fin n m e =>
    let q : Int := roundPlace r n m e 0
    let v := if n then -q else q
    if v < lo then (lo, true, false) else if hi < v then (hi, true, false) else (v, false, false)

/-- An integer's low w bits. -/
def intBits (w : Nat) (i : Int) : Nat := (i % (2 ^ w : Nat)).toNat

/-- A value into a floating or integer format (spec/03 R62-R65). -/
def toFmt (r : Rounding) (f ovf : Nat) (v : Val) : Conv :=
  if fmtFloat f then toFloat r f ovf v
  else
    let w := fmtWidth f
    let x := toInt r (-(2 ^ (w - 1) : Nat)) ((2 ^ (w - 1) : Nat) - 1) v
    { bits := intBits w x.1, sat := x.2.1, nanz := x.2.2 }

/-- INT32 (spec/03 R484). -/
def toInt32 (r : Rounding) (v : Val) : Conv :=
  let x := toInt r (-2147483648) 2147483647 v
  { bits := intBits 32 x.1, sat := x.2.1, nanz := x.2.2 }

/-! ### Block formats (spec/03 R60, R61, R67) -/

/-- floor(log₂ |v|) of a nonzero finite value. -/
def Val.log2 : Val → Int
  | .fin _ m e => (m.log2 : Int) + e
  | _ => 0

/-- Scale of a block of values for element width b: none when a NaN makes the whole block NaN (spec/03 R67). -/
def blockScale (b : Nat) (vs : List Val) : Nat :=
  if vs.any Val.isNan then 255
  else if vs.any Val.isInf then 254
  else
    let nz := vs.filter fun v => !v.isZero
    match nz with
    | [] => 0
    | v :: rest =>
      let top := rest.foldl (fun a x => if a < x.log2 then x.log2 else a) v.log2
      let sc := top - ((b : Int) - 2) + 127
      if sc < 0 then 0 else if 254 < sc then 254 else sc.toNat

/-- One element of a block at a scale (spec/03 R67 step 5). -/
def blockElem (r : Rounding) (b scale : Nat) (v : Val) : Conv :=
  if scale = 255 then { bits := 0 } else
    let h : Int := (2 ^ (b - 1) : Nat) - 1
    let x := match v with
      | .fin n m e => toInt r (-h) h (.fin n m (e - ((scale : Int) - 127)))
      | .inf n => (if n then -h else h, true, false)
      | .nan => (0, false, false)
    { bits := intBits b x.1, sat := x.2.1 }

/-- A block of values encoded: its scale and its elements. -/
def toBlock (rs : Nat → Rounding) (f : Nat) (vs : List Val) : Nat × List Conv :=
  let b := fmtWidth f
  let sc := blockScale b vs
  (sc, vs.zipIdx.map fun x => blockElem (rs x.2) b sc x.1)

/-! ### Lanes -/

/-- An FP32 pattern's value, and an INT32 pattern's. -/
def f32 (x : W32) : Val := floatVal 0 x.toNat
def i32 (x : W32) : Val := .ofInt x.toInt 0
/-- A value rounded to nearest into FP32, overflow to infinity. -/
def r32 (v : Val) : W32 := BitVec.ofNat 32 (toFloat .nearest 0 0 v).bits

def fadd (a b : W32) : W32 := r32 ((f32 a).add (f32 b))
def fsub (a b : W32) : W32 := r32 ((f32 a).add (f32 b).negate)
def fmul (a b : W32) : W32 := r32 ((f32 a).mul (f32 b))
/-- a × b + c with one rounding (spec/03 R76). -/
def ffma (a b c : W32) : W32 := r32 (((f32 a).mul (f32 b)).add (f32 c))

/-- Maximum and minimum on FP32 lanes: NaN when either is NaN, −0 below +0 (spec/06 R156). -/
def fmax (a b : W32) : W32 :=
  if (f32 a).isNan || (f32 b).isNan then 0x7FC00000
  else if (f32 a).lt (f32 b) then b else if (f32 b).lt (f32 a) then a
  else if (f32 a).neg then b else a
def fmin (a b : W32) : W32 :=
  if (f32 a).isNan || (f32 b).isNan then 0x7FC00000
  else if (f32 a).lt (f32 b) then a else if (f32 b).lt (f32 a) then b
  else if (f32 a).neg then a else b

/-! ### Stochastic generator (spec/03 R70) -/

/-- One step of the xorshift generator. -/
def genStep (x : W32) : W32 :=
  let a := x ^^^ (x <<< 13)
  let b := a ^^^ (a >>> 17)
  b ^^^ (b <<< 5)

/-- The state after n steps. -/
def genSteps (x : W32) : Nat → W32
  | 0 => x
  | n + 1 => genSteps (genStep x) n

/-- The draw of a state. -/
def genDraw (x : W32) : Nat := x.toNat / 65536

/-- The states of n successive steps. -/
def genList (x : W32) : Nat → List W32
  | 0 => []
  | n + 1 => genStep x :: genList (genStep x) n

/-! ### Bounds of the vector unit (spec/03 R76) -/

/-- Absolute difference of two finite values as a value. -/
def Val.dist (a b : Val) : Val :=
  match a.add b.negate with | .fin _ m e => .fin false m e | x => x

/-- a ≤ b for values that are not NaN. -/
def Val.le (a b : Val) : Bool := !a.isNan && !b.isNan && !b.lt a

/-- One unit in the last place of an exact nonzero result in FP32. -/
def ulp32 (v : Val) : Val :=
  let p := v.log2 - 23
  .fin false 1 (if v.isZero || p < -149 then -149 else p)

def Val.times (k : Nat) : Val → Val
  | .fin n m e => .fin n (k * m) e
  | x => x

/-- A free FP32 pattern within `bound` of the exact value, else the exact value correctly rounded: every result the bound
allows can come out (spec/03 R76, R77). The pattern of infinity stands for 2¹²⁸. -/
def boundedFree (r : Nat) (exact bound : Val) : W32 :=
  let x : W32 := BitVec.ofNat 32 r
  let v := match f32 x with | .inf n => Val.fin n 1 128 | y => y
  if !v.isNan && (v.dist exact).le bound then x else r32 exact

/-- Integer square root by n bits, from the highest. -/
def isqrt (x : Nat) : Nat → Nat → Nat
  | 0, a => a
  | n + 1, a => if (a + 2 ^ n) * (a + 2 ^ n) ≤ x then isqrt x n (a + 2 ^ n) else isqrt x n a

/-- Fixed-point bits of the approximations below; their error is far below one part in 2¹⁰⁰. -/
def fixBits : Nat := 400

/-- exp(y) − series in fixed point, for 0 ≤ y < 1 scaled by 2^fixBits: n terms. -/
def expSeries (y : Nat) : Nat → Nat → Nat → Nat
  | 0, _, _ => 0
  | n + 1, k, term => term + expSeries y n (k + 1) (term * y / 2 ^ fixBits / k)

/-- Squared n times in fixed point. -/
def squareN : Nat → Nat → Nat
  | 0, x => x
  | n + 1, x => squareN n (x * x / 2 ^ fixBits)

/-- exp(|x|) for |x| ≤ 128, scaled by 2^fixBits. -/
def expFix (m : Nat) (e : Int) : Nat :=
  let y := shiftN m (e + fixBits - 8)
  squareN 8 (expSeries y 70 1 (2 ^ fixBits))

/-- |x| limited to 128. -/
def clamp128 (m : Nat) (e : Int) : Nat × Int :=
  if Val.lt (.fin false 1 7) (.fin false m e) then (1, 7) else (m, e)

/-- exp of a finite value, as an exact value to far beyond FP32 precision. -/
def expVal (n : Bool) (m : Nat) (e : Int) : Val :=
  let c := clamp128 m e
  let x := expFix c.1 c.2
  if n then .fin false (2 ^ (2 * fixBits) / x) (-fixBits) else .fin false x (-fixBits)

/-- 1 ÷ x of a nonzero finite value, with a sticky bit. -/
def recipVal (n : Bool) (m : Nat) (e : Int) : Val :=
  let q := 2 ^ fixBits / m
  .fin n (2 * q + (if 2 ^ fixBits % m = 0 then 0 else 1)) (-e - fixBits - 1)

/-- 1 ÷ √x of a positive finite value, with a sticky bit. -/
def rsqrtVal (m : Nat) (e : Int) : Val :=
  -- 1 ÷ (m·2^e) = N·2^(−2k) with N a natural
  let k := fixBits
  let par := (e % 2).toNat
  let N := 2 ^ (2 * k + 2) / (m * 2 ^ par)
  let r := isqrt N 500 0
  let exact := r * r == N && 2 ^ (2 * k + 2) % (m * 2 ^ par) == 0
  .fin false (2 * r + (if exact then 0 else 1)) (-((e - par) / 2) - k - 2)

/-- tanh of a finite value: (E − 1) ÷ (E + 1) with E = exp(2|x|). -/
def tanhVal (n : Bool) (m : Nat) (e : Int) : Val :=
  let c := clamp128 m (e + 1)
  let x := expFix c.1 c.2
  .fin n ((x - 2 ^ fixBits) * 2 ^ fixBits / (x + 2 ^ fixBits)) (-fixBits)

/-- 1 ÷ (1 + exp(−x)). -/
def sigmoidVal (n : Bool) (m : Nat) (e : Int) : Val :=
  match expVal (!n) m e with
  | .fin _ y f => .fin false (2 ^ (2 * fixBits) / (2 ^ fixBits + shiftN y (f + fixBits))) (-fixBits)
  | x => x

/-- The larger of two bounds. -/
def Val.max (a b : Val) : Val := if a.lt b then b else a

/-- The special functions on a finite lane: 0 exp, 1 reciprocal, 2 reciprocal square root, 3 tanh, 4 sigmoid: the exact
value and its bound; none where the table gives no value (spec/03 R76, log entry 18). -/
def specialFn (k : Nat) : Val → Option (Val × Val)
  | .fin n m e =>
    match k with
    | 0 => let v := expVal n m e; some (v, (ulp32 v).times 2)
    | 1 => if m = 0 then none else let v := recipVal n m e; some (v, ulp32 v)
    | 2 => if m = 0 ∨ n = true then none else let v := rsqrtVal m e; some (v, (ulp32 v).times 2)
    | 3 => let v := tanhVal n m e; some (v, ((ulp32 v).times 4).max (.fin false 1 (-22)))
    | 4 => let v := sigmoidVal n m e; some (v, ((ulp32 v).times 4).max (.fin false 1 (-22)))
    | _ => none
  | _ => none

/-- A pattern, the canonical NaN where it is any NaN (spec/03 R59). -/
def canonNan (x : W32) : W32 := if (f32 x).isNan then 0x7FC00000 else x

/-- A special function of a lane with the free natural r. -/
def specialLane (k r : Nat) (x : W32) : W32 :=
  match specialFn k (f32 x) with
  | some (v, b) => boundedFree r v b
  | none => canonNan (BitVec.ofNat 32 r)

/-- γ₈ × Σ|xᵢ| as a bound: 8 ÷ (2²⁴ − 8) of the sum, rounded down far below FP32 precision (spec/03 R74, R76). -/
def gamma8 (total : Val) : Val :=
  match total with
  | .fin _ m e => .fin false (8 * m * 2 ^ 100 / (2 ^ 24 - 8)) (e - 100)
  | x => x

/-- The sum of lanes: within γ₈ × Σ|xᵢ| of the exact sum, freely; a NaN, or infinities of both signs, give NaN, one sign
of infinity gives it. -/
def sumLanes (r : Nat) (xs : List W32) : W32 :=
  let vs := xs.map f32
  let t := Val.sum vs
  match t with
  | .fin _ _ _ => boundedFree r t (gamma8 (Val.sum (vs.map fun v => match v with | .fin _ m e => .fin false m e | y => y)))
  | .inf n => BitVec.ofNat 32 (infBits 0 n)
  | .nan => 0x7FC00000

end Sys2Proof.Machine
end

