-- ==== Sys2Proof/Config.lean ====
section
/-! DEFINITION. What an implementation fixes, and the free values of the model.
A free value is an opaque constant without a body: nothing can evaluate it, so a theorem about it holds whatever it is
(log entry 2). Every use names the rule that leaves the value open. -/

namespace Sys2Proof.Config

/-- The free naturals. The first argument is the draw's number (State.freeIx), the second an index inside the draw.
Used wherever the spec leaves a value or a choice open (log entry 2). -/
opaque freeNat : Nat → Nat → Nat

/-- The byte another package answers for a remote read: package, address, draw (spec/07 R185; log entry 14). -/
opaque remoteByte : Nat → Nat → Nat → BitVec 8

/-- Whether the owner package reports a fault for a remote read: package, address, draw (spec/07 R187; log entry 14). -/
opaque remoteFault : Nat → Nat → Nat → Bool

/-- Womoro's Vendor ID, whose number the spec does not give (spec/15 R336). -/
opaque vendorId : BitVec 16

/-- Whether a shared counter of another package is assigned to another tenant space: package, cluster, counter, draw (spec/05
R107; log entry 40). -/
opaque farTag : Nat → Nat → Nat → Nat → Bool

/-- The configured symbol rate of a camera port's trios, in symbols per second: no tag of the configuration gives it (spec/21 R440,
R445; log entry 35). -/
opaque camSymbols : Nat → Nat

/-- What a byte of a lost frame reads as until it is written: when it was lost, address (spec/10 R249). -/
opaque lostByte : Nat → Nat → BitVec 8

/-- The HMAC-SHA-512 output from which the identity key is derived, as a big-endian integer: a function of SEED whose message
the spec does not give and which no one outside the tack room reads (spec/19 R409; log entry 34). -/
opaque idHmac : BitVec 256 → BitVec 512

/-- The table of signatures that a SEC image's code carries; where it stands and its layout are not stated (spec/22 R465; log
entry 95). -/
opaque signatureTable : List (BitVec 8) → List (BitVec 8)

/-- Ticks in a frame (spec/02 R34). -/
def ticksPerFrame : Nat := 80
/-- Beats in a tick (spec/02 R34). -/
def beatsPerTick : Nat := 125
/-- Nanoseconds in a beat (spec/02 R34). -/
def nsPerBeat : Nat := 1000

/-- Region clock of an operating point, in cycles per beat of 1 µs (spec/17 R373). -/
def cyclesPerBeat : Nat → Nat
  | 0 => 600 | 1 => 750 | 2 => 900 | 3 => 1000 | 4 => 1100 | 5 => 1220 | 6 => 1320 | _ => 1400

/-- Region voltage of an operating point, in millivolts (spec/17 R373). -/
def regionMv : Nat → Nat
  | 0 => 620 | 1 => 650 | 2 => 680 | 3 => 710 | 4 => 740 | 5 => 770 | 6 => 810 | _ => 850

/-- Core rail target of a die whose highest region voltage is `mv`: 0.03 V above, clamped to 0.58–0.88 V (spec/17 R373). -/
def railTarget (mv : Nat) : Nat := max 580 (min 880 (mv + 30))

end Sys2Proof.Config
end

