-- ==== Sys2Proof/Machine/Base.lean ====
section
/-! DEFINITION. Status codes, units of site time, access to the blocks of the state, and free draws: what every operation rests on. -/

namespace Sys2Proof.Machine

/-- What a command answers. -/
abbrev Out := Host.Outcome State Fault Refusal

/-! ### Status codes (spec/15 R353) -/

def stOk : Byte := 0x00
def stEpoch : Byte := 0x01
def stDropped : Byte := 0x02
def stAlreadyDone : Byte := 0x03
def stAborted : Byte := 0x10
def fTranslation : Byte := 0x20
def fPermission : Byte := 0x21
def fInstruction : Byte := 0x22
def fFormat : Byte := 0x23
def fOverlap : Byte := 0x24
def fStreamCheck : Byte := 0x25
def fStreamSize : Byte := 0x26
def fTier : Byte := 0x27
def fEcc : Byte := 0x28
def fRemote : Byte := 0x29
def fDeadline : Byte := 0x2A
def fAlias : Byte := 0x2B
def rVersion : Byte := 0x30
def rQuota : Byte := 0x31
def rOffline : Byte := 0x33

/-! ### Clocks and reset (spec/17 R387, spec/23 R475) -/

/-- The device is out of reset with its clocks running. -/
def State.alive (s : State) : Bool := s.board.pwrok && s.board.perst && !s.board.tripped && !s.board.supplyFault

/-- An event on a device that is out of reset; any other leaves the state unchanged (log entry 11). -/
def whenAlive (s t : State) : Out := if s.alive then .next t else .next s

/-- The held low word of a function (spec/00 R10). -/
def State.setLow (s : State) (f : Nat) (x : Option (Nat × W32)) : State :=
  { s with latch := { s.latch with low := smPut none s.latch.low f x } }

/-- A register write by function f with a row of its own: it discards the function's held low word (spec/00 R10). -/
def whenHost (f : Nat) (s : State) (k : State → State) : Out :=
  if s.alive then .next (k (s.setLow f none)) else .next s

/-! ### Units of site time (spec/02 R34) -/

def State.beat (s : State) : Nat := s.tim.ns / 1000
def State.tick (s : State) : Nat := s.tim.ns / 125000
def State.frame (s : State) : Nat := s.tim.ns / 10000000
/-- The current beat is the first of a tick, of a frame. -/
def State.tickEdge (s : State) : Bool := s.beat % 125 == 0
def State.frameEdge (s : State) : Bool := s.beat % 10000 == 0

/-! ### Blocks of the state -/

def State.cl (s : State) (g : Nat) : Cluster := smGet {} s.clusters g
def State.setCl (s : State) (g : Nat) (c : Cluster) : State := { s with clusters := smPut {} s.clusters g c }
def State.modCl (s : State) (g : Nat) (f : Cluster → Cluster) : State := s.setCl g (f (s.cl g))
def State.fn (s : State) (f : Nat) : FnBlk := smGet {} s.fns f
def State.setFn (s : State) (f : Nat) (b : FnBlk) : State := { s with fns := smPut {} s.fns f b }
def State.modFn (s : State) (f : Nat) (g : FnBlk → FnBlk) : State := s.setFn f (g (s.fn f))
def State.queue (s : State) (f q : Nat) : Queue := smGet {} (s.fn f).queues q
def State.setQueue (s : State) (f q : Nat) (x : Queue) : State :=
  s.modFn f fun b => { b with queues := smPut {} b.queues q x }
def State.modQueue (s : State) (f q : Nat) (g : Queue → Queue) : State := s.setQueue f q (g (s.queue f q))
def State.ten (s : State) (t : Nat) : Tenant := smGet {} s.tens t
def State.setTen (s : State) (t : Nat) (x : Tenant) : State := { s with tens := smPut {} s.tens t x }
def State.modTen (s : State) (t : Nat) (g : Tenant → Tenant) : State := s.setTen t (g (s.ten t))
def State.ctx (s : State) (x : Nat) : Ctx := smGet {} s.serv.ctxs x
def State.setCtx (s : State) (x : Nat) (c : Ctx) : State :=
  { s with serv := { s.serv with ctxs := smPut {} s.serv.ctxs x c } }
def State.modCtx (s : State) (x : Nat) (g : Ctx → Ctx) : State := s.setCtx x (g (s.ctx x))
def State.acct (s : State) (a : Nat) : Account := smGet {} s.serv.accts a
def State.setAcct (s : State) (a : Nat) (x : Account) : State :=
  { s with serv := { s.serv with accts := smPut {} s.serv.accts a x } }
def State.region (s : State) (r : Nat) : Region := smGet {} s.pwr.regions r
def State.setRegion (s : State) (r : Nat) (x : Region) : State :=
  { s with pwr := { s.pwr with regions := smPut {} s.pwr.regions r x } }
def State.port (s : State) (p : Nat) : Port := smGet {} s.fab.ports p
def State.setPort (s : State) (p : Nat) (x : Port) : State :=
  { s with fab := { s.fab with ports := smPut {} s.fab.ports p x } }
def State.route (s : State) (d : Nat) : Route := smGet {} s.fab.routes d
def State.groom (s : State) (c : Nat) : Groom := smGet {} s.grm.grooms c
def State.setGroom (s : State) (c : Nat) (x : Groom) : State :=
  { s with grm := { s.grm with grooms := smPut {} s.grm.grooms c x } }
/-- A layout with the TABLE_MASK of a frame: a change applies at its frame boundary (spec/12 R283). -/
def LayoutRec.atFrame (l : LayoutRec) (frame : Nat) : LayoutRec :=
  match l.maskNext with
  | some (f, m) => if f ≤ frame then { l with mask := m, maskNext := none } else l
  | none => l
def State.layout (s : State) (t l : Nat) : Option LayoutRec := (smGet none (s.ten t).layouts l).map (·.atFrame s.frame)
def State.setLayout (s : State) (t l : Nat) (x : Option LayoutRec) : State :=
  s.modTen t fun n => { n with layouts := smPut none n.layouts l x }
def State.gate (s : State) (t g : Nat) : Option GateRec := smGet none (s.ten t).gates g
def State.setGate (s : State) (t g : Nat) (x : Option GateRec) : State :=
  s.modTen t fun n => { n with gates := smPut none n.gates g x }
def State.tset (s : State) (t n : Nat) : Option TableSet := smGet none (s.ten t).tsets n
def State.send (s : State) (m : Msg) : State := { s with fab := { s.fab with outbox := s.fab.outbox ++ [m] } }

/-- The sequencer of a cluster, as a source of a pair (spec/16 R364). -/
def srcSeq (g : Nat) : Nat := 16 * g + 15
/-- A request sent to another package with the next number of its pair (spec/16 R364). -/
def State.sendTo (s : State) (pkg src : Nat) (m : Nat → Msg) : State :=
  let k := smGet 0 s.fab.seqOut (65536 * pkg + src)
  let s1 := s.send (m k)
  { s1 with fab := { s1.fab with seqOut := smPut 0 s1.fab.seqOut (65536 * pkg + src) (k + 1) } }

/-- One that its origin keeps until it is acknowledged, to resend it (spec/16 R369). -/
def State.sendSure (s : State) (cmd op pkg src : Nat) (m : Nat → Msg) : State :=
  let s1 := s.sendTo pkg src m
  { s1 with fab := { s1.fab with
    unacked := s1.fab.unacked ++ [{ cmd, op, pkg, src, msg := m (smGet 0 s.fab.seqOut (65536 * pkg + src)) }] } }

/-- Region of a cluster and die of a cluster (spec/01 R21). -/
def regionOf (g : Nat) : Nat := g / 12
def dieOf (g : Nat) : Nat := g / 48

/-- A disabled cluster (spec/01 R22), a stabled or waking region (spec/17 R382). -/
def State.disabled (s : State) (g : Nat) : Bool := s.glb.disable.getLsbD g
def State.stabled (s : State) (g : Nat) : Bool := (s.region (regionOf g)).state != 0
/-- The cluster can run commands now (spec/14 R318). -/
def State.serves (s : State) (g : Nat) : Bool := !s.disabled g && !s.stabled g && !(s.cl g).drained

/-! ### Free values (log entry 2) -/

/-- The i-th free natural of the current draw. -/
def State.free (s : State) (i : Nat) : Nat := Config.freeNat s.freeIx i
/-- The draw is used up. -/
def State.bump (s : State) : State := { s with freeIx := s.freeIx + 1 }
/-- A free member of a list. -/
def State.choose (s : State) (d : α) (l : List α) : α := l.getD (s.free 0 % l.length) d
/-- One of the faults met; a free one when they differ (spec/05 R133). -/
def State.pickFault (s : State) : List Byte → Option Byte
  | [] => none
  | f :: fs => if fs.all (· == f) then some f else some (s.choose f (f :: fs))
/-- A number SCH allocates: a free one of those that are available, by its own policy. -/
def State.alloc (s : State) (avail : List Nat) : Option Nat :=
  match avail with
  | [] => none
  | a :: as => some (s.choose a (a :: as))

end Sys2Proof.Machine
end

