-- ==== Sys2Proof/Machine/Crypto.lean ====
section
/-! DEFINITION. The signatures of the tack room (spec/19 R406): SHA-512, HMAC-SHA-512, ECDSA on NIST P-521 with the
deterministic nonces of RFC 6979. PRESUMED: the spec names these functions; their constants and steps are those of the
published standards (log entry 34). -/

namespace Sys2Proof.Machine

/-! ### SHA-512 -/

/-- A prime below 441: no smaller number from 2 to 20 divides it. -/
def smallPrime (n : Nat) : Bool := decide (2 ≤ n) && (List.range 21).all fun d => d < 2 || decide (n ≤ d) || n % d != 0

/-- The largest number that starts with the bits of `a`, has `n` more, and whose k-th power is at most x. -/
def rootBits (k x : Nat) : Nat → Nat → Nat
  | 0, a => a
  | n + 1, a => rootBits k x n (if (2 * a + 1) ^ k * 2 ^ (k * n) ≤ x then 2 * a + 1 else 2 * a)

/-- The first 64 bits of the fractional part of the k-th root of p. -/
def rootFraction (k p : Nat) : W64 := BitVec.ofNat 64 (rootBits k (p * 2 ^ (64 * k)) 70 0)

/-- Round constants: those of the cube roots of the first eighty primes. -/
def sha512K : List W64 := ((List.range 410).filter smallPrime).map (rootFraction 3)

/-- Initial hash value: that of the square roots of the first eight primes. -/
def sha512Init : List W64 := ((List.range 20).filter smallPrime).map (rootFraction 2)

/-- A number as n big-endian bytes. -/
def beBytes (n x : Nat) : List Byte := (leBytes n x).reverse
/-- The number of big-endian bytes. -/
def beNat (bs : List Byte) : Nat := leNat bs.reverse

/-- A message with its padding. -/
def shaPad (m : List Byte) : List Byte :=
  m ++ [0x80] ++ List.replicate ((239 - m.length % 128) % 128) 0 ++ beBytes 16 (8 * m.length)

/-- Big-endian 64-bit words of a list of bytes. -/
def beWords : Nat → List Byte → List W64
  | 0, _ => []
  | n + 1, bs => BitVec.ofNat 64 (beNat (bs.take 8)) :: beWords n (bs.drop 8)

/-- A word rotated right by each amount of a list, summed bit by bit, with its shift by `n`. -/
def mixWord (x : W64) (rots : List Nat) (n : Nat) : W64 := rots.foldr (fun r acc => x.rotateRight r ^^^ acc) (x >>> n)

/-- The message schedule, newest word first, extended n times: each word is the sum of the two and the two mixed ones that stand
16, 7, 15 and 2 places before it. -/
def shaSchedule : Nat → List W64 → List W64
  | 0, w => w
  | n + 1, w =>
    let back := fun (k : Nat) => w.getD (k - 1) 0
    shaSchedule n ((back 16 + back 7 + mixWord (back 15) [1, 8] 7 + mixWord (back 2) [19, 61] 6) :: w)

/-- One round on the eight working words: the sum of the last word, its inputs, the mixed fifth word and the choice by the fifth
between the sixth and the seventh is added to the fourth word and, with the mixed first word and the majority of the first three,
becomes the first. -/
def shaRound (v : List W64) (kw : W64 × W64) : List W64 :=
  let at' := fun (i : Nat) => v.getD i 0
  let sel := at' 6 ^^^ (at' 4 &&& (at' 5 ^^^ at' 6))
  let most := (at' 0 &&& (at' 1 ||| at' 2)) ||| (at' 1 &&& at' 2)
  let sum := kw.1 + kw.2 + at' 7 + sel + mixWord (at' 4) [14, 18, 41] 64
  (sum + most + mixWord (at' 0) [28, 34, 39] 64) :: (v.take 3 ++ (at' 3 + sum) :: (v.drop 4).take 3)

/-- One block of 128 bytes. -/
def shaBlock (v : List W64) (blk : List Byte) : List W64 :=
  let w := (shaSchedule 64 (beWords 16 blk).reverse).reverse
  v.zipWith (· + ·) ((sha512K.zip w).foldl shaRound v)

def shaRun : Nat → List W64 → List Byte → List W64
  | 0, v, _ => v
  | n + 1, v, bs => shaRun n (shaBlock v (bs.take 128)) (bs.drop 128)

/-- SHA-512 of a list of bytes: 64 bytes. -/
def sha512 (m : List Byte) : List Byte :=
  let p := shaPad m
  (shaRun (p.length / 128) sha512Init p).flatMap fun w => beBytes 8 w.toNat

/-- A 64-byte digest as a 512-bit value: byte i of the digest is byte i of the little-endian value, as SEC_ID_HASH shows
it (spec/19 registers). -/
def hash512 (m : List Byte) : BitVec 512 := BitVec.ofNat 512 (leNat (sha512 m))

/-- HMAC-SHA-512. -/
def hmac512 (key msg : List Byte) : List Byte :=
  let k := padTo 128 (if 128 < key.length then sha512 key else key)
  sha512 ((k.map fun b => b ^^^ 0x5c) ++ sha512 ((k.map fun b => b ^^^ 0x36) ++ msg))

/-! ### P-521 -/

def p521P : Nat := 2 ^ 521 - 1
def p521N : Nat :=
  0x1fffffffffffffffffffffffffffffffffffffffffffffffffffffffffffffffffa51868783bf2f966b7fcc0148f709a5d03bb5c9b8899c47aebb6fb71e91386409
def p521B : Nat :=
  0x51953eb9618e1c9a1f929a21a0b68540eea2da725b99b315f3b8b489918ef109e156193951ec7e937b1652c0bd3bb1bf073573df883d2c34f1ef451fd46b503f00
def p521G : Nat × Nat :=
  (0xc6858e06b70404e9cd9e3ecb662395b4429c648139053fb521f828af606b4d3dbaa14b5e77efe75928fe1dc127a2ffa8de3348b3c1856a429bf97e7e31c2e5bd66,
   0x11839296a789a3bc0045c8a5fb42c7d1bd998f54449579b446817afbd17273e662c97ee72995ef42640c550b9013fad0761353c7086a272c24088be94769fd16650)

/-- b^e mod m over n bits of e. -/
def powMod (m : Nat) : Nat → Nat → Nat → Nat
  | 0, _, _ => 1 % m
  | n + 1, b, e =>
    let r := powMod m n (b * b % m) (e / 2)
    if e % 2 = 1 then r * b % m else r

/-- The inverse modulo a prime of at most 521 bits. -/
def invMod (m a : Nat) : Nat := powMod m 521 (a % m) (m - 2)

/-- Points of the curve; none is the point at infinity. -/
def p521Add (a b : Option (Nat × Nat)) : Option (Nat × Nat) :=
  match a, b with
  | none, q => q
  | q, none => q
  | some (x1, y1), some (x2, y2) =>
    if x1 = x2 ∧ (y1 + y2) % p521P = 0 then none else
      let l := if x1 = x2 then (3 * x1 * x1 + (p521P - 3)) * invMod p521P (2 * y1) % p521P
        else (y2 + p521P - y1) * invMod p521P (x2 + p521P - x1) % p521P
      let x := (l * l + 2 * p521P - x1 - x2) % p521P
      some (x, (l * (x1 + p521P - x) + p521P - y1) % p521P)

/-- k times a point, over n bits of k. -/
def p521Mul : Nat → Nat → Option (Nat × Nat) → Option (Nat × Nat)
  | 0, _, _ => none
  | n + 1, k, q =>
    let r := p521Mul n (k / 2) (p521Add q q)
    if k % 2 = 1 then p521Add q r else r

/-- A point in compressed form: 67 bytes. -/
def p521Pack (q : Nat × Nat) : List Byte := BitVec.ofNat 8 (2 + q.2 % 2) :: beBytes 66 q.1

/-- The point of a compressed form, if there is one (spec/19 R406). -/
def p521Unpack (bs : List Byte) : Option (Nat × Nat) :=
  let x := beNat ((bs.drop 1).take 66)
  let tag := fieldN bs 0 1
  if bs.length ≠ 67 ∨ p521P ≤ x ∨ (tag ≠ 2 ∧ tag ≠ 3) then none else
    let r := (x * x % p521P * x + (p521P - 3) * x + p521B) % p521P
    let y := powMod p521P 521 r ((p521P + 1) / 4)
    if y * y % p521P ≠ r then none
    else some (x, if y % 2 = tag % 2 then y else (p521P - y) % p521P)

/-- ECDSA verification of a digest. -/
def p521Verify (q : Nat × Nat) (digest : List Byte) (r s : Nat) : Bool :=
  if r = 0 ∨ p521N ≤ r ∨ s = 0 ∨ p521N ≤ s then false else
    let w := invMod p521N s
    let u := beNat digest * w % p521N
    let v := r * w % p521N
    match p521Add (p521Mul 521 u (some p521G)) (p521Mul 521 v (some q)) with
    | none => false
    | some (x, _) => x % p521N == r

/-- Candidates for the nonce of RFC 6979: the generator's key and value, at most n of them. -/
def nonceRun : Nat → List Byte → List Byte → Nat
  | 0, _, _ => 1
  | n + 1, k, v =>
    let v1 := hmac512 k v
    let v2 := hmac512 k v1
    let c := beNat (v1 ++ v2) / 2 ^ 503
    if 1 ≤ c ∧ c < p521N then c
    else
      let k' := hmac512 k (v2 ++ [0])
      nonceRun n k' (hmac512 k' v2)

/-- The deterministic nonce of a private scalar and a digest (RFC 6979). -/
def nonce6979 (d : Nat) (digest : List Byte) : Nat :=
  let seed := beBytes 66 d ++ beBytes 66 (beNat digest % p521N)
  let v0 := List.replicate 64 (1 : Byte)
  let k1 := hmac512 (List.replicate 64 0) (v0 ++ [0] ++ seed)
  let v1 := hmac512 k1 v0
  let k2 := hmac512 k1 (v1 ++ [1] ++ seed)
  nonceRun 64 k2 (hmac512 k2 v1)

/-- ECDSA signature of a digest: r and s. -/
def p521Sign (d : Nat) (digest : List Byte) : Nat × Nat :=
  let k := nonce6979 d digest
  match p521Mul 521 k (some p521G) with
  | none => (0, 0)
  | some (x, _) =>
    let r := x % p521N
    (r, invMod p521N k * ((beNat digest + r * d) % p521N) % p521N)

/-! ### Signature blocks (spec/19 R406) -/

/-- A 256-byte block of a kind over covered bytes, whose key's hash is `root`. -/
def blockValid (blk covered : List Byte) (kind : Nat) (root : BitVec 512) : Bool :=
  let key := (blk.drop 132).take 67
  blk.length == 256 && fieldN blk 199 1 == kind && zerosN blk 200 256 && hash512 key == root
    && (match p521Unpack key with
      | none => false
      | some q => p521Verify q (sha512 covered) (beNat (blk.take 66)) (beNat ((blk.drop 66).take 66)))

/-- A signature block of the device's own (KIND 2). -/
def signBlock (d : Nat) (covered : List Byte) : List Byte :=
  let x := p521Sign d (sha512 covered)
  let key := match p521Mul 521 d (some p521G) with
    | some q => p521Pack q
    | none => List.replicate 67 0
  beBytes 66 x.1 ++ beBytes 66 x.2 ++ key ++ [2] ++ List.replicate 56 0

/-- The private scalar of the identity (spec/19 R409): the HMAC output, which the tack room keeps to itself, plus 1. -/
def idScalar (seed : BitVec 256) : Nat := (Config.idHmac seed).toNat + 1

/-- SEC_ID_HASH: the hash of the compressed identity public key (spec/19 R409). -/
def idHashOf (seed : BitVec 256) : BitVec 512 :=
  match p521Mul 521 (idScalar seed) (some p521G) with
  | some q => hash512 (p521Pack q)
  | none => 0

end Sys2Proof.Machine
end

