-- ==== Sys2Proof/Machine/RegMap.lean ====
section
/-! DEFINITION. What every register of BAR0 reads as, and what those values are computed from: check sums, the flash array's slots,
images (spec/00 R4-R11, spec/15 R338, R339, R359, R360, and the register tables of every block). -/

namespace Sys2Proof.Machine

/-! ### CRC-32C (spec/08 R194) -/

/-- One bit of the reflected Castagnoli polynomial. -/
def crcBit (c : W32) : W32 := if c.getLsbD 0 then (c >>> 1) ^^^ 0x82F63B78 else c >>> 1
def crcByte (c : W32) (b : Byte) : W32 :=
  crcBit (crcBit (crcBit (crcBit (crcBit (crcBit (crcBit (crcBit (c ^^^ b.setWidth 32))))))))
def crcRun : W32 → List Byte → W32
  | c, [] => c
  | c, b :: bs => crcRun (crcByte c b) bs
/-- CRC-32C of a list of bytes. -/
def crc32c (bs : List Byte) : W32 := crcRun 0xFFFFFFFF bs ^^^ 0xFFFFFFFF

/-! ### The flash array's slots (spec/20 R423, R424, R434) -/

/-- A sector's first array offset and its size. -/
def sectorBase (n : Nat) : Nat := if n < 32 then n * 0x2000 else 0x40000 + (n - 32) * 0x40000
/-- A byte of the array; an erased byte is all ones. -/
def Fls.rd (f : Fls) (x : Nat) : Byte := smGet 0xFF f.arr x
def Fls.rds (f : Fls) (x n : Nat) : List Byte := (List.range n).map fun i => f.rd (x + i)
/-- The offset of fixed main sector m, which may have moved into the ring (spec/20 R438). -/
def Fls.fixedSector (f : Fls) (m : Nat) : Nat := smGet (m + 32) f.reloc m
/-- Bytes of a slot that lies in k consecutive fixed sectors from m. -/
def Fls.slotBytes (f : Fls) (m n : Nat) : List Byte :=
  (List.range n).map fun i => f.rd (sectorBase (f.fixedSector (m + i / 0x40000)) + i % 0x40000)

/-- A configuration object or an image class: its commit-record sector for slot b, its first fixed sector, its sectors. -/
structure SlotPlace where
  commit : Nat
  first : Nat
  count : Nat
def imageSlot (c : Nat) (b : Bool) : SlotPlace := ⟨2 + 2 * c + b2n b, 16 * (2 * c + b2n b), 16⟩
/-- The newest valid commit record of a sector: SEQ, LENGTH, HASH. -/
def Fls.commitOf (f : Fls) (sector : Nat) : Option (Nat × Nat × List Byte) :=
  ((List.range 256).filterMap fun k =>
    let b := f.rds (sectorBase sector + 32 * k) 32
    if BitVec.ofNat 32 (fieldN b 28 4) = crc32c (b.take 28) ∧ fieldN b 24 4 = 0xFFFFFFFF then
      some (fieldN b 0 4, fieldN b 4 4, (b.drop 8).take 16) else none).foldl
    (fun m e => match m with | some x => if x.1 < e.1 then some e else m | none => some e) none
/-- The active slot of two: the committed one with the newer commit record. -/
def Fls.activeSlot (f : Fls) (place : Bool → SlotPlace) : Option Bool :=
  match f.commitOf (place false).commit, f.commitOf (place true).commit with
  | some a, some b => some (decide (a.1 < b.1))
  | some _, none => some false
  | none, some _ => some true
  | none, none => none
/-- The status word: bits 15:0 of FLS_STATUS. -/
def Fls.statusWord (f : Fls) : W32 :=
  BitVec.ofNat 32 (b2n f.busy + 2 * b2n f.done + 4 * b2n f.seqErr + 8 * b2n f.progErr + 16 * b2n f.progFail
    + 32 * b2n f.eraseFail + 64 * b2n f.xoHit + 128 * b2n f.busyHit + 256 * b2n f.wear + 512 * f.op)

/-! ### Images (spec/18 R393, R397, spec/19 R406) -/

/-- GLB_ID.STEPPING (spec/01). -/
def stepping : Nat := 0xB0
/-- A manifest of 512 bytes; none where a field is malformed. -/
def parseImage (m : List Byte) : Option Image :=
  let c := fieldN m 0 1
  let hia := fieldN m 16 4
  let yard := fieldN m 20 4
  let code := fieldN m 24 4
  if m.length ≠ 512 ∨ 3 < c ∨ !zerosN m 1 4 ∨ 64 < fieldN m 8 4 ∨ (c ≠ 2 ∧ hia ≠ 0) ∨ (c ≠ 1 ∧ c ≠ 2 ∧ yard ≠ 0)
      ∨ code < 4096 ∨ 0x400000 - 512 < code ∨ !zerosN m 28 32 ∨ fieldN m (32 + 8 * c) 8 ≠ 0 ∨ !zerosN m 64 128
      ∨ !zerosN m 192 256 then none
  else some {
    cls := c, version := BitVec.ofNat 32 (fieldN m 4 4), svn := fieldN m 8 4, hash := hash512 m
    steppings := BitVec.ofNat 32 (fieldN m 12 4), hia := BitVec.ofNat 32 hia, yard := BitVec.ofNat 32 yard
    peers := (List.range 4).map fun d => (BitVec.ofNat 32 (fieldN m (32 + 8 * d) 4), BitVec.ofNat 32 (fieldN m (36 + 8 * d) 4)) }
/-- The rollback count of a class (spec/19 R413). -/
def State.arb (s : State) (c : Nat) : Nat := smGet 0 s.sec.arb c
/-- The manifest in a slot, as staged. -/
def State.slotManifest (s : State) (c : Nat) (b : Bool) : Option Image := parseImage (s.fls.slotBytes (imageSlot c b).first 512)
/-- A version as major × 256 + minor, and the range of an HIA field. -/
def hiaLow (h : W32) : Nat := 256 * bits h.toNat 15 8 + bits h.toNat 7 0
def hiaHigh (h : W32) : Nat := 256 * bits h.toNat 31 24 + bits h.toNat 23 16
def hiaOf (lo hi : Nat) : W32 := BitVec.ofNat 32 (lo % 256 + 256 * (lo / 256) + 65536 * (hi % 256) + 16777216 * (hi / 256))
/-- A trial is in progress, whatever else SEC does meanwhile. -/
def Grm.inTrial (g : Grm) : Bool := g.trialSet != 0 && !g.activating
/-- The range that FN_HIA_FW reads: the running SCH image's, in a trial the intersection with the committed image's
(spec/15 R360, spec/18 R397). -/
def State.hiaFw (s : State) : W32 :=
  match (s.groom 2).running with
  | none => 0
  | some i =>
    if s.grm.inTrial = true ∧ s.grm.trialSet.getLsbD 2 = true then
      match (s.fls.activeSlot (imageSlot 2)).bind (s.slotManifest 2) with
      | some j => hiaOf (max (hiaLow i.hia) (hiaLow j.hia)) (min (hiaHigh i.hia) (hiaHigh j.hia))
      | none => i.hia
    else i.hia

/-! ### Parts of other blocks that registers show -/

/-- GLB_ID (spec/01). -/
def glbId : Nat := 0x92000000 + stepping * 256
/-- Usable clusters (spec/22 R467, R468). -/
def State.usable (s : State) : Nat := ((List.range 96).filter fun g => !s.disabled g).length
def State.degraded (s : State) : Bool := decide (s.usable < 48)
def State.sensor (s : State) (n : Nat) : Sensor := smGet {} s.cam.sensors n
def State.binding (s : State) (n : Nat) : Binding := smGet {} s.cam.binds n
def State.camPort (s : State) (p : Nat) : CamPort := smGet {} s.cam.ports p
/-- A function's express queues dispatch as ordinary ones (spec/14 R329). -/
def State.capped (s : State) (f : Nat) : Bool :=
  let x : Express := smGet {} s.sched.express f
  x.cap == 0 || (x.frame == s.frame && decide (x.cap.toNat * 65536 ≤ x.sum))
def State.paddockN (s : State) (n : Nat) : Paddock := smGet {} s.sched.paddocks n
/-- Contexts of a tenant space that are not FREE. -/
def State.ctxCount (s : State) (t : Nat) : Nat := (s.serv.ctxs.filter fun e => e.2.state != 0 && e.2.tenant == t).length
/-- The epoch after one (spec/11 R257). -/
def nextEpoch (e : W32) : W32 := if e = 0xFFFFFFFF then 1 else e + 1
/-- Beats a function waits after its reset before it may start again (spec/15 R357). -/
def restartBeats : Nat := 100000
/-- The function is RESETTING: less than 100 ms have passed since its function-level reset (spec/15 R357, R360). -/
def State.resetting (s : State) (f : Nat) : Bool :=
  match (s.fn f).resetBeat with | some b => decide (s.beat < b + restartBeats) | none => false
def cfgExpress (q : Queue) : Bool := q.cfg.getLsbD 2
/-- The register map at its physical range (spec/09 R215). -/
def regBase : Nat := 0x00FF00000000
def isRegs (pa : Nat) : Bool := decide (regBase ≤ pa) && decide (pa < regBase + 0x500000)

/-- The current owner key's hash: the highest programmed slot (spec/19 R405). -/
def Sec.owner (x : Sec) : Option (BitVec 512) := x.owners.getLast?

/-! ### The map -/

/-- Fields (least bit, width, value) packed into a word. -/
def pack (l : List (Nat × Nat × Nat)) : Nat := sumN (l.map fun e => e.2.2 % 2 ^ e.2.1 * 2 ^ e.1)

/-- An integer in two's complement of w bits. -/
def twos (w : Nat) (x : Int) : Nat := (x % (2 ^ w : Int)).toNat

/-- A register: 4 or 8 bytes wide, and what it reads as. -/
abbrev Reg := Option (Nat × Nat)
def reg32 (x : Nat) : Reg := some (4, x % 2 ^ 32)
def reg64 (x : Nat) : Reg := some (8, x % 2 ^ 64)

/-- An element of an array of n registers of a stride from a base. -/
def arrayAt (off base stride n : Nat) : Option Nat :=
  if base ≤ off ∧ off < base + stride * n ∧ (off - base) % stride = 0 then some ((off - base) / stride) else none

/-! ### Reads -/

def State.glbReg (s : State) (o : Nat) : Reg :=
  let g := s.glb
  if o = 0 then reg32 glbId
  else if o = 8 then reg32 (pack [(0, 4, g.index), (4, 1, b2n g.valid), (8, 5, g.count), (16, 4, g.lead), (20, 1, b2n g.isLead),
    (21, 1, b2n g.partitioned)])
  else if o = 0x0C then reg32 g.live.toNat
  else if o = 0x10 then reg64 g.disable.toNat
  else if o = 0x18 then reg32 (g.disable.toNat / 2 ^ 64)
  else if o = 0x20 then reg32 g.yardId.toNat
  else none

def State.timReg (s : State) (o : Nat) : Reg :=
  let t := s.tim
  if o = 0 then reg64 t.ns
  else if o = 8 then reg64 t.todNext.toNat
  else if o = 0x10 then reg32 (pack [(0, 1, b2n t.arm), (1, 1, b2n t.ref10En), (2, 1, b2n t.ppsFalling)])
  else if o = 0x14 then reg32 (pack [(0, 1, b2n t.locked), (1, 1, b2n t.holdover), (2, 1, b2n t.ref10Ok), (3, 1, b2n t.todLoaded),
    (4, 1, b2n t.todRejected), (5, 1, b2n t.ppsFault)])
  else if o = 0x18 then reg32 t.ppsError.toNat
  else if o = 0x20 then reg64 t.holdoverBeats.toNat
  else if o = 0x28 then reg64 s.tick
  else none

def State.pwrReg (s : State) (o : Nat) : Reg :=
  let p := s.pwr
  if o = 0 then reg32 (pack [(0, 10, p.cap), (16, 10, p.next), (26, 1, b2n p.cooled)])
  else if o = 8 then reg32 (pack [(0, 14, p.budget)])
  else if o = 0x0C then reg32 (pack [(0, 1, b2n p.underBudget), (1, 1, b2n p.leadChanged), (2, 1, b2n p.notLead)])
  else if o = 0x10 then reg32 (pack [(0, 1, b2n p.capUnreachable), (1, 2, p.duty), (3, 3, p.ceiling),
    (6, 1, b2n (p.force.getLsbD 0 || p.force.getLsbD 2)), (7, 1, b2n (p.force.getLsbD 1 || p.force.getLsbD 2)),
    (8, 1, b2n p.vtrip), (9, 1, b2n p.thermtripSeen)])
  else if o = 0x18 then reg32 p.phaseOp.toNat
  else if o = 0x218 then reg32 (pack [(0, 8, p.policyC)])
  else if o = 0x300 then reg32 (pack [(0, 7, p.thresh)])
  else if o = 0x800 then reg64 p.energy.toNat
  else if o = 0x808 then reg32 p.avg.toNat
  else match arrayAt o 0x100 8 8, arrayAt o 0x200 8 3, arrayAt o 0x400 8 8 with
    | some r, _, _ => let x := s.region r
                      reg32 (pack [(0, 3, x.grant), (4, 3, x.current), (8, 2, x.state)])
    | _, some d, _ => reg32 (pack [(0, 16, (smGet 0 p.tempMax d).toNat), (16, 16, (smGet 0 p.tempPeak d).toNat)])
    | _, _, some r => reg64 (smGet 0 p.droopEvents r).toNat
    | _, _, _ => none

/-- Express queues of a function that are accepted. -/
def State.expressQueues (s : State) (f : Nat) : Nat := ((s.fn f).queues.filter fun e => e.2.active && cfgExpress e.2).length

/-- The gate registers of the selected tenant space (spec/11). -/
def State.gateReg (s : State) (g : Nat) (epoch : Bool) : Reg :=
  match s.gate s.sched.gateSel.toNat g with
  | none => if epoch then reg64 0 else reg64 3
  | some r =>
    if epoch then reg64 (pack [(0, 32, r.epoch.toNat), (32, 32, if r.state = 0 then 0 else (nextEpoch r.epoch).toNat)])
    else reg64 (pack [(0, 2, r.state), (4, 1, b2n r.held.isSome), (16, 10, r.man.layers.length - 1), (32, 10, r.front),
      (48, 10, r.swapped)])

def State.countCtx (s : State) (p : Ctx → Bool) : Nat := (s.serv.ctxs.filter fun e => p e.2).length

/-- SCH registers at single offsets. -/
def State.schReg (s : State) (o : Nat) : Reg :=
  let v := s.serv
  let a := s.acct v.acctSel.toNat
  match o with
  | 0x0000 => reg32 (pack [(0, 1, b2n s.sched.paddock), (4, 4, s.sched.overlay)])
  | 0x3F00 => reg32 s.sched.holdLimit.toNat
  | 0x3F08 => reg64 s.sched.holdKills.toNat
  | 0x3F10 => reg64 s.sched.gangReruns.toNat
  | 0x3F20 => reg64 v.kvFlushes.toNat
  | 0x3F28 => reg64 v.kvMerges.toNat
  | 0x3F30 => reg64 v.kvRefused.toNat
  | 0x3F38 => reg32 (pack [(0, 1, b2n v.compactEnable), (4, 4, v.compactMax), (8, 8, v.compactStreams)])
  | 0x3F40 => reg64 (pack [(0, 12, s.countCtx fun c => c.state == 1 || c.state == 2), (32, 17, s.countCtx fun c => c.state == 3)])
  | 0x3F48 => reg32 v.idleTicks.toNat
  | 0x3F50 => reg32 v.acctSel.toNat
  | 0x3F58 => reg64 (pack [(0, 16, a.rate), (16, 24, a.cap), (40, 6, a.owner.getD 0), (46, 1, b2n a.valid)])
  | 0x3F60 => reg32 (twos 32 a.balance)
  | 0x3F68 => reg64 a.prompt.toNat
  | 0x3F70 => reg64 a.produced.toNat
  | 0x3F78 => reg32 (pack [(0, 8, a.weight)])
  | 0x3F80 => reg64 a.meCycles.toNat
  | 0x3F88 => reg64 a.vuCycles.toNat
  | 0x3F90 => reg32 s.sched.gateSel.toNat
  | _ => none

/-- SCH registers of arrays. -/
def State.schArray (s : State) (o : Nat) : Reg :=
  match arrayAt o 0x10 4 8 with
  | some n => let p := s.paddockN n
              reg32 (pack [(0, 8, p.regions.toNat), (8, 5, p.entries), (16, 5, p.current)])
  | none =>
  if 0x100 ≤ o ∧ o < 0x900 then
    (if o % 4 = 0 ∧ o % 256 < 128 then
      let x : Slice := smGet {} (s.paddockN (o / 256 - 1)).slices (o % 256 / 4)
      reg32 (pack [(0, 6, x.tenant), (6, 1, b2n x.idle), (16, 12, x.ticks)])
    else none)
  else match arrayAt o 0x1000 8 64, arrayAt o 0x1200 8 128, arrayAt o 0x1800 4 64, arrayAt o 0x1A00 8 8 with
  | some t, _, _, _ =>
    let d := (s.ten t).deficit / 65536
    reg64 (pack [(0, 16, (s.ten t).weight.toNat), (16, 1, b2n (s.ten t).active),
      (32, 32, twos 32 (max (-(2 ^ 31 : Int)) (min (2 ^ 31 - 1 : Int) d)))])
  | _, some k, _, _ => reg64 (if k % 2 = 0 then (s.ten (k / 2)).meCycles.toNat else (s.ten (k / 2)).vuCycles.toNat)
  | _, _, some f, _ =>
    let x : Express := smGet {} s.sched.express f
    reg32 (pack [(0, 16, x.cap.toNat), (16, 4, 2 ^ (min 4 (s.expressQueues f)) - 1), (20, 1, b2n (x.cap != 0 && s.capped f))])
  | _, _, _, some c => reg64 (smGet 0 s.sched.kills c).toNat
  | _, _, _, _ => match arrayAt o 0x1C00 8 64, arrayAt o 0x4000 8 128 with
    | some t, _ => reg64 (pack [(0, 17, (s.ten t).ctxQuota), (32, 17, s.ctxCount t)])
    | _, some k => s.gateReg (k / 2) (k % 2 == 1)
    | _, _ => none

/-- The two fields of a quota or use register. -/
def quotaWord (hbm loft : Nat) : Nat := pack [(0, 17, hbm), (32, 19, loft)]

def State.memReg (s : State) (o : Nat) : Reg :=
  let m := s.memc
  match o with
  | 0x0000 => reg32 (pack [(0, 2, m.hbmOrder), (2, 2, m.loftOrder), (31, 1, b2n m.mapLock)])
  | 0x0008 => reg32 (pack [(0, 2, m.rateTarget), (4, 2, m.rateCurrent), (8, 1, b2n m.rateBusy)])
  | 0x0010 => reg64 m.rateChanges.toNat
  | 0x0100 => reg32 (pack [(0, 8, m.hbmHours.toNat), (8, 8, m.loftHours.toNat), (16, 8, m.retireAt.toNat)])
  | 0x0108 => reg64 m.eccCorr.toNat
  | 0x0110 => reg64 m.eccUncorr.toNat
  | 0x0118 => reg64 (pack [(0, 48, m.eccAddr.toNat), (60, 1, b2n m.eccTier), (61, 2, m.eccSource), (63, 1, b2n m.eccValid)])
  | 0x0200 => reg32 m.retrain.toNat
  | 0x8000 => reg32 (b2n m.separate)
  | 0x8008 => reg32 (pack [(0, 10, m.loftGib)])
  | 0x8010 => reg32 m.tierTimeout.toNat
  | 0x8014 => reg32 m.chFail.toNat
  | 0x8020 => reg64 m.loftTimeouts.toNat
  | 0x8028 => reg64 m.migDone.toNat
  | 0x8030 => reg64 m.migAborts.toNat
  | _ => match arrayAt o 0x8400 16 64, arrayAt o 0x8800 16 64 with
    | some n, _ => reg64 (quotaWord (s.ten n).quotaHbm (s.ten n).quotaLoft)
    | _, some n => reg64 (quotaWord (s.ten n).useHbm (s.ten n).useLoft)
    | _, _ => none

def State.fabReg (s : State) (o : Nat) : Reg :=
  match o with
  | 0x0300 => reg64 s.fab.barLate.toNat
  | 0x0308 => reg64 s.fab.gangLate.toNat
  | 0x0310 => reg64 s.fab.sigDropped.toNat
  | 0x0318 => reg32 s.fab.routeWait.toNat
  | _ => match arrayAt o 0x200 4 16, arrayAt o 0 0x20 8, arrayAt o 8 0x20 8, arrayAt o 0x10 0x20 8 with
    | some d, _, _, _ => let r := s.route d
                         reg32 (pack [(0, 8, r.ports.toNat), (8, 3, r.hops), (11, 1, b2n r.valid)])
    | _, some p, _, _ => let x := s.port p
                         reg32 (pack [(0, 3, x.state), (4, 1, b2n x.narrow), (8, 4, x.nbrPkg), (12, 3, x.nbrPort)])
    | _, _, some p, _ => reg64 (s.port p).replays.toNat
    | _, _, _, some p => reg64 (s.port p).downs.toNat
    | _, _, _, _ => none

/-- Registers of one sensor: its status and its counters. -/
def State.sensorReg (s : State) (n k : Nat) : Reg :=
  let x := s.sensor n
  match k with
  | 0x00 => reg32 (pack [(0, 2, x.state), (8, 8, x.code.toNat), (16, 16, x.tag.toNat)])
  | 0x08 => reg64 x.frames.toNat
  | 0x10 => reg64 x.truncated.toNat
  | 0x18 => reg64 x.overlong.toNat
  | 0x20 => reg64 x.lineErrors.toNat
  | 0x28 => reg64 x.crcErrors.toNat
  | 0x30 => reg64 x.skipped.toNat
  | _ => none

def State.camReg (s : State) (o : Nat) : Reg :=
  if o = 0 ∨ o = 0x10 then
    let x := s.camPort (o / 16)
    let up := BitVec.ofNat 8 (sumN ((List.range 8).map fun n => b2n ((s.sensor (8 * (o / 16) + n)).state == 1) * 2 ^ n))
    reg32 (pack [(0, 1, b2n x.hpd), (1, 1, b2n x.link), (2, 1, b2n x.stray), (8, 8, up.toNat)])
  else if 0x1000 ≤ o ∧ o < 0x1800 then s.sensorReg ((o - 0x1000) / 0x80) (o % 0x80)
  else match arrayAt o 0x4000 0x20 64 with
    | some n =>
      let b := s.binding n
      reg64 (pack [(0, 2, b.state), (2, 1, b2n b.sigDropped), (8, 8, b.code.toNat), (16, 16, b.faults.toNat), (32, 32, b.seq.toNat)])
    | none => none

def State.flsReg (s : State) (o : Nat) : Reg :=
  let f := s.fls
  match o with
  | 0x00 => reg32 (f.statusWord.toNat + f.sector.toNat * 65536)
  | 0x04 => reg32 (b2n f.lock)
  | 0x08 => reg32 (pack [(0, 7, f.lastPulses.toNat), (7, 1, b2n f.lastResult), (16, 10, f.lastSector.toNat)])
  | 0x10 => reg32 (pack [(0, 10, f.wearCount.toNat), (16, 10, f.wearLast.toNat)])
  | 0x18 => reg32 (pack [(0, 10, f.usable.toNat), (16, 9, f.ring.toNat)])
  | 0x20 => reg32 f.xoAddr.toNat
  | 0x28 => reg64 f.denied.toNat
  | 0x30 => reg64 f.erases.toNat
  | _ => match arrayAt o 0x100 8 8 with
    | some n => let x : FlsRegion := smGet {} f.xo n
                reg64 (pack [(0, 10, x.first.toNat), (16, 10, x.last.toNat), (28, 4, x.fetch.toNat), (32, 1, b2n x.valid)])
    | none => none

def State.farReg (s : State) (o : Nat) : Reg :=
  let f := s.far
  match o with
  | 0x00 => reg32 (pack [(0, 2, if f.state = 2 ∧ s.tick = f.stepAt then 3 else f.state), (8, 7, f.cluster), (16, 7, s.usable), (23, 1, b2n s.degraded), (24, 1, b2n f.startupDone)])
  | 0x08 => reg64 (pack [(0, 7, f.nextCluster), (32, 32, f.nextTick.toNat)])
  | 0x10 => reg32 (pack [(0, 17, f.interval)])
  | 0x18 => reg64 (pack [(0, 7, f.lastCluster), (8, 4, f.lastPset), (12, 2, f.lastResult), (32, 32, f.lastTick.toNat)])
  | 0x20 => reg64 f.slices.toNat
  | 0x28 => reg64 f.intermittent.toNat
  | 0x30 => reg64 f.failed.toNat
  | 0x38 => reg64 f.abandoned.toNat
  | 0x60 => reg64 f.nosig.toNat
  | 0x100 => reg64 f.suspect.toNat
  | 0x108 => reg32 f.pcieLow.toNat
  | _ => match arrayAt o 0x40 8 4 with
    | some k => reg64 (smGet 0 f.deferred k).toNat
    | none => none

/-- Word i of a 512-bit hash, as its bytes 4i to 4i + 3. -/
def hashWord (h : BitVec 512) (i : Nat) : Nat := h.toNat / 2 ^ (32 * i) % 2 ^ 32

def State.secReg (s : State) (o : Nat) : Reg :=
  let x := s.sec
  match o with
  | 0x00 => reg32 (pack [(0, 2, x.bootMode), (2, 3, x.owners.length), (5, 1, b2n x.jtagOff), (6, 1, b2n x.debug), (7, 2, x.presence),
      (9, 1, b2n x.romReject)])
  | 0x08 => reg32 (pack ((List.range 4).map fun c => (8 * c, 8, s.arb c)))
  | 0x10 => reg32 (pack [(0, 1, b2n (x.presence == 2)), (1, 1, b2n (x.presence == 3))])
  | 0x14 => reg32 (pack [(2, 1, b2n x.ownerDone), (4, 4, x.ownerCode.toNat)])
  | 0x18 => reg64 x.ownerSrc.toNat
  | 0x20 => reg32 0
  | _ => match arrayAt o 0x100 4 16, arrayAt o 0x140 4 16 with
    | some i, _ => reg32 (hashWord x.idHash i)
    | _, some i => reg32 (hashWord (x.owner.getD 0) i)
    | _, _ => none

/-- Registers of one groom. -/
def State.groomReg (s : State) (c k : Nat) : Reg :=
  let g := s.groom c
  match k with
  | 0x00 => reg32 (pack [(0, 3, g.state), (3, 1, b2n g.slotB)])
  | 0x04 => reg32 g.version.toNat
  | 0x08 => reg64 g.restarts.toNat
  | 0x10 => reg32 g.wdog.toNat
  | _ => none

def State.grmReg (s : State) (o : Nat) : Reg :=
  let g := s.grm
  if o < 0x100 then s.groomReg (o / 0x40) (o % 0x40)
  else match o with
  | 0x200 => reg64 g.updSrc.toNat
  | 0x208 => reg32 (pack [(0, 2, g.updClass), (4, 4, g.updSet.toNat)])
  | 0x20C => reg32 (pack [(0, 2, g.updState), (4, 4, g.stagedBits.toNat), (8, 4, g.updCode.toNat)])
  | 0x210 => reg32 g.probation.toNat
  | 0x300 => reg64 g.cfgSrc.toNat
  | 0x308 => reg32 0
  | 0x30C => reg32 (pack [(1, 1, b2n g.cfgBusy), (4, 4, g.cfgCode.toNat)])
  | 0x310 => reg32 g.baseSeq.toNat
  | 0x320 => reg64 (pack [(0, 4, g.ovlNext.toNat), (32, 32, g.ovlFrame.toNat)])
  | 0x328 => reg32 (pack [(0, 4, g.ovlCurrent), (4, 1, b2n g.ovlSwitch.isSome), (5, 1, b2n g.ovlLate), (6, 1, b2n g.ovlNotLoaded),
      (8, 8, sumN ((List.range 8).map fun n => b2n (smGet none g.overlays n).isSome * 2 ^ n))])
  | 0x330 => reg32 (pack [(0, 16, g.protoInUse.toNat), (16, 1, b2n g.excluded)])
  | _ => none

/-- Registers of one queue. -/
def State.queueReg (s : State) (f q k : Nat) : Reg :=
  let x := s.queue f q
  match k with
  | 0x00 => reg64 x.sqBase.toNat
  | 0x08 => reg64 x.cqBase.toNat
  | 0x10 => reg32 x.cfg.toNat
  | 0x14 => reg32 (pack [(0, 1, b2n x.active), (1, 3, x.refusal), (4, 1, b2n x.overrun), (5, 1, b2n x.cqFull)])
  | _ => none

/-- One word of the MSI-X table: address low and high, data, vector control. -/
def State.msixReg (s : State) (f e k : Nat) : Reg :=
  let b := s.fn f
  match k with
  | 0 => reg32 (smGet 0 b.msixAddr e).toNat
  | 4 => reg32 ((smGet 0 b.msixAddr e).toNat / 2 ^ 32)
  | 8 => reg32 (smGet 0 b.msixData e).toNat
  | 12 => reg32 (b2n (b.msixMask.getLsbD e))
  | _ => none

/-- The FN block of a function (spec/15 R360, spec/19 R414). -/
def State.fnReg (s : State) (f o : Nat) : Reg :=
  let b := s.fn f
  match o with
  | 0x0000 => reg32 (pack [(0, 1, b2n b.enable), (3, 1, b2n (f == 0 && b.recoverArmed))])
  | 0x0004 => reg32 (pack [(0, 3, if b.state = 0 ∧ s.resetting f = true then 4 else b.state), (3, 1, b2n (s.sec.bootMode != 0)), (4, 1, b2n b.recoverArmed), (8, 8, b.code.toNat),
      (16, 8, b.minor.toNat), (24, 8, b.major.toNat)])
  | 0x0010 => reg64 s.tim.ns
  | 0x0020 => reg64 (quotaWord (s.ten f).quotaHbm (s.ten f).quotaLoft)
  | 0x0028 => reg64 (quotaWord (s.ten f).useHbm (s.ten f).useLoft)
  | 0x0200 => if f = 0 then reg64 (pack [(0, 16, b.recBase.toNat), (16, 1, b2n b.recMiss)]) else none
  | 0x9000 => reg64 b.msixPend.toNat
  | 0xC000 => reg32 b.drv.toNat
  | 0xC004 => reg32 s.hiaFw.toNat
  | 0xC010 => reg32 0
  | 0xC014 => reg32 (pack [(0, 1, b2n b.attBusy), (1, 1, b2n b.attDone), (2, 4, b.attCode.toNat)])
  | 0xC018 => reg64 b.attDst.toNat
  | _ => match arrayAt o 0x100 8 9, arrayAt o 0xC040 4 16 with
    | some k, _ => reg64 (smGet 0 b.counters k).toNat
    | _, some i => reg32 (smGet 0 b.attNonce i).toNat
    | _, _ =>
      if 0x4000 ≤ o ∧ o < 0x6000 then s.queueReg f ((o - 0x4000) / 32) (o % 32)
      else if 0x8000 ≤ o ∧ o < 0x8200 then s.msixReg f ((o - 0x8000) / 16) (o % 16)
      else none

/-- The register that starts at an offset of a function's BAR0 (spec/15 R338, R339). -/
def State.regAt (s : State) (f off : Nat) : Reg :=
  if f ≠ 0 then (if off < 0x10000 then s.fnReg f off else none)
  else if 0x100000 ≤ off then (if off < 0x500000 then s.fnReg ((off - 0x100000) / 0x10000) (off % 0x10000) else none)
  else
    let o := off % 0x10000
    match off / 0x10000 with
    | 0 => s.glbReg o
    | 1 => s.timReg o
    | 2 => s.pwrReg o
    | 3 => (match s.schReg o with | some r => some r | none => s.schArray o)
    | 4 => s.memReg o
    | 5 => s.fabReg o
    | 6 => s.camReg o
    | 7 => s.flsReg o
    | 8 => s.farReg o
    | 9 => s.secReg o
    | 10 => s.grmReg o
    | _ => none

/-- What an offset names for a 32-bit access: a 32-bit register, the low or the high word of a 64-bit register, or none. -/
inductive Half where
  | whole | low | high | none
deriving DecidableEq, Repr

def State.halfAt (s : State) (f off : Nat) : Half :=
  match s.regAt f off with
  | some (4, _) => .whole
  | some _ => .low
  | none => if off % 8 = 4 then (match s.regAt f (off - 4) with | some (8, _) => .high | _ => .none) else .none

/-- What the register at an offset reads as. -/
def State.regVal (s : State) (f off : Nat) : Nat := ((s.regAt f off).map (·.2)).getD 0

/-- A byte of the register range as an access of the separate view reads it: one of the register's that covers it, 0 where none is. No
latch of R9 moves (spec/09 R215, log entry 63). -/
def State.regByte (s : State) (off : Nat) : Byte :=
  BitVec.ofNat 8 (match s.regAt 0 (off / 8 * 8) with
    | some (8, v) => v / 2 ^ (8 * (off % 8))
    | _ => s.regVal 0 (off / 4 * 4) / 2 ^ (8 * (off % 4)))

end Sys2Proof.Machine
end

