-- ==== Sys2Proof/Machine/Ops.lean ====
section
/-! DEFINITION. The named operations the meanings share: addresses and translation, accepted writes, the channels, completions,
contexts, kills. -/

namespace Sys2Proof.Machine

/-! ### Location codes (spec/01 R23) -/

/-- The code of unit `unit` of kind `kind` of cluster `g`. -/
def State.loc (s : State) (g kind unit : Nat) : W32 :=
  BitVec.ofNat 32 ((if s.glb.valid then s.glb.index else 0) * 2 ^ 28 + dieOf g * 2 ^ 27 + (regionOf g % 4) * 2 ^ 25
    + (g % 12) * 2 ^ 21 + kind * 2 ^ 18 + unit * 2 ^ 13)

/-- The code of a region as a whole, and of an HBM4 stack (spec/01 R23). -/
def State.locRegion (s : State) (r : Nat) : W32 :=
  BitVec.ofNat 32 ((if s.glb.valid then s.glb.index else 0) * 2 ^ 28 + r / 4 * 2 ^ 27 + (r % 4) * 2 ^ 25 + 0xF * 2 ^ 21)
def State.locStack (s : State) (n : Nat) : W32 :=
  BitVec.ofNat 32 ((if s.glb.valid then s.glb.index else 0) * 2 ^ 28 + n / 2 * 2 ^ 27 + 0xF * 2 ^ 21 + 7 * 2 ^ 18 + n * 2 ^ 13)

/-- The code of another package as a whole: PKG alone (spec/07 R187). DESIGN CHOICE (log entry 71): the spec gives such a code no
form of its own, and this one is also that of ME 0 of the package's cluster 0. -/
def locPkg (p : Nat) : W32 := BitVec.ofNat 32 (p * 2 ^ 28)

/-! ### Physical memory (spec/09 R215, spec/10) -/

def hbmEnd : Nat := 0x003000000000
def hbmReserve : Nat := 0x002F00000000
def loftBase : Nat := 0x004000000000
def frameBytes : Nat := 0x200000
/-- Physical address of offset `off` of cluster `g`'s buffer: its SELF window address (spec/07 R168). -/
def cbAddr (g off : Nat) : Nat := 0x00F080000000 + g * 0x800000 + off
def isCb (pa : Nat) : Bool := decide (0x00F080000000 ≤ pa) && decide (pa < 0x00F0B0000000)
def cbCl (pa : Nat) : Nat := (pa - 0x00F080000000) / 0x800000
def cbOff (pa : Nat) : Nat := (pa - 0x00F080000000) % 0x800000
def isHbm (pa : Nat) : Bool := decide (pa < hbmEnd)
def State.isLoft (s : State) (pa : Nat) : Bool :=
  decide (loftBase ≤ pa) && decide (pa < loftBase + s.memc.loftGib * 2 ^ 30)

/-- Where a burst lies in its tier: global channel, bank (a loft rank's banks are 16 · rank upward), row, column. -/
structure DramAt where
  chan : Nat
  bank : Nat
  row : Nat
  col : Nat
deriving DecidableEq, Repr

/-- The HBM4 mapping orders (spec/10 R239). -/
def hbmAt (order a : Nat) : DramAt :=
  let t := 16384 * bits a 37 36
  let lo := bits a 35 22
  match order with
  | 0 => { chan := 32 * bits a 35 34 + bits a 33 29, bank := bits a 14 10, row := t + bits a 28 15, col := bits a 9 6 }
  | 1 => { chan := 32 * bits a 17 16 + bits a 15 11, bank := bits a 10 6, row := t + lo, col := bits a 21 18 }
  | _ => { chan := 32 * Nat.xor (bits a 15 14) (bits lo 6 5) + Nat.xor (bits a 13 9) (bits lo 4 0), bank := bits a 21 17,
           row := t + lo, col := 8 * bits a 16 16 + bits a 8 6 }

/-- Row bits r of a loft channel for the populated size (spec/10 R240). -/
def loftRowBits (gib : Nat) : Nat := if gib ≤ 64 then 15 else if gib ≤ 128 then 16 else if gib ≤ 256 then 17 else 18

/-- The loft mapping orders, of a loft address a = A − 0x0040_0000_0000 (spec/10 R240). -/
def loftAt (order gib a : Nat) : DramAt :=
  let r := loftRowBits gib
  match order with
  | 0 => { chan := a / 2 ^ (16 + r) % 32, bank := 16 * bits a 15 15 + bits a 14 11, row := bits a (15 + r) 16, col := bits a 10 6 }
  | 1 => { chan := bits a 14 10, bank := 16 * bits a 15 15 + bits a 9 6, row := bits a (20 + r) 21, col := bits a 20 16 }
  | 2 => { chan := Nat.xor (bits a 13 9) (bits a 25 21), bank := 16 * bits a 20 20 + bits a 19 16, row := bits a (20 + r) 21,
           col := 8 * bits a 15 14 + bits a 8 6 }
  | _ => { chan := bits a 25 21, bank := 16 * bits a 26 26 + bits a 14 11,
           row := 2 ^ (r - 6) * bits a 20 15 + bits a (26 + r - 6) 27, col := bits a 10 6 }

def State.loftPlace (s : State) (pa : Nat) : DramAt := loftAt s.memc.loftOrder s.memc.loftGib (pa - loftBase)

/-- Channel of a loft physical address. -/
def State.loftChan (s : State) (pa : Nat) : Nat := (s.loftPlace pa).chan

/-- The channel controller of a physical address: 0-127 HBM, 128-159 loft; none outside both tiers. -/
def State.chanOf (s : State) (pa : Nat) : Option Nat :=
  if isHbm pa then some (hbmAt s.memc.hbmOrder pa).chan else if s.isLoft pa then some (128 + s.loftChan pa) else none

/-- Bank and row of a request. -/
def State.bankRow (s : State) (r : ChReq) : Nat × Nat :=
  let p := if isHbm (64 * r.burst) then hbmAt s.memc.hbmOrder (64 * r.burst) else s.loftPlace (64 * r.burst)
  (p.bank, p.row)

/-- Where a byte of a frame in migration is (spec/09 R230). -/
def State.redirect (s : State) (pa : Nat) : Nat :=
  match s.memc.migs.find? fun m => m.src == pa / frameBytes * frameBytes with
  | some m => if pa % frameBytes / 4096 < m.chunk then m.dst + pa % frameBytes else pa
  | none => pa

/-- When the byte at a physical address was lost with its frame, if it was and nothing has written it since
(spec/10 R249). -/
def State.lostAt (s : State) (p : Nat) : Option Nat :=
  match s.memc.lost.find? fun e => e.1 == p / frameBytes && e.2.1 == s.loftChan p with
  | some e => if s.memc.fresh.contains p then none else some e.2.2
  | none => none

/-- The byte held at a physical address. -/
def State.raw (s : State) (p : Nat) : Byte :=
  match s.lostAt p with
  | some t => Config.lostByte t p
  | none => memGet s.mem p

/-- New bits of a byte under a mask. -/
def merge (m old new : Byte) : Byte := (old &&& ~~~m) ||| (new &&& m)

/-- A byte at a physical address written under a mask. -/
def State.put (s : State) (p : Nat) (mask val : Byte) : State :=
  { s with mem := memPut s.mem p (merge mask (s.raw p) val)
           memc := { s.memc with fresh := if (s.lostAt p).isSome then p :: s.memc.fresh else s.memc.fresh } }

/-- A byte of memory, or of the register range (spec/09 R215). -/
def State.rd (s : State) (pa : Nat) : Byte :=
  if isRegs pa then s.regByte (pa - regBase) else s.raw (s.redirect pa)
def State.rds (s : State) (pa n : Nat) : List Byte := (List.range n).map fun i => s.rd (pa + i)
/-- Zeros written over [pa, pa + n), whole words of 32 bytes: words poisoned there are whole again (spec/10 R245), and a frame
zeroed whole is no longer lost. -/
def State.zero (s : State) (pa n : Nat) : State :=
  let out := fun (w : Nat) => !(decide (pa ≤ 32 * w) && decide (32 * w < pa + n))
  let lost := s.memc.lost.filter fun e => !(decide (pa ≤ e.1 * frameBytes) && decide ((e.1 + 1) * frameBytes ≤ pa + n))
  { s with mem := memZero s.mem pa n
           memc := { s.memc with poison := s.memc.poison.filter out, loftBad := s.memc.loftBad.filter out
                                 upset := s.memc.upset.filter fun e => out e.1, lost := lost } }

/-- Bytes of an access reach their frames: each 4 KiB adds 1 to a frame's count, which saturates (spec/09 R228). -/
def Frame.reach (n : Nat) (x : Frame) : Frame :=
  { x with count := min 0xFFFF (x.count + (x.part + n) / 4096), part := (x.part + n) % 4096 }

/-! ### Addresses (spec/07 R168, spec/09 R215-R219) -/

/-- What an address names: a local physical byte, a byte of another package, or nothing. -/
inductive Place where
  | phys (pa : Nat)
  | remote (pkg : Nat)
  | bad
deriving DecidableEq, Repr

/-- The cluster-buffer window: the range of spec/07 R168 and the form its field table gives (log entry 15). -/
def isWindow (va : Nat) : Bool := va / 2 ^ 32 == 0xF0 || va / 2 ^ 40 == 0xF0

/-- What a window address names for a requester on cluster `g` (spec/07 R168). -/
def State.window (s : State) (g va : Nat) : Place :=
  let wide := va / 2 ^ 40 == 0xF0
  let pkg := if wide then bits va 35 32 else 0
  let self := bitN va 31
  let c := bits va 30 23
  let off := bits va 22 0
  if (wide && bits va 39 36 != 0) || decide (0x600000 ≤ off) || (decide (96 ≤ c) && decide (c ≤ 254))
      || (c == 255 && !self) || (self && pkg != 0) then .bad
  else if self || pkg == s.glb.index then .phys (cbAddr (if c == 255 then g else c) off)
  else .remote pkg

/-- Level of the entry that maps a leaf, and the bytes a leaf of a level maps (spec/09 R218). -/
def Leaf.level (l : Leaf) : Nat := if l.size = 2 ^ 30 then 1 else if l.size = 2 ^ 21 then 2 else 3
def leafBytes (level : Nat) : Nat := if level = 1 then 2 ^ 30 else if level = 2 then 2 ^ 21 else 2 ^ 16

/-- The 64-bit translation entry of a leaf (spec/09 R219). -/
def Leaf.entry (l : Leaf) : Nat := 3 + 4 * b2n l.w + 8 * b2n l.pin + 16 * l.hint + 65536 * (l.pa / 65536)

/-- An entry the walk takes at a level: none that breaks the table is valid (spec/09 R219). -/
def entryValid (level e : Nat) : Bool :=
  bitN e 0 && bits e 15 6 == 0 && e / 2 ^ 48 == 0 && bits e 5 4 != 3
    && (if bitN e 1 then level != 0 && bits e 47 16 * 65536 % leafBytes level == 0 else level != 3)

/-- The leaf that maps an address of a tenant space; an entry that is not valid maps nothing (spec/09 R217-R219). -/
def State.leaf (s : State) (t va : Nat) : Option Leaf :=
  if 0x00FF00000000 ≤ va ∧ va < 0x010000000000 then none
  else ((s.ten t).leaves.find? fun l => decide (l.va ≤ va) && decide (va < l.va + l.size)).filter fun l => entryValid l.level l.entry

/-- What a device-virtual address names for tenant space `t` on cluster `g`. -/
def State.place (s : State) (t g va : Nat) : Place :=
  if isWindow va then s.window g va
  else if s.memc.separate then (if isHbm va || s.isLoft va || isRegs va then .phys va else .bad)
  else match s.leaf t va with
    | some l => .phys (l.pa + (va - l.va))
    | none => .bad

/-- The segment tag of a cluster-buffer byte (spec/04 R97). -/
def State.segTag (s : State) (pa : Nat) : Option Nat := smGet none (s.cl (cbCl pa)).segs (cbOff pa / 65536)

/-- Whether an extent list holds an address. -/
def inExts (l : List (Nat × Nat)) (va : Nat) : Bool := l.any fun e => decide (e.1 ≤ va) && decide (va < e.1 + e.2)

/-- Faults a read of one byte meets at issue (spec/05 R120, spec/04 R97). -/
def State.rdIssue (s : State) (c : Cmd) (g va : Nat) : List Byte :=
  if isWindow va then
    match s.window g va with
    | .phys pa => if s.segTag pa = some c.fn then [] else [fPermission]
    | _ => []
  else if inExts c.outs va then [fAlias] else []

/-- Faults a write of one byte meets at issue (spec/05 R120, spec/04 R97, spec/09 R219). -/
def State.wrIssue (s : State) (c : Cmd) (g va : Nat) : List Byte :=
  if isWindow va then
    match s.window g va with
    | .phys pa => if s.segTag pa = some c.fn then [] else [fPermission]
    | _ => []
  else if !(inExts c.outs va || inExts c.scr va) then [fPermission]
  else if s.memc.separate then []
  else match s.leaf c.fn va with
    | some l => if l.w then [] else [fPermission]
    | none => []

/-- Faults of the memory behind a physical byte: a failed loft channel (spec/09 R233), a poisoned HBM word or a loft
word that fails twice (spec/10 R245, R247). -/
def State.memFault (s : State) (pa : Nat) (read : Bool) : Option Byte :=
  let p := s.redirect pa
  if s.isLoft p && s.memc.chFail.getLsbD (s.loftChan p) then some fTier
  else if read && (s.memc.poison.contains (p / 32) || s.memc.loftBad.contains (p / 32) || decide (2 ≤ smGet 0 s.memc.upset (p / 32)))
  then some fEcc
  else none

/-- A read or write of one byte at its access: the physical byte, or the fault (spec/05 R133). -/
def State.access (s : State) (t g va : Nat) (read : Bool) : Nat ⊕ Byte :=
  match s.place t g va with
  | .phys pa => match s.memFault pa read with
    | some f => .inr f
    | none => .inl pa
  | .remote _ => .inr fRemote
  | .bad => .inr fTranslation

/-- The physical bytes of addresses of a tenant space. -/
def State.physTen (s : State) (t : Nat) (as : List Nat) : List Nat :=
  as.filterMap fun a => match s.place t 0 a with | .phys pa => some pa | _ => none

/-- An access through the window to a segment of another tenant space's tag (spec/01 R14, spec/04 R97). -/
def State.tagged (s : State) (t va pa : Nat) : Bool := !isWindow va || s.segTag pa == some t

/-- SCH's own read of `n` bytes of a tenant space, or the fault of the first that fails. -/
def State.rdVa (s : State) (t va : Nat) : Nat → List Byte ⊕ Byte
  | 0 => .inl []
  | n + 1 => match s.access t 0 va true with
    | .inr f => .inr f
    | .inl pa => if !s.tagged t va pa then .inr fPermission else match s.rdVa t (va + 1) n with
      | .inr f => .inr f
      | .inl bs => .inl (s.rd pa :: bs)

/-! ### Completions (spec/15 R345, R350) -/

def cfgLog2 (q : Queue) : Nat := bits q.cfg.toNat 13 9
def cfgTrel (q : Queue) : Bool := q.cfg.getLsbD 3
def cfgVector (q : Queue) : Nat := bits q.cfg.toNat 18 14
def cqSize (q : Queue) : Nat := 2 ^ cfgLog2 q
def cqIsFull (q : Queue) : Bool := decide (cqSize q ≤ (q.cqTail - q.cqHead).toNat)

/-- FN counter k, at offset 0x100 + 8·k, increased. -/
def State.fnCount (s : State) (f k n : Nat) : State :=
  s.modFn f fun b => { b with counters := smMod 0 b.counters k fun x => x + BitVec.ofNat 64 n }

/-- The MSI-X message of a vector: written, or pending while the vector is masked (spec/15 R336). -/
def State.msix (s : State) (f v : Nat) : State :=
  let b := s.fn f
  if b.msixMask.getLsbD v then s.setFn f { b with msixPend := putBit b.msixPend v true }
  else { s with hostMem := memPuts s.hostMem (smGet 0 b.msixAddr v).toNat (leBytes 4 (smGet 0 b.msixData v).toNat) }

/-- The 32 bytes of a completion entry (spec/15 R350). -/
def complBytes (q : Queue) (qn : Nat) (c : Compl) : List Byte :=
  let phase := (q.cqTail.toNat / cqSize q) % 2
  leBytes 8 c.result.toNat ++ leBytes 4 c.loc.toNat ++ leBytes 4 c.tick.toNat ++ leBytes 2 c.cid.toNat
    ++ leBytes 2 (q.sqHead.toNat % 65536) ++ [c.status] ++ leBytes 1 (phase + 2 * c.kind) ++ leBytes 2 qn
    ++ leBytes 8 c.detail.toNat

/-- A completion entry is written and its vector signalled. -/
def State.writeCq (s : State) (f qn : Nat) (c : Compl) : State :=
  let q := s.queue f qn
  let a := q.cqBase.toNat + 32 * (q.cqTail.toNat % cqSize q)
  let s1 := { s with hostMem := memPuts s.hostMem a (complBytes q qn c) }
  let s2 := s1.setQueue f qn { q with cqTail := q.cqTail + 1 }
  s2.msix f (if c.kind = 2 then 0 else cfgVector q)

/-- A completion is written, or held for a full CQ or a closed Bus Master Enable (spec/15 R337, R345). -/
def State.deliver (s : State) (f qn : Nat) (c : Compl) : State :=
  let q := s.queue f qn
  if !q.held.isEmpty || cqIsFull q || !(s.fn f).busMaster then
    if qn = 0 ∧ 2 ≤ c.kind ∧ 64 ≤ q.held.length then s.fnCount f 8 1
    else (s.setQueue f qn { q with held := q.held ++ [c], cqFull := true }).fnCount f 7 1
  else s.writeCq f qn c

/-- A completion's outcome is latched: on a tick-release queue it waits for the queue's beat (spec/02 R49). -/
def State.complete (s : State) (f qn : Nat) (c : Compl) : State :=
  let q := s.queue f qn
  if cfgTrel q then s.setQueue f qn { q with trel := q.trel ++ [(s.tick, c)] } else s.deliver f qn c

def State.compl (s : State) (cid : BitVec 16) (status : Byte) (kind : Nat) (result : W64) (loc : W32) : Compl :=
  { result, loc, tick := BitVec.ofNat 32 s.tick, cid, status, kind, detail := 0 }

/-- Held completions written while the CQ takes them (spec/15 R345). -/
def State.drainHeld (s : State) (f qn : Nat) : Nat → State
  | 0 => s
  | n + 1 =>
    let q := s.queue f qn
    match q.held with
    | [] => s.setQueue f qn { q with cqFull := false }
    | c :: cs => if cqIsFull q || !(s.fn f).busMaster then s
      else ((s.setQueue f qn { q with held := cs }).writeCq f qn c).drainHeld f qn n

/-- The answer to a request: a completion of KIND 1 on queue 0; the request leaves the function's list (spec/15 R351). -/
def State.answer (s : State) (f : Nat) (cid : BitVec 16) (status : Byte) (result : W64) : State :=
  let s1 := s.modFn f fun b => { b with reqs := b.reqs.filter fun r => r.cid != cid }
  s1.complete f 0 (s.compl cid status 1 result 0)

/-- A notice of SCH (spec/15 R352); codes 0x03 and 0x04 exist from version 1.4 (R355). -/
def State.notice (s : State) (t : Nat) (code : Nat) (arg : W64) : State :=
  if (s.fn t).state = 2 ∧ 3 ≤ code ∧ ((s.fn t).major.toNat < 1 ∨ (s.fn t).major.toNat = 1 ∧ (s.fn t).minor.toNat < 4) then s
  else if (s.fn t).state = 2 then s.complete t 0 { s.compl 0xFFFF stOk 2 arg 0 with detail := BitVec.ofNat 64 code }
  else s.fnCount t 8 1

/-! ### Uncorrectable words (spec/10 R245-R247) -/

/-- SCH reports a frame to the tenant spaces it is mapped in, by its device-virtual address (spec/15 R352). -/
def State.noticeFrame (s : State) (code pa : Nat) : State :=
  (List.range 64).foldl (fun s t =>
    match (s.ten t).leaves.find? fun l => decide (l.pa ≤ pa) && decide (pa < l.pa + l.size) with
    | some l => s.notice t code (BitVec.ofNat 64 ((l.va + (pa - l.pa)) / frameBytes * frameBytes))
    | none => s) s

/-- An uncorrectable word: counted and logged; an HBM word is marked poisoned and its frame reported (spec/10 R245-R247).
`source` as in MEM_ECC_LOG. -/
def State.eccError (s : State) (pa source : Nat) : State :=
  let w := pa / 32
  let m := s.memc
  let s1 := { s with memc := { m with
    eccUncorr := m.eccUncorr + 1, eccAddr := BitVec.ofNat 48 (w * 32), eccTier := s.isLoft pa, eccSource := source
    eccValid := true, upset := smDel m.upset w, poison := if isHbm pa && !m.poison.contains w then m.poison ++ [w] else m.poison } }
  if isHbm pa then s1.noticeFrame 0x02 pa else s1

/-! ### The channel controllers (spec/10 R235-R238) -/

/-- The oldest request of each source at an inlet: a later one of a source is served after it (spec/10 R237). -/
def inletHeads : List Nat → List ChReq → List ChReq
  | _, [] => []
  | seen, r :: rs => if seen.contains r.src then inletHeads seen rs else r :: inletHeads (r.src :: seen) rs

/-- The source after `last` in turn, of those that wait. -/
def turnOf (last : Nat) (l : List ChReq) : Option ChReq :=
  let low := fun (best : Option ChReq) (r : ChReq) => match best with
    | some b => if r.src < b.src then some r else some b
    | none => some r
  match (l.filter fun r => decide (last < r.src)).foldl low none with
  | some r => some r
  | none => l.foldl low none

/-- The request that an inlet serves next: an express one first, of several the one that arrived first (log entry 92), otherwise the
next source round-robin (spec/10 R235). -/
def Chan.pick (c : Chan) (inlet : List ChReq) : Option ChReq :=
  let heads := inletHeads [] inlet
  match heads.find? (·.express) with
  | some r => some r
  | none => turnOf c.last heads

/-- The first n requests are served, in order; each leaves its row open. The controller may open rows for the next 8 (spec/10
R236). -/
def Chan.serve (at' : ChReq → Nat × Nat) (fr : Nat → Nat) (c : Chan) (n : Nat) : Chan :=
  let row := fun (m : SMap Nat) (r : ChReq) => smPut 0 m (at' r).1 ((at' r).2 + 1)
  let rest := c.queue.drop n
  let ahead := (rest.take 9).zipIdx.filter fun x =>
    fr x.2 % 2 == 1 && !(rest.take x.2).any fun y => (at' y).1 == (at' x.1).1
  { c with queue := rest, rows := ahead.foldl (fun m x => row m x.1) ((c.queue.take n).foldl row c.rows) }

def State.chan (s : State) (ch : Nat) : Chan := smGet {} s.memc.chans ch
def State.setChan (s : State) (ch : Nat) (c : Chan) : State :=
  { s with memc := { s.memc with chans := smPut {} s.memc.chans ch c } }

/-- A loft request is served: past its deadline it counts as a miss, and its command is to fail; in time it ends a run of misses
(spec/09 R232, R233). -/
def State.judge (s : State) (ch : Nat) (r : ChReq) : State :=
  let m := s.memc
  if ch < 128 ∨ r.missed = true then s
  else if r.issued + m.tierTimeout.toNat < s.beat then { s with memc := { m with
    loftTimeouts := m.loftTimeouts + 1, missRow := smMod 0 m.missRow (ch - 128) (· + 1), late := m.late ++ [(ch - 128, r)] } }
  else { s with memc := { m with missRow := smDel m.missRow (ch - 128) } }

/-- The first n requests of a channel are served. -/
def State.serveChan (s : State) (ch n : Nat) : State :=
  let c := s.chan ch
  ((c.queue.take n).foldl (fun t r => t.judge ch r) s).setChan ch
    (c.serve s.bankRow (fun k => s.free (2 ^ 73 + 64 * ch + k)) n)

/-- The requests at a channel's inlet. -/
def State.inlet (s : State) (ch : Nat) : List ChReq := s.memc.waiting.filter fun r => s.chanOf (64 * r.burst) == some ch

/-- The inlets of the loft are closed while its rate changes (spec/10 R248). -/
def State.closed (s : State) (ch : Nat) : Bool := decide (128 ≤ ch) && s.memc.rateBusy

/-- A pending write belongs to a request. -/
def PWrite.of (w : PWrite) (r : ChReq) : Bool := w.op == r.op && 16 * w.cl + w.writer == r.src && w.addr / 64 == r.burst

/-- Word `w` (32 bytes) is covered whole by the writes (spec/10 R244, R245). -/
def coversWord (w : Nat) (ws : List (Nat × Byte × Byte)) : Bool :=
  (List.range 32).all fun i => ws.any fun x => x.1 == 32 * w + i && x.2.1 == 0xFF

/-- Writes as the memory takes them (spec/10 R244, R245): one that covers a word whole makes it whole again; of a part of an HBM4
word the merge read corrects one bad symbol, and a word that it finds poisoned or uncorrectable counts, is logged and stays as it
is. -/
def State.taken (s : State) (source : Nat) (ws : List (Nat × Byte × Byte)) : State × List (Nat × Byte × Byte) :=
  let m := s.memc
  if m.poison.isEmpty && m.loftBad.isEmpty && m.upset.isEmpty then (s, ws) else
    let met := (ws.map fun x => x.1 / 32).eraseDups
    let whole := met.filter fun w => coversWord w ws
    let part := met.filter fun w => isHbm (32 * w) && !whole.contains w
    let dead := part.filter fun w => m.poison.contains w || decide (2 ≤ smGet 0 m.upset w)
    let fixed := part.filter fun w => !dead.contains w && smGet 0 m.upset w == 1
    let s1 := { s with memc := { m with
      poison := m.poison.filter fun w => !whole.contains w
      loftBad := m.loftBad.filter fun w => !whole.contains w
      upset := m.upset.filter fun e => !(whole.contains e.1 || fixed.contains e.1)
      eccCorr := m.eccCorr + BitVec.ofNat 64 fixed.length } }
    (dead.foldl (fun s w => s.eccError (32 * w) source) s1, ws.filter fun x => !dead.contains (x.1 / 32))

/-- Writes applied to the memory; `source` as in MEM_ECC_LOG. -/
def State.apply (s : State) (source : Nat) (ws : List (Nat × Byte × Byte)) : State :=
  let r := s.taken source ws
  r.2.foldl (fun s x => s.put x.1 x.2.1 x.2.2) r.1

/-- Sources that are no CE stream (spec/10 R235): the migration engine, patrol scrub, host windows, the camera pipeline, the grooms;
and the requests of other packages, which the rule does not name (log entry 92). -/
def srcMig : Nat := 1536
def srcScrub : Nat := 1537
def srcHost : Nat := 1538
def srcCam : Nat := 1539
def srcGroom : Nat := 1540
def srcFab : Nat := 1541
/-- SOURCE of MEM_ECC_LOG for a source: 1 migration, 2 scrub, 3 host window; of every other, 0 (log entry 92). -/
def eccSource (src : Nat) : Nat := if src = srcMig then 1 else if src = srcScrub then 2 else if src = srcHost then 3 else 0

/-- A read request meets the words of its burst: one bad symbol is corrected on HBM4, and the loft's retry leaves nothing (spec/10
R243, R247). -/
def State.corrects (s : State) (r : ChReq) : State :=
  let m := s.memc
  if !r.read || m.upset.isEmpty then s else
    let met := m.upset.filter fun e => e.1 / 2 == r.burst && e.2 == 1
    if isHbm (64 * r.burst) then { s with memc := { m with eccCorr := m.eccCorr + BitVec.ofNat 64 met.length } }
    else { s with memc := { m with upset := m.upset.filter fun e => !met.contains e } }

/-- One request enters a channel's queue; where the queue holds 32, its front is served first. A write that has entered is
accepted: every read that enters later returns its data (spec/10 R235, R238). The frame of the burst counts its bytes (spec/09
R228). -/
def State.enter (s : State) (ch : Nat) : State :=
  if s.closed ch then s else
  match (s.chan ch).pick (s.inlet ch) with
  | none => s
  | some r =>
    let s1 := if (s.chan ch).queue.length < 32 then s else s.serveChan ch 1
    let ws := (s1.infl.filter (·.of r)).map fun w => (w.addr, w.mask, w.val)
    let s2 := ((s1.apply (eccSource r.src) ws).corrects r)
    let k := s2.chan ch
    { s2 with
      infl := s2.infl.filter fun w => !w.of r
      memc := { s2.memc with
        waiting := s2.memc.waiting.erase r
        frames := smMod {} s2.memc.frames (64 * r.burst / frameBytes) (Frame.reach r.bytes)
        chans := smPut {} s2.memc.chans ch { k with queue := k.queue ++ [r], last := if r.express then k.last else r.src } } }

def State.enterN (s : State) (ch : Nat) : Nat → State
  | 0 => s
  | n + 1 => (s.enter ch).enterN ch n

/-- Requests enter, by their inlets' rule, until those of `p` have. -/
def State.enterAll (s : State) (p : ChReq → Bool) : Nat → State
  | 0 => s
  | n + 1 => match s.memc.waiting.find? p with
    | none => s
    | some r => match s.chanOf (64 * r.burst) with
      | some ch => (s.enter ch).enterAll p n
      | none => { s with memc := { s.memc with waiting := s.memc.waiting.erase r } }.enterAll p n

/-- Writes into cluster buffers that have reached them, freely; one of a writer never before an earlier one of its own to the
same byte (spec/07 R179). -/
def State.arriveCb (s : State) : State :=
  let r := (s.infl.zipIdx).foldl (fun (a : State × List PWrite) (x : PWrite × Nat) =>
    let w := x.1
    if isCb w.addr && s.free (2 ^ 71 + x.2) % 2 == 1 && !(a.2.any fun v => v.cl == w.cl && v.writer == w.writer && v.addr == w.addr)
    then (a.1.put w.addr w.mask w.val, a.2) else (a.1, a.2 ++ [w])) (s, [])
  { r.1 with infl := r.2 }

/-- What enters before the next access: of each channel a free number of requests, in its inlet's order (spec/10 R237). -/
def State.arrive (s : State) : State :=
  if s.memc.waiting.isEmpty && s.infl.isEmpty then s else
    let chs := (s.memc.waiting.filterMap fun r => s.chanOf (64 * r.burst)).eraseDups
    (chs.foldl (fun t ch => t.enterN ch (s.free (2 ^ 70 + ch) % (s.memc.waiting.length + 1))) s).arriveCb.bump

/-- Bytes in their order as bursts, with the bytes of each. -/
def bursts : List Nat → List (Nat × Nat)
  | [] => []
  | p :: ps => match bursts ps with
    | (b, n) :: l => if p / 64 = b then (b, n + 1) :: l else (p / 64, 1) :: (b, n) :: l
    | [] => [(p / 64, 1)]

/-- Requests to DRAM, burst by burst, at their inlets (spec/07 R179, spec/10 R235); a failed loft channel takes none (spec/09
R233). -/
def State.request' (s : State) (op cmd src : Nat) (express read : Bool) (ps : List Nat) : State :=
  let bs := (bursts ps).filter fun b => match s.chanOf (64 * b.1) with
    | some ch => decide (ch < 128) || !s.memc.chFail.getLsbD (ch - 128)
    | none => false
  { s with memc := { s.memc with waiting := s.memc.waiting ++ bs.map fun b =>
    { op, cmd, src, express, burst := b.1, read, bytes := b.2, issued := s.beat } } }

/-- Physical bytes whose loft inlets are closed: what asks for them waits (spec/10 R248). -/
def State.shut (s : State) (ps : List Nat) : Bool := s.memc.rateBusy && ps.any s.isLoft

/-- Reads of a source enter their queues, behind what its inlets hold for it and what they serve before it; their data is what the
memory holds then, for each queue is served in order (spec/10 R236-R238). -/
def State.fetches (s : State) (op cmd src : Nat) (express : Bool) (ps : List Nat) : State :=
  let s1 := s.request' op cmd src express true ps
  s1.enterAll (fun r => r.op == op && r.src == src && r.read) s1.memc.waiting.length

/-- Writes of a source that is no CE stream, whose bytes the memory has already, enter their queues. -/
def State.pushes (s : State) (src : Nat) (ps : List Nat) : State :=
  let s1 := s.request' 0 0 src false false ps
  s1.enterAll (fun r => r.src == src) s1.memc.waiting.length

/-- Addresses that move with a frame, in the writes pending and at the inlets. -/
def State.remap (s : State) (f : Nat → Nat) : State :=
  { s with
    infl := s.infl.map fun (w : PWrite) => { w with addr := f w.addr }
    memc := { s.memc with waiting := s.memc.waiting.map fun (r : ChReq) => { r with burst := f (64 * r.burst) / 64 } } }

/-! ### Writes accepted and not yet visible (spec/05 R125, R126) -/

/-- The byte a requester reads at `pa`: writes of its own cluster that the order table puts before it are applied in
order; another pending write into a cluster buffer is applied or not, freely (spec/05 R125). `ord` is the mask of ordered
writers. A write to DRAM is seen by others once it has entered its queue (spec/10 R237, R238). -/
def State.see (s : State) (g : Nat) (ord : BitVec 14) (pa : Nat) : Byte :=
  let p := s.redirect pa
  (((s.infl.filter fun w => w.addr == p && !isRegs p).zipIdx).foldl
    (fun b (w, k) => if (w.cl == g && ord.getLsbD w.writer) || (isCb p && s.free (4096 * p + k + 1) % 2 == 1)
      then merge w.mask b w.val else b) (s.rd pa))

/-- Writes of an operation, pending until they are visible to every requester; those to the register range are made in the next beat
(log entry 63). -/
def State.accept (s : State) (g writer op cmd : Nat) (ws : List (Nat × Byte × Byte)) : State :=
  { s with infl := s.infl ++ ws.map fun x =>
    { cl := g, writer, op, cmd, addr := s.redirect x.1, mask := x.2.1, val := x.2.2 } }

/-- Masked bytes that a source writes, by physical address: into a cluster buffer at once, to DRAM through the channels' inlets, where
one to a closed inlet waits (spec/10 R235, R248). -/
def State.wrNow (s : State) (ws : List (Nat × Byte × Byte)) (src : Nat := srcGroom) : State :=
  let s1 := (ws.filter fun x => isCb x.1).foldl (fun s x => s.put x.1 x.2.1 x.2.2) s
  let ds := ws.filter fun x => !isCb x.1
  let s2 := (s1.accept (src / 16) (src % 16) 0 0 ds).request' 0 0 src false false (ds.map fun x => s.redirect x.1)
  s2.enterAll (fun r => r.src == src) s2.memc.waiting.length

/-- Physical bytes of consecutive bytes from an address of a tenant space; bytes that are not here, and those of a failed loft
channel, go nowhere. -/
def State.physOf (s : State) (t va : Nat) (bs : List Byte) : List (Nat × Byte × Byte) :=
  bs.zipIdx.filterMap fun x => match s.access t 0 (va + x.2) false with
    | .inl pa => some (pa, 0xFF, x.1)
    | .inr _ => none

/-- SCH's own write of bytes at an address of a tenant space, W not regarded; unmapped bytes go nowhere. -/
def State.wrVa (s : State) (t va : Nat) (bs : List Byte) (src : Nat := srcGroom) : State := s.wrNow (s.physOf t va bs) src

/-- Every pending write that satisfies `p` becomes visible, in order; what else arrives before it is free. One to a loft channel
whose inlet is closed waits. -/
def State.land (s : State) (p : PWrite → Bool) : State :=
  if (s.infl.filter p).isEmpty then s else
    let s1 := s.arrive
    let s2 := s1.enterAll (fun r => s1.infl.any fun w => p w && w.of r) s1.memc.waiting.length
    let now := fun (w : PWrite) => p w && !s2.memc.waiting.any w.of && !isRegs w.addr
    let s3 := (s2.infl.filter now).foldl (fun s w => s.put w.addr w.mask w.val) s2
    { s3 with infl := s3.infl.filter fun w => !now w }

/-- What a killed command leaves of its writes (spec/05 R114, spec/07 R181): its requests not yet sent are dropped, a free rest of
each stream's; those sent stay at their inlets until the drain ends. A byte into a cluster buffer lands or is dropped, freely. -/
def State.landKilled (s : State) (cmd : Nat) : State :=
  if (s.infl.all fun w => w.cmd != cmd) && (s.memc.waiting.all fun r => r.cmd != cmd) then s else
    let mine := s.memc.waiting.filter fun r => r.cmd == cmd
    let out := ((mine.map (·.src)).eraseDups).flatMap fun x =>
      let l := mine.filter fun r => r.src == x
      l.drop (s.free (2 ^ 72 + x) % (l.length + 1))
    let left := s.infl.filter fun w => !(out.any fun r => w.of r)
    let kept := ((left.filter fun w => w.cmd == cmd && isCb w.addr).zipIdx).filter fun x => s.free (x.2 + 1) % 2 == 1
    let s1 := kept.foldl (fun s x => s.put x.1.addr x.1.mask x.1.val) s
    { s1 with
      infl := left.filter fun w => !(w.cmd == cmd && isCb w.addr)
      memc := { s1.memc with waiting := s1.memc.waiting.filter fun r => !out.contains r } }.bump

/-! ### Commands -/

def State.cmd (s : State) (id : Nat) : Option Cmd := s.cmds.list.find? fun c => c.id == id
def State.setCmd (s : State) (c : Cmd) : State :=
  { s with cmds := { s.cmds with list := s.cmds.list.map fun d => if d.id == c.id then c else d } }
def State.dropCmd (s : State) (id : Nat) : State :=
  { s with cmds := { s.cmds with list := s.cmds.list.filter fun d => d.id != id } }

/-- In flight: dispatched and not completed. -/
def Cmd.inFlight (c : Cmd) : Bool := c.st == .running || c.st == .ready

/-- The instance of a command on a cluster. -/
def Cluster.instOf (c : Cluster) (id : Nat) : Option Inst :=
  match c.issuing with
  | some i => if i.cmd == id then some i else
    match c.draining with
    | some j => if j.cmd == id then some j else none
    | none => none
  | none => match c.draining with
    | some j => if j.cmd == id then some j else none
    | none => none

/-- The instance of a command on a cluster replaced. -/
def Cluster.setInst (c : Cluster) (i : Inst) : Cluster :=
  match c.issuing with
  | some j => if j.cmd == i.cmd then { c with issuing := some i } else
    match c.draining with
    | some k => if k.cmd == i.cmd then { c with draining := some i } else c
    | none => c
  | none => match c.draining with
    | some k => if k.cmd == i.cmd then { c with draining := some i } else c
    | none => c

/-- The context leaves RUNNING when its command commits or is killed (spec/13 R295); a held CLOSE acts then. -/
def State.ctxIdle (s : State) (x : Nat) : State :=
  let c := s.ctx x
  if c.state = 2 then
    let held := (s.fn c.tenant).reqs.find? fun r => match r.what with
      | some (.closeContext _ _ n) => n.toNat == x
      | _ => false
    match held with
    | some r => (s.setCtx x { c with state := 4 }).answer c.tenant r.cid stOk 0
    | none => s.setCtx x { c with state := 1 }
  else s

/-- The answers to aborts and cancellations that a ready gang member held (spec/05 R122). -/
def State.answerHeld (s : State) (c : Cmd) (status : Byte) : State :=
  let a := if status = stAborted then stOk else stAlreadyDone
  let s1 := (List.replicate c.heldAborts ()).foldl (fun s _ => s.complete c.fn c.q (s.compl c.cid a 3 0 0)) s
  c.heldCancels.foldl (fun s r => s.answer c.fn r a 0) s1

/-- A command's completion (spec/15 R350): RESULT holds the runs, saturating at 255. -/
def State.completeCmd (s : State) (c : Cmd) (status : Byte) (loc : W32) : State :=
  ((s.dropCmd c.id).complete c.fn c.q
    (s.compl c.cid status 0 (BitVec.ofNat 64 (min 255 c.runs)) loc)).answerHeld c status

/-- The batch report (spec/13 R298): 64 entries of 8 bytes in the report extent. -/
def reportBytes (es : List (Nat × Byte × Nat × Nat)) : List Byte :=
  (es ++ List.replicate (64 - es.length) (0, (0 : Byte), 0, 0)).flatMap fun (e : Nat × Byte × Nat × Nat) =>
    leBytes 8 (e.1 + e.2.1.toNat * 2 ^ 16 + e.2.2.1 * 2 ^ 24 + e.2.2.2 * 2 ^ 32)

/-- A page of a tenant space takes writes (spec/09 R219). -/
def State.writable (s : State) (t va : Nat) : Bool :=
  isWindow va || s.memc.separate || (match s.leaf t va with | some l => l.w | none => false)

/-- SCH's write of a report: bytes that no writable leaf maps, and those of a segment of another tag, go nowhere. -/
def State.wrVaW (s : State) (t va : Nat) (bs : List Byte) : State :=
  s.wrNow (bs.zipIdx.filterMap fun x => match s.access t 0 (va + x.2) false with
    | .inl pa => if s.writable t (va + x.2) && s.tagged t (va + x.2) pa then some (pa, 0xFF, x.1) else none
    | .inr _ => none)

def State.writeReport (s : State) (c : Cmd) (es : List (Nat × Byte × Nat × Nat)) : State :=
  match c.report with
  | none => s
  | some r => s.wrVaW c.fn ((c.outs.getD r (0, 0)).1) (reportBytes es)

/-- Report entries of a command that settles nothing, by slot; LEN of another tenant space's context is not shown. -/
def State.plainReport (s : State) (c : Cmd) (st : Nat → Byte) : List (Nat × Byte × Nat × Nat) :=
  c.batch.zipIdx.map fun x => (x.1, st x.2, 0, if (s.ctx x.1).tenant = c.fn then (s.ctx x.1).len else 0)

/-- Status by slot of a command that ends no context: its own in slot 0, ABORTED in the others (spec/13 R298). -/
def slotStatus (code : Byte) (k : Nat) : Byte := if k = 0 then code else stAborted

/-- The beat of a ready command's commit: the one that latches its readiness, or two after the last member's for a gang all
of whose members are ready (spec/05 R113, R122). -/
def Cmd.gangReady (c : Cmd) : Bool := decide (c.gangSize ≤ c.notices.length + 1)
def Cmd.lastReady (c : Cmd) : Nat := c.notices.foldl (fun m n => max m n.beat) (c.readyBeat + 1)
def Cmd.commitBeat (c : Cmd) : Nat := if c.gangSize = 0 then c.readyBeat + 1 else c.lastReady + 2

/-- The commit of a ready command is latched at this beat or before: an abort or a cancellation comes too late (spec/02 R44,
spec/13 R313). -/
def State.standing (s : State) (c : Cmd) : Bool := decide (c.commitBeat ≤ s.beat)

/-- Commands that name a context and are not yet dispatched complete ABORTED (spec/13 R300). -/
def State.abortQueued (s : State) (p : Cmd → Bool) : State :=
  (s.cmds.list.filter fun c => (c.st == .queued || c.st == .draining) && p c).foldl
    (fun s c => (s.writeReport c (s.plainReport c fun _ => stAborted)).completeCmd c stAborted 0) s

/-- A context ends (spec/13 R300). -/
def State.endCtx (s : State) (x : Nat) : State :=
  let c := s.ctx x
  if c.state = 0 then s
  else (s.setCtx x { c with state := 4 }).abortQueued fun k => k.batch.contains x

/-! ### Kills (spec/05 R114-R117, spec/14 R330, R331) -/

/-- The blocks taken for an operation leave the stores after its last port cycle (spec/08 R205). -/
def Cluster.clearStores (k : Cluster) (op : Nat) : Cluster :=
  { k with store := smMap [] k.store fun _ l => l.filter fun b => b.op != op }

/-- The ME operations that have begun or can begin: none before one works on its bank or takes its path; an OPZ takes none (spec/04
R84, R86). -/
def meEnding : List UnitOp → List UnitOp → List UnitOp
  | _, [] => []
  | seen, o :: os =>
    if seen.any fun e => e.bank == o.bank || (e.path == o.path && o.path != 3) then meEnding (seen ++ [o]) os
    else o :: meEnding (seen ++ [o]) os

/-- A bank after a killed operation that had begun: each element is as it was before it or as it left it, and one of an OPA's tile
may be any partial sum (spec/04 R99). -/
def Bank.stopped (fr : Nat → Nat) (o : UnitOp) (old now : Bank) : Bank :=
  { now with el := (List.range 4096).filterMap fun x =>
      let v : W32 := if o.path = 0 then
          if x / 64 < o.tile.1 ∧ x % 64 < o.tile.2 then BitVec.ofNat 32 (fr x) else smGet 0 now.el x
        else if fr x % 2 = 1 then smGet 0 now.el x else smGet 0 old.el x
      if v = 0 then none else some (x, v) }

/-- What the killed operations of a command leave in a bank: the first of them, if it had begun, what it has done; one still queued
nothing. What a later command's operations there made of it stays: they clear the bank first (spec/04 R82, R99). -/
def Cluster.stopBank (fr : Nat → Nat) (id : Nat) (k : Cluster) (m : Fin 8) (b : Nat) : Cluster :=
  let here := k.ops.filter fun o => o.unit == .me m && o.bank == b && o.path != 1 && !o.killed
  match here.find? fun o => o.cmd == id with
  | none => k
  | some o =>
    let n := 4 * m.val + b
    let now := smGet {} k.banks n
    let old := o.before.getD {}
    let after := match here.find? fun x => decide (o.id < x.id) with
      | some x => x.before.getD {}
      | none => now
    let begun := (meEnding [] (k.ops.filter fun x => x.unit == .me m && !x.killed)).any fun x => x.id == o.id
    let left := if begun then Bank.stopped (fun x => fr (4096 * n + x)) o old after else old
    match here.find? fun x => x.cmd != id && decide (o.id < x.id) with
    | some y => { k with ops := k.ops.map fun x => if x.id == y.id then { x with before := some left } else x }
    | none => { k with banks := smPut {} k.banks n left }

/-- The clusters a command runs on lose its instance and its unit operations; a CE entry stays until its drain ends. -/
def Cluster.killInst (fr : Nat → Nat) (k : Cluster) (id : Nat) : Cluster :=
  let mine := k.ops.filter fun o => o.cmd == id
  let c := mine.foldl (fun k o => k.clearStores o.id) ((List.finRange 8).foldl (fun k m =>
    (List.range 4).foldl (fun k b => if mine.any fun o => o.unit == .me m && o.bank == b then k.stopBank fr id m b else k) k) k)
  { c with
    issuing := match c.issuing with | some i => if i.cmd == id then none else some i | none => none
    draining := match c.draining with | some i => if i.cmd == id then none else some i | none => none
    asm := match c.issuing with | some i => if i.cmd == id then [] else c.asm | none => c.asm
    ops := (c.ops.filter fun o => o.cmd != id || (match o.unit with | .ce _ => true | _ => false)).map
      fun o => if o.cmd == id then { o with killed := true } else o }

/-- The runs of units a killed command's KVFs took are being returned (spec/12 R281). -/
def State.returnRuns (s : State) (c : Cmd) (i : Inst) : State :=
  i.flushes.foldl (fun s f =>
    let x := s.ctx (c.batch.getD f.slot 0)
    match s.layout c.fn x.layout with
    | some l => s.setLayout c.fn x.layout (some { l with
        units := l.units.erase (f.unit, f.units), returning := l.returning ++ [(f.unit, f.units, c.id)] })
    | none => s) s

/-- Everything a killed command held goes: its instances, operations, pending writes, signals and arrivals. -/
def State.killRun (s : State) (c : Cmd) : State :=
  if !c.inFlight then s else
  let s0 := c.insts.foldl (fun s x => s.returnRuns c x.2) (c.place.foldl (fun s g => match (s.cl g).instOf c.id with
    | some i => s.returnRuns c i | none => s) s)
  let s1 := c.place.foldl (fun s g => s.modCl g fun k => k.killInst (fun n => s0.free (2 ^ 90 + 2 ^ 18 * g + n)) c.id) s0
  let s2 := s1.landKilled c.id
  let s3 := { s2 with
    cmds := { s2.cmds with
      sigs := s2.cmds.sigs.filter fun x => x.cmd != c.id
      arrivals := s2.cmds.arrivals.filter fun x => x.cmd != c.id }
    fab := { s2.fab with waiting := s2.fab.waiting.filter fun w => w.cmd != c.id } }
  c.batch.foldl (fun s x => s.ctxIdle x) s3

/-- Whether a CE entry of a command is still taken. -/
def State.ceBusy (s : State) (id : Nat) : Bool :=
  (List.range 96).any fun g => (s.cl g).ops.any fun o => o.cmd == id

/-- The other members of a gang are told of a kill (spec/05 R123). -/
def State.tellGang (s : State) (c : Cmd) (k : GangCause) : State :=
  if c.gangSize = 0 then s else s.send (.kill s.glb.index c.fn c.gang k)

/-- A command in flight is killed and waits to run again (spec/14 R331); cause as in SCH_KILLS. -/
def State.killAgain (s : State) (c : Cmd) (cause : Nat) (tell : Bool) : State :=
    let s1 := s.killRun c
    let c1 := { c with st := if s1.ceBusy c.id then .draining else .queued, place := [], snap := [], epoch := 0, insts := [],
                       notices := [], reserved := false, xrun := false, faults := [] }
    let s2 := s1.setCmd c1
    let s3 := { s2 with sched := { s2.sched with kills := smMod 0 s2.sched.kills cause (· + 1) } }
    if tell then s3.tellGang c .rerun else s3

/-- The same for a command that is not ready; a ready one cannot be killed (spec/05 R113, R114). -/
def State.killRerun (s : State) (c : Cmd) (cause : Nat) (tell : Bool) : State :=
  if c.st == .running then s.killAgain c cause tell else s

/-- A command is killed and completes with a status; no context ends (spec/05 R116, spec/14 R331). -/
def State.killEnd (s : State) (c : Cmd) (status : Byte) (tell : Bool) : State :=
  let s1 := s.killRun c
  let s2 := s1.writeReport c (s1.plainReport c (slotStatus status))
  let s3 := s2.completeCmd c status 0
  if tell then s3.tellGang c .aborted else s3

/-- A fault ends a command: the context of the slot it is tied to ends, or every context of the batch
(spec/05 R117, spec/13 R298). -/
def State.faultCmd (s : State) (c : Cmd) (code : Byte) (slot : Option Nat) (loc : W32) (tell : Bool) : State :=
  let s1 := s.killRun c
  let st := fun k => match slot with
    | none => code
    | some j => if k = j then code else stAborted
  let s2 := s1.writeReport c (s1.plainReport c st)
  let s3 := s2.completeCmd c (st 0) loc
  let s4 := c.batch.zipIdx.foldl (fun s x => if st x.2 = code then s.endCtx x.1 else s) s3
  if tell then s4.tellGang c .faulted else s4

/-- The uncorrectable word that a command's access met, of those it read: a free one where it read several (log entry 26). -/
def State.eccMet (s : State) (ps : List Nat) (source : Nat) : State :=
  match ((ps.map fun p => s.redirect p / 32).eraseDups).filter fun w =>
      s.memc.poison.contains w || s.memc.loftBad.contains w || decide (2 ≤ smGet 0 s.memc.upset w) with
  | [] => s
  | w :: ws => s.eccError (32 * s.choose w (w :: ws)) source

/-- Addresses of a tenant space whose loft inlets are closed (spec/10 R248). -/
def State.shutTen (s : State) (t : Nat) (as : List Nat) : Bool := s.memc.rateBusy && s.shut ((s.physTen t as).map s.redirect)

/-- Reads of a groom or another source that is no CE stream enter their queues (spec/10 R235). -/
def State.pull (s : State) (t : Nat) (as : List Nat) (src : Nat := srcGroom) : State :=
  s.fetches 0 0 src false ((s.physTen t as).map s.redirect)

/-- A word that such a read could not correct counts and is logged (spec/10 R245, R247). -/
def State.logged (s : State) (t : Nat) (as : List Nat) (fs : List Byte) (src : Nat := srcGroom) : State :=
  if fs.contains fEcc then s.eccMet (s.physTen t as) (eccSource src) else s

/-- A groom's read of n bytes of a tenant space. -/
def State.schRead (s : State) (t va n : Nat) (src : Nat := srcGroom) : State × (List Byte ⊕ Byte) :=
  let as := (List.range n).map (va + ·)
  let s1 := s.pull t as src
  let r := s1.rdVa t va n
  (match r with
    | .inr e => s1.logged t as [e] src
    | .inl _ => s1, r)

/-- A fault of an instance is latched; the command ends with it at the beat's end (spec/05 R117). -/
def State.latchFault (s : State) (id : Nat) (r : FaultRec) : State :=
  match s.cmd id with
  | some c => s.setCmd { c with faults := c.faults ++ [r] }
  | none => s

/-- A fault of an instance's instruction, whose accesses read the addresses `read` (spec/05 R117, R133, spec/10 R245). -/
def State.raise (s : State) (c : Cmd) (g kind unit : Nat) (code : Byte) (slot : Option Nat) (owner : Option Nat)
    (read : List Nat := []) : State :=
  let s1 := if code = fEcc then s.eccMet (read.filterMap fun a => match s.place c.fn g a with | .phys pa => some pa | _ => none) 0
    else s
  let l := match owner with
    | some p => if code = fRemote then locPkg p else s.loc g kind unit
    | none => s.loc g kind unit
  s1.latchFault c.id { cl := g, code, slot, loc := l }

/-- The record that a completion names: the first latched on the lowest cluster (spec/05 R117). -/
def firstFault (r : FaultRec) : List FaultRec → FaultRec
  | [] => r
  | x :: xs => firstFault (if x.cl < r.cl then x else r) xs

/-- Running commands with a latched fault end (spec/05 R117). -/
def State.endFaulted (s : State) : State :=
  s.cmds.list.foldl (fun s c => match s.cmd c.id with
    | some d => match d.faults with
      | [] => s
      | r :: rs => let x := firstFault r rs
                   if d.st == .running then s.faultCmd d x.code x.slot x.loc true else s.setCmd { d with faults := [] }
    | none => s) s

/-- A command not dispatched completes with a status; no context ends (spec/15 R349). -/
def State.refuseCmd (s : State) (c : Cmd) (status : Byte) : State :=
  (s.writeReport c (s.plainReport c (slotStatus status))).completeCmd c status 0

/-! ### Signals (spec/05 R107) -/

/-- A counter of a cluster for a command: local ones belong to the instance, shared ones to the cluster. -/
def Cluster.counter (k : Cluster) (id n : Nat) : W32 :=
  if n < 32 then (match k.instOf id with | some i => smGet 0 i.ctr n | none => 0) else smGet 0 k.shared n

/-- A counter written. -/
def Cluster.setCounter (k : Cluster) (id n : Nat) (x : W32) : Cluster :=
  if n < 32 then (match k.instOf id with | some i => k.setInst { i with ctr := smPut 0 i.ctr n x } | none => k)
  else { k with shared := smPut 0 k.shared n x }

/-- A signal reaches a counter: it adds and saturates at 0xFFFF_FFFF (spec/05 R107). -/
def Cluster.signal (k : Cluster) (id n inc : Nat) : Cluster := k.setCounter id n (satAdd (k.counter id n) inc)

/-- A groom runs: its image is in service, a trial image once it has reported ready (spec/18 R390, R399). While it does not,
the hardware holds its settings. -/
def State.groomUp (s : State) (c : Nat) : Bool :=
  let g := s.groom c
  !g.faulted && (g.state == 1 || (g.state == 3 && g.ready) || (g.state == 4 && !g.down))
def State.secUp (s : State) : Bool := s.groomUp 0
def State.pwrUp (s : State) : Bool := s.groomUp 1
def State.schUp (s : State) : Bool := s.groomUp 2

/-- An act of SCH: it waits while that groom is out of service (spec/18 R390). -/
def whenSch (s t : State) : Out := if s.alive && s.schUp then .next t else .next s

/-! ### The health record's events (spec/22 R470) -/

/-- An event enters the health record; the oldest of 384 goes. -/
def State.logEvent (s : State) (code arg : Nat) : State :=
  let l := s.fls.events ++ [(s.tim.ns, code, arg)]
  { s with fls := { s.fls with events := l.drop (l.length - 384), healthDirty := true } }

/-! ### The loft late or failed (spec/09 R232, R233, spec/10 R249) -/

/-- A 2 MiB frame is spread over a loft channel: each over one under LINEAR and PAGECH, over all of them otherwise. -/
def State.onChannel (s : State) (ch n : Nat) : Bool :=
  s.isLoft (n * frameBytes) && (s.memc.loftOrder == 1 || s.memc.loftOrder == 2 || s.loftChan (n * frameBytes) == ch)

/-- Commands with a request that a failed channel does not serve fail (spec/09 R232). -/
def State.failOps (s : State) (rs : List ChReq) : State :=
  (List.range 96).foldl (fun s g => ((s.cl g).ops.filter fun o => !o.killed && rs.any fun r => r.op == o.id).foldl (fun s o =>
    match s.cmd o.cmd with
    | some c =>
      let k := match o.unit with | .me m => (0, m.val) | .vu => (1, 0) | .ce x => (2, x.val)
      if c.st == .running then s.raise c g k.1 k.2 fTier o.slot none else s
    | none => s) s) s

/-- A loft channel is marked failed: its requests fail, and its frames are lost and reported. -/
def State.failChannel (s : State) (ch : Nat) : State :=
  if s.memc.chFail.getLsbD ch then s else
    let here := fun (r : ChReq) => s.chanOf (64 * r.burst) == some (128 + ch)
    let rs := s.memc.waiting.filter here ++ (s.chan (128 + ch)).queue
    let gone := ((s.memc.frames.map (·.1)).filter (s.onChannel ch)).map fun n => (n, ch, s.tim.ns)
    let same := fun (e : Nat × Nat × Nat) => e.2.1 == ch && gone.any fun x => x.1 == e.1
    let s1 := { s with
      infl := s.infl.filter fun w => !(s.memc.waiting.any fun r => here r && w.of r)
      memc := { s.memc with
        chFail := putBit s.memc.chFail ch true, missRow := smDel s.memc.missRow ch
        waiting := s.memc.waiting.filter fun r => !here r, chans := smDel s.memc.chans (128 + ch)
        lost := (s.memc.lost.filter fun e => !same e) ++ gone
        fresh := s.memc.fresh.filter fun p => !(s.loftChan p == ch && gone.any fun x => x.1 == p / frameBytes)
        frames := smMap {} s.memc.frames fun n x => if s.onChannel ch n then { x with zeroed := false } else x } }
    let s2 := (List.range 64).foldl (fun s t =>
      let hit := (s1.ten t).leaves.flatMap fun l =>
        ((List.range (max 1 (l.size / frameBytes))).filter fun i => s1.onChannel ch (l.pa / frameBytes + i)).map
          fun i => (l.va / frameBytes + i) * frameBytes
      hit.eraseDups.foldl (fun s va => s.notice t 0x01 (BitVec.ofNat 64 va)) s) s1
    s2.failOps rs

/-- A loft request misses its deadline; the third in a row fails the channel. -/
def State.loftMiss (s : State) (ch : Nat) : State :=
  let n := smGet 0 s.memc.missRow ch + 1
  let s1 := { s with memc := { s.memc with loftTimeouts := s.memc.loftTimeouts + 1, missRow := smPut 0 s.memc.missRow ch n } }
  if 3 ≤ n then s1.failChannel ch else s1

/-- Loft requests served past their deadlines fail their commands, and three misses in a row their channel. -/
def State.settleLate (s : State) : State :=
  s.memc.late.foldl (fun u e =>
    let v := u.failOps [e.2]
    if 3 ≤ smGet 0 s.memc.missRow e.1 then v.failChannel e.1 else v) { s with memc := { s.memc with late := [] } }

/-- One event more has been latched. -/
def State.stamp (s : State) : State := { s with cmds := { s.cmds with nextSeq := s.cmds.nextSeq + 1 } }

end Sys2Proof.Machine
end

