-- ==== Sys2Proof/Machine/Operands.lean ====
section
/-! DEFINITION. Operand forms: the fields of an instruction word (spec/05 R134, spec/06 R137), the tensor descriptor and the
byte position of an element of a view (spec/07 R165-R175). -/

namespace Sys2Proof.Machine

/-! ### Fields of a word -/

def opOf (w : W64) : Nat := bits w.toNat 63 56
def fld (w : W64) (hi lo : Nat) : Nat := bits w.toNat hi lo
def fA (w : W64) : Nat := fld w 51 47
def fB (w : W64) : Nat := fld w 46 42
def fC (w : W64) : Nat := fld w 41 37
def fD (w : W64) : Nat := fld w 36 32
def low (w : W64) : Nat := fld w 31 0
/-- A bit range that an encoding reserves is 0. -/
def rsv (w : W64) (hi lo : Nat) : Bool := fld w hi lo == 0

/-! ### The descriptor (spec/07 R165, R166) -/

/-- A descriptor as an operation takes it: its fields and the register's offsets (spec/06 R138). Extents, bounds, strides
and offsets of dimensions at or above RANK are 1, 1, 0 and 0 (spec/07 R167). -/
structure Desc where
  raw : BitVec 256
  base : Nat
  fmt : Nat
  rank : Nat
  order : Nat
  rsv : Nat
  fill : Nat
  tset : Nat
  owner : Nat
  ext : List Nat
  bnd : List Nat
  str : List Nat
  off : List Int
deriving DecidableEq, Repr

/-- First bit and width of EXT, BND and STR of dimension d. -/
def extPos (d : Nat) : Nat × Nat := if d = 0 then (96, 20) else if d = 1 then (116, 20) else (136 + 10 * (d - 2), 10)
def bndPos (d : Nat) : Nat × Nat := if d = 0 then (166, 20) else if d = 1 then (186, 20) else (206 + 10 * (d - 2), 10)
def strPos (d : Nat) : Nat × Nat := (236 + 4 * d, 4)

def posBits (x : Nat) (p : Nat × Nat) : Nat := x / 2 ^ p.1 % 2 ^ p.2

def descOf (x : BitVec 256) (offs : List W32) : Desc :=
  let n := x.toNat
  let rank := bits n 54 52
  let on := fun (d : Nat) => decide (d < rank)
  let dims := List.range 5
  { raw := x, base := bits n 47 0, fmt := bits n 51 48, rank, order := bits n 61 55, rsv := bits n 63 62,
    fill := bits n 79 64, tset := bits n 85 80, owner := bits n 95 86
    ext := dims.map fun d => if on d then posBits n (extPos d) + 1 else 1
    bnd := dims.map fun d => if on d then posBits n (bndPos d) + 1 else 1
    str := dims.map fun d => if on d then posBits n (strPos d) else 0
    off := dims.map fun d => if on d then (offs.getD d 0).toInt else 0 }

/-- The descriptor register t of an instance with its offsets. -/
def Inst.desc' (i : Inst) (t : Nat) : Desc :=
  descOf (smGet 0 i.desc t) ((List.range 5).map fun d => smGet 0 i.offs (8 * t + d))

/-! ### Layout order (spec/07 R171) -/

/-- The permutation with the given lexicographic rank, drawn from the dimensions left. -/
def permOf : Nat → Nat → List Nat → List Nat
  | 0, _, _ => []
  | n + 1, r, l =>
    let f := (List.range n).foldl (fun a i => a * (i + 1)) 1
    let d := l.getD (r / f) 0
    d :: permOf n (r % f) (l.erase d)

/-- π(0) … π(4). -/
def Desc.perm (d : Desc) : List Nat := permOf 5 d.order [0, 1, 2, 3, 4]
def Desc.inner (d : Desc) : Nat := d.perm.getD 0 0

/-! ### Lengths and pitches (spec/07 R170, spec/03 R56, R61) -/

/-- Bytes that n elements occupy along position 0. -/
def lenBytes (f n : Nat) : Nat :=
  if f = 10 then n / 1024 * 1056 + (if n % 1024 = 0 then 0 else 32 + 32 * ceilDiv (n % 1024) 32)
  else if f = 11 then n / 1024 * 544 + (if n % 1024 = 0 then 0 else 32 + 16 * ceilDiv (n % 1024) 32)
  else n * fmtWidth f / 8

/-- Bit position of element x along position 0, from the start of its run, and its scale byte. -/
def locBits (f x : Nat) : Nat × Option Nat :=
  if f = 10 then (8 * (x / 1024 * 1056 + 32 + 32 * (x % 1024 / 32) + x % 32), some (x / 1024 * 1056 + x % 1024 / 32))
  else if f = 11 then (8 * (x / 1024 * 544 + 32 + 16 * (x % 1024 / 32)) + 4 * (x % 32), some (x / 1024 * 544 + x % 1024 / 32))
  else (fmtWidth f * x, none)

/-- Pitches of positions 1-4 with the span of the whole, given the span below (spec/07 R170). -/
def pitchesFrom (d : Desc) : Nat → List Nat → List Nat × Nat
  | span, [] => ([], span)
  | span, p :: ps =>
    let pitch := roundUp span (2 ^ d.str.getD p 0)
    let r := pitchesFrom d (pitch * d.bnd.getD p 1) ps
    (pitch :: r.1, r.2)

def Desc.span0 (d : Desc) : Nat := lenBytes d.fmt (d.bnd.getD d.inner 1)
def Desc.pitches (d : Desc) : List Nat := (pitchesFrom d d.span0 (d.perm.drop 1)).1

/-- Gaps between runs: some pitch exceeds the span below it (spec/08 R189). -/
def Desc.gaps (d : Desc) : Bool :=
  let spans := (d.perm.drop 1).zip d.pitches |>.map fun x => x.2 * d.bnd.getD x.1 1
  (d.pitches.zip (d.span0 :: spans)).any fun x => decide (x.2 < x.1)

/-! ### Positions (spec/07 R169, R170) -/

/-- Where an element lies: raw byte offset from BASE of its first byte, bit within it, byte offset of its scale; with the first
element of the last block of a short group, the scale bytes of the blocks the group lacks (spec/03 R61). -/
structure Loc where
  byte : Nat
  bit : Nat
  scale : Option Nat
  pad : List Nat := []
deriving DecidableEq, Repr

/-- Coordinates of view indices. -/
def Desc.coords (d : Desc) (ix : List Int) : List Int := (List.range 5).map fun k => d.off.getD k 0 + ix.getD k 0

/-- In bounds by the bounds alone. -/
def Desc.inBound (d : Desc) (c : List Int) : Bool :=
  (List.range 5).all fun k => decide (0 ≤ c.getD k 0) && decide (c.getD k 0 < (d.bnd.getD k 1 : Int))

/-- Within the view, dimension `skip` not regarded (an OPA's k, spec/07 R169; 9 for none). -/
def Desc.inView (d : Desc) (skip : Nat) (ix : List Int) : Bool :=
  (List.range 5).all fun k => k == skip || (decide (0 ≤ ix.getD k 0) && decide (ix.getD k 0 < (d.ext.getD k 1 : Int)))

/-- Offsets of the scale bytes of missing blocks that element x of a run of n goes with. -/
def padBytes (f n x : Nat) : List Nat :=
  if fmtBlock f && x % 32 == 0 && x / 32 + 1 == ceilDiv n 32 then
    ((List.range 32).drop (ceilDiv n 32 - x / 1024 * 32)).map fun j => x / 1024 * (if f = 10 then 1056 else 544) + j
  else []

/-- Location of the element at in-bounds coordinates. -/
def Desc.locOf (d : Desc) (c : List Int) : Loc :=
  let x := (c.getD d.inner 0).toNat
  let outer := sumN (((d.perm.drop 1).zip d.pitches).map fun p => (c.getD p.1 0).toNat * p.2)
  let l := locBits d.fmt x
  { byte := outer + l.1 / 8, bit := l.1 % 8, scale := l.2.map (outer + ·)
    pad := (padBytes d.fmt (d.bnd.getD d.inner 1) x).map (outer + ·) }

/-- The location of a view index; none when it is out of bounds. -/
def Desc.at (d : Desc) (skip : Nat) (ix : List Int) : Option Loc :=
  let c := d.coords ix
  if d.inView skip ix && d.inBound c then some (d.locOf c) else none

/-- Bytes the element covers, as raw offsets: its own, then its scale. -/
def Loc.bytes (l : Loc) (f : Nat) : List Nat :=
  (List.range (ceilDiv (l.bit + fmtWidth f) 8)).map (l.byte + ·) ++ l.scale.toList

/-! ### The view as a list of indices -/

/-- All view indices of all five dimensions, dimension 0 fastest. -/
def indexList : List Nat → List (List Int)
  | [] => [[]]
  | n :: ns => (indexList ns).flatMap fun r => (List.range n).map fun (i : Nat) => Int.ofNat i :: r

def Desc.indices (d : Desc) : List (List Int) := indexList d.ext

/-- The lowest and highest in-bounds view index of dimension k, if any. -/
def Desc.clip (d : Desc) (k : Nat) : Option (Int × Int) :=
  let o := d.off.getD k 0
  let lo := if o < 0 then -o else 0
  let hiB := (d.bnd.getD k 1 : Int) - 1 - o
  let hiE := (d.ext.getD k 1 : Int) - 1
  let hi := if hiB < hiE then hiB else hiE
  if lo ≤ hi then some (lo, hi) else none

/-! ### Slots of a coded tensor (spec/08 R191, R192) -/

/-- Raw span S, slot pitch P and elements per block B of a format. -/
def spanOf (f : Nat) : Nat := if f = 5 ∨ f = 6 then 3072 else 4096
def pitchOf (f : Nat) : Nat := if f = 5 ∨ f = 6 then 3136 else 4160
def blockElems (f : Nat) : Nat := spanOf f * 8 / fmtWidth f

/-- Byte extent of the view as absolute addresses, empty when no position is in bounds (spec/07 R183, spec/08 R192). -/
def Desc.extent (d : Desc) : Nat × Nat :=
  let cl := (List.range 5).map d.clip
  if cl.any Option.isNone then (d.base, 0) else
    let lo := cl.map fun c => (c.getD (0, 0)).1
    let hi := cl.map fun c => (c.getD (0, 0)).2
    let a := d.locOf (d.coords lo)
    let b := d.locOf (d.coords hi)
    let first := match a.scale with | some x => min x a.byte | none => a.byte
    let last := b.byte + ceilDiv (b.bit + fmtWidth d.fmt) 8
    if d.tset = 0 ∨ fmtBlock d.fmt then (d.base + first, last - first)
    else
      let p := pitchOf d.fmt
      let n0 := a.byte / spanOf d.fmt
      let n1 := b.byte / spanOf d.fmt
      (d.base + n0 * p, (n1 + 1 - n0) * p)

/-! ### Checks at use (spec/07 R167, R172, spec/03 R57, spec/08 R189) -/

def baseAlign (f : Nat) : Nat := if f = 0 then 4 else if f ≤ 2 then 2 else if fmtBlock f then 32 else 1
def boundUnit (f : Nat) : Nat := if fmtBlock f then 32 else if f = 7 ∨ f = 9 then 2 else if f = 5 ∨ f = 6 then 4 else 1

/-- Faults a use of the descriptor meets at issue; `owner` allows an owner reference. -/
def State.descFaults (s : State) (t : Nat) (owner : Bool) (d : Desc) : List Byte :=
  (if d.rank = 0 then [fInstruction] else
    (if 5 < d.rank ∨ 119 < d.order ∨ d.rsv ≠ 0 then [fInstruction] else [])
    ++ (if 11 < d.fmt then [fFormat] else
        (if d.bnd.getD d.inner 1 % boundUnit d.fmt ≠ 0 then [fFormat] else [])
        ++ (if d.base % baseAlign d.fmt ≠ 0 then [fFormat] else [])
        ++ (if d.tset = 0 then [] else
            (if fmtBlock d.fmt then [fFormat] else [])
            ++ (if (s.tset t d.tset).isNone then [fFormat] else [])
            ++ (if d.base % 64 ≠ 0 then [fFormat] else [])
            ++ (if d.gaps then [fFormat] else [])))
    ++ (if d.owner ≠ 0 ∧ owner = false then [fInstruction] else []))

/-- The fill value as an element of the descriptor's format: bits and scale (spec/07 R174). -/
def Desc.fillElem (d : Desc) : Nat × Nat :=
  let v := floatVal 1 d.fill
  if fmtBlock d.fmt then
    let b := toBlock (fun _ => .nearest) d.fmt (List.replicate 32 v)
    ((b.2.getD 0 { bits := 0 }).bits, b.1)
  else ((toFmt .nearest d.fmt 0 v).bits, 0)

def Desc.fillVal (d : Desc) : Val :=
  let e := d.fillElem
  elemVal d.fmt e.1 e.2

/-- Bits of an element out of the bytes it covers, lowest first. -/
def elemBits (bs : List Byte) (bit w : Nat) : Nat := leNat bs / 2 ^ bit % 2 ^ w

/-- The writes of an element's bits at absolute address a: byte address, mask, value (spec/07 R175). -/
def elemWrites (a bit w x : Nat) : List (Nat × Byte × Byte) :=
  let n := ceilDiv (bit + w) 8
  let m := (2 ^ w - 1) * 2 ^ bit
  let v := (x % 2 ^ w) * 2 ^ bit
  (List.range n).map fun i => (a + i, BitVec.ofNat 8 (m / 256 ^ i), BitVec.ofNat 8 (v / 256 ^ i))

end Sys2Proof.Machine
end

