-- ==== Sys2Proof/Machine/Blocks.lean ====
section
/-! DEFINITION. Exponent coding: the check sum, code tables, block headers, decoding and encoding of one block (spec/08). -/

namespace Sys2Proof.Machine

/-! ### Alphabets (spec/08 R190, R191) -/

def symZero (f : Nat) : Nat := 2 ^ expBits f
def symEsc (f : Nat) : Nat := 2 ^ expBits f + 1
def numSyms (f : Nat) : Nat := 2 ^ expBits f + 2
def rawBits (f : Nat) : Nat := 1 + manBits f

/-- Exponent field and raw field of an element. -/
def expField (f x : Nat) : Nat := x / 2 ^ manBits f % 2 ^ expBits f
def rawField (f x : Nat) : Nat := x / 2 ^ (manBits f + expBits f) % 2 * 2 ^ manBits f + x % 2 ^ manBits f
/-- The element of an exponent field and a raw field. -/
def elemOf (f v r : Nat) : Nat :=
  r / 2 ^ manBits f % 2 * 2 ^ (manBits f + expBits f) + v * 2 ^ manBits f + r % 2 ^ manBits f

/-! ### Table records (spec/08 R196, R197) -/

def recFmt (r : List Byte) : Nat := bits (fieldN r 0 1) 3 0
def recValid (r : List Byte) : Bool := bitN (fieldN r 0 1) 7
def recTtag (r : List Byte) : Nat := fieldN r 4 4
def recLen (r : List Byte) (s : Nat) : Nat := bits (fieldN r (8 + s / 2) 1) (4 * (s % 2) + 3) (4 * (s % 2))
def recLens (r : List Byte) (n : Nat) : List Nat := (List.range n).map (recLen r)

/-- TTAG: CRC-32C over byte 0 followed by bytes 8-136. -/
def ttagOf (r : List Byte) : W32 := crc32c (r.take 1 ++ (r.drop 8).take 129)

/-- A record of lengths for a format, VALID, with its TTAG. -/
def mkRecord (f : Nat) (lens : List Nat) : List Byte :=
  let len := (List.range 129).map fun i => BitVec.ofNat 8 (lens.getD (2 * i) 0 % 16 + 16 * (lens.getD (2 * i + 1) 0 % 16))
  let b0 : Byte := BitVec.ofNat 8 (f % 16 + 128)
  [b0, 0, 0, 0] ++ leBytes 4 (crc32c (b0 :: len)).toNat ++ len ++ List.replicate 119 0

/-- Lengths of at most 12 bits, ZERO and ESC coded, Kraft equality, nothing beyond the alphabet (spec/08 R196). -/
def lensOk (f : Nat) (lens : List Nat) : Bool :=
  lens.all (fun l => decide (l ≤ 12)) && lens.getD (symZero f) 0 != 0 && lens.getD (symEsc f) 0 != 0
    && (lens.drop (numSyms f)).all (· == 0)
    && sumN (lens.map fun l => if l = 0 then 0 else 2 ^ (12 - l)) == 4096

/-- A record that a host upload may install (spec/08 R196-R198). -/
def recordOk (r : List Byte) : Bool :=
  zerosN r 1 4 && zerosN r 137 256 && bits (fieldN r 0 1) 6 4 == 0 &&
    (!recValid r || (fmtFloat (recFmt r) && lensOk (recFmt r) (recLens r 258)))

/-- The canonical code of each coded symbol: symbol, length, code (spec/08 R196). -/
def codesAt (lens : List Nat) (l : Nat) : Nat → List Nat → List (Nat × Nat × Nat) × Nat
  | c, [] => ([], c)
  | c, s :: ss =>
    if lens.getD s 0 = l then let r := codesAt lens l (c + 1) ss
                              ((s, l, c) :: r.1, r.2)
    else codesAt lens l c ss

def codesFrom (lens : List Nat) : Nat → Nat → List (Nat × Nat × Nat)
  | 0, _ => []
  | n + 1, c =>
    let r := codesAt lens (12 - n) c (List.range lens.length)
    r.1 ++ codesFrom lens n (2 * r.2)

def codesOf (lens : List Nat) : List (Nat × Nat × Nat) := codesFrom lens 12 0

/-! ### Headers (spec/08 R193, R209, R210) -/

structure Hdr where
  kind : Nat
  format : Nat
  table : Nat
  elems : Nat
  expWords : Nat
  manWords : Nat
  ttag : Nat
  crc : Nat
  rsv : Nat
deriving DecidableEq, Repr

def hdrOf (h : List Byte) : Hdr :=
  let x := fieldN h 0 8
  { kind := bits x 1 0, format := bits x 5 2, table := bits x 8 6, elems := bits x 29 16, expWords := bits x 42 32,
    manWords := bits x 53 43, ttag := fieldN h 8 4, crc := fieldN h 12 4,
    rsv := bits x 15 9 + bits x 31 30 + bits x 63 54 }

/-- The first 12 bytes of a header. -/
def hdrBytes (h : Hdr) : List Byte :=
  leBytes 8 (h.kind + h.format * 2 ^ 2 + h.table * 2 ^ 6 + h.elems * 2 ^ 16 + h.expWords * 2 ^ 32 + h.manWords * 2 ^ 43)
    ++ leBytes 4 h.ttag

/-- Record i of a table set, empty where none was written. -/
def TableSet.record (t : TableSet) (i : Nat) : List Byte := smGet [] t.records i

/-- Faults of a header against a descriptor's format and table set (spec/08 R209, R210). -/
def hdrFaults (f : Nat) (ts : Option TableSet) (h : Hdr) : List Byte :=
  let r := match ts with | some t => t.record h.table | none => []
  (if 2 ≤ h.kind ∨ h.rsv ≠ 0 ∨ h.format ≠ f then [fStreamCheck] else [])
  ++ (if h.kind = 0 ∧ !(recValid r && recFmt r == f && recTtag r == h.ttag && fmtFloat f) then [fStreamCheck] else [])
  ++ (if h.kind = 1 ∧ (h.table ≠ 0 ∨ h.ttag ≠ 0) then [fStreamCheck] else [])
  ++ (if h.elems = 0 ∨ blockElems f < h.elems ∨ pitchOf f < 16 + 4 * (h.expWords + h.manWords) then [fStreamSize] else [])
  ++ (if h.kind = 1 ∧ (h.expWords ≠ 0 ∨ h.manWords ≠ ceilDiv (h.elems * fmtWidth f) 32) then [fStreamSize] else [])

/-! ### Decoding (spec/08 R194, R209-R212) -/

/-- The bits of a section in order. -/
def sectionBits (bs : List Byte) : List Bool := bs.flatMap fun b => (List.range 8).map fun i => b.getLsbD i

/-- A number of bits read most significant first. -/
def takeMsb : Nat → Nat → List Bool → Option (Nat × List Bool)
  | 0, a, bs => some (a, bs)
  | n + 1, a, b :: bs => takeMsb n (2 * a + b2n b) bs
  | _ + 1, _, [] => none

/-- A number of bits read least significant first. -/
def takeLsb : Nat → List Bool → Option (Nat × List Bool)
  | 0, bs => some (0, bs)
  | n + 1, b :: bs => (takeLsb n bs).map fun r => (b2n b + 2 * r.1, r.2)
  | _ + 1, [] => none

/-- One code: its symbol and the bits after it. -/
def takeCode (cs : List (Nat × Nat × Nat)) : Nat → Nat → Nat → List Bool → Option (Nat × List Bool)
  | 0, _, _, _ => none
  | n + 1, l, c, b :: bs =>
    let c1 := 2 * c + b2n b
    match cs.find? fun x => x.2.1 == l + 1 && x.2.2 == c1 with
    | some x => some (x.1, bs)
    | none => takeCode cs n (l + 1) c1 bs
  | _ + 1, _, _, [] => none

/-- n elements of a coded block: the elements and what is left of both sections; none on an overrun. -/
def decodeElems (f : Nat) (cs : List (Nat × Nat × Nat)) : Nat → List Bool → List Bool →
    Option (List Nat × List Bool × List Bool)
  | 0, e, m => some ([], e, m)
  | n + 1, e, m =>
    match takeCode cs 12 0 0 e with
    | none => none
    | some (sy, e1) =>
      if sy = symZero f then (decodeElems f cs n e1 m).map fun r => (0 :: r.1, r.2)
      else
        match (if sy = symEsc f then takeMsb (expBits f) 0 e1 else some (sy, e1)) with
        | none => none
        | some (v, e2) =>
          match takeLsb (rawBits f) m with
          | none => none
          | some (r, m1) => (decodeElems f cs n e2 m1).map fun x => (elemOf f v r :: x.1, x.2)

/-- Bits left in a section are too many or not zero (spec/08 R210). -/
def leftBad (l : List Bool) : Bool := decide (32 ≤ l.length) || l.any id

/-- Elements of raw bytes of a format. -/
def rawElems (f n : Nat) (bs : List Byte) : List Nat :=
  let w := fmtWidth f
  (List.range n).map fun i => elemBits ((bs.drop (i * w / 8)).take (ceilDiv (i * w % 8 + w) 8)) (i * w % 8) w

/-- A block decoded against a table set: its elements, and the faults met. `bs` is the slot's header and payload. -/
def decodeBlock (f : Nat) (ts : Option TableSet) (bs : List Byte) : List Nat × List Byte :=
  let h := hdrOf bs
  let hf := hdrFaults f ts h
  if !hf.isEmpty then ([], hf) else
    let payload := (bs.drop 16).take (4 * (h.expWords + h.manWords))
    let bad := crc32c (bs.take 12 ++ payload) != BitVec.ofNat 32 h.crc
    if h.kind = 1 then
      let el := rawElems f h.elems payload
      (el, if bad then [fStreamCheck]
        else if ((sectionBits payload).drop (h.elems * fmtWidth f)).any id then [fStreamSize] else [])
    else
      let lens := match ts with | some t => recLens (t.record h.table) (numSyms f) | none => []
      match decodeElems f (codesOf lens) h.elems (sectionBits (payload.take (4 * h.expWords)))
          (sectionBits (payload.drop (4 * h.expWords))) with
      | none => ([], [fStreamSize])
      | some (el, e, m) => (el, if bad then [fStreamCheck] else if leftBad e || leftBad m then [fStreamSize] else [])

/-! ### Encoding (spec/08 R190, R201, R202) -/

def bitsMsb (n x : Nat) : List Bool := (List.range n).reverse.map fun i => bitN x i
def bitsLsb (n x : Nat) : List Bool := (List.range n).map fun i => bitN x i

/-- The symbol of an element, by its exponent alone (spec/08 R190, R199). -/
def symOf (f x : Nat) : Nat := if x = 0 then symZero f else expField f x

/-- Coded-exponent bits of an element under lengths. -/
def codeBits (f : Nat) (lens : List Nat) (cs : List (Nat × Nat × Nat)) (x : Nat) : List Bool :=
  let cw := fun s => match cs.find? fun c => c.1 == s with
    | some c => bitsMsb c.2.1 c.2.2
    | none => []
  let s := symOf f x
  if lens.getD s 0 ≠ 0 then cw s else cw (symEsc f) ++ bitsMsb (expBits f) (expField f x)

/-- Bytes of a list of bits, padded with zeros to whole words. -/
def packByte (l : List Bool) : Byte := BitVec.ofNat 8 (l.foldr (fun b a => b2n b + 2 * a) 0)
def packBytes : Nat → List Bool → List Byte
  | 0, _ => []
  | n + 1, l => packByte (l.take 8) :: packBytes n (l.drop 8)
def packWords (l : List Bool) : List Byte := packBytes (4 * ceilDiv l.length 32) l

/-- Header and payload of a block of a kind. -/
def slotBytes (h : Hdr) (payload : List Byte) : List Byte :=
  let h12 := hdrBytes h
  h12 ++ leBytes 4 (crc32c (h12 ++ payload)).toNat ++ payload

/-- A stored block of elements. -/
def storedBlock (f : Nat) (el : List Nat) : List Byte :=
  let payload := packWords (el.flatMap (bitsLsb (fmtWidth f)))
  slotBytes { kind := 1, format := f, table := 0, elems := el.length, expWords := 0, manWords := payload.length / 4,
              ttag := 0, crc := 0, rsv := 0 } payload

/-- Both sections of a block of elements under a record. -/
def codedSections (f : Nat) (r : List Byte) (el : List Nat) : List Byte × List Byte :=
  let lens := recLens r (numSyms f)
  let cs := codesOf lens
  (packWords (el.flatMap (codeBits f lens cs)),
   packWords ((el.filter (· != 0)).flatMap fun x => bitsLsb (rawBits f) (rawField f x)))

/-- A block encoded with record `i` of a set, or stored when it gains too little: the slot's bytes and whether it is coded
(spec/08 R201). -/
def encodeBlock (f : Nat) (ts : TableSet) (i : Nat) (el : List Nat) : List Byte × Bool :=
  let r := ts.record i
  let x := codedSections f r el
  let size := x.1.length + x.2.length
  let raw := ceilDiv (el.length * fmtWidth f) 8
  if fmtFloat f && decide (size ≤ raw) && decide (ts.minGain * raw ≤ 64 * (raw - size)) then
    (slotBytes { kind := 0, format := f, table := i, elems := el.length, expWords := x.1.length / 4,
                 manWords := x.2.length / 4, ttag := recTtag r, crc := 0, rsv := 0 } (x.1 ++ x.2), true)
  else (storedBlock f el, false)

/-- The record that sizes a block smallest among those a mask allows; none qualifies: none (spec/08 R202). -/
def bestRecord (f : Nat) (ts : TableSet) (mask : Nat) (el : List Nat) : Option Nat :=
  let ok := (List.range 8).filter fun i => bitN mask i && recValid (ts.record i) && recFmt (ts.record i) == f
  let size := fun i => let x := codedSections f (ts.record i) el
                       x.1.length + x.2.length
  match ok with
  | [] => none
  | i :: is => some (is.foldl (fun a j => if size j < size a then j else a) i)

/-- A block encoded as ACCS and KVF do it. -/
def encodeBest (f : Nat) (ts : TableSet) (mask : Nat) (el : List Nat) : List Byte × Bool :=
  match bestRecord f ts mask el with
  | some i => encodeBlock f ts i el
  | none => (storedBlock f el, false)

/-! ### Building a table (spec/08 R200) -/

/-- Insertion into a list sorted by weight. -/
def insW (x : Nat × List Nat) : List (Nat × List Nat) → List (Nat × List Nat)
  | [] => [x]
  | y :: ys => if x.1 < y.1 then x :: y :: ys else y :: insW x ys

def pairUp : List (Nat × List Nat) → List (Nat × List Nat)
  | a :: b :: l => (a.1 + b.1, a.2 ++ b.2) :: pairUp l
  | _ => []

/-- The coins of one level merged with the packages below it, `n` levels. -/
def packages (coins : List (Nat × List Nat)) : Nat → List (Nat × List Nat)
  | 0 => coins
  | n + 1 => (pairUp (packages coins n)).foldl (fun l p => insW p l) coins

/-- Lengths of least cost within 12 bits for counts (package-merge). -/
def bestLens (counts : List Nat) : List Nat :=
  let coins := (counts.zipIdx.filter fun c => c.1 != 0).foldl (fun l c => insW (c.1, [c.2]) l) []
  let used := ((packages coins 11).take (2 * coins.length - 2)).flatMap (·.2)
  (List.range counts.length).map fun s => (used.filter (· == s)).length

/-- Coded-exponent bits of counts under lengths; a symbol without a code is escaped, with its exponent as a literal. -/
def lensCost (f : Nat) (counts lens : List Nat) : Nat :=
  let esc := lens.getD (symEsc f) 0 + expBits f
  sumN ((counts.zip lens).map fun x => x.1 * (if x.2 = 0 then esc else x.2))

/-- The counts with ZERO and ESC raised to at least 1. -/
def raisedCounts (f : Nat) (counts : List Nat) : List Nat :=
  counts.zipIdx.map fun c => if c.2 = symZero f ∨ c.2 = symEsc f then max 1 c.1 else c.1

/-- The counts with the n rarest of a list of symbols, rarest first, left to ESC. -/
def escaped (f : Nat) (counts rare : List Nat) (n : Nat) : List Nat :=
  let out := rare.take n
  let more := sumN (out.map fun s => counts.getD s 0)
  counts.zipIdx.map fun c => if out.contains c.2 then 0 else if c.2 = symEsc f then c.1 + more else c.1

/-- The best of a list of lengths. -/
def cheapest (f : Nat) (counts best : List Nat) : List (List Nat) → List Nat
  | [] => best
  | l :: ls => cheapest f counts (if lensCost f counts l < lensCost f counts best then l else best) ls

/-- Lengths of the fewest coded-exponent bits: the rarest symbols go without a code where their escapes cost less. -/
def fewestBits (f : Nat) (counts : List Nat) : List Nat :=
  let syms := (counts.zipIdx.filter fun c => c.1 != 0 && c.2 != symZero f && c.2 != symEsc f).foldl
    (fun l c => insW (c.1, [c.2]) l) []
  let rare := syms.flatMap (·.2)
  cheapest f counts (bestLens counts) ((List.range (rare.length + 1)).map fun n => bestLens (escaped f counts rare n))

/-- The lengths that TABLE builds: any valid ones of the least cost; which of equal ones is open (log entry 19). -/
def tableLens (f : Nat) (free : Nat → Nat) (counts : List Nat) : List Nat :=
  let cs := raisedCounts f counts
  let best := fewestBits f cs
  let cand := (List.range (numSyms f)).map fun s => free s % 13
  if lensOk f cand && decide (lensCost f cs cand ≤ lensCost f cs best) then cand else best

end Sys2Proof.Machine
end

