-- ==== Sys2Proof/Machine/Elements.lean ====
section
/-! DEFINITION. Reading and writing the elements of a view: raw bytes and coded blocks, the checks at issue and at access,
the writes an operation makes (spec/05 R120, R133, spec/07 R168-R176, spec/08 R192, R205). -/

namespace Sys2Proof.Machine

/-- Counters of Inst.delta. -/
def kAcc : Nat := 0
def kNotReady : Nat := 1
def kExpStall : Nat := 2
def kConflict : Nat := 3
def kThrottle : Nat := 4
def kAccsCoded : Nat := 5
def kAccsStored : Nat := 6
def kSat : Nat := 7
def kNanZero : Nat := 8
def kOob : Nat := 9
def kCeCoded : Nat := 10
def kCeStored : Nat := 11

def Inst.count (i : Inst) (k n : Nat) : Inst := { i with delta := smMod 0 i.delta k fun x => x + BitVec.ofNat 64 n }

/-- Saturations and zeroed NaNs of conversions that are written (spec/03 R66). -/
def Inst.countConv (i : Inst) (cs : List Conv) : Inst :=
  (i.count kSat (cs.filter (·.sat)).length).count kNanZero (cs.filter (·.nanz)).length

/-- A requester: tenant space, cluster, and the writers whose earlier writes it sees in order (spec/05 R125). -/
structure Who where
  t : Nat
  g : Nat
  ord : BitVec 14

/-- Order masks of the requesters of a cluster. Every read of the VU, a VPERM gather's, VMASK's and VSAMP's too, follows the copy
streams' writes that its cluster issued before it (spec/05 R125, spec/07 R180, log entry 99). -/
def ordMe : BitVec 14 := 0b11110000000000
def ordVu : BitVec 14 := 0b11110100000000
def ordSeq : BitVec 14 := 0b00001000000000
def ordCe (stream : Nat) : BitVec 14 := BitVec.ofNat 14 (2 ^ (10 + stream))
/-- FENCE mask bits of the writers (spec/06 R162). -/
def wVst : Nat := 8
def wSts : Nat := 9
def wCe (stream : Nat) : Nat := 10 + stream

/-! ### Reads -/

/-- One byte at its access: the byte and the fault met. -/
def State.readB (s : State) (w : Who) (va : Nat) : Byte × List Byte :=
  match s.access w.t w.g va true with
  | .inr f => (0, [f])
  | .inl pa => (s.see w.g w.ord pa, [])

def State.readBs (s : State) (w : Who) : List Nat → List Byte × List Byte
  | [] => ([], [])
  | a :: as =>
    let b := s.readB w a
    let r := s.readBs w as
    (b.1 :: r.1, b.2 ++ r.2)

def addrs (a n : Nat) : List Nat := (List.range n).map (a + ·)

/-- Slot n of a coded tensor. -/
def Desc.slot (d : Desc) (n : Nat) : Nat := d.base + n * pitchOf d.fmt
def Desc.isCoded (d : Desc) : Bool := d.tset != 0
/-- The block that holds a raw position, and the element's number in it (spec/08 R192). -/
def Desc.blockNo (d : Desc) (l : Loc) : Nat := l.byte / spanOf d.fmt
def Desc.blockIx (d : Desc) (l : Loc) : Nat := (l.byte % spanOf d.fmt * 8 + l.bit) / fmtWidth d.fmt

/-- The blocks a list of positions touches, in order of first use. -/
def Desc.blocks (d : Desc) (ls : List (Option Loc)) : List Nat :=
  (ls.filterMap fun l => l.map d.blockNo).eraseDups

/-- A block read and decoded: its elements and the faults met (spec/08 R205, R209-R211). -/
def State.readBlock (s : State) (w : Who) (d : Desc) (n : Nat) : List Nat × List Byte :=
  let a := d.slot n
  let h := s.readBs w (addrs a 16)
  if !h.2.isEmpty then ([], h.2) else
    let hd := hdrOf h.1
    let ts := s.tset w.t d.tset
    let hf := hdrFaults d.fmt ts hd
    if !hf.isEmpty then ([], hf) else
      let p := s.readBs w (addrs (a + 16) (4 * (hd.expWords + hd.manWords)))
      if !p.2.isEmpty then ([], p.2) else decodeBlock d.fmt ts (h.1 ++ p.1)

/-- An element as read: its bits and its block's scale. -/
abbrev El := Nat × Nat

/-- The elements at a list of positions, the fill value out of bounds, and the faults met. -/
def State.readView (s : State) (w : Who) (d : Desc) (ls : List (Option Loc)) : List El × List Byte :=
  let fill := d.fillElem
  if d.isCoded then
    let bs := (d.blocks ls).map fun n => (n, s.readBlock w d n)
    (ls.map fun l => match l with
      | none => fill
      | some l => match bs.find? fun b => b.1 == d.blockNo l with
        | some b => match b.2.1[d.blockIx l]? with
          | some x => (x, 0)
          | none => fill
        | none => fill,
     bs.flatMap fun b => b.2.2)
  else
    let rs := ls.map fun l => match l with
      | none => (fill, [])
      | some l =>
        let n := ceilDiv (l.bit + fmtWidth d.fmt) 8
        let r := s.readBs w ((l.bytes d.fmt).map (d.base + ·))
        ((elemBits (r.1.take n) l.bit (fmtWidth d.fmt), if fmtBlock d.fmt then ((r.1.getD n 0).toNat) else 0), r.2)
    (rs.map (·.1), rs.flatMap (·.2))

/-- The addresses a list of positions touches: bytes, or whole slots of a coded tensor (spec/07 R183). -/
def Desc.touched (d : Desc) (ls : List (Option Loc)) : List Nat :=
  if d.isCoded then (d.blocks ls).flatMap fun n => addrs (d.slot n) (pitchOf d.fmt)
  else ls.flatMap fun l => match l with
    | none => []
    | some l => (l.bytes d.fmt).map (d.base + ·)

/-- Faults of reads and writes checked at issue (spec/05 R120, spec/04 R97). -/
def State.rdChecks (s : State) (c : Cmd) (g : Nat) (as : List Nat) : List Byte := as.flatMap (s.rdIssue c g)
def State.wrChecks (s : State) (c : Cmd) (g : Nat) (as : List Nat) : List Byte := as.flatMap (s.wrIssue c g)

/-- The address lies in the issuing cluster's own buffer window (spec/07 R176). -/
def State.ownAddr (s : State) (g va : Nat) : Bool :=
  isWindow va && (bits va 30 23 == g || (bits va 30 23 == 255 && bitN va 31))
    && (bitN va 31 || (if va / 2 ^ 40 == 0xF0 then bits va 35 32 else 0) == s.glb.index)

/-- A view outside the issuing cluster's own buffer (spec/07 R176). -/
def State.ownFaults (s : State) (g : Nat) (d : Desc) (ls : List (Option Loc)) : List Byte :=
  if s.ownAddr g d.base && (d.touched ls).all (s.ownAddr g) then [] else [fInstruction]

/-- An address names another package's buffer (spec/07 R188). -/
def State.otherPkg (s : State) (g va : Nat) : Bool :=
  isWindow va && (match s.window g va with | .remote _ => true | _ => false)

/-! ### The four-block store (spec/08 R205) -/

/-- The blocks that port cycles need, in the order they enter the store: each with the first and the last cycle that needs it. -/
def blockSpans (cycles : List (List Nat)) : List (Nat × Nat × Nat) :=
  let n := cycles.length
  ((cycles.flatMap id).eraseDups).map fun b =>
    (b, (indexOf (fun c : List Nat => c.contains b) cycles).getD 0,
     n - 1 - (indexOf (fun c : List Nat => c.contains b) cycles.reverse).getD 0)

/-- The most blocks the store holds at once, for the blocks each port cycle needs. -/
def maxHeld (cycles : List (List Nat)) : Nat :=
  let span := blockSpans cycles
  (List.range cycles.length).foldl (fun m t =>
    max m (span.filter fun x => decide (x.2.1 ≤ t) && decide (t ≤ x.2.2)).length) 0

/-- What an expander is to take for an operand read over port cycles; a raw one takes no block (spec/08 R206). -/
def feedOf (x : Nat) (d : Desc) (cycles : List (List (Option Loc))) : List Feed :=
  if d.isCoded then [{ exp := x, desc := d.raw, todo := blockSpans (cycles.map d.blocks) }] else []

/-- Positions cut into port cycles of n. -/
def cutEvery (n : Nat) : Nat → List α → List (List α)
  | 0, _ => []
  | _, [] => []
  | k + 1, l => l.take n :: cutEvery n k (l.drop n)
def cutN (n : Nat) (l : List α) : List (List α) := cutEvery n (l.length + 1) l

def storeFaults (d : Desc) (cycles : List (List (Option Loc))) : List Byte :=
  if d.isCoded && decide (4 < maxHeld (cycles.map d.blocks)) then [fFormat] else []

/-! ### Writes -/

/-- The writes of an element at a position: bits, and the scale of its block (spec/07 R175). -/
def Desc.elWrites (d : Desc) (l : Loc) (x : El) : List (Nat × Byte × Byte) :=
  elemWrites (d.base + l.byte) l.bit (fmtWidth d.fmt) x.1
    ++ (match l.scale with | some a => [(d.base + a, 0xFF, BitVec.ofNat 8 x.2)] | none => [])
    ++ l.pad.map fun a => (d.base + a, (0xFF : Byte), (0 : Byte))

/-- The addresses a write of a list of positions touches: the scale bytes of missing blocks too (spec/03 R61). -/
def Desc.written (d : Desc) (ls : List (Option Loc)) : List Nat :=
  d.touched ls ++ ls.flatMap fun l => match l with | some l => l.pad.map (d.base + ·) | none => []

def byteWrites (a : Nat) (bs : List Byte) : List (Nat × Byte × Byte) := bs.zipIdx.map fun x => (a + x.2, 0xFF, x.1)

/-- Edges of a written view (spec/07 R175); `dev` for device memory. -/
def Desc.edgeFaults (dev : Bool) (d : Desc) : List Byte :=
  if d.extent.2 = 0 then [] else
    match d.clip d.inner with
    | none => []
    | some (lo, hi) =>
      let o := d.off.getD d.inner 0
      let a := (lo + o).toNat
      let b := (hi + o).toNat + 1
      let n := d.bnd.getD d.inner 1
      let u := if fmtBlock d.fmt then 32 else if dev then boundUnit d.fmt else 1
      if (a % u ≠ 0 ∧ a ≠ 0) ∨ (b % u ≠ 0 ∧ b ≠ n) then [fFormat] else []

/-- Writes at their access: those that reach physical bytes, and the faults of the others. -/
def State.placeWrites (s : State) (t g : Nat) : List (Nat × Byte × Byte) → List (Nat × Byte × Byte) × List Byte
  | [] => ([], [])
  | x :: xs =>
    let r := s.placeWrites t g xs
    match s.access t g x.1 false with
    | .inl pa => ((pa, x.2) :: r.1, r.2)
    | .inr f => (r.1, f :: r.2)

/-- The loft channels a list of addresses touches (spec/09 R232). -/
def State.touchesLoft (s : State) (t g : Nat) (as : List Nat) : W32 :=
  as.foldl (fun m a => match s.place t g a with
    | .phys pa => let p := s.redirect pa
                  if s.isLoft p then putBit m (s.loftChan p) true else m
    | _ => m) 0

/-- An operation enters its unit's queue: its number and the state. -/
def State.pushOp (s : State) (g : Nat) (o : UnitOp) : State :=
  { (s.modCl g fun k => { k with ops := k.ops ++ [{ o with issued := s.beat }] })
    with cmds := { s.cmds with nextOp := s.cmds.nextOp + 1 } }
def State.push (s : State) (g : Nat) (c : Cmd) (u : UnitId) (remote : List Nat) (loft : W32) (slot : Option Nat)
    (held : Nat × Nat) (feeds : List Feed := []) : State :=
  s.pushOp g { unit := u, cmd := c.id, id := s.cmds.nextOp, express := c.xrun, remote, loft, slot, held, feeds }

/-- The records a list of coded blocks is read with enter the cluster's cache, most recently used first (spec/08 R208). -/
def Cluster.cacheRec (k : Cluster) (t n i : Nat) (bytes : List Byte) : Cluster :=
  { k with recCache := (({ tenant := t, tset := n, idx := i, bytes := bytes } : CachedRec) ::
      k.recCache.filter fun r => !(r.tenant == t && r.tset == n && r.idx == i)).take 16 }

/-- Caching of the records that a view's coded blocks name. -/
def State.cacheView (s : State) (w : Who) (d : Desc) (ls : List (Option Loc)) : State :=
  if !d.isCoded then s else
    (d.blocks ls).foldl (fun s n =>
      let h := hdrOf (s.readBs w (addrs (d.slot n) 16)).1
      match h.kind, s.tset w.t d.tset with
      | 0, some t => s.modCl w.g fun k => k.cacheRec w.t d.tset h.table (t.record h.table)
      | _, _ => s) s

end Sys2Proof.Machine
end

