-- ==== Sys2Proof/Machine/Issue.lean ====
section
/-! DEFINITION. The issue of an instruction: fetch, guard, stalls, faults, the program counter and the loops
(spec/05 R103, R109, R110, R132-R135, spec/06 R137, R141). -/

namespace Sys2Proof.Machine

/-- What an instruction's own effect answers: the state, the instance after it, the faults met and the unit they name. -/
structure Res where
  st : State
  inst : Inst
  faults : List Byte := []
  kind : Nat := 3
  unit : Nat := 0
  slot : Option Nat := none
  /-- the owner package a remote fault names: the faults are those of accesses (spec/05 R133, spec/07 R187) -/
  owner : Option Nat := none
  /-- addresses the operation reads -/
  read : List Nat := []
  /-- issue stalls: nothing happens -/
  stall : Bool := false

/-- The open loops after the word before `next`: a body that ends there runs again or is popped (spec/06 R141). -/
def closeLoops (next : Nat) : List LoopRec → Nat × List LoopRec
  | [] => (next, [])
  | l :: ls =>
    if l.last + 1 = next then
      (if 1 < l.left then (l.first, { l with left := l.left - 1 } :: ls) else closeLoops next ls)
    else (next, l :: ls)

/-- The instance past `n` words. -/
def Inst.advance (i : Inst) (n : Nat) : Inst :=
  let r := closeLoops (i.pc + n) i.loops
  { i with pc := r.1, loops := r.2 }

/-- The guard of a word (spec/05 R110, R134); p0 always reads 1. -/
def Inst.predOf (i : Inst) (p : Nat) : Bool := p == 0 || i.pred.getLsbD p
def Inst.guard (i : Inst) (w : W64) : Bool := i.predOf (fld w 55 53) != (fld w 52 52 == 1)

/-- The words of a program resident on a cluster. -/
def Cluster.image (k : Cluster) (t p : Nat) : List W64 :=
  match k.progs.find? fun r => r.tenant == t && r.prog == p with
  | some r => r.words
  | none => []

/-- The instance of a cluster that can issue now, its command and its image (spec/05 R109, R111, R113, spec/17 R382). -/
def State.atIssue (s : State) (g : Nat) : Option (Cmd × Inst × List W64) :=
  match (s.cl g).issuing with
  | none => none
  | some i =>
    if !s.alive || s.stabled g || !i.loaded || i.done || i.wait.isSome then none
    else match s.cmd i.cmd with
      | none => none
      | some c =>
        if c.st == .running && !(c.faults.any fun r => r.cl == g) then some (c, i, (s.cl g).image c.fn c.program) else none

/-- Faults that an access itself meets, after issue (spec/05 R133). -/
def lateFaults : List Byte := [fTranslation, fTier, fEcc, fRemote, fStreamCheck, fStreamSize]

/-- The faults among which the first lies: those met at issue come before those of an access (spec/05 R133). -/
def earlyFaults (fs : List Byte) : List Byte :=
  let early := fs.filter fun f => !lateFaults.contains f
  if early.isEmpty then fs else early

/-- The instruction's outcome: its first fault kills the command, otherwise the instance goes on. -/
def State.finish (s : State) (c : Cmd) (g : Nat) (r : Res) : State :=
  match s.pickFault (if r.owner.isSome then r.faults else earlyFaults r.faults) with
  | some f => (r.st.raise c g r.kind r.unit f r.slot r.owner r.read).bump
  | none => r.st.modCl g fun k => k.setInst r.inst

/-- Whether a unit takes no further operation of a command (spec/04 R84, spec/05 R109, spec/14 R328). -/
def Cluster.full (k : Cluster) (express : Bool) : UnitId → Bool
  | .me m => decide (8 ≤ (k.ops.filter fun o => o.unit == .me m).length)
  | .vu => decide (8 ≤ (k.ops.filter fun o => o.unit == .vu).length)
  | .ce _ =>
    let n := (k.ops.filter fun o => match o.unit with | .ce _ => true | _ => false).length + k.maint.length
    decide ((if express then 64 else 60) ≤ n)

/-- Faults of the second word of a two-word instruction at word address `pc + 1` (spec/05 R135). -/
def secondFaults (ws : List W64) (pc : Nat) : List Byte :=
  match ws[pc + 1]? with
  | some x => if opOf x = 0xFE then [] else [fInstruction]
  | none => [fInstruction]

/-- A control instruction at cluster g: no guard is allowed (spec/05 R134). -/
def State.issueControl (s : State) (op : Nat) (g : Nat) (w : W64) (k : Cmd → List W64 → Inst → Res) : Out :=
  if opOf w ≠ op then .next s
  else match s.atIssue g with
  | none => .next s
  | some (c, i, ws) =>
    match ws[i.pc]? with
    | none => .next (s.finish c g { st := s, inst := i, faults := [fInstruction] })
    | some x =>
      if x != w then .next s
      else
        let r := k c ws i
        .next (s.finish c g { r with faults := (if fld w 55 52 ≠ 0 then [fInstruction] else []) ++ r.faults })

/-- The memory as an instruction's accesses meet it: a CE operation's, with what has entered the channel queues before it. -/
def State.meets (s : State) : Option UnitId → State
  | some (.ce _) => s.arrive
  | _ => s

/-- A guarded instruction of `n` words at cluster g for a unit; its effect is that on the state which its accesses meet. -/
def State.issue (s : State) (op n : Nat) (g : Nat) (w w2 : W64) (unit : Option UnitId)
    (k : State → Cmd → Inst → Res) : Out :=
  if opOf w ≠ op then .next s
  else match s.atIssue g with
  | none => .next s
  | some (c, i, ws) =>
    match ws[i.pc]? with
    | none => .next (s.finish c g { st := s, inst := i, faults := [fInstruction] })
    | some x =>
      if x != w || (n == 2 && (match ws[i.pc + 1]? with | some y => y != w2 | none => false)) then .next s
      else if !i.guard w then .next (s.finish c g { st := s, inst := i.advance n })
      else if (match unit with | some u => (s.cl g).full c.xrun u | none => false) then .next s
      else
        let r := k (s.meets unit) c i
        let sf := if n = 2 then secondFaults ws i.pc else []
        if !sf.isEmpty then .next (s.finish c g { r with st := s, owner := none, faults := sf ++ (if r.owner.isSome then [] else r.faults) })
        else if r.stall then .next s
        else .next (s.finish c g { r with inst := r.inst.advance n })

/-- Reserved bits of a word: any that is set raises FAULT_INSTRUCTION (spec/06 R137). -/
def rsvFaults (w : W64) (rs : List (Nat × Nat)) : List Byte := if rs.all fun r => rsv w r.1 r.2 then [] else [fInstruction]

/-- A condition that raises a fault. -/
def onFault (p : Bool) (f : Byte) : List Byte := if p then [f] else []

end Sys2Proof.Machine
end

