-- ==== Sys2Proof/Machine/Control.lean ====
section
/-! DEFINITION. The control instructions (spec/06 R140, R141, spec/05 R109, R113, R116). -/

namespace Sys2Proof.Machine

/-- A branch target: a word address, or one that no image holds. -/
def targetOf (pc off : Nat) : Nat :=
  let t := (pc : Int) + sext 32 off
  if t < 0 then 0xFFFFFFFF else t.toNat

/-- Loops whose body a taken branch leaves are closed (spec/06 R141). -/
def leaveLoops (t : Nat) : List LoopRec → List LoopRec
  | [] => []
  | l :: ls => if l.first ≤ t ∧ t ≤ l.last then l :: ls else leaveLoops t ls

/-- A taken BR or BRP. -/
def Inst.jump (i : Inst) (t : Nat) : Inst := { i with pc := t, loops := leaveLoops t i.loops }

/-- NOP (spec/06 R140). -/
def execNop (g : Cl) (w : W64) (s : State) : Out :=
  s.issueControl 0x00 g w fun _ _ i =>
    { st := s, inst := i.advance 1, faults := rsvFaults w [(51, 0)] }

/-- HALT: the command is killed and completes ABORTED; its context does not end (spec/05 R116). -/
def execHalt (g : Cl) (w : W64) (s : State) : Out :=
  s.issueControl 0x01 g w fun c _ i =>
    if rsv w 51 0 && fld w 55 52 == 0 then { st := s.killEnd c stAborted true, inst := i }
    else { st := s, inst := i, faults := [fInstruction] }

/-- COMMIT: issue ends; it faults while a block assembler of the cluster holds this command's data (spec/05 R113,
spec/04 R93). -/
def execCommit (g : Cl) (w : W64) (s : State) : Out :=
  s.issueControl 0x02 g w fun _ _ i =>
    { st := s
      inst := { i with done := true, calls := [], loops := [] }
      faults := rsvFaults w [(51, 0)] ++ onFault ((s.cl g).asm.any fun a => a.2.isSome) fInstruction }

/-- BR (spec/06 R140, R141). -/
def execBr (g : Cl) (w : W64) (s : State) : Out :=
  s.issueControl 0x03 g w fun _ _ i =>
    { st := s, inst := i.jump (targetOf i.pc (low w)), faults := rsvFaults w [(51, 32)] }

/-- BRP (spec/06 R140, R141). -/
def execBrp (g : Cl) (w : W64) (s : State) : Out :=
  s.issueControl 0x04 g w fun _ _ i =>
    { st := s
      inst := if i.predOf (fld w 51 49) != (fld w 48 48 == 1) then i.jump (targetOf i.pc (low w)) else i.advance 1
      faults := rsvFaults w [(47, 32)] }

/-- LOOP (spec/05 R109, spec/06 R141): the body may not end past the image nor on the first word of a two-word
instruction. DESIGN CHOICE (log entry 85): a LOOP that is itself the last word of an open loop's body leaves that loop as it is. -/
def execLoop (g : Cl) (w : W64) (s : State) : Out :=
  s.issueControl 0x05 g w fun _ ws i =>
    let n := (smGet 0 i.sreg (fA w)).toNat
    let last := i.pc + 1 + fld w 11 0
    let twoWord := match ws[last]? with | some x => opOf x == 0x40 || opOf x == 0x30 | none => true
    { st := s
      inst := { i with pc := i.pc + 1, loops := { first := i.pc + 1, last := last, left := n } :: i.loops }
      faults := rsvFaults w [(46, 12)] ++ onFault (decide (4 ≤ i.loops.length)) fInstruction
        ++ onFault (n == 0 || decide (2 ^ 32 ≤ n)) fInstruction ++ onFault twoWord fInstruction }

/-- CALL: the address of the next word and the loop depth are pushed (spec/06 R140, R141). -/
def execCall (g : Cl) (w : W64) (s : State) : Out :=
  s.issueControl 0x06 g w fun _ _ i =>
    { st := s
      inst := { i with pc := targetOf i.pc (low w), calls := (i.pc + 1, i.loops.length) :: i.calls }
      faults := rsvFaults w [(51, 32)] ++ onFault (decide (8 ≤ i.calls.length)) fInstruction }

/-- RET: loops opened since the CALL are popped; where the CALL was the last word of a body, the body ends there (spec/06
R140, R141, log entry 17). -/
def execRet (g : Cl) (w : W64) (s : State) : Out :=
  s.issueControl 0x07 g w fun _ _ i =>
    match i.calls with
    | [] => { st := s, inst := i, faults := [fInstruction] }
    | (pc, d) :: cs =>
      let r := closeLoops pc (i.loops.drop (i.loops.length - d))
      { st := s, inst := { i with pc := r.1, calls := cs, loops := r.2 }
        faults := rsvFaults w [(51, 0)] }

/-- A word whose opcode the map does not list, and CODE with its reserved mode (spec/05 R136, spec/06 R149). -/
def opListed (w : W64) : Bool :=
  let o := opOf w
  decide (o ≤ 0x07) || (decide (0x10 ≤ o) && decide (o ≤ 0x1D)) || (decide (0x20 ≤ o) && decide (o ≤ 0x23))
    || (decide (0x30 ≤ o) && decide (o ≤ 0x37) && !(o == 0x37 && fld w 9 8 == 3))
    || (decide (0x40 ≤ o) && decide (o ≤ 0x44)) || (decide (0x50 ≤ o) && decide (o ≤ 0x66))
    || (decide (0x70 ≤ o) && decide (o ≤ 0x76))

/-- An unassigned opcode, or a fetch past the image, raises FAULT_INSTRUCTION (spec/05 R103, R132, R136). An unlisted opcode
has no guard of its own encoding, and a false guard of a CODE word makes it do nothing (R110). -/
def execUnassignedOpcode (g : Cl) (w : W64) (s : State) : Out :=
  if opListed w then .next s
  else match s.atIssue g with
  | none => .next s
  | some (c, i, ws) =>
    match ws[i.pc]? with
    | none => .next (s.finish c g { st := s, inst := i, faults := [fInstruction] })
    | some x =>
      if x != w then .next s
      else if opOf w == 0x37 && !i.guard w then .next (s.finish c g { st := s, inst := i.advance 1 })
      else .next (s.finish c g { st := s, inst := i, faults := [fInstruction] })

end Sys2Proof.Machine
end

