-- ==== Sys2Proof/Machine/Copy.lean ====
section
/-! DEFINITION. The copy instructions and CODE (spec/06 R149-R152, spec/07 R177-R188, spec/08 R199-R204, R214). -/

namespace Sys2Proof.Machine

def stream (w : W64) : Nat := fld w 1 0
def ceOf (w : W64) : UnitId := .ce (Fin.ofNat 4 (stream w))

/-- The tenant space of another package that the yard configuration pairs with `t` (spec/07 R185). -/
def State.pairOf (s : State) (t pkg : Nat) : Option Nat :=
  match s.glb.yard with
  | none => none
  | some y => match (List.range 1024).find? fun k => smGet none y.pairing (16 * k + s.glb.index) == some t with
    | some k => smGet none y.pairing (16 * k + pkg)
    | none => none

/-- The yard record under which a command dispatched at event `seq` completes, with this package's index in it
(spec/01 R25). -/
def State.yardAt (s : State) (seq : Nat) : Option YardRec × Nat :=
  match s.glb.olds.find? fun o => decide (seq < o.1) with
  | some o => o.2.2
  | none => (s.glb.yard, s.glb.index)

/-- The state as the commands of another package dispatched in a frame see the yard's pairing: records switch at one frame boundary
on every package (spec/01 R25, R33). -/
def State.asOfFrame (s : State) (f : W32) : State :=
  match s.glb.olds.find? fun o => decide (diff32 f (BitVec.ofNat 32 o.2.1) < 0) with
  | some o => { s with glb := { s.glb with yard := o.2.2.1, index := o.2.2.2 } }
  | none => s

/-- The state as a command dispatched at event `seq` sees the yard's pairing. -/
def State.asOf (s : State) (seq : Nat) : State :=
  { s with glb := { s.glb with yard := (s.yardAt seq).1, index := (s.yardAt seq).2 } }

/-- A package is of the yard and in the live set (spec/01 R32, spec/07 R187). -/
def State.reachable (s : State) (pkg : Nat) : Bool := decide (pkg < s.glb.count) && s.glb.live.getLsbD pkg

/-- All positions of a view, in view order; none out of bounds. -/
def Desc.locs (d : Desc) : List (Option Loc) := d.indices.map (d.at 9)

/-- Insertion by key, for lists of positions. -/
def insKey (x : Nat × α) : List (Nat × α) → List (Nat × α)
  | [] => [x]
  | y :: ys => if x.1 < y.1 then x :: y :: ys else y :: insKey x ys
def sortKey (l : List (Nat × α)) : List (Nat × α) := l.foldl (fun a x => insKey x a) []

/-- The physical address of a local window address; any other address unchanged. -/
def State.norm (s : State) (g a : Nat) : Nat :=
  if isWindow a then (match s.window g a with | .phys pa => pa | _ => a) else a

/-- The overlap test of two views (spec/06 R151, spec/07 R183). -/
def State.viewsOverlap (s : State) (g : Nat) (a b : Desc) : Bool :=
  overlaps (s.norm g a.extent.1) a.extent.2 (s.norm g b.extent.1) b.extent.2

/-- The raw range of the in-bounds positions of a view: first byte and length (spec/08 R204). -/
def Desc.rawRange (d : Desc) : Nat × Nat :=
  let e := { d with tset := 0, base := 0 }.extent
  (e.1, e.2)

/-- Elements for a destination whose bits are moved unchanged. A block format's scale byte is that of the elements' own
source block; where elements of one destination block bring different scales the spec states none, and it is free
(log entry 20). -/
def State.moveScales (s : State) (d : Desc) (xs : List (Loc × El)) : List (Loc × El) :=
  if !fmtBlock d.fmt then xs else
    xs.map fun x =>
      let all := (xs.filter fun y => y.1.scale == x.1.scale).map fun y => y.2.2
      if all.all (· == x.2.2) then x else (x.1, x.2.1, s.free (2 ^ 62 + x.1.scale.getD 0) % 256)

/-- Elements for a destination of another format, converted by value (spec/03 R62-R68), with the conversions made. -/
def convertTo (d : Desc) (ovf : Nat) (rs : Nat → Rounding) (xs : List (Loc × Val)) : List (Loc × El) × List Conv :=
  if fmtBlock d.fmt then
    let blocks := (xs.filterMap fun x => x.1.scale).eraseDups
    let ys := blocks.flatMap fun b =>
      let mine := (xs.zipIdx.filter fun x => x.1.1.scale == some b)
      let e := toBlock (fun i => rs ((mine.getD i (({ byte := 0, bit := 0, scale := none }, .nan), 0)).2)) d.fmt (mine.map (·.1.2))
      (mine.zip e.2).map fun x => ((x.1.1.1, x.2.bits, e.1), x.2)
    (ys.map fun y => (y.1.1, y.1.2.1, y.1.2.2), ys.map (·.2))
  else
    let ys := xs.zipIdx.map fun x => (x.1.1, toFmt (rs x.2) d.fmt ovf x.1.2)
    (ys.map fun y => (y.1, y.2.bits, 0), ys.map (·.2))

/-- A view's base, or one of its positions, names another package's buffer (spec/07 R188). -/
def State.otherView (s : State) (g : Nat) (d : Desc) : Bool := s.otherPkg g d.base || (d.touched d.locs).any (s.otherPkg g)

/-- Faults of a written view: another package, a coded destination, edges, tags and extents (spec/05 R120, spec/07 R175,
R182, R188). -/
def State.destFaults (s : State) (c : Cmd) (g : Nat) (d : Desc) (remoteOk : Bool) : List Byte :=
  onFault (d.tset != 0) fFormat
    ++ onFault (!remoteOk && s.otherView g d) fInstruction
    ++ d.edgeFaults (!isWindow d.base)
    ++ s.wrChecks c g (d.written d.locs)

/-- Reads that go to other packages, one message to each (spec/07 R185, spec/16 R364). -/
def State.sendReads (s : State) (c : Cmd) (g st : Nat) (as : List (Nat × Nat)) : State :=
  ((as.map (·.2)).eraseDups).foldl (fun s p => match (s.asOf c.dispSeq).pairOf c.fn p with
    | some t => s.sendTo p (16 * g + wCe st) fun k =>
        .remoteRead p (16 * g + wCe st) k c.dispFrame t ((as.filter fun a => a.2 == p).map (·.1))
    | none => s) s

/-- Writes that go to another package (spec/07 R188): sent as one message, or the fault met. -/
def State.sendWrites (s : State) (c : Cmd) (g st pkg : Nat) (ws : List (Nat × Byte × Byte)) : State × List Byte :=
  if !s.reachable pkg then (s, [fRemote]) else
    match (s.asOf c.dispSeq).pairOf c.fn pkg with
    | none => (s, [fRemote])
    | some t =>
      if ws.any fun x => match s.window g x.1 with | .remote _ => false | _ => true then (s, [fTranslation])
      else if ws.any fun x => Config.remoteFault pkg x.1 s.freeIx then (s, [fPermission])
      else (s.sendSure c.id s.cmds.nextOp pkg (16 * g + wCe st) fun k => .remoteWrite pkg (16 * g + wCe st) k c.dispFrame t ws, [])

/-- The writes of a CE operation on a stream: accepted, and the faults of those that were not. -/
def State.ceWrites (s : State) (c : Cmd) (g st : Nat) (ws : List (Nat × Byte × Byte)) : State × List Byte :=
  let p := s.placeWrites c.fn g ws
  (s.accept g (wCe st) s.cmds.nextOp c.id p.1, p.2)

/-- A command with traffic to a package whose route is empty waits for a route (spec/16 R368). -/
def State.noteRoutes (s : State) (id : Nat) (pkgs : List Nat) : State :=
  let ws := (pkgs.filter fun p => (s.route p).ports == 0 && !s.fab.waiting.any fun w => w.cmd == id && w.pkg == p).map fun p =>
    { cmd := id, pkg := p, since := s.tim.ns }
  { s with fab := { s.fab with waiting := s.fab.waiting ++ ws } }

/-- The physical bytes of a list of addresses. -/
def State.physAll (s : State) (t g : Nat) (as : List Nat) : List Nat :=
  as.filterMap fun a => match s.place t g a with | .phys pa => some (s.redirect pa) | _ => none

/-- The reads of a CE operation, at addresses `as`, enter their channel queues, and the operation goes on with what the memory holds
then; while one is held at a closed inlet the instruction does not issue (spec/10 R235-R238, R248, log entry 13). -/
def State.ceReads (s : State) (c : Cmd) (g st : Nat) (i : Inst) (as : List Nat) (k : State → Res) : Res :=
  let ps := s.physAll c.fn g as
  if s.shut ps then { st := s, inst := i, kind := 2, unit := st, stall := true }
  else k (s.fetches s.cmds.nextOp c.id (16 * g + wCe st) c.xrun ps)

/-- A CE operation's end of issue: an entry is taken, its writes to DRAM go to the inlets, and the draws are used up. `rd` and `ws`
are the addresses it reads and writes. -/
def State.ceDone (s : State) (g : Nat) (c : Cmd) (st : Nat) (remote : List Nat) (rd ws : List Nat) (slot : Option Nat)
    (held : Nat × Nat) : State :=
  let s1 := s.request' s.cmds.nextOp c.id (16 * g + wCe st) c.xrun false (s.physAll c.fn g ws)
  ((s1.push g c (.ce (Fin.ofNat 4 st)) remote (s.touchesLoft c.fn g (rd ++ ws)) slot held).noteRoutes c.id remote).bump

/-! ### Verbatim moves (spec/08 R204) -/

def verbFaults (a b : Desc) : List Byte :=
  let x := a.rawRange
  let y := b.rawRange
  onFault (x.1 % spanOf a.fmt != 0 || y.1 % spanOf b.fmt != 0 || x.2 != y.2) fFormat

/-- Bytes of a slot that a verbatim move takes: whole lines, at most the slot. -/
def lineLen (h : Hdr) (f : Nat) : Nat := min (pitchOf f) (64 * ceilDiv (16 + 4 * (h.expWords + h.manWords)) 64)

/-- The writes of a verbatim move: each block's lines to the slot at the same distance. -/
def State.verbWrites (s : State) (w : Who) (a b : Desc) : List (Nat × Byte × Byte) × List Byte :=
  let n0 := a.rawRange.1 / spanOf a.fmt
  let m0 := b.rawRange.1 / spanOf b.fmt
  let rs := (a.blocks a.locs).map fun n =>
    let h := s.readBs w (addrs (a.slot n) 16)
    if !h.2.isEmpty then ([], h.2) else
      let r := s.readBs w (addrs (a.slot n) (lineLen (hdrOf h.1) a.fmt))
      (byteWrites (b.slot (m0 + (n - n0))) r.1, r.2)
  (rs.flatMap (·.1), rs.flatMap (·.2))

/-! ### CPY (spec/06 R150, R151) -/

/-- Faults of a CPY at issue. -/
def State.cpyFaults (s : State) (c : Cmd) (g : Nat) (w w2 : W64) (a b : Desc) : List Byte :=
  let verb := fld w2 3 3 == 1
  let cvt := fld w2 2 2 == 1
  rsvFaults w [(41, 2)] ++ rsvFaults w2 [(55, 4)]
    ++ s.descFaults c.fn false a ++ s.descFaults c.fn false b
    ++ onFault (a.fmt != b.fmt && !cvt) fFormat
    ++ onFault (verb && (a.fmt != b.fmt || a.order != b.order || a.tset != b.tset)) fFormat
    ++ onFault (fld w2 1 0 == 3) fFormat
    ++ onFault (a.ext != b.ext) fInstruction
    ++ onFault (s.otherView g a) fInstruction
    ++ (if verb && b.isCoded then verbFaults a b ++ s.wrChecks c g (b.touched b.locs) else s.destFaults c g b true)
    ++ s.rdChecks c g (a.touched a.locs)
    ++ onFault (s.viewsOverlap g a b) fOverlap

/-- The writes of a CPY, its faults at access, and the instance with its counts. A move of whole blocks counts no position as out of
bounds (spec/07 R173, log entry 100). -/
def State.cpyMove (s : State) (i : Inst) (w : Who) (w2 : W64) (a b : Desc) :
    List (Nat × Byte × Byte) × List Byte × Inst :=
  if fld w2 3 3 == 1 && b.isCoded then
    let v := s.verbWrites w a b
    (v.1, v.2, i)
  else
    let src := s.readView w a a.locs
    let pairs := b.locs.zip src.1
    let kept := pairs.filterMap fun p => p.1.map fun l => (l, p.2)
    let fills := (b.locs.zip a.locs).filterMap fun p => if p.2.isSome then none else p.1
    let i1 := i.count kOob (pairs.length - kept.length)
    if fld w2 3 3 == 0 && fld w2 2 2 == 1 then
      let r := convertTo b (fld w2 1 0) (fun _ => .nearest) (kept.map fun x => (x.1, elemVal a.fmt x.2.1 x.2.2))
      (r.1.flatMap fun x => b.elWrites x.1 x.2, src.2,
        i1.countConv (((r.1.zip r.2).filter fun x => !fills.contains x.1.1).map (·.2)))
    else
      let r := s.moveScales b kept
      (r.flatMap fun x => b.elWrites x.1 x.2, src.2, i1)

/-- The writes of a CPY: those to this package accepted, those to each other package that they name sent to it and to be acknowledged;
the faults met, and the packages (spec/07 R188, spec/16 R364). -/
def State.cpyWrites (s : State) (c : Cmd) (g st : Nat) (ws : List (Nat × Byte × Byte)) : State × List Byte × List Nat :=
  let far := fun (x : Nat × Byte × Byte) => if isWindow x.1 then (match s.window g x.1 with | .remote p => some p | _ => none) else none
  let m := s.ceWrites c g st (ws.filter fun x => (far x).isNone)
  let ps := (ws.filterMap far).eraseDups
  let r := ps.foldl (fun (a : State × List Byte) p =>
    let b := a.1.sendWrites c g st p (ws.filter fun x => far x == some p)
    (b.1, a.2 ++ b.2)) (m.1, [])
  (r.1.noteRoutes c.id ps, m.2 ++ r.2, ps)

/-- CPY (spec/06 R150). -/
def execCpy (g : Cl) (w w2 : W64) (s : State) : Out :=
  s.issue 0x30 2 g w w2 (some (ceOf w)) fun s c i =>
    let st := stream w
    let a := i.desc' (fB w)
    let b := i.desc' (fA w)
    let fs := s.cpyFaults c g w w2 a b
    if !fs.isEmpty then { st := s, inst := i, faults := fs, kind := 2, unit := st } else
      s.ceReads c g st i (a.touched a.locs) fun s =>
        let who : Who := ⟨c.fn, g, ordCe st⟩
        let m := s.cpyMove i who w2 a b
        let r := s.cpyWrites c g st m.1
        { st := (r.1.cacheView who a (if fld w2 3 3 == 1 then [] else a.locs)).ceDone g c st []
            (a.touched a.locs) (m.1.map (·.1)) none b.extent
          inst := m.2.2, faults := m.2.1 ++ r.2.1, kind := 2, unit := st, owner := r.2.2.head?, read := a.touched a.locs }

/-! ### CPYR (spec/07 R184-R188) -/

/-- The version that switched in last, of those that had by an event; of two at one boundary the one installed later. -/
def latestOwner (seq : Nat) (vs : List OwnerVer) : Option OwnerVer :=
  vs.foldl (fun best v => match v.since with
    | none => best
    | some q => if seq < q then best else match best.bind (·.since) with
      | some b => if q < b then best else some v
      | none => some v) none

/-- The version of an owner table that a command resolves through: none, and so FAULT_INSTRUCTION, for one dispatched before the first
version was switched in (spec/07 R185, R186, log entry 101). -/
def State.ownerFor (s : State) (c : Cmd) (n : Nat) : Option OwnerVer := latestOwner c.dispSeq (smGet [] (s.ten c.fn).owners n)

/-- Where a logical byte of a distributed tensor lies: its address and package; none where the table has no block. -/
def OwnerVer.resolve (v : OwnerVer) (q : Nat) : Option (Nat × Nat) :=
  match v.entries[q / 2 ^ v.log2]? with
  | some (a, p, true) => some (a + q % 2 ^ v.log2, p)
  | _ => none

/-- One logical byte read: none where there is no block; the byte; the faults met and the owner they name. -/
def State.readOwned (s : State) (w : Who) (v : OwnerVer) (q : Nat) : Option Byte × List (Byte × Nat) :=
  match v.resolve q with
  | none => (none, [])
  | some (a, p) =>
    if s.glb.valid && p == s.glb.index || !s.glb.valid && p == 0 then
      let r := s.readB w a
      (some r.1, r.2.map fun f => (f, p))
    else if !s.reachable p || (s.pairOf w.t p).isNone || Config.remoteFault p a s.freeIx then (some 0, [(fRemote, p)])
    else (some (Config.remoteByte p a s.freeIx), [])

def State.readOwnedL (s : State) (w : Who) (v : OwnerVer) : List Nat → List (Option Byte) × List (Byte × Nat)
  | [] => ([], [])
  | q :: qs =>
    let r := s.readOwned w v q
    let t := s.readOwnedL w v qs
    (r.1 :: t.1, r.2 ++ t.2)

/-- Local bytes that a list of logical bytes reads, for the checks at issue. -/
def State.ownedLocal (s : State) (v : OwnerVer) (qs : List Nat) : List Nat :=
  qs.filterMap fun q => match v.resolve q with
    | some (a, p) => if s.glb.valid && p == s.glb.index || !s.glb.valid && p == 0 then some a else none
    | none => none

/-- Bytes of other packages that a list of logical bytes reads: address and package. -/
def State.ownedFar (s : State) (v : OwnerVer) (qs : List Nat) : List (Nat × Nat) :=
  qs.filterMap fun q => match v.resolve q with
    | some (a, p) => if s.glb.valid && p != s.glb.index then some (a, p) else none
    | none => none

/-- Packages other than this one that a list of logical bytes reads. -/
def State.ownedRemote (s : State) (v : OwnerVer) (qs : List Nat) : List Nat :=
  (qs.filterMap fun q => match v.resolve q with
    | some (_, p) => if s.glb.valid && p != s.glb.index then some p else none
    | none => none).eraseDups

/-- The writes of a CPYR from an uncoded source: each element unchanged, the fill value where its table has no block. -/
def State.cpyrRaw (s : State) (w : Who) (v : OwnerVer) (a b : Desc) :
    List (Nat × Byte × Byte) × List (Byte × Nat) × Nat :=
  let fill := a.fillElem
  let rs := a.locs.map fun l => match l with
    | none => (fill, [])
    | some l =>
      let n := ceilDiv (l.bit + fmtWidth a.fmt) 8
      let r := s.readOwnedL w v ((l.bytes a.fmt).map (a.base + ·))
      if r.1.any Option.isNone then (fill, r.2)
      else
        let bs := r.1.map fun (x : Option Byte) => x.getD 0
        ((elemBits (bs.take n) l.bit (fmtWidth a.fmt), if fmtBlock a.fmt then (bs.getD n 0).toNat else 0), r.2)
  let pairs := b.locs.zip (rs.map (·.1))
  let kept := pairs.filterMap fun p => p.1.map fun l => (l, p.2)
  ((s.moveScales b kept).flatMap fun x => b.elWrites x.1 x.2, rs.flatMap (·.2), pairs.length - kept.length)

/-- The writes of a CPYR from a coded source: lines of slots, from both owners where a slot is split. A byte of a slot
whose block the table does not list is free (log entry 20). -/
def State.cpyrCoded (s : State) (w : Who) (v : OwnerVer) (a b : Desc) : List (Nat × Byte × Byte) × List (Byte × Nat) :=
  let n0 := a.rawRange.1 / spanOf a.fmt
  let m0 := b.rawRange.1 / spanOf b.fmt
  let rs := (a.blocks a.locs).map fun n =>
    let fill := fun (l : List (Option Byte)) (q : Nat) =>
      l.zipIdx.map fun x => x.1.getD (BitVec.ofNat 8 (s.free (2 ^ 63 + q + x.2)))
    let h := s.readOwnedL w v (addrs (a.slot n) 16)
    let k := lineLen (hdrOf (fill h.1 (a.slot n))) a.fmt
    let r := s.readOwnedL w v (addrs (a.slot n) k)
    (byteWrites (b.slot (m0 + (n - n0))) (fill r.1 (a.slot n)), r.2)
  (rs.flatMap (·.1), rs.flatMap (·.2))

/-- Faults of a CPYR at issue, resolved through a version of its owner table (spec/06 R152, spec/07 R185-R188). -/
def State.cpyrFaults (s : State) (c : Cmd) (g : Nat) (w : W64) (a b : Desc) (v : Option OwnerVer) : List Byte :=
  rsvFaults w [(41, 2)] ++ s.descFaults c.fn true a ++ s.descFaults c.fn false b
    ++ onFault (a.owner == 0) fInstruction ++ onFault (a.fmt != b.fmt) fFormat ++ onFault (a.ext != b.ext) fInstruction
    ++ onFault (a.isCoded != b.isCoded) fFormat ++ onFault (s.otherView g b) fInstruction
    ++ (match v with
      | none => [fInstruction]
      | some v => s.rdChecks c g (s.ownedLocal v (a.touched a.locs))
          ++ (if a.isCoded then verbFaults a b ++ s.wrChecks c g (b.touched b.locs) else s.destFaults c g b false))

/-- What a CPYR writes: its writes, the faults at access with the owner they name, the elements dropped out of bounds. -/
def State.cpyrMove (s : State) (c : Cmd) (w : Who) (v : OwnerVer) (a b : Desc) :
    List (Nat × Byte × Byte) × List (Byte × Nat) × Nat :=
  let o := s.asOf c.dispSeq
  if a.isCoded then (let x := o.cpyrCoded w v a b; (x.1, x.2, 0)) else o.cpyrRaw w v a b

/-- CPYR (spec/06 R152, spec/07 R185-R188, spec/08 R204). -/
def execCpyr (g : Cl) (w : W64) (s : State) : Out :=
  s.issue 0x31 1 g w 0 (some (ceOf w)) fun s c i =>
    let st := stream w
    let a := i.desc' (fB w)
    let b := i.desc' (fA w)
    let fs := s.cpyrFaults c g w a b (s.ownerFor c a.owner)
    match s.ownerFor c a.owner with
    | none => { st := s, inst := i, faults := fs, kind := 2, unit := st }
    | some v =>
      let qs := a.touched a.locs
      if !fs.isEmpty then { st := s, inst := i, faults := fs, kind := 2, unit := st } else
        s.ceReads c g st i (s.ownedLocal v qs) fun s =>
          let who : Who := ⟨c.fn, g, ordCe st⟩
          let m := s.cpyrMove c who v a b
          let r := s.ceWrites c g st m.1
          { st := (r.1.sendReads c g st (s.ownedFar v qs)).ceDone g c st (s.ownedRemote v qs)
              (s.ownedLocal v qs) (m.1.map (·.1)) none b.extent
            inst := i.count kOob m.2.2
            faults := m.2.1.map (·.1) ++ r.2, kind := 2, unit := st
            owner := (m.2.1.find? fun x => x.1 == fRemote).map (·.2), read := s.ownedLocal v qs }

/-! ### FILL and PREF -/

/-- Faults of a FILL at issue. -/
def State.fillFaults (s : State) (c : Cmd) (g : Nat) (w : W64) (d : Desc) : List Byte :=
  rsvFaults w [(46, 2)] ++ s.descFaults c.fn false d ++ s.destFaults c g d false

/-- The conversions of a FILL's fill value for the elements in bounds. -/
def fillConv (d : Desc) : List (Loc × El) × List Conv :=
  convertTo d 0 (fun _ => .nearest) ((d.locs.filterMap id).map fun l => (l, floatVal 1 d.fill))

/-- The writes of a FILL. -/
def fillWrites (d : Desc) : List (Nat × Byte × Byte) :=
  if fmtBlock d.fmt then (d.locs.filterMap id).flatMap fun l => d.elWrites l d.fillElem
  else (fillConv d).1.flatMap fun x => d.elWrites x.1 x.2

/-- FILL: the fill value to every element of the view (spec/06 R149, spec/03 R66). -/
def execFill (g : Cl) (w : W64) (s : State) : Out :=
  s.issue 0x32 1 g w 0 (some (ceOf w)) fun s c i =>
    let st := stream w
    let d := i.desc' (fA w)
    let fs := s.fillFaults c g w d
    if !fs.isEmpty then { st := s, inst := i, faults := fs, kind := 2, unit := st } else
      let kept := d.locs.filterMap id
      let r := fillConv d
      let ws := fillWrites d
      let m := s.ceWrites c g st ws
      { st := m.1.ceDone g c st [] [] (ws.map (·.1)) none d.extent
        inst := (i.count kOob (d.locs.length - kept.length)).countConv r.2
        faults := m.2, kind := 2, unit := st }

/-- PREF: the hint for the 64 KiB pages of the view's positions is held to commit, where it goes to the leaves that map them then
(spec/06 R152, spec/09 R227). -/
def execPref (g : Cl) (w : W64) (s : State) : Out :=
  s.issue 0x33 1 g w 0 (some (ceOf w)) fun s c i =>
    let st := stream w
    let d := i.desc' (fA w)
    let fs := rsvFaults w [(46, 4)] ++ onFault (fld w 3 2 == 3) fInstruction ++ s.descFaults c.fn false d
    if !fs.isEmpty then { st := s, inst := i, faults := fs, kind := 2, unit := st } else
      let vas := ((d.touched d.locs).map fun a => a / 65536 * 65536).eraseDups
      { st := s.ceDone g c st [] [] [] none (0, 0)
        inst := { i with hints := i.hints ++ vas.map fun v => { va := v, tier := fld w 3 2 } } }

/-! ### CODE (spec/08 R199-R203) -/

/-- A CODE word of a mode; any other mode is another row's. -/
def codeMode (w : W64) (m : Nat) : Bool := fld w 9 8 == m
def codeIdx (w : W64) : Nat := fld w 6 4
def codeRsv (w : W64) : List Byte := rsvFaults w [(41, 10), (7, 7), (3, 2)]

/-- The bytes of a histogram record; the number of positions keeps its low 32 bits (spec/08 R199, log entry 29). -/
def histBytes (f n : Nat) (counts : List Nat) : List Byte :=
  leBytes 4 f ++ leBytes 4 n ++ leBytes 8 0 ++ counts.flatMap fun c => leBytes 4 (min c (2 ^ 32 - 1))

/-- Counts of every symbol of a format over elements; ESC is never counted. -/
def histCounts (f : Nat) (els : List Nat) : List Nat :=
  (List.range (numSyms f)).map fun sy => (els.filter fun x => symOf f x == sy).length

/-- Faults of a HIST at issue. -/
def State.histFaults (s : State) (c : Cmd) (g : Nat) (w : W64) (a b : Desc) : List Byte :=
  codeRsv w ++ onFault (codeIdx w != 0) fInstruction
    ++ s.descFaults c.fn false a ++ s.descFaults c.fn false b
    ++ onFault (!fmtFloat a.fmt) fFormat
    ++ onFault (b.fmt != 8 || b.rank != 1 || decide (b.ext.getD 0 1 < 16 + 4 * numSyms a.fmt)) fFormat
    ++ onFault (s.otherView g a) fInstruction ++ s.destFaults c g b false ++ s.rdChecks c g (a.touched a.locs)

/-- CODE with mode HIST (spec/08 R199). -/
def execCodeHist (g : Cl) (w : W64) (s : State) : Out :=
  if !codeMode w 0 then .next s else
  s.issue 0x37 1 g w 0 (some (ceOf w)) fun s c i =>
    let st := stream w
    let a := i.desc' (fB w)
    let b := i.desc' (fA w)
    let n := 16 + 4 * numSyms a.fmt
    let fs := s.histFaults c g w a b
    if !fs.isEmpty then { st := s, inst := i, faults := fs, kind := 2, unit := st } else
      let ls := a.locs.filter Option.isSome
      s.ceReads c g st i (a.touched ls) fun s =>
        let who : Who := ⟨c.fn, g, ordCe st⟩
        let src := s.readView who a ls
        let rec_ := histBytes a.fmt ls.length (histCounts a.fmt (src.1.map (·.1)))
        let dst := (List.range n).map fun k => b.at 9 [Int.ofNat k, 0, 0, 0, 0]
        let ws := (dst.zip rec_).flatMap fun x => match x.1 with
          | some l => [(b.base + l.byte, (0xFF : Byte), x.2)]
          | none => []
        let m := s.ceWrites c g st ws
        { st := (m.1.cacheView who a ls).ceDone g c st [] (a.touched ls) (ws.map (·.1)) none b.extent
          inst := i.count kOob (dst.filter Option.isNone).length
          faults := src.2 ++ m.2, kind := 2, unit := st, read := a.touched ls }

/-- The positions that hold the first n bytes of a histogram record, in view order. -/
def Desc.recordAt (a : Desc) (n : Nat) : List (Option Loc) :=
  let m := ceilDiv (8 * n) (fmtWidth a.fmt)
  let l := a.locs.take m
  l ++ List.replicate (m - l.length) none

/-- The first n bytes of a histogram record, and the faults of the access. -/
def State.recordBytes (s : State) (w : Who) (a : Desc) (n : Nat) : List Byte × List Byte :=
  let r := s.readView w a (a.recordAt n)
  (packWords (r.1.flatMap fun x => bitsLsb (fmtWidth a.fmt) x.1), r.2)

/-- Faults of a TABLE at issue. -/
def State.tableFaults (s : State) (c : Cmd) (g : Nat) (w : W64) (a b : Desc) : List Byte :=
  codeRsv w ++ s.descFaults c.fn false a ++ onFault (b.rank == 0) fInstruction
    ++ onFault (s.tset c.fn b.tset).isNone fFormat ++ onFault (s.otherView g a) fInstruction
    ++ s.rdChecks c g (a.touched (a.recordAt (16 + 4 * 258)))

/-- CODE with mode TABLE: the histogram record is the bits of the source view's elements in view order, the fill value past its
end; the new record is held to commit (spec/08 R200). -/
def execCodeTable (g : Cl) (w : W64) (s : State) : Out :=
  if !codeMode w 1 then .next s else
  s.issue 0x37 1 g w 0 (some (ceOf w)) fun s c i =>
    let st := stream w
    let a := i.desc' (fB w)
    let b := i.desc' (fA w)
    let fs := s.tableFaults c g w a b
    if !fs.isEmpty then { st := s, inst := i, faults := fs, kind := 2, unit := st } else
      s.ceReads c g st i (a.touched (a.recordAt 4)) fun s =>
        let who : Who := ⟨c.fn, g, ordCe st⟩
        let h := s.recordBytes who a 4
        let f := fieldN h.1 0 4
        if !fmtFloat f then
          { st := s.bump, inst := i, faults := h.2 ++ (if h.2.isEmpty then [fFormat] else []), kind := 2, unit := st
            read := a.touched (a.recordAt 4) }
        else
          let ls := a.recordAt (16 + 4 * numSyms f)
          s.ceReads c g st i (a.touched (ls.drop (a.recordAt 4).length)) fun s =>
            let r := s.recordBytes who a (16 + 4 * numSyms f)
            let counts := (List.range (numSyms f)).map fun k => fieldN r.1 (16 + 4 * k) 4
            let rec_ := mkRecord f (tableLens f (fun k => s.free (2 ^ 60 + k)) counts)
            { st := (s.cacheView who a ls).ceDone g c st [] (a.touched ls) [] none (0, 0)
              inst := { i with tables := i.tables ++ [{ tset := b.tset, idx := codeIdx w, bytes := rec_ }] }
              faults := r.2, kind := 2, unit := st, read := a.touched ls }

/-- Elements of a destination in raw order, by element number; none when they are not one range from a block boundary
(spec/08 R203). -/
def rawOrder (d : Desc) (xs : List (Loc × α)) : Option (List (Nat × α)) :=
  let l := sortKey (xs.map fun x => ((x.1.byte * 8 + x.1.bit) / fmtWidth d.fmt, x.2))
  match l with
  | [] => some []
  | (n, _) :: _ =>
    if n % blockElems d.fmt = 0 ∧ (l.zipIdx.all fun x => x.1.1 == n + x.2) then some l else none

/-- Elements cut into blocks: block number and elements. `n` bounds the number of blocks. -/
def cutBlocks (f : Nat) : Nat → List (Nat × Nat) → List (Nat × List Nat)
  | 0, _ => []
  | _, [] => []
  | n + 1, l => (((l.head?.map (·.1)).getD 0) / blockElems f, (l.take (blockElems f)).map (·.2))
      :: cutBlocks f n (l.drop (blockElems f))

/-- A slot's bytes up to whole lines; what follows the payload in its last line has no meaning and is free
(spec/08 R192, R203). -/
def State.lineBytes (s : State) (a : Nat) (bs : List Byte) : List Byte :=
  bs ++ (List.range (roundUp bs.length 64 - bs.length)).map fun k => BitVec.ofNat 8 (s.free (2 ^ 61 + a + bs.length + k))

/-- In-bounds destination positions of an ENC with their source indices, in raw order; none when they are no range of
whole blocks from a block's start. -/
def encOrder (a b : Desc) : Option (List (Nat × List Int)) :=
  rawOrder b ((b.locs.zip a.indices).filterMap fun p => p.1.map fun l => (l, p.2))

/-- The record an ENC codes with; empty where there is none. -/
def State.encRecord (s : State) (c : Cmd) (w : W64) (b : Desc) : List Byte :=
  match s.tset c.fn b.tset with | some t => t.record (codeIdx w) | none => []

/-- Faults of an ENC at issue. -/
def State.encFaults (s : State) (c : Cmd) (g : Nat) (w : W64) (a b : Desc) : List Byte :=
  let r := s.encRecord c w b
  codeRsv w ++ s.descFaults c.fn false a ++ s.descFaults c.fn false b
    ++ onFault (a.fmt != b.fmt) fFormat ++ onFault (b.tset == 0) fFormat
    ++ onFault (!recValid r || recFmt r != b.fmt) fFormat ++ onFault (a.ext != b.ext) fInstruction
    ++ onFault (encOrder a b).isNone fFormat
    ++ onFault (s.otherView g a || s.otherView g b) fInstruction
    ++ s.wrChecks c g (b.touched b.locs) ++ s.rdChecks c g (a.touched a.locs)
    ++ onFault (s.viewsOverlap g a b) fOverlap

/-- Blocks of an ENC by number: their bytes and whether they are coded. -/
def State.encBlocks (s : State) (c : Cmd) (w : W64) (b : Desc) (els : List (Nat × Nat)) : List (Nat × List Byte × Bool) :=
  (cutBlocks b.fmt (els.length + 1) els).map fun x =>
    (x.1, match s.tset c.fn b.tset with | some t => encodeBlock b.fmt t (codeIdx w) x.2 | none => ([], false))

/-- CODE with mode ENC (spec/08 R201-R203, R214). -/
def execCodeEnc (g : Cl) (w : W64) (s : State) : Out :=
  if !codeMode w 2 then .next s else
  s.issue 0x37 1 g w 0 (some (ceOf w)) fun s c i =>
    let st := stream w
    let a := i.desc' (fB w)
    let b := i.desc' (fA w)
    let pairs := b.locs.zip a.indices
    let fs := s.encFaults c g w a b
    if !fs.isEmpty then { st := s, inst := i, faults := fs, kind := 2, unit := st } else
      s.ceReads c g st i (a.touched a.locs) fun s =>
        let who : Who := ⟨c.fn, g, ordCe st⟩
        let o := (encOrder a b).getD []
        let src := s.readView who a (o.map fun x => a.at 9 x.2)
        let els := (o.zip src.1).map fun x => (x.1.1, x.2.1)
        let blocks := s.encBlocks c w b els
        let ws := blocks.flatMap fun x => byteWrites (b.slot x.1) (s.lineBytes (b.slot x.1) x.2.1)
        let m := s.ceWrites c g st ws
        let n := (blocks.filter fun x => x.2.2).length
        { st := (m.1.cacheView who a a.locs).ceDone g c st [] (a.touched a.locs) (ws.map (·.1)) none b.extent
          inst := ((i.count kOob (pairs.length - o.length)).count kCeCoded n).count kCeStored (blocks.length - n)
          faults := src.2 ++ m.2, kind := 2, unit := st, read := a.touched a.locs }

end Sys2Proof.Machine
end

