-- ==== Sys2Proof/Decode.lean ====
section
/-! DEFINITION. Decoding: what a table word spells (the rows of spec/opcode_table.json give no bits, so none), and the
opcode map of spec/05 R136, by which an instruction word of an image names the command that runs it. -/

namespace Sys2Proof

/-- The command that a word spells by the table's bits. No row of the table gives bits. -/
def decodeTableWord (_nbits _w : Nat) : Option Instr := none

end Sys2Proof

namespace Sys2Proof.Machine

/-- The command of an instruction word at cluster g; `w2` is the word after it, which OPA and CPY take (spec/05 R135, R136;
CODE by its mode, spec/06 R149). A word that the map does not list is an unassigned opcode. -/
def issueCommand (g : Cl) (w w2 : W64) : Instr :=
  match opOf w with
  | 0x00 => .nop g w
  | 0x01 => .halt g w
  | 0x02 => .commit g w
  | 0x03 => .br g w
  | 0x04 => .brp g w
  | 0x05 => .loop g w
  | 0x06 => .call g w
  | 0x07 => .ret g w
  | 0x10 => .add g w
  | 0x11 => .sub g w
  | 0x12 => .mul g w
  | 0x13 => .and g w
  | 0x14 => .or g w
  | 0x15 => .xor g w
  | 0x16 => .shl g w
  | 0x17 => .shr g w
  | 0x18 => .ldi g w
  | 0x19 => .cmp g w
  | 0x1A => .lds g w
  | 0x1B => .sts g w
  | 0x1C => .csrr g w
  | 0x1D => .csrw g w
  | 0x20 => .tdl g w
  | 0x21 => .tds g w
  | 0x22 => .tdset g w
  | 0x23 => .tdoff g w
  | 0x30 => .cpy g w w2
  | 0x31 => .cpyr g w
  | 0x32 => .fill g w
  | 0x33 => .pref g w
  | 0x34 => .kva g w
  | 0x35 => .kvg g w
  | 0x36 => .kvf g w
  | 0x37 =>
    match fld w 9 8 with
    | 0 => .codeHist g w
    | 1 => .codeTable g w
    | 2 => .codeEnc g w
    | _ => .unassignedOpcode g w
  | 0x40 => .opa g w w2
  | 0x41 => .opz g w
  | 0x42 => .accl g w
  | 0x43 => .accs g w
  | 0x44 => .accw g w
  | 0x50 => .vld g w
  | 0x51 => .vst g w
  | 0x52 => .vadd g w
  | 0x53 => .vsub g w
  | 0x54 => .vmul g w
  | 0x55 => .vmax g w
  | 0x56 => .vmin g w
  | 0x57 => .vand g w
  | 0x58 => .vor g w
  | 0x59 => .vxor g w
  | 0x5A => .vshl g w
  | 0x5B => .vshr g w
  | 0x5C => .vcmp g w
  | 0x5D => .vsel g w
  | 0x5E => .vfma g w
  | 0x5F => .vsf g w
  | 0x60 => .vred g w
  | 0x61 => .vmrg g w
  | 0x62 => .vsamp g w
  | 0x63 => .vcvt g w
  | 0x64 => .vperm g w
  | 0x65 => .vmask g w
  | 0x66 => .vbcast g w
  | 0x70 => .wait g w
  | 0x71 => .sig g w
  | 0x72 => .sigr g w
  | 0x73 => .bar g w
  | 0x74 => .gate g w
  | 0x75 => .tickw g w
  | 0x76 => .fence g w
  | _ => .unassignedOpcode g w

/-- The command that runs the next word of the instance on cluster g (spec/05 R103, R109): none where nothing can issue. A fetch
past the image runs as an unassigned opcode, which is what its fault is (spec/05 R103). -/
def State.nextIssue (s : State) (g : Cl) : Option Instr :=
  match s.atIssue g with
  | none => none
  | some (_, i, ws) => match ws[i.pc]? with
    | some w => some (issueCommand g w (ws.getD (i.pc + 1) 0))
    | none => some (.unassignedOpcode g 0xFF00000000000000)

end Sys2Proof.Machine
end

