-- ==== Sys2Proof/Machine/Clock.lean ====
section
/-! DEFINITION. What passes with one beat of site time when no command waits (log entry 1): the counter, its slew, the age
of the last SYNC_PPS edge, the beats of holdover, and the cycles each region runs (spec/02 R34, R37, R50, spec/14 R320). -/

namespace Sys2Proof.Machine

/-- Tenths of a nanosecond slewed in one beat: at most 100 ppm of 1,000 ns, towards an error of 0 (spec/02 R37). -/
def slewStep (e : Int) : Int := if 0 < e then 1 else if e < 0 then -1 else 0

/-- The counter at its next beat edge. What a slew takes from or adds to the time between two edges is no part of the state;
what is left to slew is (log entry 1). Past 2⁶⁴ − 1 it is read modulo 2⁶⁴ (log entry 66). -/
def Tim.beat (t : Tim) : Tim :=
  { t with
    ns := t.ns + 1000
    slew := if t.locked then t.slew - slewStep t.slew else t.slew
    edgeAge := t.edgeAge.map (· + 1000)
    holdoverBeats := if t.holdover then t.holdoverBeats + 1 else t.holdoverBeats }

/-- Cycles a region runs in one beat: none while stabled or waking; half while a droop halves its clock
(spec/17 R373, R382, R384). -/
def Region.beatCycles (r : Region) : Nat :=
  if r.state = 0 then (if r.halved then Config.cyclesPerBeat r.current / 2 else Config.cyclesPerBeat r.current) else 0

/-- Cycle counts of the region after one beat; at a tick boundary the tick's count is kept. -/
def Region.beat (boundary : Bool) (r : Region) : Region :=
  let t := r.total + r.beatCycles
  if boundary then { r with lastCycles := r.cycles + r.beatCycles, cycles := 0, total := t }
  else { r with cycles := r.cycles + r.beatCycles, total := t }

/-- One beat passes. The clocks of a tripped or unpowered device stand still (spec/17 R387, spec/23 R475). -/
def oneBeat (s : State) : State :=
  if s.board.tripped || !s.board.pwrok then s
  else
    let t := s.tim.beat
    let boundary := decide (s.tim.ns / 125000 < t.ns / 125000)
    { s with
      tim := t
      pwr := { s.pwr with regions := (List.range 8).foldl (fun m r => smMod {} m r (Region.beat boundary)) s.pwr.regions } }

end Sys2Proof.Machine
end

