-- ==== Sys2Proof/Machine/Flags.lean ====
section
/-! DEFINITION. The condition codes of CMP and VCMP (spec/06 R144, R156). -/

namespace Sys2Proof.Machine

/-- A condition on two integers of one width, given signed and unsigned; none for codes 10-15 (spec/06 R144). -/
def condInt {w : Nat} (cc : Nat) (a b : BitVec w) : Option Bool :=
  match cc with
  | 0 => some (a == b)
  | 1 => some (a != b)
  | 2 => some (decide (a.toInt < b.toInt))
  | 3 => some (decide (a.toInt ≤ b.toInt))
  | 4 => some (decide (b.toInt < a.toInt))
  | 5 => some (decide (b.toInt ≤ a.toInt))
  | 6 => some (decide (a.toNat < b.toNat))
  | 7 => some (decide (a.toNat ≤ b.toNat))
  | 8 => some (decide (b.toNat < a.toNat))
  | 9 => some (decide (b.toNat ≤ a.toNat))
  | _ => none

/-- A condition on two FP32 lanes: a NaN gives false, except under NE; none for codes above 5 (spec/06 R156). -/
def condF32 (cc : Nat) (a b : W32) : Option Bool :=
  let x := f32 a
  let y := f32 b
  let un := x.isNan || y.isNan
  match cc with
  | 0 => some (x.eqv y)
  | 1 => some (un || !x.eqv y)
  | 2 => some (x.lt y)
  | 3 => some (x.le y)
  | 4 => some (y.lt x)
  | 5 => some (y.le x)
  | _ => none

end Sys2Proof.Machine
end

