-- ==== Sys2Proof/Machine/Scalar.lean ====
section
/-! DEFINITION. The scalar instructions (spec/06 R142-R146, spec/05 R104, R108). -/

namespace Sys2Proof.Machine

def Inst.s (i : Inst) (n : Nat) : W64 := smGet 0 i.sreg n
def Inst.setS (i : Inst) (n : Nat) (x : W64) : Inst := { i with sreg := smPut 0 i.sreg n x }

/-- The predicate `p` written; a write to p0 is discarded (spec/05 R106). -/
def Inst.setP (i : Inst) (p : Nat) (b : Bool) : Inst := if p = 0 then i else { i with pred := putBit i.pred p b }

/-- The second operand: a register, or the sign-extended 31-bit immediate (spec/06 R142). -/
def Inst.opB (i : Inst) (w : W64) : W64 :=
  if fld w 31 31 = 1 then BitVec.ofInt 64 (sext 31 (fld w 30 0)) else i.s (fC w)

/-- Reserved fields of the two operand forms; `d` says which values field D may hold in the register form. -/
def aluFaults (w : W64) (d : Nat) : List Byte :=
  if fld w 31 31 = 1 then onFault (fC w != 0 || fD w != 0) fInstruction
  else onFault (fld w 30 0 != 0 || decide (d < fD w)) fInstruction

/-- One of the eight arithmetic and logic instructions. -/
def execAlu (op d : Nat) (f : W64 → W64 → W64) (g : Nat) (w : W64) (s : State) : Out :=
  s.issue op 1 g w 0 none fun s _ i =>
    { st := s, inst := i.setS (fA w) (f (i.s (fB w)) (i.opB w)), faults := aluFaults w d }

def execAdd (g : Cl) (w : W64) (s : State) : Out := execAlu 0x10 0 (· + ·) g w s
def execSub (g : Cl) (w : W64) (s : State) : Out := execAlu 0x11 0 (· - ·) g w s
def execMul (g : Cl) (w : W64) (s : State) : Out := execAlu 0x12 0 (· * ·) g w s
def execAnd (g : Cl) (w : W64) (s : State) : Out := execAlu 0x13 0 (· &&& ·) g w s
def execOr (g : Cl) (w : W64) (s : State) : Out := execAlu 0x14 0 (· ||| ·) g w s
def execXor (g : Cl) (w : W64) (s : State) : Out := execAlu 0x15 0 (· ^^^ ·) g w s
/-- Shifts take the low 6 bits of the second operand (spec/06 R142). -/
def execShl (g : Cl) (w : W64) (s : State) : Out :=
  execAlu 0x16 0 (fun a b => a <<< (b.toNat % 64)) g w s
/-- SHR is arithmetic when field D is 1 (spec/06 R142). -/
def execShr (g : Cl) (w : W64) (s : State) : Out :=
  execAlu 0x17 1 (fun a b => if fD w = 1 then a.sshiftRight (b.toNat % 64) else a >>> (b.toNat % 64)) g w s

/-- LDI: a sign-extended 32-bit value, or a new high half (spec/06 R143). -/
def execLdi (g : Cl) (w : W64) (s : State) : Out :=
  s.issue 0x18 1 g w 0 none fun s _ i =>
    { st := s
      inst := i.setS (fA w) (if fld w 32 32 = 1 then BitVec.ofNat 64 (low w * 2 ^ 32 + (i.s (fA w)).toNat % 2 ^ 32)
        else BitVec.ofInt 64 (sext 32 (low w)))
      faults := rsvFaults w [(46, 33)] }

/-- CMP (spec/06 R144). -/
def execCmp (g : Cl) (w : W64) (s : State) : Out :=
  s.issue 0x19 1 g w 0 none fun s _ i =>
    match condInt (fld w 36 33) (i.s (fB w)) (i.opB w) with
    | none => { st := s, inst := i, faults := [fInstruction] }
    | some b =>
      { st := s
        inst := i.setP (fld w 51 49) b
        faults := rsvFaults w [(48, 47), (32, 32)]
          ++ onFault (if fld w 31 31 = 1 then fC w != 0 else fld w 30 0 != 0) fInstruction }

/-! ### Loads and stores (spec/06 R145) -/

/-- The address of LDS, STS, TDL and TDS. -/
def Inst.ea (i : Inst) (w : W64) : Nat :=
  (BitVec.ofInt 64 (sext 24 (fld w 23 0)) + (if fld w 36 36 = 1 then 0 else i.s (fB w))).toNat

/-- Faults of an access of `n` bytes: reserved fields, alignment, range, segment tag. -/
def State.eaFaults (s : State) (c : Cmd) (g : Nat) (w : W64) (i : Inst) (n : Nat) (store : Bool) : List Byte :=
  let a := i.ea w
  let sp := fld w 35 34
  onFault (fld w 36 36 == 1 && fB w != 0) fInstruction ++ onFault (decide (2 ≤ sp)) fInstruction
    ++ onFault (a % n != 0) fInstruction
    ++ (if sp = 0 then onFault (store || decide (1024 ≤ a)) fInstruction
        else if sp = 1 then
          (if 0x600000 ≤ a then [fInstruction]
           else onFault (s.segTag (cbAddr g a) != some c.fn) fPermission)
        else [])

/-- `n` bytes at the address, from the argument memory or the own buffer. -/
def State.eaRead (s : State) (g : Nat) (w : W64) (i : Inst) (n : Nat) : List Byte :=
  let a := i.ea w
  if fld w 35 34 = 0 then (List.range n).map fun k => i.args.getD (a + k) 0
  else (List.range n).map fun k => s.see g ordSeq (cbAddr g (a + k))

/-- STS writes accepted by the own buffer. -/
def State.eaWrite (s : State) (c : Cmd) (g : Nat) (w : W64) (i : Inst) (bs : List Byte) : State :=
  s.accept g wSts 0 c.id (byteWrites (cbAddr g (i.ea w)) bs)

/-- LDS (spec/06 R145). -/
def execLds (g : Cl) (w : W64) (s : State) : Out :=
  s.issue 0x1A 1 g w 0 none fun s c i =>
    let n := 2 ^ fld w 33 32
    let x := leNat (s.eaRead g w i n)
    { st := s.bump
      inst := i.setS (fA w) (if fld w 30 30 = 1 then BitVec.ofInt 64 (sext (8 * n) x) else BitVec.ofNat 64 x)
      faults := rsvFaults w [(41, 37), (31, 31), (29, 24)] ++ s.eaFaults c g w i n false }

/-- STS (spec/06 R145). -/
def execSts (g : Cl) (w : W64) (s : State) : Out :=
  s.issue 0x1B 1 g w 0 none fun s c i =>
    let n := 2 ^ fld w 33 32
    let fs := rsvFaults w [(41, 37), (31, 24)] ++ s.eaFaults c g w i n true
    { st := if fs.isEmpty then s.eaWrite c g w i (leBytes n (i.s (fA w)).toNat) else s
      inst := i
      faults := fs }

/-! ### CSRs (spec/05 R108) -/

/-- Region cycles since the instance started: those of the whole beats, a free part of the current beat's, and never less than it
last read (log entry 68). -/
def State.cyclesOf (s : State) (g : Nat) (i : Inst) : Nat :=
  let r := s.region (regionOf g)
  max i.cycle (r.total - i.start + s.free 0 % (r.beatCycles + 1))

/-- The value of a CSR; none for an unlisted number. -/
def State.csr (s : State) (c : Cmd) (g : Nat) (i : Inst) (n : Nat) : Option W64 :=
  let k := fun (x : Nat) => smGet 0 (s.cl g).totals (16 * c.fn + x)
  match n with
  | 0x000 => some (i.gen.setWidth 64)
  | 0x001 => some (BitVec.ofNat 64 i.rank)
  | 0x002 => some (BitVec.ofNat 64 i.size)
  | 0x003 => some (BitVec.ofNat 64 g)
  | 0x004 => some (BitVec.ofNat 64 s.glb.index)
  | 0x005 => some (BitVec.ofNat 64 c.fn)
  | 0x006 => some (BitVec.ofNat 64 (c.batch.getD 0 0))
  | 0x007 => some (BitVec.ofNat 64 c.phase)
  | 0x008 => some (c.epoch.setWidth 64)
  | 0x009 => some (BitVec.ofNat 64 c.args.length)
  | 0x010 => some (BitVec.ofNat 64 s.tim.ns)
  | 0x011 => some (BitVec.ofNat 64 s.tick)
  | 0x012 => some (BitVec.ofNat 64 (s.cyclesOf g i))
  | 0x013 => some (BitVec.ofNat 64 (s.region (regionOf g)).current)
  | 0x020 => some (k kAcc)
  | 0x021 => some (k kNotReady)
  | 0x022 => some (k kExpStall)
  | 0x023 => some (k kConflict)
  | 0x024 => some (k kThrottle)
  | 0x025 => some (k kAccsCoded)
  | 0x026 => some (k kAccsStored)
  | 0x027 => some (k kSat)
  | 0x028 => some (k kNanZero)
  | _ => none

/-- CSRR (spec/06 R146). -/
def execCsrr (g : Cl) (w : W64) (s : State) : Out :=
  s.issue 0x1C 1 g w 0 none fun s c i =>
    match s.csr c g i (fld w 11 0) with
    | none => { st := s, inst := i, faults := [fInstruction] }
    | some x => { st := if fld w 11 0 = 0x012 then s.bump else s
                  inst := (if fld w 11 0 = 0x012 then { i with cycle := s.cyclesOf g i } else i).setS (fA w) x
                  faults := rsvFaults w [(46, 12)] }

/-- CSRW: SR_SEED alone can be written, and a 0 is stored as 1 (spec/06 R146, spec/03 R71). -/
def execCsrw (g : Cl) (w : W64) (s : State) : Out :=
  s.issue 0x1D 1 g w 0 none fun s _ i =>
    let x : W32 := (i.s (fA w)).setWidth 32
    { st := s
      inst := { i with gen := if x = 0 then 1 else x }
      faults := rsvFaults w [(46, 12)] ++ onFault (fld w 11 0 != 0) fInstruction }

end Sys2Proof.Machine
end

