-- ==== Sys2Proof/Machine/Kv.lean ====
section
/-! DEFINITION. The key/value cache: geometry, the trough, flushes, and KVA, KVG and KVF (spec/12 R269-R286). -/

namespace Sys2Proof.Machine

/-! ### Geometry (spec/12 R270, R271, R274, R275) -/

def LayoutRec.planes (l : LayoutRec) : Nat := l.layers * l.heads * 2
def LayoutRec.tokenBytes (l : LayoutRec) : Nat := l.dim * fmtWidth l.format / 8
/-- Tokens in a block, b_t. -/
def LayoutRec.bt (l : LayoutRec) : Nat := spanOf l.format / l.tokenBytes
def LayoutRec.unitBytes (l : LayoutRec) : Nat := l.planes * pitchOf l.format
/-- Units of a page of size n, u(n). -/
def LayoutRec.u (l : LayoutRec) (n : Nat) : Nat := max 1 (16 * 2 ^ n / l.bt)
def LayoutRec.slotBytes (l : LayoutRec) : Nat := l.planes * 16 * l.tokenBytes
def LayoutRec.unitVa (l : LayoutRec) (x : Nat) : Nat := l.poolBase + 65536 + x * l.unitBytes
def LayoutRec.placeVa (l : LayoutRec) (slot plane q : Nat) : Nat :=
  l.troughBase + slot * l.slotBytes + (plane * 16 + q) * l.tokenBytes
/-- Block j of plane p of a page of size n at an address. -/
def LayoutRec.blockVa (l : LayoutRec) (addr n plane j : Nat) : Nat := addr + (plane * l.u n + j) * pitchOf l.format
def LayoutRec.plane (l : LayoutRec) (layer head kv : Nat) : Nat := (layer * l.heads + head) * 2 + kv

/-- Places of the settled trough tokens, in token order (spec/12 R272). -/
def Ctx.places (c : Ctx) : List Nat := (List.range c.fill).map fun i => bits c.map.toNat (4 * i + 3) (4 * i)
/-- Free places, rising (spec/12 R274). -/
def Ctx.freePlaces (c : Ctx) : List Nat := (List.range 16).filter fun q => !c.places.contains q
/-- The mark of a context (spec/12 R280). -/
def Ctx.mark (c : Ctx) : Nat := 17 - c.candMax

/-! ### Runs of units -/

/-- Run number r of u units is not in use. -/
def runFree (used : List (Nat × Nat)) (u r : Nat) : Bool := used.all fun x => !overlaps (r * u) u x.1 x.2

/-- A free aligned run of `u` units that SCH takes by its own policy: any that is free may come (spec/12 R280). -/
def State.takeRun (s : State) (l : LayoutRec) (u : Nat) : Option Nat :=
  let used := l.units ++ l.returning.map fun x => (x.1, x.2.1)
  let n := l.poolUnits / u
  let cand := s.free 3 % n
  if n = 0 then none
  else if runFree used u cand then some (cand * u)
  else ((List.range (min n (sumN (used.map (·.2)) + 1))).find? (runFree used u)).map (· * u)

/-- A run being returned could serve (spec/12 R281). -/
def LayoutRec.returningOne (l : LayoutRec) : Bool := !l.returning.isEmpty

/-! ### Flushes (spec/12 R280, R282) -/

/-- What a flush of a trough yields: the writes of its blocks, TUSE, the counts of its symbols, blocks coded and stored,
faults of its reads. -/
structure FlushOut where
  writes : List (Nat × Byte × Byte)
  tuse : BitVec 8
  hist : List Nat
  coded : Nat
  stored : Nat
  faults : List Byte

/-- The trough bytes a flush reads. -/
def LayoutRec.flushReads (l : LayoutRec) (slot : Nat) (places : List Nat) : List Nat :=
  (List.range l.planes).flatMap fun p => places.flatMap fun q => addrs (l.placeVa slot p q) l.tokenBytes

/-- The tokens at places of a trough slot, coded as one page of SIZE 0 at a unit (spec/12 R280). -/
def State.flushPage (s : State) (w : Who) (l : LayoutRec) (slot unit : Nat) (places : List Nat) : FlushOut :=
  let per := l.dim
  let rd := fun (p : Nat) => s.readBs w (places.flatMap fun q => addrs (l.placeVa slot p q) l.tokenBytes)
  let planes := (List.range l.planes).map fun p => let r := rd p
                                                   (p, rawElems l.format (places.length * per) r.1, r.2)
  let blocks := planes.flatMap fun x => (List.range (ceilDiv places.length l.bt)).map fun j =>
    (l.blockVa (l.unitVa unit) 0 x.1 j, (x.2.1.drop (j * l.bt * per)).take (l.bt * per))
  let enc := blocks.map fun b => (b.1, match s.tset w.t l.tset with
    | some t => (bestRecord l.format t l.mask.toNat b.2, encodeBest l.format t l.mask.toNat b.2)
    | none => (none, storedBlock l.format b.2, false))
  let used := enc.filterMap fun e => if e.2.2.2 then e.2.1 else none
  { writes := enc.flatMap fun e => byteWrites e.1 (s.lineBytes e.1 e.2.2.1)
    tuse := used.foldl (fun m i => putBit m i true) 0
    hist := if fmtFloat l.format then histCounts l.format (planes.flatMap (·.2.1)) else []
    coded := (enc.filter fun e => e.2.2.2).length
    stored := (enc.filter fun e => !e.2.2.2).length
    faults := planes.flatMap (·.2.2) }

/-- Counts added to a layout's running histogram; when a symbol's would pass 2³¹ all are halved first (spec/12 R282). What the 32
bits of the positions count hold past 2³² is not stated: a free value (log entry 29). -/
def State.addHist (s : State) (t : Nat) (l : LayoutRec) (hist : List Nat) (elems : Nat) : State :=
  let rd := s.schRead t l.poolBase (16 + 4 * hist.length)
  let s := rd.1
  match rd.2 with
  | .inr _ => s
  | .inl bs =>
    let n := fieldN bs 4 4
    let cs := (List.range hist.length).map fun i => fieldN bs (16 + 4 * i) 4
    let above := (cs.zip hist).any fun x => decide (2 ^ 31 < x.1 + x.2)
    let half := fun (x : Nat) => if above then x / 2 else x
    let total := half n + elems
    if hist.isEmpty then s
    else s.wrVa t l.poolBase (histBytes l.format (if total < 2 ^ 32 then total else s.free 9) ((cs.zip hist).map fun x => half x.1 + x.2))

/-! ### KVA (spec/12 R276-R279) -/

/-- The context of a batch slot as it stood at dispatch, with its layout. -/
def State.slotCtx (s : State) (c : Cmd) (k : Nat) : Option (Ctx × LayoutRec) :=
  match c.snap[k]? with
  | some x => match s.layout c.fn x.layout with
    | some l => some (x, l)
    | none => none
  | none => none

/-- Faults of a view of KVA (spec/12 R276). -/
def State.kvViewFaults (s : State) (c : Cmd) (g : Nat) (l : LayoutRec) (n : Nat) (d : Desc) : List Byte :=
  s.descFaults c.fn false d ++ onFault (d.fmt != l.format || d.tset != 0) fFormat
    ++ onFault (d.rank != 2 || d.ext.getD 0 1 != l.dim || d.ext.getD 1 1 != n) fInstruction
    ++ s.ownFaults g d d.locs ++ s.rdChecks c g (d.touched d.locs)

/-- The last keep mask an instance gave for a slot. -/
def Inst.keep (i : Inst) (k : Nat) : Option (BitVec 16) := (findLast (fun x : Settle => x.slot == k) i.settles).map (·.keep)

/-- Another instance of the command has settled the slot (spec/12 R279). -/
def State.otherSettle (s : State) (c : Cmd) (g k : Nat) : Bool :=
  (c.place.any fun h => h != g && match (s.cl h).instOf c.id with
    | some i => (i.keep k).isSome
    | none => false) || c.insts.any fun x => x.1 != g && (x.2.keep k).isSome

/-- Faults of a KVA at issue (spec/12 R276, R277). -/
def State.kvaFaults (s : State) (c : Cmd) (g : Nat) (w : W64) (i : Inst) (cx : Ctx) (l : LayoutRec) : List Byte :=
  let x := (i.s (fC w)).toNat
  let n := bits x 4 0
  let settle := bitN x 12
  let keep := bits x 31 16
  rsvFaults w [(36, 2)] ++ onFault (bits x 7 5 != 0 || bits x 15 13 != 0 || bits x 63 54 != 0) fInstruction
    ++ onFault (n == 0 || decide (16 < n)) fInstruction
    ++ onFault (decide (l.layers ≤ bits x 41 32) || decide (l.heads ≤ bits x 47 42)) fInstruction
    ++ onFault (decide (16 - cx.fill < bits x 11 8 + n)) fInstruction
    ++ onFault (settle && keep / 2 ^ (16 - cx.fill) != 0) fInstruction
    ++ onFault (settle && s.otherSettle c g (bits x 53 48)) fInstruction
    ++ s.kvViewFaults c g l n (i.desc' (fA w)) ++ s.kvViewFaults c g l n (i.desc' (fB w))

/-- The writes of a KVA of n candidates from `cand` upward: K and V of each token to its place in the trough. -/
def kvaWrites (l : LayoutRec) (cx : Ctx) (x : Nat) (fa fb : Nat) (ka vb : List El) : List (Nat × Byte × Byte) :=
  let put := fun (kv f : Nat) (els : List El) => (List.range (bits x 4 0)).flatMap fun j =>
    let va := l.placeVa cx.trough (l.plane (bits x 41 32) (bits x 47 42) kv) (cx.freePlaces.getD (bits x 11 8 + j) 0)
    byteWrites va (((els.drop (j * l.dim)).take l.dim).flatMap fun e => leBytes (fmtWidth f / 8) e.1)
  put 0 fa ka ++ put 1 fb vb

/-- KVA (spec/12 R276, R277). -/
def execKva (g : Cl) (w : W64) (s : State) : Out :=
  s.issue 0x34 1 g w 0 (some (ceOf w)) fun s c i =>
    let st := stream w
    let x := (i.s (fC w)).toNat
    let n := bits x 4 0
    let settle := bitN x 12
    let keep := BitVec.ofNat 16 (bits x 31 16)
    let k := bits x 53 48
    let rs := rsvFaults w [(36, 2)] ++ onFault (bits x 7 5 != 0 || bits x 15 13 != 0 || bits x 63 54 != 0) fInstruction
      ++ onFault (n == 0 || decide (16 < n)) fInstruction
    match s.slotCtx c k with
    | none => { st := s, inst := i, faults := rs ++ [fPermission], kind := 2, unit := st }
    | some (cx, l) =>
      let a := i.desc' (fA w)
      let b := i.desc' (fB w)
      let fs := s.kvaFaults c g w i cx l
      if !fs.isEmpty then { st := s, inst := i, faults := fs, kind := 2, unit := st, slot := some k } else
        let rd := a.touched a.locs ++ b.touched b.locs
        s.ceReads c g st i rd fun s =>
          let who : Who := ⟨c.fn, g, ordCe st⟩
          let ra := s.readView who a a.locs
          let rb := s.readView who b b.locs
          let ws := kvaWrites l cx x a.fmt b.fmt ra.1 rb.1
          let m := s.ceWrites c g st ws
          let i1 := if settle then { i with
              settles := i.settles ++ [{ slot := k, keep := keep }]
              flushes := i.flushes.map fun f => if f.slot = k then { f with void := true } else f } else i
          { st := m.1.ceDone g c st [] rd (ws.map (·.1)) (some k) (0, 0), inst := i1
            faults := ra.2 ++ rb.2 ++ m.2, kind := 2, unit := st, slot := some k, read := rd }

/-! ### KVF (spec/12 R280, R281) -/

/-- Places of the tokens a KVF flushes for a slot: those of MAP, then the kept candidates; and LEN after the settle. -/
def flushPlaces (cx : Ctx) (keep : BitVec 16) : List Nat × Nat :=
  let kept := (setBits keep).map fun c => cx.freePlaces.getD c 0
  (cx.places ++ kept, cx.len + kept.length)

/-- What one KVF does, slot by slot: the state and instance, the slots flushed and the addresses written, faults with
their slot; none for a stall; a refusal. -/
inductive KvfOut where
  | go (s : State) (i : Inst) (done as : List Nat) (faults : List Byte) (slot : Option Nat)
  | stall
  | refused

/-- A KVF for a list of slots. -/
def State.kvf (s : State) (c : Cmd) (g st : Nat) (i : Inst) (done as : List Nat) : List Nat → KvfOut
  | [] => .go s i done as [] none
  | k :: ks =>
    match s.slotCtx c k with
    | none => s.kvf c g st i done as ks
    | some (cx, l) =>
      let fp := flushPlaces cx ((i.keep k).getD 0)
      if fp.1.length < cx.mark then s.kvf c g st i done as ks
      else if 512 ≤ (s.ctx (c.batch.getD k 0)).pages.length then .refused
      else match s.takeRun l (l.u 0) with
      | none => if l.returningOne then .stall else .refused
      | some u =>
        let o := s.flushPage ⟨c.fn, g, ordCe st⟩ l cx.trough u fp.1
        let m := s.ceWrites c g st o.writes
        let s1 := m.1.setLayout c.fn cx.layout (some { l with units := l.units ++ [(u, l.u 0)] })
        let f : Flush := { slot := k, unit := u, units := l.u 0, tokens := fp.1.length, first := fp.2 - fp.1.length,
                           tuse := o.tuse, void := false, hist := o.hist }
        let i1 := { i with flushes := (i.flushes.map fun (y : Flush) => if y.slot = k then { y with void := true } else y) ++ [f] }
        let i2 := (i1.count kCeCoded o.coded).count kCeStored o.stored
        let at' := as ++ o.writes.map (·.1)
        if !(o.faults ++ m.2).isEmpty then .go s1 i2 done at' (o.faults ++ m.2) (some k)
        else s1.bump.kvf c g st i2 (done ++ [k]) at' ks

/-- The trough bytes a KVF reads, with the slot of the context that each flushes. -/
def State.kvfReads (s : State) (c : Cmd) (i : Inst) (slots : List Nat) : List (List Nat × Nat) :=
  slots.filterMap fun k => match s.slotCtx c k with
    | none => none
    | some (cx, l) =>
      let fp := flushPlaces cx ((i.keep k).getD 0)
      if fp.1.length < cx.mark then none else some (l.flushReads cx.trough fp.1, k)

/-- Faults at issue of a KVF's reads, with their slots: a declared output is not read (spec/05 R120; spec/12 R271 excepts the writes
alone). -/
def State.kvfFaults (s : State) (c : Cmd) (g : Nat) (i : Inst) (slots : List Nat) : List (Byte × Nat) :=
  (s.kvfReads c i slots).flatMap fun x => (s.rdChecks c g x.1).map (·, x.2)

/-- KVF (spec/12 R280, R281): one operation for every context it flushes; with none to flush it ends at once. One that faults leaves
the runs it took with its instance, so that the kill returns them. -/
def execKvf (g : Cl) (w : W64) (s : State) : Out :=
  s.issue 0x36 1 g w 0 (some (ceOf w)) fun s c i =>
    let st := stream w
    let rs := rsvFaults w [(51, 2)]
    if !rs.isEmpty then { st := s, inst := i, faults := rs, kind := 2, unit := st } else
      let settled := (i.settles.map (·.slot)).eraseDups
      let slots := if settled.contains 0 then settled else 0 :: settled
      let fs := s.kvfFaults c g i slots
      if !fs.isEmpty then { st := s, inst := i, faults := fs.map (·.1), kind := 2, unit := st, slot := fs.head?.map (·.2) } else
      let rd := (s.kvfReads c i slots).flatMap (·.1)
      s.ceReads c g st i rd fun s => match s.kvf c g st i [] [] slots with
      | .stall => { st := s, inst := i, stall := true }
      | .refused =>
        let s1 := s.killEnd c rQuota true
        { st := { s1 with serv := { s1.serv with kvRefused := s1.serv.kvRefused + 1 } }, inst := i }
      | .go s1 i1 done ws fs k =>
        match done ++ k.toList with
        | [] => { st := s1.bump, inst := i1, faults := fs, kind := 2, unit := st, slot := k, read := rd }
        | d :: ds =>
          let s2 := s1.ceDone g c st [] rd ws (some (s1.choose d (d :: ds))) (0, 0)
          { st := if fs.isEmpty then s2 else s2.modCl g fun x => x.setInst { i with flushes := i1.flushes }
            inst := i1, faults := fs, kind := 2, unit := st, slot := k, read := rd }

/-! ### KVG (spec/12 R284-R286) -/

/-- One destination slot of a KVG: a block of a page (its address and package) or trough tokens by place, and which of its
positions hold tokens of the range. -/
structure KvgSlot where
  src : (Nat × Nat) ⊕ List Nat
  hold : List Bool

/-- The slots a range of tokens takes. -/
def kvgSlots (l : LayoutRec) (cx : Ctx) (plane first n : Nat) : List KvgSlot :=
  let inR := fun (t : Nat) => decide (first ≤ t) && decide (t < first + n)
  let pages := cx.pages.flatMap fun p => (List.range (ceilDiv p.tokens l.bt)).filterMap fun j =>
    let hold := (List.range l.bt).map fun t => decide (j * l.bt + t < p.tokens) && inR (p.first + j * l.bt + t)
    if hold.any id then some { src := .inl (l.blockVa p.addr p.size plane j, p.pkg), hold := hold } else none
  let tr := (cx.places.zipIdx.filter fun q => inR (cx.len - cx.fill + q.2)).map (·.1)
  let cut := (List.range (ceilDiv tr.length l.bt)).map fun j =>
    let qs := (tr.drop (j * l.bt)).take l.bt
    { src := .inr qs, hold := (List.range l.bt).map fun t => decide (t < qs.length) : KvgSlot }
  pages ++ cut

/-- Bytes of a block read from a package, and the faults met. -/
def State.readFrom (s : State) (w : Who) (pkg : Nat) (as : List Nat) : List Byte × List (Byte × Nat) :=
  if pkg = (if s.glb.valid then s.glb.index else 0) then
    let r := s.readBs w as
    (r.1, r.2.map fun f => (f, pkg))
  else if !s.reachable pkg || (s.pairOf w.t pkg).isNone || as.any (fun a => Config.remoteFault pkg a s.freeIx) then
    (as.map fun _ => 0, [(fRemote, pkg)])
  else (as.map fun a => Config.remoteByte pkg a s.freeIx, [])

/-- The bytes of one slot: a page's lines as they are, or trough tokens as a stored block (spec/12 R285). -/
def State.kvgBytes (s : State) (w : Who) (l : LayoutRec) (trough plane : Nat) (x : KvgSlot) : List Byte × List (Byte × Nat) :=
  match x.src with
  | .inl (a, pkg) =>
    let h := s.readFrom w pkg (addrs a 16)
    if !h.2.isEmpty then ([], h.2) else s.readFrom w pkg (addrs a (lineLen (hdrOf h.1) l.format))
  | .inr qs =>
    let r := s.readBs w (qs.flatMap fun q => addrs (l.placeVa trough plane q) l.tokenBytes)
    (storedBlock l.format (rawElems l.format (qs.length * l.dim) r.1), r.2.map fun f => (f, 0))

/-- The position map (spec/12 R285). -/
def kvgMap (bt n : Nat) (slots : List KvgSlot) : List Byte :=
  let pos := slots.length * bt
  leBytes 4 pos ++ leBytes 4 n ++ List.replicate 56 0
    ++ packBytes (32 * ceilDiv pos 256) (slots.flatMap (·.hold))

/-- Destination bytes of a KVG: a slot for each group of tokens, then the token map; none when they do not fit. -/
def kvgDst (l : LayoutRec) (d : Desc) (n : Nat) (slots : List KvgSlot) : List Nat :=
  let cap := d.bnd.getD 1 1 / l.bt
  if slots.length ≤ cap then
    (List.range slots.length).flatMap (fun q => addrs (d.slot q) (pitchOf d.fmt))
      ++ addrs (d.slot cap) (kvgMap l.bt n slots).length
  else []

/-- Local source bytes of a KVG. -/
def State.kvgSrc (s : State) (l : LayoutRec) (cx : Ctx) (plane : Nat) (slots : List KvgSlot) : List Nat :=
  let own := if s.glb.valid then s.glb.index else 0
  slots.flatMap fun q => match q.src with
    | .inl (a, p) => if p = own then addrs a (pitchOf l.format) else []
    | .inr qs => qs.flatMap fun z => addrs (l.placeVa cx.trough plane z) l.tokenBytes

/-- Faults of a KVG at issue (spec/12 R284-R286). -/
def State.kvgFaults (s : State) (c : Cmd) (g : Nat) (w : W64) (i : Inst) (cx : Ctx) (l : LayoutRec) : List Byte :=
  let x := (i.s (fB w)).toNat
  let y := (i.s (fC w)).toNat
  let d := i.desc' (fA w)
  let plane := l.plane (bits x 41 32) (bits x 47 42) (fld w 4 4)
  let slots := kvgSlots l cx plane (bits x 20 0) y
  let dst := kvgDst l d y slots
  rsvFaults w [(36, 5), (3, 2)] ++ onFault (bits x 31 21 != 0 || bits x 63 54 != 0) fInstruction
    ++ onFault (y == 0 || decide (1048576 < y)) fInstruction
    ++ onFault (decide (l.layers ≤ bits x 41 32) || decide (l.heads ≤ bits x 47 42)) fInstruction
    ++ onFault (decide (cx.len < bits x 20 0 + y)) fInstruction ++ s.descFaults c.fn false d
    ++ onFault (d.rank != 2 || d.ext.getD 0 1 != l.dim || d.order != 0 || d.fmt != l.format || d.tset != l.tset) fInstruction
    ++ onFault (!(s.ownAddr g d.base && dst.all (s.ownAddr g))) fInstruction
    ++ s.wrChecks c g dst ++ s.rdChecks c g (s.kvgSrc l cx plane slots)
    ++ onFault (decide (d.bnd.getD 1 1 / l.bt < slots.length)) fInstruction

/-- KVG (spec/12 R284-R286). -/
def execKvg (g : Cl) (w : W64) (s : State) : Out :=
  s.issue 0x35 1 g w 0 (some (ceOf w)) fun s c i =>
    let st := stream w
    let x := (i.s (fB w)).toNat
    let y := (i.s (fC w)).toNat
    let first := bits x 20 0
    let k := bits x 53 48
    let rs := rsvFaults w [(36, 5), (3, 2)] ++ onFault (bits x 31 21 != 0 || bits x 63 54 != 0) fInstruction
      ++ onFault (y == 0 || decide (1048576 < y)) fInstruction
    match s.slotCtx c k with
    | none => { st := s, inst := i, faults := rs ++ [fPermission], kind := 2, unit := st }
    | some (cx, l) =>
      let d := i.desc' (fA w)
      let plane := l.plane (bits x 41 32) (bits x 47 42) (fld w 4 4)
      let slots := kvgSlots l cx plane first y
      let cap := d.bnd.getD 1 1 / l.bt
      let mapVa := d.slot cap
      let mp := kvgMap l.bt y slots
      let own := if s.glb.valid then s.glb.index else 0
      let srcs := s.kvgSrc l cx plane slots
      let fs := s.kvgFaults c g w i cx l
      if !fs.isEmpty then { st := s, inst := i, faults := fs, kind := 2, unit := st, slot := some k }
      else
        s.ceReads c g st i srcs fun s =>
          let who : Who := ⟨c.fn, g, ordCe st⟩
          let bs := slots.map ((s.asOf c.dispSeq).kvgBytes who l cx.trough plane)
          let ws := (bs.zipIdx.flatMap fun b => byteWrites (d.slot b.2) b.1.1) ++ byteWrites mapVa mp
          let m := s.ceWrites c g st ws
          let fl := bs.flatMap (·.2)
          let rem := (slots.filterMap fun q => match q.src with
            | .inl (_, p) => if p = own then none else some p
            | .inr _ => none).eraseDups
          let far := slots.flatMap fun q => match q.src with
            | .inl (a, p) => if p = own then [] else (addrs a (pitchOf l.format)).map (·, p)
            | .inr _ => []
          { st := (m.1.sendReads c g st far).ceDone g c st rem srcs (ws.map (·.1)) (some k) (d.base, pitchOf d.fmt * (cap + 1))
            inst := i
            faults := fl.map (·.1) ++ m.2, kind := 2, unit := st, slot := some k
            owner := (fl.find? fun f => f.1 == fRemote).map (·.2), read := srcs }

end Sys2Proof.Machine
end

