-- ==== Sys2Proof/Machine/HostQueues.lean ====
section
/-! DEFINITION. Host queues: doorbells, entry fetch, aborts, ticks and release of completions (spec/15 R340-R350, spec/02
R45-R49, spec/05 R118-R121). -/

namespace Sys2Proof.Machine

/-! ### Queue fields (spec/15 R341, R343, R344) -/

def cfgEnable (q : Queue) : Bool := q.cfg.getLsbD 0
def cfgPush (q : Queue) : Bool := q.cfg.getLsbD 1
def cfgSqLog2 (q : Queue) : Nat := bits q.cfg.toNat 8 4
def cfgK (q : Queue) : Nat := bits q.cfg.toNat 25 19
/-- Entries of the submission ring. -/
def sqSize (q : Queue) : Nat := if cfgPush q then 4 else 2 ^ cfgSqLog2 q

/-- Whether a function's negotiated version is at least major.minor (spec/15 R355). -/
def FnBlk.atLeast (b : FnBlk) (major minor : Nat) : Bool :=
  decide (major < b.major.toNat) || (b.major.toNat == major && decide (minor ≤ b.minor.toNat))

/-- Commands of a queue that are dispatched and not completed. -/
def State.queueFlight (s : State) (f q : Nat) : Nat :=
  (s.cmds.list.filter fun c => c.fn == f && c.q == q && c.inFlight).length

/-! ### Rings (spec/15 R342-R344) -/

/-- The ring slot of the next entry: its count mod the ring size. -/
def Queue.slot (q : Queue) : Nat := q.sqHead.toNat % sqSize q
/-- Host address of the next entry of a FETCH ring. -/
def Queue.slotAddr (q : Queue) : Nat := q.sqBase.toNat + 128 * q.slot
/-- Bytes of the PUSH record in the next slot. -/
def Queue.record (q : Queue) (i n : Nat) : List Byte := memGets q.push (768 * q.slot + i) n

/-- The next entry with what belongs to it. A PUSH record holds the entry, and with INL the extents, the batch list and the
arguments too. -/
def Queue.next (q : Queue) (d : Fetched) : Fetched :=
  if !cfgPush q then d else
    let e := q.record 0 128
    if bitN (fieldN e 3 1) 2 then .entry e (q.record 128 256) (q.record 384 128) (q.record 512 256)
    else match d with
      | .entry _ exts batch args => .entry e exts batch args
      | .failed w | .listFailed w _ => .listFailed w e

/-- What a fetch read is what the host's memory holds: a FETCH ring's entry, and lists that came from host memory. -/
def State.sawEntry (s : State) (q : Queue) (admin : Bool) (e exts batch args : List Byte) : State :=
  let m1 := if cfgPush q then s.hostMem else memPuts s.hostMem q.slotAddr e
  { s with hostMem :=
    if admin || bitN (fieldN e 3 1) 2 then m1
    else memPuts (memPuts (memPuts m1 (fieldN e 40 8) exts) (fieldN e 48 8) batch) (fieldN e 32 8) args }

/-- A failed read is logged through AER (spec/15 R349). -/
def State.logAer (s : State) (f : Nat) (w : ReadFault) : State :=
  s.modFn f fun b => { b with aer := putBit b.aer (match w with | .unsupported => 0 | .completerAbort => 1 | .poisoned => 2) true }

/-- Nothing of the queue is left: no entry, command or completion. -/
def State.queueIdle (s : State) (f q : Nat) : Bool :=
  let x := s.queue f q
  x.sqTail == x.sqHead && x.held.isEmpty && x.trel.isEmpty
    && !(s.cmds.list.any fun c => c.fn == f && c.q == q) && (q != 0 || (s.fn f).reqs.isEmpty)

/-! ### Doorbells -/

/-- A write of SQ_TAIL (spec/15 R343); a queue that is not active has no ring. -/
def execSqTail (f : Fn) (q : Qn) (tail : W32) (s : State) : Out :=
  whenHost f s fun s =>
    let x := s.queue f q
    if !x.active then s
    else if sqSize x < (tail - x.sqHead).toNat then s.setQueue f q { x with overrun := true }
    else
      let s1 := s.stamp
      s1.setQueue f q { x with sqTail := tail, marks := x.marks ++ [(tail, s1.cmds.nextSeq)] }

/-- A write of CQ_HEAD: the host has consumed completions, and held ones are written (spec/15 R345). A count past the
completions written is ignored (log entry 23). -/
def execCqHead (f : Fn) (q : Qn) (head : W32) (s : State) : Out :=
  whenHost f s fun s =>
    let x := s.queue f q
    if x.active && decide ((head - x.cqHead).toNat ≤ (x.cqTail - x.cqHead).toNat) then
      (s.setQueue f q { x with cqHead := head }).drainHeld f q (x.held.length + 1)
    else s

/-! ### Command entries (spec/15 R347-R349) -/

/-- The extents of a list of 16-byte records; none where a reserved bit is set. -/
def extList (bs : List Byte) : Nat → Option (List (Nat × Nat))
  | 0 => some []
  | n + 1 =>
    let b := fieldN bs 0 8
    let l := fieldN bs 8 8
    if 2 ^ 48 ≤ b ∨ 2 ^ 41 ≤ l then none
    else (extList (bs.drop 16) n).map ((b, l) :: ·)

/-- An extent within the limits of spec/05 R118. -/
def extOk (e : Nat × Nat) : Bool :=
  e.1 % 64 == 0 && e.2 % 64 == 0 && decide (64 ≤ e.2) && decide (e.2 ≤ 2 ^ 40)

def extMeet (a b : Nat × Nat) : Bool := overlaps a.1 a.2 b.1 b.2

/-- Whether two entries of a list overlap. -/
def selfMeet : List (Nat × Nat) → Bool
  | [] => false
  | e :: es => es.any (extMeet e) || selfMeet es

def hasDup : List Nat → Bool
  | [] => false
  | x :: xs => xs.contains x || hasDup xs

/-- An entry's own bytes read as a command, where they are well formed (spec/15 R347, R348). -/
def parseEntry (q : Queue) (f qn id seq : Nat) (e exts batch args : List Byte) : Option Cmd :=
  let b := fun (i : Nat) => fieldN e i 1
  let inl := bitN (b 3) 2
  let nout := b 5
  let nscr := b 6
  let nin := b 7
  let n := b 12
  let argLen := fieldN e 28 2
  let ok := decide (b 3 < 8) && (!inl || cfgPush q) && decide (b 4 ≤ 5) && decide (nout ≤ 16) && decide (nscr ≤ 4)
    && decide (nin ≤ 16) && decide (1 ≤ n) && decide (n ≤ 64)
    && (if b 13 = 0xFF then n == 1 else decide (b 13 < nout))
    && decide (b 16 ≤ 16) && b 16 != 1 && zerosN e 17 20 && zerosN e 30 32 && zerosN e 68 128
    && decide (argLen ≤ (if inl then 256 else 1024))
    && (!inl || (zerosN e 32 56 && decide (nout + nscr + nin ≤ 16)))
    && fieldN e 56 12 != 0
  if !ok then none else
    match extList exts (nout + nscr + nin) with
    | none => none
    | some xs =>
      let r := if b 13 = 0xFF then none else some (b 13)
      if !(xs.all extOk) || (match r with | some k => decide ((xs.getD k (0, 0)).2 < 512) | none => false) then none
      else some {
        id := id, fn := f, q := qn, cid := BitVec.ofNat 16 (fieldN e 0 2), seq := seq, express := cfgExpress q
        phase := b 4, program := fieldN e 8 2
        batch := fieldN e 10 2 :: (List.range (n - 1)).map fun i => fieldN batch (2 * i) 2
        report := r
        gang := fieldN e 14 2, gangSize := b 16
        notBefore := if bitN (b 3) 0 then some (BitVec.ofNat 32 (fieldN e 20 4)) else none
        deadline := if bitN (b 3) 1 then some (BitVec.ofNat 32 (fieldN e 24 4)) else none
        args := padTo argLen args
        outs := xs.take nout, scr := (xs.drop nout).take nscr, ins := xs.drop (nout + nscr)
        mask := BitVec.ofNat 96 (fieldN e 56 12) }

/-- How far a tick lies after the current one (spec/02 R45). -/
def State.ticksTo (s : State) (t : W32) : Int := diff32 t (BitVec.ofNat 32 s.tick)

/-- A deadline that is past at submission or earlier than the not-before tick (spec/02 R48). -/
def State.deadlineGone (s : State) (c : Cmd) : Bool :=
  match c.deadline with
  | none => false
  | some d => decide (s.ticksTo d < 0) || (match c.notBefore with | some n => decide (s.ticksTo d < s.ticksTo n) | none => false)

/-- The batch names a context of another tenant space (spec/13 R298). -/
def State.foreignBatch (s : State) (c : Cmd) : Bool :=
  c.batch.any fun x => (s.ctx x).state != 0 && (s.ctx x).tenant != c.fn

/-- Checks of a command at submission (spec/05 R119, R121, spec/13 R298, spec/02 R48), and whether the fault ends its
contexts. The argument block lies in host memory and is copied into argument memory, so no extent overlaps it (log
entry 23). A batch that is itself refused ends no context. -/
def State.submitFaults (s : State) (c : Cmd) : List (Byte × Bool) :=
  (if c.outs.any (fun o => (c.scr ++ c.ins).any (extMeet o)) || selfMeet c.outs
      || c.scr.any (fun x => c.ins.any (extMeet x)) then [(fAlias, false)] else [])
    ++ (if c.gangSize ≠ 0 ∧ c.deadline = none then [(fDeadline, false)] else [])
    ++ (if hasDup c.batch then [(fInstruction, false)] else [])
    ++ (if s.foreignBatch c then [(fPermission, false)] else [])
    ++ (if s.deadlineGone c then [(fDeadline, !hasDup c.batch && !s.foreignBatch c)] else [])

/-- One entry of a queue is used up; the order of latching of its doorbell (spec/02 R43). -/
def Queue.take (q : Queue) : Queue × Nat :=
  let h := q.sqHead + 1
  let seq := ((q.marks.find? fun m => 0 < (m.1 - q.sqHead).toNat && (m.1 - q.sqHead).toNat ≤ 2 ^ 31).map (·.2)).getD 0
  ({ q with sqHead := h, marks := q.marks.filter fun m => m.1 != h }, seq)

/-- A command entry fetched. One that is refused whole writes a batch report where its fields can be read (spec/13 R298). -/
def State.takeCommand (s : State) (f qn seq : Nat) (e exts batch args : List Byte) : State :=
  let q := s.queue f qn
  let cid := BitVec.ofNat 16 (fieldN e 0 2)
  let bad := fun (st : Byte) => match parseEntry q f qn s.cmds.nextId seq e exts batch args with
    | some c => ({ s with cmds := { s.cmds with nextId := s.cmds.nextId + 1 } }).refuseCmd c st
    | none => s.complete f qn (s.compl cid st 0 0 0)
  let pushed := bitN (fieldN e 3 1) 2
  let timed := bitN (fieldN e 3 1) 0 || bitN (fieldN e 3 1) 1 || !(zerosN e 20 28)
  let gang := !(zerosN e 14 17)
  if q.closing || !cfgEnable q then bad stAborted
  else if s.cmds.list.any (fun c => c.fn == f && c.q == qn && c.cid == cid) then bad fInstruction
  else if fieldN e 2 1 ≠ 0 then s.complete f qn (s.compl cid fInstruction 0 0 0)
  else if (timed && !(s.fn f).atLeast 1 1) || (gang && !(s.fn f).atLeast 1 2) || (pushed && !(s.fn f).atLeast 1 3) then bad rVersion
  else match parseEntry q f qn s.cmds.nextId seq e exts batch args with
  | none => s.complete f qn (s.compl cid fInstruction 0 0 0)
  | some c =>
    let s1 := { s with cmds := { s.cmds with nextId := s.cmds.nextId + 1, list := s.cmds.list ++ [c] } }
    match s.submitFaults c with
    | [] =>
      if c.batch.any fun x => decide (seq ≤ (s.ctx x).cancelSeq) && (s.ctx x).state != 0 then s1.refuseCmd c stAborted
      else match c.notBefore with
        | some n => if s.ticksTo n ≤ 0 then s1.setCmd { c with notBefore := none } else s1
        | none => s1
    | x :: xs =>
      let y := if xs.all (· == x) then x else s.choose x (x :: xs)
      (if y.2 then s1.faultCmd c y.1 none 0 false else s1.refuseCmd c y.1).bump

/-- The request codes with the minor version each needs (spec/15 R355) and the number of operand words it names (R351). -/
def reqCodes : List (Nat × Nat × Nat) :=
  [(0x01, 0, 3), (0x02, 0, 2), (0x03, 0, 4), (0x08, 0, 0), (0x09, 0, 1), (0x0C, 0, 1), (0x0D, 2, 2), (0x10, 0, 1),
   (0x11, 0, 1), (0x12, 0, 1), (0x13, 0, 1), (0x18, 0, 1), (0x19, 0, 2), (0x1A, 4, 2), (0x20, 0, 6), (0x21, 0, 1),
   (0x22, 0, 1), (0x23, 0, 2), (0x24, 0, 3), (0x25, 0, 2), (0x26, 0, 3), (0x27, 2, 2), (0x28, 0, 1), (0x29, 0, 5),
   (0x2A, 0, 2), (0x30, 0, 2), (0x31, 3, 2)]

/-- Operand words P0 to P(n-1) of a request entry (spec/15 R351). -/
def reqOps (e : List Byte) (n : Nat) : List W64 := (List.range n).map fun i => BitVec.ofNat 64 (fieldN e (24 + 8 * i) 8)

/-- A request entry fetched on queue 0: it waits for SCH in arrival order. Operand words its code does not name are reserved. -/
def State.takeRequest (s : State) (f : Nat) (e : List Byte) : State :=
  let cid := BitVec.ofNat 16 (fieldN e 0 2)
  let bad := fun (st : Byte) => s.complete f 0 (s.compl cid st 1 0 0)
  if (s.queue f 0).closing || !cfgEnable (s.queue f 0) then bad stAborted
  else if (s.fn f).reqs.any (fun r => r.cid == cid) then bad fInstruction
  else if fieldN e 2 1 ≠ 1 then s.complete f 0 (s.compl cid fInstruction 0 0 0)
  else if !(zerosN e 3 4 && zerosN e 6 8 && zerosN e 20 24) then bad fInstruction
  else match reqCodes.find? fun r => r.1 == fieldN e 4 2 with
  | none => bad fInstruction
  | some r =>
    if !(s.fn f).atLeast 1 r.2.1 then bad rVersion
    else if !zerosN e (24 + 8 * r.2.2) 128 then bad fInstruction
    else s.modFn f fun b => { b with reqs := b.reqs ++ [{
      cid := cid, code := r.1, addr := BitVec.ofNat 64 (fieldN e 8 8), len := fieldN e 16 4, ops := reqOps e r.2.2 }] }

/-- The device takes the next entry of a ring with its lists; a full completion queue stops the ring (spec/15 R343-R345, R349). Where the read of the entry itself
fails no CID is known to answer with: the value is free. -/
def execEntryFetch (f : Fn) (q : Qn) (data : Fetched) (s : State) : Out :=
  whenAlive s <|
    let x := s.queue f q
    if !x.active || x.sqTail == x.sqHead || !(s.fn f).busMaster || x.cqFull then s
    else
      let t := x.take
      let s1 := s.setQueue f q t.1
      let kind := if q.val = 0 then 1 else 0
      match x.next data with
      | .failed w => ((s1.logAer f w).complete f q (s1.compl (BitVec.ofNat 16 (s.free 1)) fTranslation kind 0 0)).bump
      | .listFailed w e =>
        (s1.logAer f w).complete f q (s1.compl (BitVec.ofNat 16 (fieldN e 0 2))
          (if x.closing || !cfgEnable x then stAborted else fTranslation) kind 0 0)
      | .entry bytes exts batch args =>
        let s2 := s1.sawEntry x (q.val == 0) bytes exts batch args
        if q.val = 0 then s2.takeRequest f bytes else s2.takeCommand f q t.2 bytes exts batch args

/-! ### What comes first in a beat (spec/02 R42, R44) -/

/-- A write of FN_CTRL that resets function f: DEV_RESET, RESET, or ENABLE 0 while it runs (spec/15 R360). -/
def State.writeResets (s : State) (f g : Nat) (a : BarOff) (size : Nat) (v : W64) : Bool :=
  a.bar == .bar0 && (size == 4 || size == 8) && a.off.toNat == (if g = 0 then 0x100000 else 0)
    && ((g == 0 && v.getLsbD 2) || (g == 0 && f == 0 && v.getLsbD 1) || (g == f && !v.getLsbD 0 && (s.fn f).state == 2))

/-- A reset of the function or of the device waits in this beat (spec/02 R42, R44). -/
def State.resetComing (s : State) (f : Nat) : Bool :=
  s.pending.any fun i => match i with
    | .flr r => r.fn.val == f || r.fn.val == 0
    | .fnReset => f == 0
    | .devReset _ => true
    | .perstN level => !level
    | .recoverNPress => s.secUp && (s.sec.presence == 1 || s.sec.presence == 3)
    | .fnCtrlEnable g v => g.val == f && !v && (s.fn f).state == 2
    | .vfEnable v => f != 0 && !v && s.board.vfEnable && s.sec.bootMode == 0
    | .registerWrite g a size v => s.writeResets f g.val a size v
    | _ => false

/-! ### Aborts (spec/15 R346, spec/05 R122) -/

/-- A command that is not dispatched goes with a status; no context ends. -/
def State.dropQueued (s : State) (c : Cmd) (status : Byte) : State :=
  (s.writeReport c (s.plainReport c fun _ => status)).completeCmd c status 0

/-- A write of ABORT; bits 31:16 must be 0, otherwise it is ignored (log entry 23). A reset latched in the same beat comes first. -/
def execAbort (f : Fn) (q : Qn) (v : W32) (s : State) : Out :=
  whenHost f s fun s =>
    let x := s.queue f q
    let cid : BitVec 16 := v.setWidth 16
    let answer := fun (s : State) (st : Byte) => s.complete f q (s.compl cid st 3 0 0)
    if !x.active || decide (65536 ≤ v.toNat) || s.resetComing f then s
    else if q.val = 0 then
      match (s.fn f).reqs.find? fun r => r.cid == cid with
      | some r => if r.begun then answer s stAlreadyDone else answer (s.answer f cid stAborted 0) stOk
      | none => answer s stAlreadyDone
    else match s.cmds.list.find? fun c => c.fn == f.val && c.q == q.val && c.cid == cid with
    | none => answer s stAlreadyDone
    | some c => match c.st with
      | .queued | .draining => answer (s.dropQueued c stAborted) stOk
      | .running => answer (s.killEnd c stAborted true) stOk
      | .ready => if c.gangSize = 0 then
          (if s.standing c then answer s stAlreadyDone else answer (s.killEnd c stAborted true) stOk)
          else s.setCmd { c with heldAborts := c.heldAborts + 1 }

/-! ### Ticks -/

/-- The tick boundary of a not-before tick (spec/02 R46). -/
def execNotBeforeRelease (id : Nat) (s : State) : Out :=
  whenAlive s <| match s.cmd id with
  | none => s
  | some c => match c.notBefore with
    | some n => if s.ticksTo n ≤ 0 then s.setCmd { c with notBefore := none } else s
    | none => s

/-- Completions of a tick-release queue whose beat has come, in commit order (spec/02 R49). -/
def execTickRelease (f : Fn) (q : Qn) (s : State) : Out :=
  whenAlive s <|
    let x := s.queue f q
    let due := fun (e : Nat × Compl) => decide ((e.1 + 1) * 125 + cfgK x ≤ s.beat)
    ((x.trel.filter due).foldl (fun s e => s.deliver f q e.2)
      (s.setQueue f q { x with trel := x.trel.filter fun e => !due e }))

/-! ### Enabling (spec/15 R340, R341, R355) -/

/-- FN_Q_n_CFG.ENABLE is written (spec/15 R341); no queue of a REFUSED function can be enabled (spec/15 R354). -/
def execQueueEnable (f : Fn) (q : Qn) (v : Bool) (s : State) : Out :=
  whenHost f s fun s =>
    let x := s.queue f q
    let b := s.fn f
    if v then
      if cfgEnable x || b.state == 3 then s
      else s.setQueue f q { x with cfg := putBit x.cfg 0 true, refusal := 0 }
    else if !cfgEnable x then s
    else
      let s1 := s.setQueue f q { x with cfg := putBit x.cfg 0 false, closing := x.active }
      let s2 := (s.cmds.list.filter fun c => c.fn == f.val && c.q == q.val && !c.inFlight).foldl
        (fun s c => s.dropQueued c stAborted) s1
      let s3 := if q.val ≠ 0 then s2 else
        ((b.reqs.filter fun r => !r.begun).foldl (fun s r => s.answer f r.cid stAborted 0) s2)
      if s3.queueIdle f q then s3.modQueue f q fun y => { y with active := false, closing := false } else s3

/-- REFUSAL values that the fields of a queue call for. -/
def State.queueRefusals (s : State) (f q : Nat) : List Nat :=
  let x := s.queue f q
  let b := s.fn f
  let qs := fun (g : Nat) => ((s.fn g).queues.filter fun e => e.2.active)
  (if 4096 ≤ sumN ((List.range 64).map fun g => (qs g).length) then [1] else [])
  ++ (if cfgExpress x && decide (4 ≤ ((qs f).filter fun e => cfgExpress e.2).length) then [2] else [])
  ++ (if (cfgPush x && !cfgExpress x) || (q == 0 && (cfgPush x || cfgExpress x))
      || (!cfgPush x && (decide (cfgSqLog2 x < 4) || decide (16 < cfgSqLog2 x)))
      || decide (cfgLog2 x < 4) || decide (16 < cfgLog2 x) || decide (124 < cfgK x) then [3] else [])
  ++ (if ((cfgTrel x || cfgK x != 0) && !b.atLeast 1 1) || ((cfgExpress x || cfgPush x) && !b.atLeast 1 3) then [4] else [])

/-- SCH checks an enabled queue, or sees that a disabled one has run dry (spec/15 R341). One enabled again before that is
checked after it: its new fields then decide (log entry 64). Among several reasons to refuse one is shown, which is free. -/
def execQueueCheck (f : Fn) (q : Qn) (s : State) : Out :=
  whenSch s <|
    let x := s.queue f q
    if x.active then
      (if (x.closing || !cfgEnable x) && s.queueIdle f q then s.setQueue f q { x with active := false, closing := false } else s)
    else if !cfgEnable x || (s.fn f).state != 2 || x.refusal != 0 then s
    else match s.queueRefusals f q with
    | [] => s.setQueue f q { x with active := true }
    | r :: rs => (s.setQueue f q { x with refusal := s.choose r (r :: rs) }).bump

end Sys2Proof.Machine
end

