-- ==== Sys2Proof/Machine/Arbiter.lean ====
section
/-! DEFINITION. Dispatch: the queue heads and what holds them, the arbiter's order, placements, reservations, express kills,
and the load of a program image (spec/14 R316-R331, spec/05 R102-R106, R111, spec/13 R295-R312, spec/09 R216). -/

namespace Sys2Proof.Machine

/-! ### Heads -/

/-- The first command of each queue that is not in flight, in order of latching within the queue (spec/14 R316). -/
def headsOf : List Cmd → List (Nat × Nat) → List Cmd
  | [], _ => []
  | c :: cs, seen =>
    if c.inFlight || seen.contains (c.fn, c.q) then headsOf cs seen else c :: headsOf cs ((c.fn, c.q) :: seen)

def State.heads (s : State) : List Cmd := headsOf s.cmds.list []

/-! ### Clusters (spec/05 R111, spec/14 R317) -/

/-- No command issues on the cluster and at most one drains. -/
def Cluster.isFree (k : Cluster) : Bool :=
  match k.issuing with
  | none => true
  | some i => i.done && k.draining.isNone

/-- The cluster with a new issuing instance. -/
def Cluster.start (k : Cluster) (i : Inst) : Cluster :=
  { k with issuing := some i, draining := match k.issuing with | some j => some j | none => k.draining }

/-- Clusters of a command's mask, rising. -/
def Cmd.clusters (c : Cmd) : List Nat := setBits c.mask
def Cmd.size (c : Cmd) : Nat := c.clusters.length

/-! ### Paddocks (spec/14 R323-R325) -/

/-- Clusters of a paddock, rising. -/
def Paddock.clusters (p : Paddock) : List Nat := (List.range 96).filter fun g => p.regions.getLsbD (regionOf g)
/-- The tenant space of the current slice. -/
def Paddock.owner (p : Paddock) : Option Nat :=
  let x : Slice := smGet {} p.slices p.current
  if p.regions == 0 || x.idle then none else some x.tenant
/-- Whether a tenant space stands in a paddock's slice table. -/
def Paddock.names (p : Paddock) (t : Nat) : Bool :=
  p.regions != 0 && (List.range (p.entries + 1)).any fun i =>
    let x : Slice := smGet {} p.slices i
    !x.idle && x.tenant == t

/-- The three cases of spec/17 R382: an IDLE slice of the region's paddock; low demand in interleave mode, which the configured count
of ticks without a command stands for (log entry 87); a cap that cannot be reached. -/
def State.mayStable (s : State) (r : Nat) : Bool :=
  let idle := decide (s.pwr.stableIdle ≤ (s.region r).idleTicks)
  s.pwr.capUnreachable || (idle && (!s.sched.paddock || (List.range 8).any fun n =>
    let p := s.paddockN n
    p.regions.getLsbD r && (smGet {} p.slices p.current : Slice).idle))

/-- The region's stabling waits in this beat, which comes before a dispatch (spec/02 R42, spec/14 R332). -/
def State.stableComing (s : State) (r : Nat) : Bool :=
  s.pending.any fun i => match i with
    | .stableRegion q => q.val == r && s.pwrUp && (s.region r).state == 0 && s.mayStable r
    | _ => false

/-- The cluster takes commands now. -/
def State.takes (s : State) (g : Nat) : Bool := s.serves g && !s.stableComing (regionOf g)

/-- Whether an express command has an instance on the cluster that may not be killed by another (spec/14 R327). -/
def State.expressOn (s : State) (g : Nat) : Bool :=
  let on := fun (i : Option Inst) => match i with
    | some j => match s.cmd j.cmd with | some c => c.xrun | none => false
    | none => false
  on (s.cl g).issuing || on (s.cl g).draining

/-- SCH's placement of a command of n clusters in paddock mode (spec/14 R325). An express command for which too few are free
takes the lowest-numbered paddock of its slice with enough clusters that no express command holds (log entry 24). -/
def State.paddockPlace (s : State) (c : Cmd) (express : Bool) : Option (List Nat) :=
  let mine := (List.range 8).filter fun n => (s.paddockN n).owner == some c.fn
  let fit := fun (p : Nat → Bool) => (mine.map fun n => (s.paddockN n).clusters.filter fun g => s.takes g && p g).find?
    fun l => decide (c.size ≤ l.length)
  match fit fun g => (s.cl g).isFree with
  | some l => some (l.take c.size)
  | none => if express then (fit fun g => !s.expressOn g).map (·.take c.size) else none

/-! ### What holds a head (spec/14 R316) -/

/-- A PARK that was held until the context's command ended comes before the next command (spec/13 R297). -/
def State.parkHeld (s : State) (x : Nat) : Bool :=
  (s.fn (s.ctx x).tenant).reqs.any fun r => match r.what with
    | some (.parkContext _ _ n) => n.toNat == x
    | _ => false

/-- An event of an earlier class on the command waits in this beat: a reset, or, for a command not ready, its abort, cancellation or
deadline expiry (spec/02 R42, R44). -/
def State.stopComing (s : State) (c : Cmd) : Bool :=
  s.resetComing c.fn || s.pending.any fun i => match i with
    | .abort f q v => f.val == c.fn && q.val == c.q && v == c.cid.setWidth 32
    | .deadlineExpiry id => id == c.id
    | .cancelContext f _ x _ => f.val == c.fn && c.batch.contains x.toNat
    | _ => false

/-- A head at its dispatch: held (none), to be dispatched (some none), or completed with a status (some (some st)). -/
def State.verdict (s : State) (c : Cmd) (express : Bool) : Option (Option Byte) :=
  let q := s.queue c.fn c.q
  let cxs := c.batch.map s.ctx
  let accts := cxs.map fun x => s.acct x.account
  let marked := fun (x : Ctx) => decide (x.mark ≤ x.fill)
  if c.st == .draining || s.stopComing c || c.notBefore.isSome || q.cqFull || decide (64 ≤ s.queueFlight c.fn c.q) then none
  else if s.memc.separate && (c.fn != 0 || c.phase != 4) then some (some rOffline)
  else if !s.sched.paddock && c.clusters.any s.disabled then some (some rOffline)
  else if s.sched.paddock && (List.range 8).any (fun n => (s.paddockN n).names c.fn)
      && (List.range 8).all (fun n => !(s.paddockN n).names c.fn
        || decide (((s.paddockN n).clusters.filter fun g => !s.disabled g).length < c.size)) then some (some rOffline)
  else if !express && (s.ten c.fn).weight == 0 then none
  else if cxs.any fun x => x.state == 0 || x.state == 4 then some (some stAborted)
  else if cxs.any fun x => x.state != 1 then none
  else if cxs.any marked || c.batch.any s.parkHeld then none
  else if cxs.any fun x => decide (x.maxLen < x.len + x.candMax) then some (some rQuota)
  else if (accts.any fun a => !a.valid || decide (a.balance ≤ 0)) || decide (s.tick < c.hold) then none
  else if !s.sched.paddock && c.clusters.any fun g => !s.takes g then none
  else some none

/-- A head completes without dispatch (spec/13 R298, R312, spec/05 R102). -/
def State.endHead (s : State) (c : Cmd) (st : Byte) : State :=
  if st = stAborted then s.dropQueued c st
  else
    let s1 := if st = rQuota then c.batch.foldl (fun s x =>
      let k := s.ctx x
      if k.maxLen < k.len + k.candMax then s.setCtx x { k with stopped := true } else s) s else s
    s1.refuseCmd c st

/-! ### Dispatch -/

/-- The instance that a command starts with on a cluster (spec/05 R106). -/
def State.freshInst (s : State) (c : Cmd) (g rank n : Nat) : Inst :=
  { cmd := c.id, rank := rank, size := n, args := c.args, start := (s.region (regionOf g)).total
    loaded := (s.cl g).progs.any fun r => r.tenant == c.fn && r.prog == c.program }

/-- A program used now moves to the front of the store's order (spec/05 R103). -/
def Cluster.useProg (k : Cluster) (t p : Nat) : Cluster :=
  let is := fun (r : Resident) => r.tenant == t && r.prog == p
  { k with progs := k.progs.filter is ++ k.progs.filter fun r => !is r }

/-- A command is dispatched onto clusters, as an express one or not (spec/05 R102, R106, R111, spec/13 R295). -/
def State.dispatch (s : State) (c : Cmd) (express : Bool) (place : List Nat) : State :=
  let s1 := s.stamp
  let s2 := place.zipIdx.foldl (fun s x =>
    s.modCl x.1 fun k => (k.start (s1.freshInst c x.1 x.2 place.length)).useProg c.fn c.program) s1
  let s3 := s2.setCmd { c with st := .running, place := place, runs := c.runs + 1, dispSeq := s1.cmds.nextSeq, dispFrame := s.frame
                               snap := c.batch.map s.ctx, reserved := false, insts := [], epoch := 0, xrun := express, faults := [] }
  let s4 := place.foldl (fun s g => let r := s.region (regionOf g)
    s.setRegion (regionOf g) { r with seen := putBit r.seen c.phase true }) s3
  c.batch.foldl (fun s x => s.modCtx x fun k => { k with state := 2 }) s4

/-- Order of the arbiter: larger deficit of the tenant space, then of the account of slot 0, then earlier latching
(spec/14 R319). -/
def State.before (s : State) (a b : Cmd) : Bool :=
  let da := (s.ten a.fn).deficit
  let db := (s.ten b.fn).deficit
  if da ≠ db then decide (db < da)
  else if a.fn ≠ b.fn then decide (a.fn < b.fn)
  else
    let aa := (s.ctx (a.batch.getD 0 0)).account
    let ab := (s.ctx (b.batch.getD 0 0)).account
    let ea := (s.acct aa).deficit
    let eb := (s.acct ab).deficit
    if ea ≠ eb then decide (eb < ea) else if aa ≠ ab then decide (aa < ab) else decide (a.seq ≤ b.seq)

def insBy (lt : α → α → Bool) (x : α) : List α → List α
  | [] => [x]
  | y :: ys => if lt x y then x :: y :: ys else y :: insBy lt x ys
def sortBy (lt : α → α → Bool) (l : List α) : List α := l.foldl (fun a x => insBy lt x a) []

/-- Clusters reserved for commands other than c (spec/14 R317). -/
def State.reservedBut (s : State) (c : Cmd) : List Nat :=
  (s.cmds.list.filter fun d => d.reserved && d.id != c.id && !d.inFlight).flatMap (·.clusters)

/-- Where an express head goes. -/
def State.expressPlace (s : State) (c : Cmd) : Option (List Nat) :=
  if s.sched.paddock then s.paddockPlace c true else some c.clusters

/-- An express head that can be dispatched takes the cluster first (spec/02 R42, R44, spec/14 R326). -/
def State.wanted (s : State) (but : Cmd) (g : Nat) : Bool :=
  s.heads.any fun c => c.express && !s.capped c.fn && c.id != but.id && s.verdict c true == some none
    && (match s.expressPlace c with | some l => l.contains g && !l.any s.expressOn | none => false)

/-- The first head, in the arbiter's order, that is dispatched or completed; heads whose placement is not free reserve it. -/
def State.arbitrate (s : State) : List Cmd → State
  | [] => s
  | c :: cs => match s.verdict c false with
    | none => s.arbitrate cs
    | some (some st) => s.endHead c st
    | some none =>
      if s.sched.paddock then
        match s.paddockPlace c false with
        | some l => if l.any (s.wanted c) then s.arbitrate cs else s.dispatch c false l
        | none => s.arbitrate cs
      else
        let held := s.reservedBut c
        if c.clusters.any held.contains || c.clusters.any (s.wanted c) then s.arbitrate cs
        else if c.clusters.all fun g => (s.cl g).isFree then s.dispatch c false c.clusters
        else (s.setCmd { c with reserved := true }).arbitrate cs

/-- One ordinary dispatch (spec/14 R316-R319). -/
def execCommandDispatch (s : State) : Out :=
  whenAlive s <| s.arbitrate (sortBy s.before (s.heads.filter fun c => !c.express || s.capped c.fn))

/-- Commands that an express dispatch kills on a placement: ordinary and not ready (spec/14 R327). -/
def State.victims (s : State) (place : List Nat) : List Cmd :=
  s.cmds.list.filter fun c => c.st == .running && !c.xrun && place.any fun g => ((s.cl g).instOf c.id).isSome

/-- The first express head, in order of latching, that is dispatched or completed; what waits in the beat to end a victim comes first
(spec/14 R326, R327, R332). -/
def State.express (s : State) : List Cmd → State
  | [] => s
  | c :: cs => match s.verdict c true with
    | none => s.express cs
    | some (some st) => s.endHead c st
    | some none =>
      match s.expressPlace c with
      | none => s.express cs
      | some l =>
        if l.all fun g => (s.cl g).isFree then s.dispatch c true l
        else if l.any s.expressOn || (s.victims l).any s.stopComing then s.express cs
        else ((s.victims l).foldl (fun s v => s.killRerun v 0 true) s).dispatch c true l

/-- One express dispatch with its kills. -/
def execExpressDispatch (s : State) : Out :=
  whenAlive s <| s.express (sortBy (fun a b => decide (a.seq < b.seq)) (s.heads.filter fun c => c.express && !s.capped c.fn))

/-! ### Program load (spec/05 R103) -/

/-- Resident images that fit beside `n` words, most recently used first; images in use stay. -/
def keepImages (inUse : Resident → Bool) : Nat → List Resident → List Resident
  | _, [] => []
  | room, r :: rs =>
    if inUse r then r :: keepImages inUse (room - r.words.length) rs
    else if r.words.length ≤ room - sumN ((rs.filter inUse).map (·.words.length)) then
      r :: keepImages inUse (room - r.words.length) rs
    else keepImages inUse 0 rs

/-- The CE loads the image of the issuing command before its first issue. Images lie outside the tenant space's addresses, so a fetch
touches no output extent (spec/05 R103, R120, log entry 98). -/
def execProgramImageLoad (g : Cl) (s : State) : Out :=
  whenAlive s <| match (s.cl g).issuing with
  | none => s
  | some i => match s.cmd i.cmd with
    | none => s
    | some c =>
      if i.loaded || c.st != .running || s.stabled g then s else
        let k := s.cl g
        let ws := smGet [] (s.ten c.fn).progs c.program
        let inUse := fun (r : Resident) => ([k.draining].any fun j => match j with
          | some j => (match s.cmd j.cmd with | some d => d.fn == r.tenant && d.program == r.prog | none => false)
          | none => false)
        let kept := keepImages inUse (16384 - ws.length) k.progs
        s.setCl g { k with issuing := some { i with loaded := true }
                           progs := { tenant := c.fn, prog := c.program, words := ws } :: kept }

end Sys2Proof.Machine
end

