-- ==== Sys2Proof/Machine/Sync.lean ====
section
/-! DEFINITION. Synchronisation: counters, barriers, gates, ticks and fences (spec/05 R107, R125-R131, spec/06 R162-R164,
spec/11 R257-R261, spec/16 R366, R370). -/

namespace Sys2Proof.Machine

def ctrNo (w : W64) : Nat := fld w 51 46

/-- SCH gives an unassigned shared counter to the tenant space that first uses it, at 0 (spec/05 R107, log entry 21). -/
def Cluster.claim (k : Cluster) (t n : Nat) : Cluster :=
  if 32 ≤ n ∧ smGet none k.sharedTag n = none then
    { k with sharedTag := smPut none k.sharedTag n (some t), shared := smPut 0 k.shared n 0 }
  else k

/-- Whether tenant space t may use counter n of a cluster, after the claim. -/
def Cluster.mayUse (k : Cluster) (t n : Nat) : Bool := decide (n < 32) || smGet none k.sharedTag n == none
  || smGet none k.sharedTag n == some t

/-- The instance goes on after a wait. -/
def State.resume (s : State) (g : Nat) (i : Inst) : State := s.modCl g fun k => k.setInst { i with wait := none }

/-- The instance of a cluster that waits, with its command. -/
def State.waiting (s : State) (g : Nat) : Option (Cmd × Inst × WaitOn) :=
  match (s.cl g).issuing with
  | some i => match i.wait, s.cmd i.cmd with
    | some x, some c => if s.alive && !s.stabled g then some (c, i, x) else none
    | _, _ => none
  | none => none

/-- WAIT (spec/06 R162): issue holds until WAIT_RESOLVE. One on a counter of another tenant space raises FAULT_PERMISSION (log entry
21). -/
def execWait (g : Cl) (w : W64) (s : State) : Out :=
  s.issue 0x70 1 g w 0 none fun s c i =>
    let n := ctrNo w
    { st := if (s.cl g).mayUse c.fn n then s.modCl g fun k => k.claim c.fn n else s
      inst := { i with wait := some (.counter n (BitVec.ofNat 32 (low w)) (fld w 45 45 == 1)) }
      faults := rsvFaults w [(44, 32)] ++ onFault (!(s.cl g).mayUse c.fn n) fPermission }

/-- A WAIT whose counter is at or above its threshold ends; CONSUME subtracts in the same step (spec/06 R162, R164). -/
def execWaitResolve (g : Cl) (s : State) : Out :=
  match s.waiting g with
  | some (c, i, .counter n t consume) =>
    let x := (s.cl g).counter c.id n
    if t.toNat ≤ x.toNat ∧ (s.cl g).mayUse c.fn n = true then
      let s1 := if consume then s.modCl g fun k => k.setCounter c.id n (x - t) else s
      .next (s1.modCl g fun k => match k.issuing with | some j => k.setInst { j with wait := none } | none => k.setInst i)
    else .next s
  | _ => .next s

/-- Faults of a signal to counter n on cluster t of this package (spec/05 R107, spec/06 R163). -/
def State.sigFaults (s : State) (c : Cmd) (t n inc : Nat) : List Byte :=
  onFault (inc == 0 || decide (96 ≤ t)) fInstruction
    ++ (if 96 ≤ t then [] else
        onFault (if n < 32 then !c.place.contains t else !(s.cl t).mayUse c.fn n) fPermission)

/-- A signal of this package: in flight to a local counter, held to commit for a shared one (spec/05 R107, R112). -/
def State.sigLocal (s : State) (c : Cmd) (i : Inst) (t n inc : Nat) : State × Inst :=
  if n < 32 then
    ({ s with cmds := { s.cmds with sigs := s.cmds.sigs ++ [{ cmd := c.id, cl := t, ctr := n, inc := inc, tenant := c.fn }] } }, i)
  else (s.modCl t fun k => k.claim c.fn n, { i with sigs := i.sigs ++ [{ pkg := none, cl := t, ctr := n, inc := inc }] })

/-- SIG (spec/06 R162, R163). -/
def execSig (g : Cl) (w : W64) (s : State) : Out :=
  s.issue 0x71 1 g w 0 none fun s c i =>
    let t := if fld w 45 39 = 0x7F then g.val else fld w 45 39
    let fs := rsvFaults w [(38, 16)] ++ s.sigFaults c t (ctrNo w) (fld w 15 0)
    if !fs.isEmpty then { st := s, inst := i, faults := fs } else
      let r := s.sigLocal c i t (ctrNo w) (fld w 15 0)
      { st := r.1, inst := r.2 }

/-- SIGR (spec/06 R162, R163, spec/16 R370). One that names this package acts as SIG does. A local counter of another package
is a gang member's (spec/05 R121); whether a shared one there is another tenant space's its owner knows, so it is free here
(spec/05 R107, R132, log entry 40). -/
def execSigr (g : Cl) (w : W64) (s : State) : Out :=
  s.issue 0x72 1 g w 0 none fun s c i =>
    let p := fld w 45 42
    let t := fld w 41 35
    let n := ctrNo w
    let inc := fld w 15 0
    let here := p == (if s.glb.valid then s.glb.index else 0)
    let rs := rsvFaults w [(34, 16)]
    if here then
      let fs := rs ++ s.sigFaults c t n inc
      if !fs.isEmpty then { st := s, inst := i, faults := fs } else
        let r := s.sigLocal c i t n inc
        { st := r.1, inst := r.2 }
    else
      let fs := rs ++ onFault (inc == 0 || decide (96 ≤ t)) fInstruction
        ++ onFault (decide (n < 32) && c.gangSize == 0) fPermission
        ++ onFault (decide (32 ≤ n) && ((s.asOf c.dispSeq).pairOf c.fn p).isNone && decide (p < s.glb.count)) fPermission
        ++ onFault (decide (32 ≤ n) && s.reachable p && Config.farTag p t n s.freeIx) fPermission
      if !fs.isEmpty then { st := s, inst := i, faults := fs }
      else if n < 32 then
        if s.reachable p then
          { st := (s.sendSure c.id 0 p (srcSeq g) fun k => .sigr p (srcSeq g) k c.dispFrame t n inc c.fn c.gang).noteRoutes c.id [p]
            inst := i }
        else { st := s, inst := i, faults := [fRemote], owner := some p }
      else { st := s, inst := { i with sigs := i.sigs ++ [{ pkg := some p, cl := t, ctr := n, inc := inc }] } }

/-- The tenant space here that the yard configuration pairs with one of another package. -/
def State.pairFrom (s : State) (pkg t : Nat) : Option Nat :=
  match s.glb.yard with
  | none => none
  | some y => match (List.range 1024).find? fun k => smGet none y.pairing (16 * k + pkg) == some t with
    | some k => smGet none y.pairing (16 * k + s.glb.index)
    | none => none

/-- The member of a gang on this package that is in flight. -/
def State.member (s : State) (gang : Nat) : Option Cmd :=
  s.cmds.list.find? fun c => c.gangSize != 0 && c.gang == gang && c.inFlight

/-- The command that gang traffic of tenant space t of another package is for: the member in flight, else one not yet
dispatched whose tenant space is paired with t (spec/05 R121). -/
def State.gangCmd (s : State) (gang pkg t : Nat) : Option Cmd :=
  match s.member gang with
  | some c => some c
  | none => s.cmds.list.find? fun c => c.gangSize != 0 && c.gang == gang && s.pairFrom pkg t == some c.fn

/-- Gang traffic from tenant space `t` of another package reaches the member `c` and leaves the state `u`; traffic of another
tenant ends a member in flight (spec/05 R121). -/
def State.gangTraffic (s : State) (c : Cmd) (pkg t : Nat) (u : State) : State :=
  if (if c.inFlight then s.asOf c.dispSeq else s).pairFrom pkg t = some c.fn then u
  else if c.inFlight then s.faultCmd c fPermission none 0 true else s

/-- A SIGR of another package applies (spec/05 R107, R121, spec/06 R164). -/
def State.farSignal (s : State) (pkg t gang g ctr inc : Nat) (frame : W32) : State :=
  if ctr < 32 then
    match s.member gang with
    | none => s
    | some c =>
      if (s.asOf c.dispSeq).pairFrom pkg t ≠ some c.fn then s.faultCmd c fPermission none (s.loc g 6 0) true
      else s.modCl g fun k => k.signal c.id ctr inc
  else match (s.asOfFrame frame).pairFrom pkg t with
    | none => s
    | some u => if (s.cl g).mayUse u ctr then s.modCl g fun k => (k.claim u ctr).signal 0 ctr inc else s

/-- A barrier arrival of another package applies (spec/05 R121, R128). -/
def State.farArrival (s : State) (pkg t gang num : Nat) (beat : W32) : State :=
  match s.gangCmd gang pkg t with
  | none => s
  | some c =>
    let b := ((s.beat : Int) + diff32 beat (BitVec.ofNat 32 s.beat)).toNat
    s.gangTraffic c pkg t { s with cmds := { s.cmds with arrivals := s.cmds.arrivals ++
        [{ cmd := c.id, scope := 3, num := num, who := 96 + pkg, beat := b, target := 0 }] } }

/-! ### Barriers (spec/05 R127-R129, spec/16 R366) -/

/-- Arrivals at a barrier of a command. -/
def State.arrivals (s : State) (id scope num : Nat) : List Arrival :=
  s.cmds.arrivals.filter fun a => a.cmd == id && a.scope == scope && a.num == num

/-- Whether every cluster of a list has arrived. -/
def allArrived (as : List Arrival) (cls : List Nat) : Bool := cls.all fun g => as.any fun a => a.who == g

/-- The earliest arrival of each participant goes. -/
def dropArrivals (as : List Arrival) (id scope num : Nat) : List Nat → List Arrival
  | [] => as
  | w :: ws =>
    dropArrivals (as.eraseP fun a => a.cmd == id && a.scope == scope && a.num == num && a.who == w) id scope num ws

/-- The packages on which a gang of a command may have members: the pairing gives it a tenant space there (spec/05 R121). -/
def State.paired (s : State) (c : Cmd) : List Nat :=
  (List.range 16).filter fun p => p != (if s.glb.valid then s.glb.index else 0) && ((s.asOf c.dispSeq).pairOf c.fn p).isSome

/-- Packages on which a gang of a command has members, as its messages tell. -/
def State.gangKnown (s : State) (c : Cmd) : List Nat :=
  let heard : List Nat := c.notices.map fun (n : Notice) => n.pkg
  let came : List Nat := (s.cmds.arrivals.filter fun (a : Arrival) => a.cmd == c.id && decide (96 ≤ a.who)).map fun (a : Arrival) => a.who - 96
  (heard ++ came).eraseDups

/-- Whether a gang member here has a member on a package: known from its messages, or from the gang's size and the pairing where
these leave one way, free otherwise (spec/16 R367, spec/05 R121, log entry 31). -/
def State.gangOn (s : State) (c : Cmd) (p : Nat) : Bool :=
  let known := s.gangKnown c
  let others := (s.paired c).filter fun q => !known.contains q
  let missing := c.gangSize - 1 - known.length
  known.contains p || (others.contains p && missing != 0
    && (decide (others.length ≤ missing) || s.free (32 * c.id + p + 1) % 2 == 1))

/-- The arrival of this package's members at a yard barrier goes to the live packages that may hold others; where a member's
package has no route, the command waits for one (spec/05 R128, spec/16 R368). -/
def State.sendArrival (s : State) (c : Cmd) (g num : Nat) : State :=
  let ps := (s.paired c).filter s.reachable
  (ps.foldl (fun u p => u.sendSure c.id 0 p (srcSeq g) fun k => .barrier p (srcSeq g) k c.fn c.gang num s.beat) s).noteRoutes c.id
    (ps.filter (s.gangOn c))

/-- BAR (spec/06 R162, R163). -/
def execBar (g : Cl) (w : W64) (s : State) : Out :=
  s.issue 0x73 1 g w 0 none fun s c i =>
    let scope := fld w 51 50
    let num := fld w 49 47
    let target : W32 := (i.s (fB w)).setWidth 32
    let fs := rsvFaults w [(41, 0)] ++ onFault (scope != 3 && fB w != 0) fInstruction
      ++ onFault (scope == 3 && c.gangSize == 0) fInstruction
    if !fs.isEmpty then { st := s, inst := i, faults := fs } else
      let a : Arrival := { cmd := c.id, scope := scope, num := num, who := g, beat := s.beat, target := target }
      let s1 := { s with cmds := { s.cmds with arrivals := s.cmds.arrivals ++ [a] } }
      let s2 := if scope = 3 ∧ allArrived (s1.arrivals c.id 3 num) c.place = true then s1.sendArrival c g num else s1
      { st := s2, inst := { i with wait := some (.barrier scope num target) } }

/-- The instances of a command on a list of clusters that wait at a barrier go on. -/
def State.releaseAll (s : State) (id scope num : Nat) (cls : List Nat) : State :=
  cls.foldl (fun s g => match (s.cl g).instOf id with
    | some i => match i.wait with
      | some (.barrier sc n _) => if sc = scope ∧ n = num then s.resume g i else s
      | _ => s
    | none => s) s

/-- The earliest arrival of each participant: a later one is that of the barrier's next use. -/
def firstArrivals (as : List Arrival) : List Arrival :=
  as.foldl (fun l a => if l.any fun b => b.who == a.who then l else l ++ [a]) []

/-- The release beat of a yard barrier: the later of the target and two beats after the last arrival (spec/05 R128). -/
def releaseBeat (all : List Arrival) : Nat × Nat :=
  let as := firstArrivals all
  let a : Nat := as.foldl (fun m x => max m x.beat) 0
  let t := (as.filter fun x => decide (x.who < 96)).foldl (fun m x =>
    max m ((a : Int) + diff32 x.target (BitVec.ofNat 32 a)).toNat) 0
  (max t (a + 2), t)

/-- A barrier releases (spec/05 R127, R128). -/
def execBarrierRelease (id : Nat) (scope : Fin 4) (num : Fin 8) (g : Cl) (s : State) : Out :=
  whenAlive s <| match s.cmd id with
  | none => s
  | some c =>
    if c.st != .running then s else
    let as := s.arrivals id scope num
    let drop := fun (s : State) (ws : List Nat) =>
      { s with cmds := { s.cmds with arrivals := dropArrivals s.cmds.arrivals id scope num ws } }
    match scope.val with
    | 0 =>
      if as.any (fun a => a.who == g.val) && !((s.cl g).ops.any fun o => o.cmd == id) then
        (drop (s.land fun x => x.cl == g.val && x.cmd == id) [g]).releaseAll id 0 num [g]
      else s
    | 1 =>
      let cls := c.place.filter fun h => regionOf h == g.val
      if !cls.isEmpty && allArrived as cls then (drop s cls).releaseAll id 1 num cls else s
    | 2 => if !c.place.isEmpty && allArrived as c.place then (drop s c.place).releaseAll id 2 num c.place else s
    | _ =>
      let others := ((as.filter fun a => decide (96 ≤ a.who)).map (·.who)).eraseDups
      let r := releaseBeat as
      if allArrived as c.place && decide (c.gangSize ≤ others.length + 1) && decide (r.1 ≤ s.beat) then
        let s1 := (drop s (c.place ++ others)).releaseAll id 3 num c.place
        if r.2 < s.beat then { s1 with fab := { s1.fab with barLate := s1.fab.barLate + 1 } } else s1
      else s

/-! ### Gates (spec/05 R130, spec/11 R257-R261) -/

/-- The epoch a first GATE fixes. -/
def GateRec.fixes (r : GateRec) : W32 := if r.state = 0 then r.epoch else nextEpoch r.epoch

/-- Whether a layer holds the weights of an epoch (spec/11 R259, R264). -/
def GateRec.holdsEpoch (r : GateRec) (l : Nat) (e : W32) : Bool :=
  if r.state = 0 then e == r.epoch
  else if l < r.swapped then e == nextEpoch r.epoch
  else if l = r.front ∧ (r.copying = true ∨ r.torn = true) then false
  else e == r.epoch

/-- GATE (spec/06 R162, R163): the first fixes the command's epoch, the layer is held from issue, the epoch is written when
the gate is passed. -/
def execGate (g : Cl) (w : W64) (s : State) : Out :=
  s.issue 0x74 1 g w 0 none fun s c i =>
    let n := fld w 21 16
    let l := fld w 9 0
    let rs := rsvFaults w [(46, 22), (15, 10)]
      ++ onFault (match i.holds.head? with | some h => decide (l < h.2) | none => false) fInstruction
    match s.gate c.fn n with
    | none => { st := s, inst := i, faults := rs ++ [fInstruction] }
    | some r =>
      let fs := rs ++ onFault (decide (r.man.layers.length ≤ l)) fInstruction
      { st := if !fs.isEmpty then s else s.setCmd { c with epoch := if c.epoch = 0 then r.fixes else c.epoch }
        inst := { i with holds := (n, l) :: i.holds.filter (fun h => h.1 != n), wait := some (.gate (fA w) n l) }
        faults := fs }

/-- A GATE whose layer holds its command's epoch passes (spec/05 R130, spec/11 R260). -/
def execGatePass (g : Cl) (s : State) : Out :=
  match s.waiting g with
  | some (c, i, .gate d n l) =>
    match s.gate c.fn n with
    | some r => if r.holdsEpoch l c.epoch then .next (s.resume g (i.setS d (c.epoch.setWidth 64))) else .next s
    | none => .next s
  | _ => .next s

/-! ### Ticks and fences -/

/-- TICKW (spec/05 R131). -/
def execTickw (g : Cl) (w : W64) (s : State) : Out :=
  s.issue 0x75 1 g w 0 none fun s _ i =>
    { st := s
      inst := { i with wait := some (.tick ((i.s (fA w)).setWidth 32)) }
      faults := rsvFaults w [(46, 0)] }

/-- A TICKW whose tick is reached ends (spec/05 R131, spec/02 R45). -/
def execTickwResolve (g : Cl) (s : State) : Out :=
  match s.waiting g with
  | some (_, i, .tick t) => if 0 ≤ diff32 (BitVec.ofNat 32 s.tick) t then .next (s.resume g i) else .next s
  | _ => .next s

/-- FENCE: one that names no writer is a NOP (spec/05 R126). -/
def execFence (g : Cl) (w : W64) (s : State) : Out :=
  s.issue 0x76 1 g w 0 none fun s _ i =>
    { st := s
      inst := if fld w 13 0 = 0 then i else { i with wait := some (.fence (BitVec.ofNat 14 (fld w 13 0))) }
      faults := rsvFaults w [(51, 14)] }

/-- A remote write of a stream that a FENCE names is not acknowledged (spec/16 R364). -/
def State.unacks (s : State) (g : Nat) (m : BitVec 14) : Bool :=
  s.fab.unacked.any fun u => u.src / 16 == g && m.getLsbD (u.src % 16)

/-- A FENCE resolves: the writes its writers accepted are visible (it waits for one at a closed inlet, spec/10 R248), and the
remote writes are acknowledged (spec/05 R126, spec/16 R364). -/
def execFenceResolve (g : Cl) (s : State) : Out :=
  match s.waiting g with
  | some (_, i, .fence m) =>
    if s.unacks g m then .next s
    else
      let s1 := s.land fun x => x.cl == g.val && m.getLsbD x.writer
      if s1.infl.any fun x => x.cl == g.val && m.getLsbD x.writer then .next s else .next (s1.resume g i)
  | _ => .next s

end Sys2Proof.Machine
end

