-- ==== Sys2Proof/Machine/Commit.lean ====
section
/-! DEFINITION. Ends of operations, readiness, commits, gangs and drains (spec/05 R112-R117, R121-R124, spec/07 R178, R181,
spec/08 R205-R214, spec/11 R263, R266, spec/12 R278-R282, spec/13 R298, R303, spec/14 R321, R329, R333). -/

namespace Sys2Proof.Machine

/-! ### Unit operations -/

/-- A unit's oldest operation that is not of a killed run. -/
def Cluster.oldest (k : Cluster) (u : UnitId) : Option UnitOp := k.ops.find? fun o => o.unit == u && !o.killed

/-- The operations of a unit that can end now. -/
def Cluster.ending (k : Cluster) (u : UnitId) : List UnitOp :=
  match u with
  | .me _ => meEnding [] (k.ops.filter fun o => o.unit == u && !o.killed)
  | _ => (k.oldest u).toList

/-- Where an error inside a cluster lies; one in registers is that of the unit (log entry 61). -/
def State.upsetLoc (s : State) (g : Nat) (u : UnitId) (x : Upset) : W32 :=
  match x, u with
  | .sequencer, _ => s.loc g 3 0
  | .buffer, _ => s.loc g 5 0
  | .registers, .me m => s.loc g 0 m.val
  | .registers, .vu => s.loc g 1 0
  | .registers, .ce k => s.loc g 2 k.val
  | .memory _ _, .me m => s.loc g 0 m.val
  | .memory _ _, .vu => s.loc g 1 0
  | .memory _ _, .ce k => s.loc g 2 k.val

/-- A parity or ECC error inside a cluster ends the running command that uses it with FAULT_ECC, and the cluster goes to the front
of the farrier's order (spec/14 R333, spec/22 R460). -/
def State.upsetFault (s : State) (g id : Nat) (slot : Option Nat) (l : W32) : State :=
  match s.cmd id with
  | none => s
  | some c =>
    if c.st != .running then s else
      let s1 := s.latchFault c.id { cl := g, code := fEcc, slot, loc := l }
      { s1 with far := { s1.far with front := g :: s1.far.front.filter (· != g) } }

/-- An error that no operation of the unit met: the issuing command's (spec/14 R333). -/
def State.upsetIssue (s : State) (g : Nat) (u : UnitId) (upset : Option Upset) : State :=
  match upset, (s.cl g).issuing with
  | some (.memory _ _), _ => s
  | some x, some i => if i.done || s.stabled g then s else s.upsetFault g i.cmd none (s.upsetLoc g u x)
  | _, _ => s

/-- An operation's request to a burst that is not yet served. -/
def State.asks (s : State) (op burst : Nat) : Bool :=
  (s.memc.waiting.any fun r => r.op == op && r.read && r.burst == burst)
    || s.memc.chans.any fun e => e.2.queue.any fun r => r.op == op && r.read && r.burst == burst

/-- A word that an operation reads (spec/10 R243, R245, R247): one corrected counts on HBM4, where the loft's retry leaves nothing;
one that cannot be corrected is poisoned or logged and fails the command. -/
def State.memoryMet (s : State) (g : Nat) (o : UnitOp) (pa : Nat) : EccResult → State
  | .good => s
  | .corrected => if isHbm pa then { s with memc := { s.memc with eccCorr := s.memc.eccCorr + 1 } } else s
  | .uncorrectable =>
    let k := match o.unit with | .me m => (0, m.val) | .vu => (1, 0) | .ce x => (2, x.val)
    match s.cmd o.cmd with
    | some c => if c.st == .running then (s.eccError pa 0).raise c g k.1 k.2 fEcc o.slot none else s.eccError pa 0
    | none => s.eccError pa 0

/-- Entries of a queue up to the last of an operation. -/
def Chan.through (op : Nat) (c : Chan) : Nat := c.queue.length - (c.queue.reverse.takeWhile fun r => r.op != op).length

/-- Every request of an operation is served: its reads have returned, its writes are accepted (spec/07 R178, spec/10 R236). -/
def State.serveOp (s : State) (op : Nat) : State :=
  s.memc.chans.foldl (fun s e => if e.2.through op = 0 then s else s.serveChan e.1 (e.2.through op)) s

/-- The cycles that throttling withheld from an OPA of K accumulates and nr cycles not ready: each accumulate but the first waits at
least until the next multiple of the least n since its issue, and each accumulate and cycle not ready at most n − 1 cycles of the
greatest (spec/04 R88, log entry 45). -/
def UnitOp.withheld (o : UnitOp) (fr : Nat) : Nat :=
  let lo := (o.acc.1 - 1) * (2 ^ o.duty.1 - 1)
  let hi := (o.acc.1 + o.acc.2) * (2 ^ o.duty.2 - 1)
  lo + fr % (hi - lo + 1)

/-- An OPA that ends counts its withheld cycles for its command. -/
def State.countHeld (s : State) (g : Nat) (o : UnitOp) : State :=
  if o.acc.1 = 0 then s else
    (match (s.cl g).instOf o.cmd with
    | some i =>
      let n := o.withheld (s.free (2 ^ 80 + 2))
      s.modCl g fun k => k.setInst { i.count kThrottle n with meCycles := i.meCycles + BitVec.ofNat 64 n }
    | none => s).bump

/-- The n-th of the operations of a unit that can end now ends; one that waits for a route, at a closed inlet or for
an acknowledgement does not (spec/16 R364, R368, spec/10 R248). An error in the sequencer, or one that a unit with no operation shows, is the issuing command's. -/
def execUnitOperationComplete (g : Cl) (u : UnitId) (e : OpEnd) (s : State) : Out :=
  whenAlive s <| if e.upset == some .sequencer then s.upsetIssue g u e.upset else match ((s.cl g).ending u)[e.n]? with
  | none => s.upsetIssue g u e.upset
  | some o =>
    let s0 := s.enterAll (fun r => r.op == o.id) s.memc.waiting.length
    if s.stabled g || (o.remote.any fun p => (s.route p).ports == 0) || (s0.memc.waiting.any fun r => r.op == o.id)
        || (s.fab.unacked.any fun x => x.op == o.id) then s
    else
      let s1 := (s0.serveOp o.id).modCl g fun k => { k with ops := k.ops.filter fun x => x.id != o.id }.clearStores o.id
      let s2 := (s1.countHeld g o).settleLate
      match e.upset with
      | none => s2
      | some (.memory pa res) => if s0.asks o.id (pa.toNat / 64) then s2.memoryMet g o pa.toNat res else s2
      | some x => s2.upsetFault g o.cmd o.slot (s.upsetLoc g u x)

/-- The unit an expander feeds: expanders 2m and 2m + 1 those of ME m, 16 the VU's (spec/01 R23, log entry 25). -/
def expUnit (x : Nat) : UnitId := if x < 16 then .me (Fin.ofNat 8 (x / 2)) else .vu

/-- The command whose operation an expander serves. -/
def State.expCmd (s : State) (g x : Nat) : Option (Cmd × UnitOp) :=
  match ((s.cl g).ending (expUnit x)).find? fun o => o.feeds.any fun f => f.exp == x with
  | none => none
  | some o => match s.cmd o.cmd with
    | some c => if c.st == .running && !s.stabled g then some (c, o) else none
    | none => none

/-- A command that an expander or decoder fails (spec/08 R209-R211): the fault names the expander. -/
def State.expFault (s : State) (c : Cmd) (o : UnitOp) (g x : Nat) (fs : List Byte) (t : State) : State :=
  match s.pickFault fs with
  | some f => (s.raise c g 4 x f o.slot none).bump
  | none => t

/-- The block n of a descriptor's tensor. -/
def StoreBlk.is (b : StoreBlk) (d : BitVec 256) (n : Nat) : Bool := b.desc == d && b.no == n

/-- The next block that an expander is to take for an operation, with its first and its last port cycle. -/
def UnitOp.nextBlk (o : UnitOp) (x : Nat) (d : BitVec 256) : Option (Nat × Nat × Nat) :=
  (o.feeds.find? fun f => f.exp == x && f.desc == d).bind fun f => f.todo.head?

/-- An operation's next block has been taken. -/
def UnitOp.takeBlk (o : UnitOp) (x : Nat) (d : BitVec 256) : UnitOp :=
  { o with feeds := o.feeds.map fun f => if f.exp == x && f.desc == d then { f with todo := f.todo.drop 1 } else f }

/-- An expander checks the header of the next block that its operation needs and takes it into its store; those that the operation
needed last before this one's first port cycle have left it (spec/08 R205, R208-R210). -/
def execExpanderBlockCheck (g : Cl) (x : Fin 17) (d : BitVec 256) (n : Nat) (s : State) : Out :=
  whenAlive s <| match s.expCmd g x with
  | none => s
  | some (c, o) =>
    let t := descOf d []
    match o.nextBlk x d with
    | none => s
    | some (m, first, last) =>
      if m ≠ n then s else
      let w : Who := ⟨c.fn, g, if x.val < 16 then ordMe else ordVu⟩
      let h := s.readBs w (addrs (t.slot n) 16)
      let hd := hdrOf h.1
      let ts := s.tset c.fn t.tset
      let fs := if !h.2.isEmpty then h.2 else hdrFaults t.fmt ts hd
      let rcd := match hd.kind, ts with
        | 0, some r => r.record hd.table
        | _, _ => []
      s.expFault c o g x fs ((s.modCl g fun k =>
        let b : StoreBlk := { desc := d, no := n, rcd := rcd, op := o.id, last := last }
        let l := (smGet [] k.store x).filter fun y => y.op != o.id || decide (first ≤ y.last)
        let k1 := { k with
          store := smPut [] k.store x (b :: l), ops := k.ops.map fun y => if y.id == o.id then y.takeBlk x d else y }
        if hd.kind = 0 then k1.cacheRec c.fn t.tset hd.table rcd else k1).bump)

/-- A block read under the record that was cached at its header's check (spec/08 R212). -/
def State.readHeld (s : State) (w : Who) (d : Desc) (b : StoreBlk) : List Nat × List Byte :=
  let a := d.slot b.no
  let h := s.readBs w (addrs a 16)
  let hd := hdrOf h.1
  let p := s.readBs w (addrs (a + 16) (4 * (hd.expWords + hd.manWords)))
  if !h.2.isEmpty then ([], h.2) else if !p.2.isEmpty then ([], p.2)
  else decodeBlock d.fmt ((s.tset w.t d.tset).map fun t => { t with records := smPut [] t.records hd.table b.rcd }) (h.1 ++ p.1)

/-- The end of a block that an expander's store holds: sizes and CRC, and its elements (spec/08 R205, R210-R213). -/
def execBlockCrcCheck (g : Cl) (x : Fin 17) (d : BitVec 256) (n : Nat) (s : State) : Out :=
  whenAlive s <| match s.expCmd g x with
  | none => s
  | some (c, o) =>
    let t := descOf d []
    let held := (smGet [] (s.cl g).store x).find? fun b => b.is d n && b.op == o.id
    match held with
    | none => s
    | some b =>
      let r := s.readHeld ⟨c.fn, g, if x.val < 16 then ordMe else ordVu⟩ t b
      let keep := fun (y : StoreBlk) => if y.is d n && y.op == o.id then { y with els := some r.1 } else y
      s.expFault c o g x r.2 (s.modCl g fun k => { k with store := smMod [] k.store x (·.map keep) }).bump

/-! ### Readiness (spec/05 R113) -/

/-- The cluster without the instance of a command. -/
def Cluster.dropInst (k : Cluster) (id : Nat) : Cluster :=
  let cut := fun (i : Option Inst) => match i with
    | some j => if j.cmd == id then none else some j
    | none => none
  { k with issuing := cut k.issuing, draining := cut k.draining }

/-- An instance is ready: its writes are in memory and its cluster is free of it. The last one makes the command ready,
which a gang member tells the others (spec/05 R113, R122). -/
def execInstanceReady (id : Nat) (g : Cl) (s : State) : Out :=
  whenAlive s <| match s.cmd id, (s.cl g).instOf id with
  | some c, some i =>
    if !i.done || c.st != .running || !c.faults.isEmpty || s.stabled g || (s.fab.waiting.any fun w => w.cmd == id)
        || (s.cl g).ops.any (fun o => o.cmd == id) then s
    else
      let s1 := (s.land fun w => w.cl == g.val && w.cmd == id).modCl g fun k => k.dropInst id
      let c1 := { c with insts := c.insts ++ [(g.val, i)] }
      if c1.insts.length < c.place.length then s1.setCmd c1
      else
        let s2 := s1.setCmd { c1 with st := .ready, readyBeat := s.beat }
        if c.gangSize = 0 then s2 else s2.send (.ready s.glb.index c.fn c.gang (s.beat + 1) c.epoch)
  | _, _ => s

/-! ### Commit (spec/05 R112) -/

/-- Signals held to commit. One to another package's shared counter is sent while the package is reachable, and counted
when it is not (spec/16 R370). -/
def State.commitSig (s : State) (c : Cmd) (g : Nat) (x : HeldSig) : State :=
  match x.pkg with
  | none => if (s.cl x.cl).mayUse c.fn x.ctr then s.modCl x.cl fun k => k.signal c.id x.ctr x.inc else s
  | some p =>
    if s.reachable p then s.sendSure c.id 0 p (srcSeq g) fun k => .sigr p (srcSeq g) k c.dispFrame x.cl x.ctr x.inc c.fn 0
    else { s with fab := { s.fab with sigDropped := s.fab.sigDropped + 1 } }

/-- The engine time of a command: ME-cycles and VU-cycles (spec/14 R321). -/
def engineTime (is : List Inst) : Nat × Nat := (sumN (is.map fun i => i.meCycles.toNat), sumN (is.map fun i => i.vuCycles.toNat))

def deltaOf (is : List Inst) (k : Nat) : Nat := sumN (is.map fun i => (smGet 0 i.delta k).toNat)

/-- A signed 64-bit deficit less a charge (spec/14 R320). -/
def payDeficit (d : Int) (n : Nat) : Int := max (-(2 ^ 63 : Int)) (d - n)

/-- Counters of the clusters and the function, engine time and charges (spec/05 R112, spec/14 R320, R321, R329, spec/15
R360). -/
def State.commitCounts (s : State) (c : Cmd) : State :=
  let is := c.insts.map (·.2)
  let s1 := c.insts.foldl (fun s x => s.modCl x.1 fun k =>
    { k with totals := x.2.delta.foldl (fun m e => smMod 0 m (16 * c.fn + e.1) (· + e.2)) k.totals }) s
  let t := engineTime is
  let charge := t.1 + 8 * t.2
  let s2 := [(0, kOob), (1, kCeCoded), (2, kCeStored), (5, kSat), (6, kNanZero)].foldl
    (fun s e => s.fnCount c.fn e.1 (deltaOf is e.2)) s1
  let s3 := (s2.fnCount c.fn 3 t.1).fnCount c.fn 4 t.2
  let s4 := s3.modTen c.fn fun n => { n with
    meCycles := n.meCycles + BitVec.ofNat 64 t.1, vuCycles := n.vuCycles + BitVec.ofNat 64 t.2
    deficit := payDeficit n.deficit charge }
  let a := (s.ctx (c.batch.getD 0 0)).account
  let x := s4.acct a
  let s5 := s4.setAcct a { x with
    meCycles := x.meCycles + BitVec.ofNat 64 t.1, vuCycles := x.vuCycles + BitVec.ofNat 64 t.2
    deficit := payDeficit x.deficit charge }
  if c.xrun then { s5 with sched := { s5.sched with
    express := smMod {} s5.sched.express c.fn fun e =>
      { e with sum := (if e.frame = s.frame then e.sum else 0) + charge, frame := s.frame } } } else s5

/-- Cached copies of a record go from every cluster (spec/08 R208). -/
def State.dropRec (s : State) (t n : Nat) (p : Nat → Bool) : State :=
  { s with clusters := smMap {} s.clusters fun _ k =>
      { k with recCache := k.recCache.filter fun r => !(r.tenant == t && r.tset == n && p r.idx) } }

/-- A table record that a CODE TABLE held (spec/08 R200). -/
def State.commitTable (s : State) (t : Nat) (x : HeldTable) : State :=
  match s.tset t x.tset with
  | none => s
  | some ts =>
    (s.modTen t fun n => { n with
      tsets := smPut none n.tsets x.tset (some { ts with records := smPut [] ts.records x.idx x.bytes }) }).dropRec
        t x.tset (· == x.idx)

/-- A tier hint: every leaf that maps a byte of the page (spec/06 R152, spec/09 R227). -/
def State.commitHint (s : State) (t : Nat) (h : Hint) : State :=
  s.modTen t fun n => { n with leaves := n.leaves.map fun (l : Leaf) =>
    if (overlaps l.va l.size h.va 65536) = true then { l with hint := h.tier } else l }

/-- Places of candidates appended to MAP (spec/12 R278). -/
def mapWith (ps : List Nat) : W64 := BitVec.ofNat 64 (sumN (ps.zipIdx.map fun x => x.1 * 16 ^ x.2))

/-- The context after the settle of a keep mask: kept candidates appended in ascending index (spec/12 R278). -/
def Ctx.settle (c : Ctx) (keep : BitVec 16) : Ctx :=
  let kept := (setBits keep).map fun k => c.freePlaces.getD k 0
  { c with fill := c.fill + kept.length, map := mapWith (c.places ++ kept), len := c.len + kept.length }

/-- A page appended by a flush (spec/12 R280). -/
def Ctx.flushed (c : Ctx) (p : Page) : Ctx := { c with pages := c.pages ++ [p], fill := 0, map := 0 }

/-- The last entry of the instances of a command for a batch slot. -/
def keepOf (is : List Inst) (k : Nat) : Option (BitVec 16) := (is.filterMap fun i => i.keep k).head?

/-- The pages KVF prepared for a slot: the one that applies, if any, and those that are discarded. -/
def flushesOf (is : List Inst) (k : Nat) : Option Flush × List Flush :=
  let l := (is.flatMap (·.flushes)).filter fun f => f.slot == k
  (findLast (fun f => !f.void) l, l.filter (·.void))

/-- An account charged for n settled tokens (spec/13 R303). -/
def Account.charge (a : Account) (n : Nat) (prompt : Bool) : Account :=
  { a with balance := max (-(2 ^ 31 : Int)) (a.balance - 16 * n)
           prompt := if prompt then a.prompt + BitVec.ofNat 64 n else a.prompt
           produced := if prompt then a.produced else a.produced + BitVec.ofNat 64 n }

/-- Runs of units returned to a layout's pool. -/
def State.freeRuns (s : State) (t l : Nat) (rs : List (Nat × Nat)) : State :=
  match s.layout t l with
  | none => s
  | some r => s.setLayout t l (some { r with units := rs.foldl (fun u x => u.erase x) r.units })

/-- The page that a flush appends to a context. -/
def State.flushPageOf (s : State) (l : LayoutRec) (f : Flush) : Page :=
  { addr := l.unitVa f.unit, pkg := if s.glb.valid then s.glb.index else 0, size := 0, ro := false
    first := f.first, tokens := f.tokens, tuse := f.tuse }

/-- A context at a commit: settle, flush, charge, step count; the tokens settled (spec/12 R278-R282, spec/13 R294, R303). -/
def State.commitSlot (s : State) (c : Cmd) (k x : Nat) : State × Nat :=
  let is := c.insts.map (·.2)
  let c0 := s.ctx x
  let c1 := match keepOf is k with | some m => c0.settle m | none => c0
  let n := c1.len - c0.len
  let fl := flushesOf is k
  let s1 := s.freeRuns c.fn c0.layout (fl.2.map fun f => (f.unit, ((s.layout c.fn c0.layout).map fun l => l.u 0).getD 1))
  let r := match fl.1, s.layout c.fn c0.layout with
    | some f, some l =>
      (c1.flushed (s.flushPageOf l f),
       { (s1.addHist c.fn l f.hist (f.tokens * l.dim * l.planes)) with
          serv := { s1.serv with kvFlushes := s1.serv.kvFlushes + 1 } })
    | _, _ => (c1, s1)
  let a := r.2.acct c0.account
  let s2 := r.2.setAcct c0.account (a.charge n (c.phase == 0))
  (s2.setCtx x { r.1 with
    steps := satAdd c0.steps 1, lastTick := BitVec.ofNat 32 s.tick, charged := c0.charged + BitVec.ofNat 64 n
    epoch := if c.epoch = 0 then c0.epoch else c.epoch }, n)

/-- Status of a batch slot of a command that commits, before its context records the epoch (spec/11 R266, spec/13 R313). -/
def State.commitStatus (s : State) (c : Cmd) (x : Nat) : Byte :=
  let e := (s.ctx x).epoch
  if c.cancelled.contains x then stDropped
  else if c.epoch ≠ 0 ∧ e ≠ 0 ∧ e ≠ c.epoch then stEpoch else stOk

/-- The batch's contexts at a commit, with their report entries. -/
def State.commitSlots (s : State) (c : Cmd) : List (Nat × Nat) → State × List (Nat × Byte × Nat × Nat)
  | [] => (s, [])
  | (x, k) :: r =>
    let st := s.commitStatus c x
    let a := s.commitSlot c k x
    let b := a.1.commitSlots c r
    (b.1, (x, st, a.2, (a.1.ctx x).len) :: b.2)

/-- Units of merged pages return once no command dispatched before the merge is in flight (spec/12 R289). -/
def State.reapRuns (s : State) : State :=
  let gone := fun (e : Nat × Nat × Nat × Nat × Nat) =>
    s.cmds.list.all fun c => !(c.inFlight && c.fn == e.1 && decide (c.dispSeq ≤ e.2.2.2.2))
  (s.serv.oldRuns.filter gone).foldl (fun s e => s.freeRuns e.1 e.2.1 [(e.2.2.1, e.2.2.2.1)])
    { s with serv := { s.serv with oldRuns := s.serv.oldRuns.filter fun e => !gone e } }

/-- An owner table's change is complete once no command dispatched before its switch is in flight; older versions go
(spec/07 R186). -/
def State.reapOwners (s : State) : State :=
  let busy := fun (t : Nat) (v : OwnerVer) => match v.since with
    | none => true
    | some q => s.cmds.list.any fun c => c.inFlight && c.fn == t && decide (c.dispSeq < q)
  -- a version that another, whose change is complete, has replaced
  let superseded := fun (t : Nat) (v : OwnerVer) (vs : List OwnerVer) => match v.since with
    | none => false
    | some q => vs.zipIdx.any fun x => !busy t x.1 && (match x.1.since with
      | some p => decide (q < p) || (p == q && (vs.zipIdx.any fun y => y.1 == v && decide (y.2 < x.2)))
      | none => false)
  (List.range 64).foldl (fun s t =>
    let own := (s.ten t).owners
    let done := own.flatMap fun e => (e.2.filter fun v => !busy t v).filterMap (·.cid)
    if done.isEmpty then s else
      done.foldl (fun s r => s.answer t r stOk 0) (s.modTen t fun n => { n with
        owners := n.owners.map fun e => (e.1, (e.2.filter fun v => !superseded t v e.2).map fun v =>
          if busy t v then v else { v with cid := none }) })) s

/-- What waits for commands that are no longer in flight. -/
def State.reap (s : State) : State := s.reapRuns.reapOwners

/-- The held effects of a command applied, all in one beat, and its completion (spec/05 R112). -/
def State.commit (s : State) (c : Cmd) : State :=
  let ranked := (sortKey (c.insts.map fun x => (x.2.rank, x))).map (·.2)
  let c := { c with insts := ranked }
  let is := ranked.map (·.2)
  let s0 := s.stamp
  let s1 := (ranked.flatMap fun x => x.2.sigs.map (x.1, ·)).foldl (fun s x => s.commitSig c x.1 x.2) s0
  let s2 := s1.commitCounts c
  let s3 := (is.flatMap (·.hints)).foldl (fun s h => s.commitHint c.fn h) s2
  let s4 := (is.flatMap (·.tables)).foldl (fun s t => s.commitTable c.fn t) s3
  let r := s4.commitSlots c c.batch.zipIdx
  let s5 := r.1.writeReport c r.2
  let s6 := s5.completeCmd c ((r.2.head?.map fun e => e.2.1).getD stOk) 0
  (c.batch.foldl (fun s x => s.ctxIdle x) s6).reap

/-- Its commit would be latched after the tick boundary that follows its deadline tick (spec/02 R44, R47). -/
def Cmd.late (c : Cmd) : Bool :=
  match c.deadline with
  | some d => decide (diff32 d (BitVec.ofNat 32 ((c.commitBeat - 1) / 125)) < 0)
  | none => false

/-- A command of the same queue, submitted before it, whose commit is due: it completes first (spec/15 R345). -/
def State.commitsBefore (s : State) (c : Cmd) : Bool :=
  s.cmds.list.any fun d => d.fn == c.fn && d.q == c.q && decide (d.id < c.id) && d.st == .ready
    && decide (d.commitBeat ≤ s.beat) && (d.gangSize == 0 || d.gangReady) && !d.late

/-- A ready command commits at the beat that latches its readiness, unless its deadline passed before (spec/05 R113, spec/02
R47); a reset latched in the same beat comes first (spec/02 R44). -/
def execCommandCommit (id : Nat) (s : State) : Out :=
  whenAlive s <| match s.cmd id with
  | none => s
  | some c =>
    if c.st != .ready || c.gangSize != 0 || decide (s.beat < c.commitBeat) || s.resetComing c.fn then s
    else if c.late then s.faultCmd c fDeadline none 0 true
    else if s.commitsBefore c then s else s.commit c

/-- The tick boundary after a deadline tick (spec/02 R47). A commit latched at the same beat stands (R44), and so does that of a
gang whose members are all ready (spec/05 R123, log entry 67). -/
def execDeadlineExpiry (id : Nat) (s : State) : Out :=
  whenAlive s <| match s.cmd id with
  | none => s
  | some c => match c.deadline with
    | some d =>
      if !s.tickEdge || decide (0 ≤ s.ticksTo d) || s.resetComing c.fn then s
      else if c.st == .ready && (if c.gangSize = 0 then !c.late else c.gangReady) then s
      else s.faultCmd c fDeadline none 0 true
    | none => s

/-! ### Drains (spec/07 R181, spec/12 R281) -/

/-- Every layout of every tenant space. -/
def State.mapLayouts (s : State) (f : LayoutRec → LayoutRec) : State :=
  { s with tens := smMap {} s.tens fun _ n => { n with layouts := smMap none n.layouts fun _ l => l.map f } }

/-- The CE entries of a killed run are free once what it sent is acknowledged: its units return, and the command may be
dispatched again. -/
def execCeDrainComplete (id : Nat) (s : State) : Out :=
  whenAlive s <|
    let s0 := s.enterAll (fun r => r.cmd == id) s.memc.waiting.length
    if (s0.memc.waiting.any fun r => r.cmd == id) || (s.fab.unacked.any fun u => u.cmd == id && u.op != 0) then s else
    let s1 := { s0 with clusters := smMap {} s0.clusters fun _ k =>
      { k with ops := k.ops.filter fun o => !(o.cmd == id && o.killed) } }
    let s2 := (s1.mapLayouts fun l => { l with returning := l.returning.filter fun r => r.2.2 != id }).reap
    match s2.cmd id with
    | some c => if c.st == .draining then s2.setCmd { c with st := .queued } else s2
    | none => s2

/-! ### Gangs (spec/05 R121-R124, spec/11 R263) -/

/-- A ready notice of another member. -/
def execGangReadyNotice (pkg : Pk) (tenant : Fn) (gang : BitVec 16) (beat : W64) (epoch : W32) (s : State) : Out :=
  whenAlive s <| match s.gangCmd gang.toNat pkg tenant with
  | none => s
  | some c => s.gangTraffic c pkg tenant (s.setCmd { c with notices := (c.notices.filter fun n => n.pkg != pkg.val)
      ++ [{ pkg := pkg, beat := beat.toNat, epoch := epoch, lat := s.beat }] })

/-- A gang member that was ready is killed: a held abort or cancellation takes effect, otherwise it goes as the cause says. -/
def State.killMember (s : State) (c : Cmd) (k : GangCause) : State :=
  if c.heldAborts ≠ 0 ∨ c.heldCancels ≠ [] then s.killEnd c stAborted false
  else match k with
    | .rerun => s.killAgain c 6 false
    | .aborted => s.killEnd c stAborted false
    | .faulted => s.faultCmd c fRemote none 0 false

/-- Every member has been ready: the gang commits two beats after the last, or runs again when the epochs differ. -/
def execGangCommit (id : Nat) (s : State) : Out :=
  whenAlive s <| match s.cmd id with
  | none => s
  | some c =>
    if c.st != .ready || c.gangSize == 0 || !c.gangReady || decide (s.beat < c.commitBeat) || s.resetComing c.fn
        || s.commitsBefore c then s
    else if c.notices.all fun n => n.epoch == c.epoch then
      let late := c.notices.any fun n => decide (c.commitBeat < n.lat)
      let s1 := s.commit c
      if late then { s1 with fab := { s1.fab with gangLate := s1.fab.gangLate + 1 } } else s1
    else
      let s1 := s.killMember c .rerun
      { s1 with sched := { s1.sched with gangReruns := s1.sched.gangReruns + 1 } }

/-- What a killed member told a command that is not in flight is void. -/
def State.forget (s : State) (c : Cmd) (pkg : Nat) : State :=
  let s1 := s.setCmd { c with notices := c.notices.filter fun n => n.pkg != pkg }
  { s1 with cmds := { s1.cmds with arrivals := s1.cmds.arrivals.filter fun a => !(a.cmd == c.id && a.who == 96 + pkg) } }

/-- A kill notice of another member (spec/05 R123). -/
def execGangKillNotice (pkg : Pk) (tenant : Fn) (gang : BitVec 16) (cause : GangCause) (s : State) : Out :=
  whenAlive s <| match s.gangCmd gang.toNat pkg tenant with
  | none => s
  | some c => s.gangTraffic c pkg tenant (if c.inFlight then s.killMember c cause else s.forget c pkg)

end Sys2Proof.Machine
end

