-- ==== Sys2Proof/Machine/Requests.lean ====
section
/-! DEFINITION. Requests: how SCH takes one, holds it and answers it, and the requests about programs, table sets, owner tables,
shares and express caps (spec/15 R351, R355, R359, spec/05 R103, spec/08 R196-R198, spec/07 R184-R186, spec/14 R319, R329). -/

namespace Sys2Proof.Machine

/-- The request is the next that SCH takes of its function: every one fetched before it has been taken (spec/09 R226). -/
def FnBlk.turn (b : FnBlk) (cid : BitVec 16) : Bool :=
  (b.reqs.takeWhile fun r => r.cid != cid).all fun r => r.begun || r.what.isSome

/-- The code, the operand words and the parameter bytes of a request (spec/15 R351). -/
def requestOf : Instr → Option (Nat × List W64 × Option (List Byte))
  | .map _ _ a b c => some (0x01, [a, b, c], none)
  | .unmap _ _ a b => some (0x02, [a, b], none)
  | .transfer _ _ a b c d _ => some (0x03, [a, b, c, d], none)
  | .programLoad _ _ p => some (0x08, [], some p)
  | .programDrop _ _ a => some (0x09, [a], none)
  | .tsetInstall _ _ a p => some (0x0C, [a], some p)
  | .ownerInstall _ _ a b p => some (0x0D, [a, b], some p)
  | .gateRegister _ _ a p => some (0x10, [a], some p)
  | .gateSwap _ _ a p => some (0x11, [a], some p)
  | .gateResume _ _ a => some (0x12, [a], none)
  | .gateUnregister _ _ a => some (0x13, [a], none)
  | .layoutRegister _ _ a p => some (0x18, [a], some p)
  | .layoutMask _ _ a b => some (0x19, [a, b], none)
  | .layoutRecode _ _ a b => some (0x1A, [a, b], none)
  | .openContext _ _ a b c d e h => some (0x20, [a, b, c, d, e, h], none)
  | .closeContext _ _ a => some (0x21, [a], none)
  | .parkContext _ _ a => some (0x22, [a], none)
  | .cancelContext _ _ a b => some (0x23, [a, b], none)
  | .importPages _ _ a b c => some (0x24, [a, b, c], none)
  | .registerPrefix _ _ a b => some (0x25, [a, b], none)
  | .loadVariant _ _ a b c => some (0x26, [a, b, c], none)
  | .mirrorPrefix _ _ a b _ => some (0x27, [a, b], none)
  | .retirePrefix _ _ a => some (0x28, [a], none)
  | .account _ _ a b c d e => some (0x29, [a, b, c, d, e], none)
  | .query _ _ a b => some (0x2A, [a, b], none)
  | .share _ _ a b => some (0x30, [a, b], none)
  | .expressCap _ _ a b => some (0x31, [a, b], none)
  | _ => none

/-- The request stands in the function's list as it was fetched, not begun: its CID, code, operands and parameter length. -/
def FnBlk.fetched (b : FnBlk) (cid : BitVec 16) (i : Instr) : Bool :=
  match requestOf i with
  | none => false
  | some (code, ops, param) => b.reqs.any fun r => r.cid == cid && !r.begun && r.code == code && r.ops == ops
      && (match param with | some p => p.length == r.len | none => true)

/-- A function whose queue 0 carries requests and that no reset of this beat takes, and a request it fetched whose turn it is
(spec/02 R42). -/
def State.canTake (s : State) (f : Nat) (cid : BitVec 16) (i : Instr) : Bool :=
  (s.fn f).state == 2 && (s.queue f 0).active && s.schUp && !s.resetComing f && (s.fn f).turn cid && (s.fn f).fetched cid i

/-- A request kept until what it waits for comes about. -/
def State.keepReq (s : State) (f : Nat) (cid : BitVec 16) (begun : Bool) (i : Instr) : State :=
  s.modFn f fun b =>
    { b with reqs := b.reqs.map fun r => if r.cid == cid then { r with begun := begun, what := some i } else r }

/-- What SCH does with a request: answer it, keep it for later, or begin something that answers it. -/
inductive ReqOut where
  | done (st : State) (status : Byte) (result : W64)
  | wait
  /-- held, with what its latching has done -/
  | held (st : State)
  | begun (st : State)

/-- A request is refused: nothing changes. -/
def State.no (s : State) (st : Byte) : ReqOut := .done s st 0

/-- SCH takes a request of minor version `minor`; in recovery mode only those marked are carried out (spec/15 R359). -/
def State.request (s : State) (f : Nat) (cid : BitVec 16) (minor : Nat) (inRec : Bool) (i : Instr) (k : ReqOut) : Out :=
  whenAlive s <|
    if !s.canTake f cid i then s
    else if s.sec.bootMode != 0 && !inRec then s.answer f cid rOffline 0
    else if !(s.fn f).atLeast 1 minor then s.answer f cid rVersion 0
    else match k with
      | .done t st r => t.answer f cid st r
      | .wait => s.keepReq f cid false i
      | .held t => t.keepReq f cid false i
      | .begun t => t.keepReq f cid true i

/-- A free number below n that is available (spec leaves SCH the choice, log entry 2). -/
def State.pickFree (s : State) (i n : Nat) (avail : Nat → Bool) : Option Nat :=
  let c := s.free i % n
  if n = 0 then none else if avail c then some c else (List.range n).find? avail

/-! ### Programs -/

/-- An image's words. -/
def wordsOf : Nat → List Byte → List W64
  | 0, _ => []
  | n + 1, bs => BitVec.ofNat 64 (fieldN bs 0 8) :: wordsOf n (bs.drop 8)

/-- No cluster keeps an image of a number that is registered anew or dropped (spec/05 R103). -/
def State.dropImages (s : State) (f p : Nat) : State :=
  { s with clusters := smMap {} s.clusters fun _ k =>
    { k with progs := k.progs.filter fun r => !(r.tenant == f && r.prog == p) } }

/-- PROGRAM_LOAD: an image of 1 to 8,192 words (spec/05 R103). -/
def execProgramLoad (f : Fn) (cid : BitVec 16) (image : List Byte) (s : State) : Out :=
  s.request f cid 0 true (.programLoad f cid image) <|
    if image.isEmpty || image.length % 8 != 0 || decide (65536 < image.length) then s.no fInstruction
    else match s.pickFree 1 65536 fun p => (smGet [] (s.ten f).progs p).isEmpty with
      | none => s.no rQuota
      | some p => .done (((s.dropImages f p).modTen f fun n => { n with
          progs := smPut [] n.progs p (wordsOf (image.length / 8) image) }).bump) stOk (BitVec.ofNat 64 p)

/-- PROGRAM_DROP: held while commands of the program run. -/
def execProgramDrop (f : Fn) (cid : BitVec 16) (prog : W64) (s : State) : Out :=
  s.request f cid 0 true (.programDrop f cid prog) <|
    let p := prog.toNat
    if 65536 ≤ p ∨ (smGet [] (s.ten f).progs p) = [] then s.no fInstruction
    else if s.cmds.list.any fun c => c.inFlight && c.fn == f.val && c.program == p then .wait
    else
      .done ((s.dropImages f p).modTen f fun n => { n with progs := smPut [] n.progs p [] }) stOk 0

/-! ### Table sets (spec/08 R196-R198) -/

/-- The record i of an uploaded set as it is stored: the device computes its TTAG. -/
def uploaded (bs : List Byte) (i : Nat) : List Byte :=
  let r := (bs.drop (64 + 256 * i)).take 256
  if recValid r then mkRecord (recFmt r) (recLens r 258) else []

/-- TSET_INSTALL: every record is checked; cached copies go from every cluster. -/
def execTsetInstall (f : Fn) (cid : BitVec 16) (tset : W64) (param : List Byte) (s : State) : Out :=
  s.request f cid 0 false (.tsetInstall f cid tset param) <|
    let n := tset.toNat
    if n = 0 ∨ 63 < n ∨ param.length ≠ 2112 ∨ 64 ≤ fieldN param 0 1
        ∨ !((List.range 8).all fun i => recordOk ((param.drop (64 + 256 * i)).take 256)) then s.no fInstruction
    else
      let t : TableSet := { minGain := fieldN param 0 1
                            records := (List.range 8).foldl (fun m i => smPut [] m i (uploaded param i)) [] }
      .done ((s.modTen f fun x => { x with tsets := smPut none x.tsets n (some t) }).dropRec f n fun _ => true) stOk 0

/-! ### Owner tables (spec/07 R184, R186) -/

/-- The entries of an owner table; none where a field is out of range. -/
def ownerEntries : Nat → List Byte → Option (List (Nat × Nat × Bool))
  | 0, _ => some []
  | n + 1, bs =>
    let e := fieldN bs 0 8
    if e / 2 ^ 53 ≠ 0 ∨ bits e 47 0 % 64 ≠ 0 then none
    else (ownerEntries n (bs.drop 8)).map ((bits e 47 0, bits e 51 48, bitN e 52) :: ·)

/-- OWNER_INSTALL: the version waits for its switch frame, which must lie ahead; it completes by R186. -/
def execOwnerInstall (f : Fn) (cid : BitVec 16) (table frame : W64) (param : List Byte) (s : State) : Out :=
  s.request f cid 2 false (.ownerInstall f cid table frame param) <|
    let n := table.toNat
    let count := fieldN param 4 4
    let fr : W32 := frame.setWidth 32
    if n = 0 ∨ 1023 < n ∨ 2 ^ 32 ≤ frame.toNat ∨ fieldN param 0 1 < 16 ∨ 30 < fieldN param 0 1 ∨ !zerosN param 1 4
        ∨ !zerosN param 8 64 ∨ count = 0 ∨ 65536 < count ∨ param.length ≠ 64 + 8 * count then s.no fInstruction
    else match ownerEntries count (param.drop 64) with
      | none => s.no fInstruction
      | some es =>
        if diff32 fr (BitVec.ofNat 32 s.frame) ≤ 0 then s.no fDeadline
        else
          let v : OwnerVer := { log2 := fieldN param 0 1, entries := es, frame := fr, since := none, cid := some cid }
          .begun (s.modTen f fun x => { x with owners := smPut [] x.owners n (smGet [] x.owners n ++ [v]) })

/-- A version of a table switches in at its frame boundary. -/
def execOwnerTableSwitch (t : Fn) (table : Fin 1024) (s : State) : Out :=
  whenAlive s <|
    let due := fun (v : OwnerVer) => v.since.isNone && decide (diff32 v.frame (BitVec.ofNat 32 s.frame) ≤ 0)
    let vs := smGet [] (s.ten t).owners table
    if !s.frameEdge || !vs.any due then s else
      let s1 := s.stamp
      let now := fun (v : OwnerVer) => if due v then { v with since := some s1.cmds.nextSeq } else v
      (s1.modTen t fun n => { n with owners := smPut [] n.owners table (vs.map now) }).reap

/-! ### Shares and caps (spec/14 R319, R329) -/

/-- SCH's policy write: latched at the next beat, after everything else of it (spec/02 R41, R42). -/
def State.policy (s : State) (p : Policy) : State :=
  { s with sched := { s.sched with writes := s.sched.writes ++ [(s.beat, p)] } }

/-- SHARE, a request of function 0. -/
def execShare (f : Fn) (cid : BitVec 16) (tenant weight : W64) (s : State) : Out :=
  s.request f cid 0 false (.share f cid tenant weight) <|
    if f.val ≠ 0 ∨ 63 < tenant.toNat ∨ 65535 < weight.toNat then s.no fInstruction
    else .done (s.policy (.share tenant.toNat (weight.setWidth 16))) stOk 0

/-- EXPRESS_CAP, a request of function 0. -/
def execExpressCap (f : Fn) (cid : BitVec 16) (fn cap : W64) (s : State) : Out :=
  s.request f cid 3 false (.expressCap f cid fn cap) <|
    if f.val ≠ 0 ∨ 63 < fn.toNat ∨ 65535 < cap.toNat then s.no fInstruction
    else .done (s.policy (.cap fn.toNat (cap.setWidth 16))) stOk 0

end Sys2Proof.Machine
end

