-- ==== Sys2Proof/Machine/Tier.lean ====
section
/-! DEFINITION. Translation requests, transfers, frames, quotas, migration, the loft's failures and segment tags
(spec/09 R215-R234, spec/10 R239-R249, spec/15 R351, spec/04 R97, R98). -/

namespace Sys2Proof.Machine

/-! ### Frames (spec/09 R220, R224) -/

def State.frameAt (s : State) (n : Nat) : Frame := smGet {} s.memc.frames n
def State.modFrame (s : State) (n : Nat) (f : Frame → Frame) : State :=
  { s with memc := { s.memc with frames := smMod {} s.memc.frames n f } }
/-- First frame number and number of frames of a tier. -/
def State.tierFrames (s : State) (loft : Bool) : Nat × Nat :=
  if loft then (loftBase / frameBytes, s.memc.loftGib * 512) else (0, hbmReserve / frameBytes)
def isLoftFrame (n : Nat) : Bool := decide (loftBase / frameBytes ≤ n)

/-- The frame waits for commands dispatched before its unmap (spec/09 R222). -/
def State.leavingBusy (s : State) (n : Nat) : Bool :=
  (List.range 64).any fun t => (s.ten t).leaving.any fun e =>
    e.1 == n && s.cmds.list.any fun c => c.inFlight && decide (c.dispSeq ≤ e.2)

/-- A frame of the free pool: what a killed command sent to it has landed (spec/09 R222). -/
def State.frameFree (s : State) (n : Nat) : Bool :=
  let x := s.frameAt n
  !x.charged && !x.retired && !s.leavingBusy n && (s.infl.all fun w => w.addr / frameBytes != n) && !s.memc.migs.any fun m => m.dst == n * frameBytes || m.src == n * frameBytes

/-- Runs of `k` consecutive frames, `k`-aligned, all free: run r. -/
def State.runOfFrames (s : State) (base k r : Nat) : Bool := (List.range k).all fun i => s.frameFree (base + k * r + i)

/-- Frames in use of a tier. -/
def Tenant.use (n : Tenant) (loft : Bool) : Nat := if loft then n.useLoft else n.useHbm
def Tenant.quota (n : Tenant) (loft : Bool) : Nat := if loft then n.quotaLoft else n.quotaHbm
def Tenant.charge (n : Tenant) (loft : Bool) (k : Nat) : Tenant :=
  if loft then { n with useLoft := n.useLoft + k } else { n with useHbm := n.useHbm + k }
/-- A count that has fallen below its quota lets mappings in again (spec/09 R225). -/
def Tenant.under (n : Tenant) : Tenant :=
  { n with overHbm := n.overHbm && decide (n.quotaHbm ≤ n.useHbm), overLoft := n.overLoft && decide (n.quotaLoft ≤ n.useLoft) }
def Tenant.uncharge (n : Tenant) (loft : Bool) (k : Nat) : Tenant :=
  (if loft then { n with useLoft := n.useLoft - k } else { n with useHbm := n.useHbm - k }).under
def Tenant.over (n : Tenant) (loft : Bool) : Bool := if loft then n.overLoft else n.overHbm
/-- The quotas are written: one lowered below the count in use refuses until the count falls below it. -/
def Tenant.setQuota (n : Tenant) (hbm loft : Nat) : Tenant :=
  { n with quotaHbm := hbm, quotaLoft := loft, overHbm := n.overHbm || decide (hbm < n.useHbm)
           overLoft := n.overLoft || decide (loft < n.useLoft) }.under

/-- A frame is given to a tenant space: zeroed unless that tenant space held it last (spec/09 R220). -/
def State.giveFrame (s : State) (t n : Nat) : State :=
  let x := s.frameAt n
  let s1 := if x.holder = some t ∨ x.zeroed = true then s else s.zero (n * frameBytes) frameBytes
  (s1.modFrame n fun y => { (if x.holder = some t ∨ x.zeroed = true then y else y.reach frameBytes) with
      holder := some t, charged := true, zeroed := false }).modTen t
    fun k => (k.charge (isLoftFrame n) 1)

/-- A frame leaves a tenant space; it is free once no command dispatched before is in flight. A frame that collected
corrections is retired (spec/10 R246). -/
def State.dropFrame (s : State) (t n : Nat) : State :=
  (s.modFrame n fun y => { y with
      charged := false, retired := y.retired || decide (s.memc.retireAt.toNat ≤ y.corrections) }).modTen t
    fun k => { k.uncharge (isLoftFrame n) 1 with
      leaving := (k.leaving.filter fun e => s.cmds.list.any fun c => c.inFlight && decide (c.dispSeq ≤ e.2))
        ++ [(n, s.cmds.nextSeq)] }

/-! ### MAP (spec/09 R217-R226) -/

/-- Addresses that are never mapped or never translated (spec/09 R217). -/
def inWindows (a n : Nat) : Bool :=
  overlaps a n 0x00F000000000 0x100000000 || overlaps a n 0xF00000000000 0x10000000000 || overlaps a n 0x00FF00000000 0x100000000

/-- One page of a size mapped; none where no frame is free. A 64 KiB page lies in the frame that its 2 MiB range already has, whatever
its tier (log entry 93). -/
def State.mapOne (s : State) (t va size : Nat) (loft : Bool) (w pin : Bool) (hint : Nat) : Option State :=
  let tf := s.tierFrames loft
  let leaf := fun (s : State) (pa : Nat) => s.modTen t fun n => { n with
    leaves := n.leaves ++ [{ va := va, size := size, pa := pa, w := w, pin := pin, hint := hint }] }
  if size = 65536 then
    match (s.ten t).leaves.find? fun l => l.size == 65536 && l.va / frameBytes == va / frameBytes with
    | some l => some (leaf s (l.pa / frameBytes * frameBytes + va % frameBytes))
    | none => match s.pickFree 1 tf.2 fun i => s.frameFree (tf.1 + i) with
      | some i => some (leaf ((s.giveFrame t (tf.1 + i)).bump) ((tf.1 + i) * frameBytes + va % frameBytes))
      | none => none
  else
    let k := size / frameBytes
    match s.pickFree 1 (tf.2 / k) (s.runOfFrames tf.1 k) with
    | some r => some (leaf ((List.range k).foldl (fun s i => s.giveFrame t (tf.1 + k * r + i)) s).bump ((tf.1 + k * r) * frameBytes))
    | none => none

/-- `n` pages mapped from `va`. -/
def State.mapMany (s : State) (t va size : Nat) (loft w pin : Bool) (hint : Nat) : Nat → Option State
  | 0 => some s
  | n + 1 => match s.mapOne t va size loft w pin hint with
    | some s1 => s1.mapMany t (va + size) size loft w pin hint n
    | none => none

/-- A tier that pages of a MAP go to has a quota lowered below its count: the one asked for, or that of the frame a 64 KiB page's range
already has (spec/09 R225). -/
def State.overAt (s : State) (t a n size : Nat) (loft : Bool) : Bool :=
  (s.ten t).over loft || (size == 65536 && (s.ten t).leaves.any fun l =>
    l.size == 65536 && overlaps (l.va / frameBytes * frameBytes) frameBytes a n && (s.ten t).over (isLoftFrame (l.pa / frameBytes)))

/-- MAP: refusals by spec/15 R351, the quota by spec/09 R225. Where no frame of the tier is left the refusal is that of a
full quota (log entry 27). -/
def execMap (f : Fn) (cid : BitVec 16) (va bytes p2 : W64) (s : State) : Out :=
  s.request f cid 0 false (.map f cid va bytes p2) <|
    let a := va.toNat
    let n := bytes.toNat
    let p := p2.toNat
    let size := match bits p 1 0 with | 0 => 0x10000 | 1 => 0x200000 | _ => 0x40000000
    let loft := bits p 3 2 == 1
    if bits p 1 0 = 3 ∨ 1 < bits p 3 2 ∨ bits p 7 6 = 3 ∨ 256 ≤ p ∨ n = 0 ∨ 2 ^ 48 < a + n then s.no fInstruction
    else if a % size ≠ 0 ∨ n % size ≠ 0 ∨ inWindows a n = true
        ∨ ((s.ten f).leaves.any fun l => overlaps l.va l.size a n) = true then s.no fTranslation
    else if s.overAt f a n size loft then s.no rQuota
    else match s.mapMany f a size loft (bitN p 4) (bitN p 5) (bits p 7 6) (n / size) with
      | none => s.no rQuota
      | some t =>
        let above := fun (b : Bool) => decide ((s.ten f).quota b < (t.ten f).use b) && decide ((s.ten f).use b < (t.ten f).use b)
        if above true || above false then s.no rQuota
        else .done t stOk 0

/-- A range is fully mapped in a tenant space; `fuel` bounds the leaves passed. -/
def State.mapped (s : State) (t a n : Nat) : Nat → Bool
  | 0 => n == 0
  | fuel + 1 =>
    if n = 0 then true
    else match s.leaf t a with
      | some l => s.mapped t (l.va + l.size) (n - (l.va + l.size - a)) fuel
      | none => false

def State.mappedAll (s : State) (t a n : Nat) : Bool := s.mapped t a n ((s.ten t).leaves.length + 1)

/-! ### UNMAP (spec/09 R222, R231, spec/12 R271) -/

/-- A migration ends without its frame having moved: what was copied is taken back, so no write is lost (spec/09 R230,
R231). -/
def State.abandon (s : State) (m : Migration) : State :=
  let back := fun (a : Nat) => if m.dst ≤ a ∧ a < m.dst + frameBytes then m.src + (a - m.dst) else a
  let s0 := s.remap back
  let s1 := { s0 with
    mem := memMove s.mem m.dst m.src (4096 * m.chunk)
    memc := { s0.memc with migs := (s.memc.migs.filter fun x => x.src != m.src), migAborts := s.memc.migAborts + 1 } }
  s1.dropFrame m.tenant (m.dst / frameBytes)

def LayoutRec.poolBytes (l : LayoutRec) : Nat := 65536 + l.poolUnits * l.unitBytes
def LayoutRec.troughBytes (l : LayoutRec) : Nat := l.troughSlots * l.slotBytes

/-- A range covers a page of a registered layout's pools. -/
def State.inPools (s : State) (t a n : Nat) : Bool :=
  (s.ten t).layouts.any fun e => match e.2 with
    | some l => overlaps l.poolBase l.poolBytes a n || overlaps l.troughBase l.troughBytes a n
    | none => false

/-- Frames a list of leaves occupies. -/
def leafFrames (ls : List Leaf) : List Nat :=
  (ls.flatMap fun l => (List.range (max 1 (l.size / frameBytes))).map fun i => l.pa / frameBytes + i).eraseDups

/-- The leaves of a tenant space that satisfy p removed, their frames given back when none of their pages stays. -/
def State.unmapLeaves (s : State) (t : Nat) (p : Leaf → Bool) : State :=
  let ls := (s.ten t).leaves
  let out := leafFrames (ls.filter p)
  let s1 := (s.memc.migs.filter fun m => m.tenant == t && out.contains (m.src / frameBytes)).foldl (fun s m => s.abandon m) s
  let s2 := s1.modTen t fun n => { n with leaves := n.leaves.filter fun l => !p l }
  let stay := leafFrames ((s2.ten t).leaves)
  (out.filter fun n => !stay.contains n).foldl (fun s n => s.dropFrame t n) s2

/-- UNMAP: a range that splits a page is refused whole; pages of it that are not mapped are no error (log entry 27). -/
def execUnmap (f : Fn) (cid : BitVec 16) (va bytes : W64) (s : State) : Out :=
  s.request f cid 0 false (.unmap f cid va bytes) <|
    let a := va.toNat
    let n := bytes.toNat
    let ls := (s.ten f).leaves
    if n = 0 ∨ 2 ^ 48 < a + n then s.no fInstruction
    else if s.inPools f a n then s.no fPermission
    else if a % 65536 ≠ 0 ∨ n % 65536 ≠ 0
        ∨ (ls.any fun l => overlaps l.va l.size a n && !(decide (a ≤ l.va) && decide (l.va + l.size ≤ a + n))) = true then
      s.no fTranslation
    else .done (s.unmapLeaves f fun l => overlaps l.va l.size a n) stOk 0

/-! ### TRANSFER (spec/15 R351, spec/09 R223) -/

/-- The fault a transfer's byte meets, if any: a host access is on no cluster, so the SELF form names none. -/
def State.hostFault (s : State) (t va : Nat) (write : Bool) : List Byte :=
  if isWindow va && bits va 30 23 == 255 then [fTranslation]
  else match s.access t 0 va (!write) with
    | .inr f => [f]
    | .inl pa =>
      if isWindow va then (if s.segTag pa = some t then [] else [fPermission])
      else if write && !s.memc.separate then (match s.leaf t va with
        | some l => if l.w then [] else [fPermission]
        | none => [])
      else []

/-- TRANSFER begins; its bytes move at TRANSFER_DONE. -/
def execTransfer (f : Fn) (cid : BitVec 16) (va host bytes dir : W64) (data : List Byte) (s : State) : Out :=
  s.request f cid 0 false (.transfer f cid va host bytes dir data) <|
    if bytes = 0 ∨ 2 ^ 32 < bytes.toNat ∨ 1 < dir.toNat ∨ 2 ^ 48 < va.toNat + bytes.toNat then s.no fInstruction
    else .begun s

/-- A transfer's bytes have moved, or its access has failed and nothing changes; it waits while a loft inlet it needs is closed. -/
def execTransferDone (f : Fn) (cid : BitVec 16) (s : State) : Out :=
  whenSch s <|
    if !(s.fn f).busMaster then s else
    match ((s.fn f).reqs.find? fun r => r.cid == cid && r.begun).bind (·.what) with
    | some (.transfer _ _ va host bytes dir data) =>
      let as := addrs va.toNat bytes.toNat
      if s.shutTen f as then s else
      let s := if dir = 0 then s.arrive else s.arrive.pull f as srcHost
      let fs := as.flatMap fun a => s.hostFault f a (dir == 0)
      match s.pickFault fs with
      | some e => ((s.logged f as [e] srcHost).answer f cid e 0).bump
      | none =>
        if dir = 0 then ((s.wrVa f va.toNat (padTo bytes.toNat data) srcHost).answer f cid stOk 0).bump
        else
          let r := s.readBs ⟨f, 0, 0⟩ as
          ({ s with hostMem := memPuts s.hostMem host.toNat r.1 }.answer f cid stOk 0).bump
    | _ => s

/-! ### Frames out of use -/

/-- The migration engine zeroes a frame of the free pool (spec/09 R220). -/
def execFrameZero (frame : BitVec 48) (s : State) : Out :=
  whenAlive s <|
    let n := frame.toNat / frameBytes
    if frame.toNat % frameBytes ≠ 0 ∨ s.frameFree n = false ∨ !(decide (n < hbmReserve / frameBytes) || s.isLoft frame.toNat) then s
    else (s.zero frame.toNat frameBytes).modFrame n fun y => { y.reach frameBytes with zeroed := true }

/-- At a frame boundary every access count is halved (spec/09 R228). -/
def execAccessCountHalve (s : State) : Out :=
  whenAlive s <|
    if s.frameEdge = false then s else
      { s with memc := { s.memc with frames := smMap {} s.memc.frames fun _ x => { x with count := x.count / 2 } } }

/-! ### Migration (spec/09 R229-R231) -/

def State.leavesIn (s : State) (t n : Nat) : List Leaf := (s.ten t).leaves.filter fun l => l.pa / frameBytes == n && decide (l.size ≤ frameBytes)

/-- The tier most of a frame's leaves hint at, if it is a tier (spec/09 R227). -/
def majorityTier (ls : List Leaf) : Option Bool :=
  let most := fun (h : Nat) => decide (ls.length < 2 * (ls.filter fun l => l.hint == h).length)
  if most 0 then some false else if most 1 then some true else none

/-- The tenant space of a frame that SCH may start to move to frame m: no leaf of it is pinned, and the majority of its hints does
not name the tier that it leaves (spec/09 R225, R227, R229, R233, log entry 28). -/
def State.movable (s : State) (a b : Nat) : Option Nat :=
  let n := a / frameBytes
  let m := b / frameBytes
  let dl := isLoftFrame m
  match (s.frameAt n).holder with
  | none => none
  | some t =>
    let ls := s.leavesIn t n
    if a % frameBytes ≠ 0 ∨ b % frameBytes ≠ 0 ∨ ls = [] ∨ (ls.any (·.pin)) = true ∨ 4 ≤ s.memc.migs.length
        ∨ s.frameFree m = false ∨ !(decide (m < hbmReserve / frameBytes) || s.isLoft b) ∨ dl = isLoftFrame n
        ∨ (s.memc.migs.any fun x => x.src == a) = true ∨ (dl = true ∧ s.memc.chFail ≠ 0)
        ∨ (s.ten t).quota dl < (s.ten t).use dl + 1 ∨ (s.ten t).over dl = true ∨ majorityTier ls = some (isLoftFrame n)
        ∨ (s.memc.lost.any fun e => e.1 == n) = true then none
    else some t

/-- SCH starts to move a frame. -/
def execMigrationStart (src dst : BitVec 48) (s : State) : Out :=
  whenSch s <|
    let a := src.toNat
    let b := dst.toNat
    match s.movable a b with
    | none => s
    | some t =>
      let s1 := ((s.zero b frameBytes).modFrame (b / frameBytes) fun y =>
        { y.reach frameBytes with holder := some t, charged := true, zeroed := false }).modTen t fun k => k.charge (isLoftFrame (b / frameBytes)) 1
      { s1 with memc := { s1.memc with migs := s1.memc.migs ++ [{ tenant := t, src := a, dst := b }] } }

/-! ### The loft late or failed (spec/09 R232, R233, spec/10 R249) -/

/-- A request of an operation on a loft channel that has passed its deadline unserved. -/
def State.lateOn (s : State) (ch : Nat) (o : UnitOp) : Option ChReq :=
  (s.inlet (128 + ch) ++ (s.chan (128 + ch)).queue).find? fun r =>
    r.op == o.id && !r.missed && decide (r.issued + s.memc.tierTimeout.toNat ≤ s.beat)

/-- The request is judged: it is not when it is served. -/
def State.missed (s : State) (ch : Nat) (r : ChReq) : State :=
  let mark := fun (x : ChReq) => if x = r then { x with missed := true } else x
  { s with memc := { s.memc with
    waiting := s.memc.waiting.map mark
    chans := smMod {} s.memc.chans (128 + ch) fun c => { c with queue := c.queue.map mark } } }

/-- A loft request of a command misses its deadline, LOFT_US from its issue. -/
def execLoftRequestTimeout (id : Nat) (ch : Fin 32) (s : State) : Out :=
  whenAlive s <| match s.cmd id with
  | none => s
  | some c =>
    let hit := (List.range 96).filterMap fun g =>
      ((s.cl g).ops.find? fun o => o.cmd == id && !o.killed && (s.lateOn ch o).isSome).bind fun o => (s.lateOn ch o).map fun r => (g, o, r)
    match hit with
    | [] => s
    | (g, o, r) :: _ =>
      if c.st != .running then s else
        let k := match o.unit with | .me m => (0, m.val) | .vu => (1, 0) | .ce x => (2, x.val)
        ((s.raise c g k.1 k.2 fTier o.slot none).missed ch r).loftMiss ch

/-- A channel's controller reports its training lost. -/
def execLoftTrainingLost (ch : Fin 32) (s : State) : Out := whenAlive s (s.failChannel ch)

/-! ### The engine's chunks (spec/09 R229-R231) -/

/-- The engine leaves a frame that a leaf with PIN 1 maps. -/
def State.pinned (s : State) (m : Migration) : Bool := (s.leavesIn m.tenant (m.src / frameBytes)).any (·.pin)

/-- The loft channels of a chunk. -/
def State.chunkChans (s : State) (m : Migration) : List Nat :=
  let a := (if isLoftFrame (m.dst / frameBytes) then m.dst else m.src) + 4096 * m.chunk
  ((List.range 64).map fun k => s.loftChan (a + 64 * k)).eraseDups

/-- A word of the source cannot be corrected: the migration is abandoned, and commands that read it later fail (spec/09 R231,
spec/10 R245). -/
def State.sourceBad (s : State) (m : Migration) (w : Nat) : State :=
  let s1 := (s.abandon m).eccError (32 * w) 1
  { s1 with memc := { s1.memc with
    loftBad := if s.isLoft (32 * w) && !s1.memc.loftBad.contains w then s1.memc.loftBad ++ [w] else s1.memc.loftBad } }.bump

/-- One chunk of a migrating frame: its reads and writes enter their queues; a word of it that cannot be corrected is a source error.
While a loft inlet that it needs is closed it waits. -/
def execMigrationChunk (src : BitVec 48) (res : ChunkResult) (s : State) : Out :=
  whenSch s <| match s.memc.migs.find? fun m => m.src == src.toNat with
  | none => s
  | some m =>
    if 512 ≤ m.chunk then s else
    let lo := m.src + 4096 * m.chunk
    let rd := (List.range 64).map fun k => lo + 64 * k
    if s.shut [m.src, m.dst] then s else
    let chs := s.chunkChans m
    let s := s.fetches 0 0 srcMig false (rd.flatMap fun p => List.replicate 64 p)
    let bad := (s.memc.poison ++ s.memc.loftBad ++ (s.memc.upset.filter fun e => decide (2 ≤ e.2)).map (·.1)).filter fun w => decide (lo ≤ 32 * w) && decide (32 * w < lo + 4096)
    if s.pinned m || (chs.any fun ch => s.memc.chFail.getLsbD ch) then s.abandon m else
    match res, bad with
    | .landed, [] =>
      let moved := fun (a : Nat) => if lo ≤ a ∧ a < lo + 4096 then m.dst + (a - m.src) else a
      let s0 := { s with mem := memMove s.mem lo (m.dst + 4096 * m.chunk) 4096 }
      let s1 := (s0.remap moved).pushes srcMig (rd.flatMap fun p => List.replicate 64 (moved p))
      { s1 with
        memc := { s1.memc with
          missRow := s1.memc.missRow.filter fun e => !chs.contains e.1
          migs := s.memc.migs.map fun (x : Migration) => if x.src == m.src then { x with chunk := x.chunk + 1 } else x } }
    | .destError, _ => s.abandon m
    | .late, _ => ((s.abandon m).loftMiss (s.choose 0 chs)).bump
    | _, [] => s.sourceBad m (lo / 32 + s.free 1 % 128)
    | _, w :: ws => s.sourceBad m (s.choose w (w :: ws))

/-- The last chunk has landed: the leaves switch, the source frame returns to the pool. -/
def execMigrationComplete (src : BitVec 48) (s : State) : Out :=
  whenSch s <| match s.memc.migs.find? fun m => m.src == src.toNat with
  | none => s
  | some m =>
    if m.chunk < 512 then s else if s.pinned m then s.abandon m else
      let s1 := s.modTen m.tenant fun n => { n with leaves := n.leaves.map fun (l : Leaf) =>
        if l.pa / frameBytes = m.src / frameBytes ∧ l.size ≤ frameBytes then { l with pa := m.dst + l.pa % frameBytes } else l }
      let s2 := { s1 with memc := { s1.memc with
        migs := (s1.memc.migs.filter fun x => x.src != m.src), migDone := s1.memc.migDone + 1 } }
      s2.dropFrame m.tenant (m.src / frameBytes)

/-! ### Segments (spec/04 R97, R98) -/

/-- SCH moves a cluster-buffer segment: its contents are zeroed before the new tag takes effect. -/
def execSegmentRetag (g : Cl) (seg : Fin 96) (tag : Option Fn) (s : State) : Out :=
  whenSch s <|
    let k := s.cl g
    let t : Option Nat := tag.map (·.val)
    if smGet none k.segs seg = t then s
    else
      let lo := cbAddr g (65536 * seg)
      let s1 := s.zero lo 65536
      let s2 := { s1 with infl := s1.infl.filter fun w => !(decide (lo ≤ w.addr) && decide (w.addr < lo + 65536)) }
      s2.setCl g { k with segs := smPut none k.segs seg t }

end Sys2Proof.Machine
end

