-- ==== Sys2Proof/Machine/Weights.lean ====
section
/-! DEFINITION. Gates: the shard manifest, registration, the swap of weights and its layer copies (spec/11 R251-R268,
spec/15 R351). -/

namespace Sys2Proof.Machine

/-! ### The manifest (spec/11 R252, R253) -/

/-- Layer entries; none where a field is out of range. -/
def layerEntries : Nat → List Byte → Option (List Layer)
  | 0, _ => some []
  | n + 1, bs =>
    let va := fieldN bs 0 6
    let len := fieldN bs 6 5
    let w := fieldN bs 11 21
    if va % 65536 ≠ 0 ∨ len = 0 ∨ 11 < w % 16 ∨ w / 1024 ≠ 0 then none
    else (layerEntries n (bs.drop 32)).map ({ va := va, bytes := len, format := w % 16, tset := w / 16 % 64 } :: ·)

/-- A manifest's own fields, none where one breaks spec/11 R252. -/
def parseManifest (bs : List Byte) : Option Manifest :=
  let h := fieldN bs 0 64
  let n := bits h 73 64 + 1
  let shard := bits h 77 74
  let shards := bits h 82 78
  let owner := bits h 92 83
  if bs.length ≠ 64 + 32 * n ∨ h / 2 ^ 93 ≠ 0 ∨ bits h 63 32 = 0 ∨ shards = 0 ∨ 16 < shards ∨ shards ≤ shard
      ∨ (owner = 0) ≠ (shards = 1) then none
  else (layerEntries n (bs.drop 64)).map fun ls =>
    { model := BitVec.ofNat 32 h, epoch := BitVec.ofNat 32 (bits h 63 32), shard := shard, shards := shards
      owner := owner, layers := ls }

def layersOverlap : List Layer → Bool
  | [] => false
  | l :: ls => ls.any (fun m => overlaps l.va l.bytes m.va m.bytes) || layersOverlap ls

/-- The checks of spec/11 R253 on ranges. -/
def State.manifestOk (s : State) (t : Nat) (m : Manifest) : Bool :=
  m.layers.all (fun l => s.mappedAll t l.va l.bytes) && !layersOverlap m.layers

/-- A leaf maps a byte of a layer. -/
def Manifest.covers (m : Manifest) (l : Leaf) : Bool := m.layers.any fun y => overlaps y.va y.bytes l.va l.size

/-- A gate of the tenant space whose layers a leaf maps. -/
def State.gateOver (s : State) (t : Nat) (l : Leaf) : Option (Nat × GateRec) :=
  (s.ten t).gates.findSome? fun e => match e.2 with
    | some r => if r.man.covers l then some (e.1, r) else none
    | none => none

/-- W of a leaf comes back when its lock goes, unless a gate still locks it: that gate restores it then. -/
def State.handOn (s : State) (t : Nat) (l : Leaf) : State :=
  match s.gateOver t l with
  | some (g, r) => if r.wSet.contains l.va then s else s.setGate t g (some { r with wSet := r.wSet ++ [l.va] })
  | none => s

/-! ### Copies in phase MAINT (spec/11 R259, spec/12 R288) -/

/-- SCH's copy takes a CE entry on each of the clusters SCH chooses, a free set of those that serve and have room; none where
there are none. -/
def State.beginMaint (s : State) (m : Maint) : Option State :=
  let ok := fun (g : Nat) => s.serves g && !(s.cl g).full false (.ce 0)
  let l := (List.range 96).filter fun g => ok g && s.free (2 ^ 77 + g) % 2 == 1
  match (if l.isEmpty then (s.pickFree 8 96 ok).toList else l) with
  | [] => none
  | gs => some (gs.foldl (fun (u : State) g => u.modCl g fun k => { k with maint := k.maint ++ [m] }) s).bump

/-- Its CE entries are free. -/
def State.endMaint (s : State) (m : Maint) : State :=
  { s with clusters := smMap {} s.clusters fun _ k => { k with maint := k.maint.filter (· != m) } }

/-! ### Holds (spec/05 R130, spec/11 R259) -/

/-- Instances of a command, those that are ready among them. -/
def State.instsOf (s : State) (c : Cmd) : List Inst :=
  (c.place.filterMap fun g => (s.cl g).instOf c.id) ++ c.insts.map (·.2)

/-- The command uses a gate: some instance has issued a GATE for it. -/
def State.usesGate (s : State) (c : Cmd) (g : Nat) : Bool :=
  (s.instsOf c).any fun i => i.holds.any fun h => h.1 == g

/-- An instance has passed layer l of a gate: it holds a later layer, or its program has ended without a hold on the gate. -/
def Inst.passed (i : Inst) (g l : Nat) : Bool :=
  match i.holds.find? fun h => h.1 == g with
  | some h => decide (l < h.2)
  | none => i.done

/-- A command has passed a layer: it has issued a GATE for a later one, and none of its instances has that GATE before it (spec/11
R259). -/
def State.passed (s : State) (c : Cmd) (g l : Nat) : Bool :=
  (s.instsOf c).all (fun i => i.passed g l) && (s.instsOf c).any fun i => i.holds.any fun h => h.1 == g && decide (l < h.2)

/-- Old commands that hold layer l of a gate or have not passed it, at whichever gate they fixed its epoch (spec/11 R257, R259). -/
def State.oldOn (s : State) (t g : Nat) (e : W32) (l : Nat) : List Cmd :=
  s.cmds.list.filter fun c => c.inFlight && c.fn == t && c.epoch == e && !s.passed c g l

/-! ### Requests about gates -/

/-- GATE_REGISTER (spec/11 R253). -/
def execGateRegister (f : Fn) (cid : BitVec 16) (gt : W64) (param : List Byte) (s : State) : Out :=
  s.request f cid 0 false (.gateRegister f cid gt param) <|
    let g := gt.toNat
    if 63 < g ∨ (s.gate f g).isSome then s.no fInstruction
    else match parseManifest param with
      | none => s.no fInstruction
      | some m =>
        if !s.manifestOk f m then s.no fInstruction
        else
          let w := ((s.ten f).leaves.filter fun l => m.covers l && l.w).map (·.va)
          let lock := fun (l : Leaf) => if m.covers l then { l with pin := true, w := false } else l
          let s1 := s.modTen f fun n => { n with leaves := n.leaves.map lock }
          .done (s1.setGate f g (some { man := m, epoch := m.epoch, wSet := w })) stOk 0

/-- A staging manifest fits the live one (spec/11 R258); `e` is the epoch it replaces. -/
def State.stagingOk (s : State) (t : Nat) (r : GateRec) (e : W32) (m : Manifest) : Bool :=
  s.manifestOk t m && m.epoch == nextEpoch e && m.layers.length == r.man.layers.length && m.shard == r.man.shard
    && m.shards == r.man.shards && m.owner == r.man.owner
    && (m.layers.zip r.man.layers).all fun x => x.1.bytes == x.2.bytes && x.1.format == x.2.format && x.1.tset == x.2.tset

/-- GATE_SWAP (spec/11 R258, R265). A request held behind a running swap describes the epoch after that swap's (log entry
28). -/
def execGateSwap (f : Fn) (cid : BitVec 16) (gt : W64) (param : List Byte) (s : State) : Out :=
  s.request f cid 0 false (.gateSwap f cid gt param) <|
    match (if 63 < gt.toNat then none else s.gate f gt.toNat), parseManifest param with
    | some r, none => s.no (if r.held.isSome then stAborted else fInstruction)
    | some r, some m =>
      let busy := r.state != 0 || r.closing
      if r.held.isSome then s.no stAborted
      else if !s.stagingOk f r (if busy then nextEpoch r.epoch else r.epoch) m then s.no fInstruction
      else if !busy then
        .begun (s.setGate f gt.toNat (some { r with staging := some m, swapCid := cid, closing := true }))
      else .begun (s.setGate f gt.toNat (some { r with held := some (cid, m) }))
    | _, _ => s.no fInstruction

/-- GATE_RESUME (spec/11 R264). -/
def execGateResume (f : Fn) (cid : BitVec 16) (gt : W64) (s : State) : Out :=
  s.request f cid 0 false (.gateResume f cid gt) <|
    match (if 63 < gt.toNat then none else s.gate f gt.toNat) with
    | some r => if r.state = 2 then .done (s.setGate f gt.toNat (some { r with state := 1, attempts := 0 })) stOk 0
                else s.no fInstruction
    | none => s.no fInstruction

/-- A range lies in the trough pool, or in either pool, of a layout. -/
def State.inTroughs (s : State) (t a n : Nat) : Bool :=
  (s.ten t).layouts.any fun e => match e.2 with | some l => overlaps l.troughBase l.troughBytes a n | none => false

/-- A gate goes: PIN cleared and W restored in the leaves that neither another gate nor a layout locks; the swaps it had end
ABORTED. -/
def State.dropGate (s : State) (t g : Nat) (r : GateRec) : State :=
  let s0 := (s.setGate t g none).endMaint (.layer t g)
  let unlock := fun (l : Leaf) =>
    if r.man.covers l && (s0.gateOver t l).isNone then
      { l with pin := s.inTroughs t l.va l.size, w := (l.w || r.wSet.contains l.va) && !s.inPools t l.va l.size } else l
  let s1 := s0.modTen t fun n => { n with leaves := n.leaves.map unlock }
  let s2 := ((s.ten t).leaves.filter fun l => r.man.covers l && r.wSet.contains l.va).foldl (fun (u : State) l => u.handOn t l) s1
  let s3 := if r.state ≠ 0 ∨ r.closing = true then s2.answer t r.swapCid stAborted 0 else s2
  match r.held with
  | some h => s3.answer t h.1 stAborted 0
  | none => s3

/-- GATE_UNREGISTER: held while commands hold its layers. -/
def execGateUnregister (f : Fn) (cid : BitVec 16) (gt : W64) (s : State) : Out :=
  s.request f cid 0 false (.gateUnregister f cid gt) <|
    match (if 63 < gt.toNat then none else s.gate f gt.toNat) with
    | none => s.no fInstruction
    | some r =>
      if s.cmds.list.any fun c => c.inFlight && c.fn == f.val && s.usesGate c gt.toNat then .wait
      else .done (s.dropGate f gt.toNat r) stOk 0

/-! ### The swap (spec/11 R257-R265) -/

/-- The gate closes at a frame boundary. -/
def execGateClose (t : Fn) (gt : Fin 64) (s : State) : Out :=
  whenAlive s <| match s.gate t gt with
  | none => s
  | some r =>
    if !r.closing || r.state != 0 || !s.frameEdge then s
    else s.setGate t gt (some { r with
      state := 1, closing := false, front := 0, swapped := 0, attempts := 0, copying := false, torn := false, since := s.tick })

/-- The copy of the front layer starts once no old command is in its way. -/
def execLayerCopyStart (t : Fn) (gt : Fin 64) (s : State) : Out :=
  whenSch s <| match s.gate t gt with
  | none => s
  | some r =>
    if r.state != 1 || r.copying || !(s.oldOn t gt r.epoch r.front).isEmpty then s
    else match s.beginMaint (.layer t gt) with
      | none => s
      | some u => u.setGate t gt (some { r with copying := true, attempts := r.attempts + 1 })

/-- A copy was killed or failed: the layer holds some of each epoch's bytes, freely, and neither epoch; after the third attempt
the gate stalls. -/
def State.copyFails (s : State) (t g : Nat) (r : GateRec) : State :=
  let l : Layer := r.man.layers.getD r.front { va := 0, bytes := 0, format := 0, tset := 0 }
  let x : Nat := ((r.staging.bind fun m => m.layers[r.front]?).map (·.va)).getD 0
  let ws := (List.range l.bytes).filterMap fun i =>
    if s.free (i + 1) % 2 = 1 then (match s.access t 0 (x + i) true, s.access t 0 (l.va + i) false with
      | .inl a, .inl b => some (b, (0xFF : Byte), s.rd a)
      | _, _ => none) else none
  let s1 := ((s.wrNow ws).bump).endMaint (.layer t g)
  if r.attempts < 3 then s1.setGate t g (some { r with copying := false, torn := true })
  else (s1.setGate t g (some { r with copying := false, torn := true, state := 2 })).notice t 0x03
    (BitVec.ofNat 64 (g + r.front * 65536))

/-- A layer's copy fails or is killed (spec/11 R264). -/
def execLayerCopyFail (t : Fn) (gt : Fin 64) (s : State) : Out :=
  whenSch s <| match s.gate t gt with
  | none => s
  | some r => if r.state != 1 || !r.copying then s else s.copyFails t gt r

/-- A layer's copy commits, or fails where a byte of the staged layer cannot be read or one of the live layer cannot be written; the
last one ends the swap, and a held swap is accepted (spec/11 R259, R264, R265). -/
def execLayerCopyCommit (t : Fn) (gt : Fin 64) (s : State) : Out :=
  whenSch s <| match s.gate t gt with
  | none => s
  | some r =>
    if r.state != 1 || !r.copying then s else
    match r.man.layers[r.front]?, r.staging.bind fun m => m.layers[r.front]? with
    | some l, some x =>
      if s.shutTen t (addrs x.va l.bytes ++ addrs l.va l.bytes) then s else
      let src := s.schRead t x.va l.bytes
      match (if (addrs l.va l.bytes).any fun a => (s.access t 0 a false).isRight then .inr fTier else src.2) with
      | .inr _ => src.1.copyFails t gt r
      | .inl bs =>
        let s1 := (src.1.wrVa t l.va bs).endMaint (.layer t gt)
        let r1 := { r with front := r.front + 1, swapped := r.swapped + 1, copying := false, torn := false, attempts := 0,
                           since := s.tick }
        if r1.swapped < r.man.layers.length then s1.setGate t gt (some r1)
        else
          let e := nextEpoch r.epoch
          let r2 := { r1 with state := 0, epoch := e, man := { r.man with epoch := e, model := (r.staging.map (·.model)).getD r.man.model }, front := 0, swapped := 0, staging := none }
          let r3 := match r.held with
            | some h => { r2 with staging := some h.2, swapCid := h.1, closing := true, held := none }
            | none => r2
          (s1.setGate t gt (some r3)).answer t r.swapCid stOk 0
    | _, _ => s

/-- An old command that has kept the front layer waiting longer than SCH_GATE_HOLD_LIMIT is killed (spec/11 R262). -/
def execGateHoldKill (t : Fn) (gt : Fin 64) (s : State) : Out :=
  whenSch s <| match s.gate t gt with
  | none => s
  | some r =>
    if r.state != 1 || r.copying || decide (s.tick ≤ r.since + s.sched.holdLimit.toNat) then s
    else match (s.oldOn t gt r.epoch r.front).find? fun c => c.st == .running with
      | none => s
      | some c =>
        let s1 := s.killRerun c 5 true
        { s1 with sched := { s1.sched with holdKills := s1.sched.holdKills + 1 } }

end Sys2Proof.Machine
end

