-- ==== Sys2Proof/Machine/Layouts.lean ====
section
/-! DEFINITION. Cache layouts, parking and catch-up flushes, compaction and re-coding of pages (spec/12 R269-R293, spec/13
R299, spec/15 R351). -/

namespace Sys2Proof.Machine

/-! ### Registration (spec/12 R269, R271) -/

/-- A layout record's fields; none where one is out of range. -/
def parseLayout (bs : List Byte) : Option LayoutRec :=
  let n := leNat (bs.take 32)
  let f := bits n 21 18
  if bs.length ≠ 32 ∨ !(f == 1 || f == 2 || f == 3 || f == 4 || f == 8) ∨ bits n 27 22 = 0 ∨ bits n 63 36 ≠ 0
      ∨ bits n 127 112 ≠ 0 ∨ bits n 255 224 ≠ 0 ∨ bits n 111 64 % 0x200000 ≠ 0 ∨ bits n 207 160 % 65536 ≠ 0
      ∨ bits n 159 128 = 0 ∨ bits n 223 208 = 0 then none
  else some {
    layers := bits n 9 0 + 1, heads := bits n 15 10 + 1, dim := 32 * 2 ^ bits n 17 16, format := f, tset := bits n 27 22
    mask := BitVec.ofNat 8 (bits n 35 28), poolBase := bits n 111 64, poolUnits := bits n 159 128
    troughBase := bits n 207 160, troughSlots := bits n 223 208 }

/-- A leaf maps a byte of a range. -/
def Leaf.on (l : Leaf) (a n : Nat) : Bool := overlaps l.va l.size a n

/-- Something of the tenant space names a layout: a context with its merges, or a prefix, one being loaded too. -/
def State.layoutUsed (s : State) (t l : Nat) : Bool :=
  s.serv.ctxs.any (fun e => e.2.state != 0 && e.2.tenant == t && e.2.layout == l)
    || s.serv.pfxs.any (fun p => p.tenant == t && p.layout == l)
    || s.serv.jobs.any (fun j => j.fn == t && j.variantOf == some l)

/-- W, PIN and HINT of the leaves of a layout's pools. -/
def State.lockPools (s : State) (t : Nat) (l : LayoutRec) : State :=
  let on := fun (x : Leaf) =>
    if x.on l.troughBase l.troughBytes then { x with w := false, pin := true, hint := 0 }
    else if x.on l.poolBase l.poolBytes then { x with w := false } else x
  s.modTen t fun n => { n with leaves := n.leaves.map on }

/-- W of the leaves of a layout's pools comes back where neither a gate nor another layout locks them. -/
def State.unlockPools (s : State) (t : Nat) (l : LayoutRec) : State :=
  let mine := fun (x : Leaf) => x.on l.troughBase l.troughBytes || x.on l.poolBase l.poolBytes
  let off := fun (x : Leaf) =>
    if mine x then { x with w := (s.gateOver t x).isNone && !s.inPools t x.va x.size } else x
  ((s.ten t).leaves.filter mine).foldl (fun (u : State) x => u.handOn t x) (s.modTen t fun n => { n with leaves := n.leaves.map off })

/-- LAYOUT_REGISTER; the running histogram starts empty (spec/12 R282, log entry 29). -/
def execLayoutRegister (f : Fn) (cid : BitVec 16) (layout : W64) (param : List Byte) (s : State) : Out :=
  s.request f cid 0 false (.layoutRegister f cid layout param) <|
    let n := layout.toNat
    match parseLayout param with
    | none => s.no fInstruction
    | some l =>
      if 15 < n ∨ (s.tset f l.tset).isNone ∨ s.mappedAll f l.poolBase l.poolBytes = false
          ∨ s.mappedAll f l.troughBase l.troughBytes = false
          ∨ ((s.ten f).leaves.any fun x => x.on l.troughBase l.troughBytes && !isHbm x.pa) = true
          ∨ s.layoutUsed f n = true then s.no fInstruction
      else
        let s1 := match s.layout f n with | some o => (s.setLayout f n none).unlockPools f o | none => s
        let s2 := ({ s1 with serv := { s1.serv with oldRuns := s1.serv.oldRuns.filter fun r => !(r.1 == f.val && r.2.1 == n) } }.lockPools
          f l).setLayout f n (some l)
        .done (s2.wrVa f l.poolBase (leBytes 4 l.format ++ List.replicate (12 + (if fmtFloat l.format then 4 * numSyms l.format else 0)) 0))
          stOk 0

/-- LAYOUT_MASK: the mask applies at the next frame boundary (spec/12 R283). -/
def execLayoutMask (f : Fn) (cid : BitVec 16) (layout mask : W64) (s : State) : Out :=
  s.request f cid 0 false (.layoutMask f cid layout mask) <|
    if 15 < layout.toNat ∨ 255 < mask.toNat then s.no fInstruction
    else match s.layout f layout.toNat with
      | none => s.no fPermission
      | some l => .done (s.setLayout f layout.toNat (some { l with maskNext := some (s.frame + 1, mask.setWidth 8) })) stOk 0

/-! ### SCH's copies -/

/-- SCH's own reads: no cluster, no order with any writer. -/
def schWho (t : Nat) : Who := ⟨t, 0, 0⟩

/-- Writes made by SCH's own copies: applied at once, or the faults met. -/
def State.schWrites (s : State) (t : Nat) (ws : List (Nat × Byte × Byte)) : State × List Byte :=
  let p := s.placeWrites t 0 ws
  (s.wrNow p.1, p.2)

/-- Planes of elements coded into a page: its writes and TUSE (spec/12 R274, spec/08 R201, R202). -/
def State.codePage (s : State) (t : Nat) (l : LayoutRec) (addr size : Nat) (planes : List (List Nat)) :
    List (Nat × Byte × Byte) × BitVec 8 :=
  let per := l.bt * l.dim
  let blocks := planes.zipIdx.flatMap fun x => (List.range (ceilDiv x.1.length per)).map fun j =>
    (l.blockVa addr size x.2 j, (x.1.drop (j * per)).take per)
  let enc := blocks.map fun b => (b.1, match s.tset t l.tset with
    | some ts => (bestRecord l.format ts l.mask.toNat b.2, encodeBest l.format ts l.mask.toNat b.2)
    | none => (none, storedBlock l.format b.2, false))
  (enc.flatMap fun e => byteWrites e.1 (s.lineBytes e.1 e.2.2.1),
   (enc.filterMap fun e => if e.2.2.2 then e.2.1 else none).foldl (fun m i => putBit m i true) 0)

/-- A layout's view of a page as a coded tensor. -/
def LayoutRec.descAt (l : LayoutRec) (addr : Nat) : Desc :=
  { raw := 0, base := addr, fmt := l.format, rank := 1, order := 0, rsv := 0, fill := 0, tset := l.tset, owner := 0
    ext := [1, 1, 1, 1, 1], bnd := [1, 1, 1, 1, 1], str := [0, 0, 0, 0, 0], off := [0, 0, 0, 0, 0] }

/-- The elements of one plane of a page, decoded, and the faults met. -/
def State.readPlane (s : State) (t : Nat) (l : LayoutRec) (p : Page) (plane : Nat) : List Nat × List Byte :=
  let rs := (List.range (ceilDiv p.tokens l.bt)).map fun j =>
    s.readBlock (schWho t) (l.descAt p.addr) (plane * l.u p.size + j)
  (rs.flatMap (·.1), rs.flatMap (·.2))

/-- The bytes of the lines of a page's blocks, plane by plane, by their headers. -/
def State.pageBytes (s : State) (t : Nat) (l : LayoutRec) (p : Page) : List Nat :=
  (List.range l.planes).flatMap fun k => (List.range (ceilDiv p.tokens l.bt)).flatMap fun j =>
    let a := (l.descAt p.addr).slot (k * l.u p.size + j)
    addrs a (max 16 (lineLen (hdrOf (s.readBs (schWho t) (addrs a 16)).1) l.format))

/-! ### Flushes of parking and catching up (spec/12 R280-R282, spec/13 R299) -/

/-- A flush's reads or writes wait at a closed inlet of the loft (spec/10 R248). -/
def State.flushShut (s : State) (l : LayoutRec) (c : Ctx) : Bool :=
  s.memc.rateBusy && s.shutTen c.tenant (l.flushReads c.trough c.places ++ addrs l.poolBase (65536 + l.poolUnits * l.unitBytes))

/-- The settled tokens of a trough written as a page; none where no run is free, the list is full or a copy fails. -/
def State.flushCtx (s : State) (x : Nat) : Option State :=
  let c := s.ctx x
  match s.layout c.tenant c.layout with
  | none => none
  | some l =>
    if 512 ≤ c.pages.length || s.flushShut l c then none
    else match s.takeRun l (l.u 0) with
    | none => none
    | some u =>
      let s := s.pull c.tenant (l.flushReads c.trough c.places)
      let o := s.flushPage (schWho c.tenant) l c.trough u c.places
      let m := s.schWrites c.tenant o.writes
      if !(o.faults ++ m.2).isEmpty then none
      else
        let s1 := (m.1.setLayout c.tenant c.layout (some { l with units := l.units ++ [(u, l.u 0)] })).addHist c.tenant l o.hist
          (c.fill * l.dim * l.planes)
        let pg : Page := { addr := l.unitVa u, pkg := if s.glb.valid then s.glb.index else 0, size := 0, ro := false
                           first := c.len - c.fill, tokens := c.fill, tuse := o.tuse }
        some ({ (s1.setCtx x (c.flushed pg)) with serv := { (s1.setCtx x (c.flushed pg)).serv with
          kvFlushes := s1.serv.kvFlushes + 1 } }.bump)

/-- Why a trough cannot be flushed: the status that says so, none where the flush waits for a run that is being returned
(spec/12 R281) or for the loft's inlets. A status of its reads and writes is that of a request (log entry 73). -/
def State.flushStop (s : State) (x : Nat) : Option Byte :=
  let c := s.ctx x
  match s.layout c.tenant c.layout with
  | none => some fPermission
  | some l =>
    if 512 ≤ c.pages.length then some rQuota
    else if s.flushShut l c then none
    else match s.takeRun l (l.u 0) with
    | none => if l.returningOne then none else some rQuota
    | some u =>
      let o := s.flushPage (schWho c.tenant) l c.trough u c.places
      s.pickFault (o.faults ++ (s.schWrites c.tenant o.writes).2)

/-- A context is parked; none where its trough cannot be flushed (spec/13 R299). -/
def State.parkCtx (s : State) (x : Nat) : Option State :=
  let c := s.ctx x
  match (if c.fill = 0 then some s else s.flushCtx x) with
  | none => none
  | some s1 =>
    let s2 := match s1.layout c.tenant c.layout with
      | some l => s1.setLayout c.tenant c.layout (some { l with slots := l.slots.filter (· != c.trough) })
      | none => s1
    some (s2.modCtx x fun k => { k with state := 3, trough := 0xFFFF, fill := 0, map := 0 })

/-- Contexts whose descriptors are in the cache of 2,048 (spec/13 R296). -/
def State.cached (s : State) : List Nat := (s.serv.ctxs.filter fun e => e.2.state == 1 || e.2.state == 2).map (·.1)

/-- How far a context's last tick lies behind the current tick. -/
def State.idleFor (s : State) (x : Nat) : Int := diff32 (BitVec.ofNat 32 s.tick) (s.ctx x).lastTick

/-- A request that waits names the context (spec/13 R299). -/
def State.reqNames (s : State) (x : Nat) : Bool :=
  (s.fn (s.ctx x).tenant).reqs.any fun r => match r.what with
    | some (.importPages _ _ n _ _) => n.toNat == x
    | some (.registerPrefix _ _ n _) => n.toNat == x
    | some (.cancelContext _ _ n _) => n.toNat == x
    | some (.query _ _ n _) => n.toNat == x
    | _ => false

/-- A PARKED context that a command or a waiting request names (spec/13 R299). -/
def State.parkedNamed (s : State) (x : Nat) : Bool :=
  (s.ctx x).state == 3 && (s.reqNames x || s.cmds.list.any fun k => !k.inFlight && k.batch.contains x)

/-- SCH may park the context: it has been idle too long, or SCH needs a cache entry, the cache is full and it is the oldest
(spec/13 R299). -/
def State.mayPark (s : State) (x : Nat) : Bool :=
  (s.ctx x).state == 1
    && (decide ((s.serv.idleTicks.toNat : Int) < s.idleFor x)
        || (decide (2048 ≤ s.cached.length) && (s.serv.ctxs.any fun e => s.parkedNamed e.1)
            && s.cached.all fun y => (s.ctx y).state != 1 || decide (s.idleFor y ≤ s.idleFor x)))

/-- SCH parks a context. -/
def execContextPark (ctx : Fin 65536) (s : State) : Out :=
  whenSch s <| if s.mayPark ctx then (s.parkCtx ctx).getD s else s

/-- A free trough slot of a layout, by SCH's own choice. -/
def State.freeSlot (s : State) (l : LayoutRec) : Option Nat := s.pickFree 5 l.troughSlots fun i => !l.slots.contains i

/-- A parked context that a command or request names is loaded again (spec/13 R299). -/
def execContextUnpark (ctx : Fin 65536) (s : State) : Out :=
  whenSch s <|
    let c := s.ctx ctx
    if !s.parkedNamed ctx || decide (2048 ≤ s.cached.length) then s
    else match s.layout c.tenant c.layout with
      | none => s
      | some l => match s.freeSlot l with
        | none => s
        | some i => ((s.setLayout c.tenant c.layout (some { l with slots := l.slots ++ [i] })).modCtx ctx fun k =>
            { k with state := 1, trough := i }).bump

/-- An import of the context that waits at the mark. -/
def State.importOf (s : State) (x : Nat) : Option Req :=
  (s.fn (s.ctx x).tenant).reqs.find? fun r => !r.begun && match r.what with
    | some (.importPages _ _ n _ _) => n.toNat == x
    | _ => false

/-- SCH flushes a trough that a commit left at or above its mark; where no run is free and none is being returned, or the list is
full, the command or import that waits is refused. A copy that fails is made again (spec/12 R280, R281, log entry 73). -/
def execCatchupFlush (ctx : Fin 65536) (s : State) : Out :=
  whenSch s <|
    let c := s.ctx ctx
    if c.state != 1 || decide (c.fill < c.mark) then s
    else match s.flushCtx ctx with
      | some t => t
      | none =>
        if s.flushStop ctx != some rQuota then s
        else match s.heads.find? fun k => k.batch.contains ctx.val with
          | some k => s.refuseCmd k rQuota
          | none => match s.importOf ctx with
            | some r => s.answer c.tenant r.cid rQuota 0
            | none => s

/-! ### Compaction (spec/12 R288, R289) -/

/-- Two neighbouring pages of a context that may be merged. -/
def State.mergePair (s : State) (x i : Nat) : Option (Page × Page) :=
  let c := s.ctx x
  let own := if s.glb.valid then s.glb.index else 0
  match c.pages[i]?, c.pages[i + 1]? with
  | some p, some q =>
    if p.size == q.size && decide (p.size + 1 ≤ min 8 s.serv.compactMax) && p.pkg == own && q.pkg == own && !p.ro && !q.ro then
      some (p, q) else none
  | _, _ => none

/-- A command in flight will flush the context, or still may: it has prepared a page, or its program holds a KVF, an instance
of it goes on, and its candidates can fill the trough to the mark (log entry 74). -/
def State.flushesCtx (s : State) (x : Nat) : Bool :=
  let k := s.ctx x
  s.cmds.list.any fun c => c.inFlight && c.batch.contains x
    && (((s.instsOf c).flatMap (·.flushes)).any (fun f => !f.void && c.batch.getD f.slot 65536 == x)
      || (decide (k.mark ≤ k.fill + k.candMax) && (s.instsOf c).any (fun i => !i.done)
        && (smGet [] (s.ten c.fn).progs c.program).any fun w => opOf w == 0x36))

/-- SCH starts a merge. -/
def execMergeStart (ctx : Fin 65536) (i : Nat) (s : State) : Out :=
  whenSch s <|
    let c := s.ctx ctx
    if c.state == 0 || c.state == 4 || !s.serv.compactEnable || decide (s.serv.compactStreams ≤ s.serv.merges.length)
        || s.flushesCtx ctx || (s.serv.merges.any fun m => m.ctx == ctx.val && (m.idx == i || m.idx + 1 == i || m.idx == i + 1)) then s
    else match s.mergePair ctx i, s.layout c.tenant c.layout with
      | some (p, _), some l =>
        let u := l.u (p.size + 1)
        (match s.takeRun l u with
        | none => s
        | some r =>
          match (s.setLayout c.tenant c.layout (some { l with units := l.units ++ [(r, u)] })).bump.beginMaint (.merge ctx r) with
          | none => s
          | some s1 =>
            let m : Merge := { ctx := ctx, idx := i, unit := r, units := u, seq := s.cmds.nextSeq }
            { s1 with serv := { s1.serv with merges := s1.serv.merges ++ [m] } })
      | _, _ => s

/-- The unit number of a page. -/
def LayoutRec.unitOf (l : LayoutRec) (addr : Nat) : Nat := (addr - (l.poolBase + 65536)) / l.unitBytes

/-- A merge ends: its CE entries are free, and it is no longer under way. -/
def State.endMerge (s : State) (m : Merge) : State :=
  let u := s.endMaint (.merge m.ctx m.unit)
  { u with serv := { u.serv with merges := u.serv.merges.erase m } }

/-- A merge whose copy is killed changes nothing, and its units return (spec/12 R289). -/
def State.killMerge (s : State) (m : Merge) : State :=
  (s.endMerge m).freeRuns (s.ctx m.ctx).tenant (s.ctx m.ctx).layout [(m.unit, m.units)]

/-- SCH's copies on the clusters that satisfy p are killed: a layer is copied again or its gate stalls, a merge changes nothing
(spec/11 R264, spec/12 R289). -/
def State.killMaint (s : State) (p : Nat → Bool) : State :=
  ((((List.range 96).filter p).flatMap fun g => (s.cl g).maint).eraseDups).foldl (fun (u : State) m => match m with
    | .layer t g => (match u.gate t g with
      | some r => if r.state = 1 ∧ r.copying = true then u.copyFails t g r else u.endMaint m
      | none => u.endMaint m)
    | .merge x n => match u.serv.merges.find? fun y => y.ctx == x && y.unit == n with
      | some y => u.killMerge y
      | none => u.endMaint m) s

/-- A merge's last copy commits, or the merge changes nothing where a copy fails. -/
def execMergeEffect (ctx : Fin 65536) (s : State) : Out :=
  whenSch s <|
    let c := s.ctx ctx
    match s.serv.merges.find? fun m => m.ctx == ctx.val with
    | none => s
    | some m =>
      match s.mergePair ctx m.idx, s.layout c.tenant c.layout with
      | some (p, q), some l =>
        let as := s.pageBytes c.tenant l p ++ s.pageBytes c.tenant l q
        if s.shutTen c.tenant (as ++ addrs (l.unitVa m.unit) (m.units * l.unitBytes)) then s else
        let s := s.pull c.tenant as
        let s0 := s.endMerge m
        let pl := (List.range l.planes).map fun k => (s.readPlane c.tenant l p k, s.readPlane c.tenant l q k)
        let w := s.codePage c.tenant l (l.unitVa m.unit) (p.size + 1) (pl.map fun x => x.1.1 ++ x.2.1)
        let r := s0.schWrites c.tenant w.1
        if !(pl.flatMap (fun x => x.1.2 ++ x.2.2) ++ r.2).isEmpty then
          ((s0.logged c.tenant as (pl.flatMap fun x => x.1.2 ++ x.2.2)).freeRuns c.tenant c.layout [(m.unit, m.units)]).bump
        else
          let n : Page := { p with addr := l.unitVa m.unit, size := p.size + 1, tokens := p.tokens + q.tokens, tuse := w.2 }
          let s1 := r.1.stamp
          let old := [p, q].map fun y => (c.tenant, c.layout, l.unitOf y.addr, l.u y.size, s1.cmds.nextSeq)
          let shift := fun (x : Merge) => if x.ctx = m.ctx ∧ m.idx < x.idx then { x with idx := x.idx - 1 } else x
          let s2 := s1.setCtx ctx { c with pages := c.pages.take m.idx ++ n :: c.pages.drop (m.idx + 2) }
          ({ s2 with serv := { s2.serv with
              merges := s2.serv.merges.map shift
              oldRuns := s2.serv.oldRuns ++ old
              kvMerges := s2.serv.kvMerges + 1 } }.bump).reap
      | _, _ => (s.endMerge m).freeRuns c.tenant c.layout [(m.unit, m.units)]

/-! ### Re-coding (spec/12 R283, spec/15 R351) -/

/-- A page of a layout on this package that uses a record: of a context, then of a prefix. -/
def State.recodePage (s : State) (t n k : Nat) : Option Page :=
  let own := if s.glb.valid then s.glb.index else 0
  let uses := fun (p : Page) => p.pkg == own && p.tuse.getLsbD k
  let cs := (s.serv.ctxs.filter fun e => e.2.tenant == t && e.2.layout == n && e.2.state != 0).flatMap fun e => e.2.pages
  let ps := (s.serv.pfxs.filter fun p => p.tenant == t && p.layout == n).flatMap (·.pages)
  (cs ++ ps).find? uses

/-- Every page-list entry that shows a page shows another in its place. -/
def State.replacePage (s : State) (t n : Nat) (old : Page) (addr : Nat) (tuse : BitVec 8) : State :=
  let swap := fun (p : Page) => if p.addr = old.addr ∧ p.pkg = old.pkg then { p with addr := addr, tuse := tuse } else p
  { s with serv := { s.serv with
      ctxs := smMap {} s.serv.ctxs fun _ c => if c.tenant = t ∧ c.layout = n then { c with pages := c.pages.map swap } else c
      pfxs := s.serv.pfxs.map fun p => if p.tenant = t ∧ p.layout = n then { p with pages := p.pages.map swap } else p } }

/-- LAYOUT_RECODE: SCH re-codes page by page; with none to re-code it is done at once. -/
def execLayoutRecode (f : Fn) (cid : BitVec 16) (layout record : W64) (s : State) : Out :=
  s.request f cid 4 false (.layoutRecode f cid layout record) <|
    if 15 < layout.toNat ∨ 7 < record.toNat then s.no fInstruction
    else match s.layout f layout.toNat with
      | none => s.no fPermission
      | some _ => if (s.recodePage f layout.toNat record.toNat).isNone then .done s stOk 0 else .begun s

/-- One page of a re-coding: decoded, coded against TABLE_MASK into a new run, and its entries replaced; the request is
answered when no page uses the record. -/
def execPageRecodeEffect (f : Fn) (cid : BitVec 16) (s : State) : Out :=
  whenSch s <| match ((s.fn f).reqs.find? fun r => r.cid == cid && r.begun).bind (·.what) with
  | some (.layoutRecode _ _ layout record) =>
    let n := layout.toNat
    match s.layout f n, s.recodePage f n record.toNat with
    | some l, some p =>
      (match s.takeRun l (l.u p.size) with
      | none => s
      | some u =>
        let as := s.pageBytes f l p
        if s.shutTen f (as ++ addrs (l.unitVa u) (l.u p.size * l.unitBytes)) then s else
        let s := s.pull f as
        let pl := (List.range l.planes).map fun k => s.readPlane f l p k
        let w := s.codePage f l (l.unitVa u) p.size (pl.map (·.1))
        let r := s.schWrites f w.1
        if !((pl.flatMap (·.2)) ++ r.2).isEmpty then s.logged f as (pl.flatMap (·.2))
        else
          let s1 := (r.1.stamp.setLayout f n (some { l with units := l.units ++ [(u, l.u p.size)] })).replacePage f n p (l.unitVa u) w.2
          let swap := fun (x : Pfx) => if x.tenant = f.val ∧ x.layout = n then
            { x with own := x.own.map fun o => if o = (l.unitOf p.addr, l.u p.size) then (u, l.u p.size) else o } else x
          let s2 := { s1 with serv := { s1.serv with
            pfxs := s1.serv.pfxs.map swap
            oldRuns := s1.serv.oldRuns ++ [(f.val, n, l.unitOf p.addr, l.u p.size, s1.cmds.nextSeq)] } }.bump
          let s3 := if (s2.recodePage f n record.toNat).isNone then s2.answer f cid stOk 0 else s2
          s3.reap)
    | _, _ => s.answer f cid stOk 0
  | _ => s

end Sys2Proof.Machine
end

