-- ==== Sys2Proof/Machine/Serving.lean ====
section
/-! DEFINITION. Serving requests: contexts, prompts, prefixes and accounts (spec/13 R294-R315, R485, spec/15 R351). -/

namespace Sys2Proof.Machine

/-! ### Handles and references (spec/13 R309, R310) -/

/-- A prefix handle (spec/13 R310). -/
def Pfx.handle (p : Pfx) (gen : W32) : W64 :=
  BitVec.ofNat 64 (p.tenant + (if p.variantKind then 64 else 0) + p.layout * 256 + p.serial * 4096 + gen.toNat * 2 ^ 32)

/-- The registered prefix that a handle of tenant space t names, retired ones included only where `old` holds. -/
def State.pfxOf (s : State) (t : Nat) (h : W64) (old : Bool) : Option Pfx :=
  s.serv.pfxs.find? fun p => p.tenant == t && p.handle s.serv.gen == h && (old || !p.retired)

/-- A page belongs to a prefix's own units. -/
def State.ownsPage (s : State) (x : Pfx) (p : Page) : Bool :=
  match s.layout x.tenant x.layout with
  | some l => x.own.any fun o => l.unitVa o.1 == p.addr && p.pkg == (if s.glb.valid then s.glb.index else 0)
  | none => false

/-- A prefix is in use (spec/13 R309): a context that is not FREE, a later prefix or a mirror refers to it. Both refer to a prefix
also by a page of it in their list (log entry 30). -/
def State.pfxUsed (s : State) (x : Pfx) : Bool :=
  let h := x.handle s.serv.gen
  x.mirrors != 0
    || s.serv.ctxs.any (fun e => e.2.state != 0 && e.2.tenant == x.tenant
        && (e.2.variant == h || e.2.client == h || e.2.pages.any (fun p => p.ro && s.ownsPage x p)))
    || s.serv.pfxs.any fun y => y.serial != x.serial && y.tenant == x.tenant
        && (y.onVariant == h || y.onClient == h || y.pages.any (s.ownsPage x))

/-- Prefixes retired and not in use return their units; one pass. A mirror given up is told to its owner. -/
def State.sweepOnce (s : State) : State :=
  match s.serv.pfxs.find? fun p => p.retired && !s.pfxUsed p with
  | none => s
  | some p =>
    let s1 := { s with serv := { s.serv with pfxs := s.serv.pfxs.filter fun q => q.serial != p.serial } }
    let s2 := s1.freeRuns p.tenant p.layout p.own
    match p.mirrorOf with
    | some (q, h) => s2.send (.mirror q h false)
    | none => s2

def State.sweepPfx (s : State) : Nat → State
  | 0 => s
  | n + 1 => s.sweepOnce.sweepPfx n

/-! ### Accounts (spec/13 R303, R304) -/

/-- The tenant space an account belongs to: until it has been cleared and no context of that tenant space names it. -/
def State.acctOwner (s : State) (a : Nat) : Option Nat :=
  match (s.acct a).owner with
  | none => none
  | some t =>
    if (s.acct a).valid || s.serv.ctxs.any (fun e => e.2.state != 0 && e.2.tenant == t && e.2.account == a) then some t else none

/-- Commands and imports that a cleared account has held are taken at the first tick boundary after it is set again, after this
beat's (spec/13 R304). -/
def State.holdOver (s : State) (a : Nat) : State :=
    let mine := fun (x : Nat) => (s.ctx x).account == a
    let late := fun (c : Cmd) => if !c.inFlight && c.batch.any mine then { c with hold := s.tick + 1 } else c
    let t := { s with cmds := { s.cmds with list := s.cmds.list.map late } }
    (List.range 64).foldl (fun (u : State) f => if (u.fn f).reqs.isEmpty then u else u.modFn f fun b => { b with reqs := b.reqs.map fun r =>
      match r.what with
      | some (.importPages _ _ x _ _) => if !r.begun && mine x.toNat then { r with hold := s.tick + 1 } else r
      | _ => r }) t

/-- An account is set or cleared. -/
def State.putAcct (s : State) (f a rate cap weight : Nat) (clear : Bool) : State :=
  let x := s.acct a
  if clear then s.setAcct a { x with valid := false }
  else (if x.valid then s else s.holdOver a).setAcct a { x with
    valid := true, owner := some f, rate := rate, cap := cap, weight := weight
    balance := if s.acctOwner a = none then (cap : Int) else min x.balance cap }

/-- A policy write applied (spec/02 R42). -/
def State.applyPolicy (s : State) (p : Policy) : State :=
  match p with
  | .share t w => s.modTen t fun n => { n with weight := w }
  | .cap f c => { s with sched := { s.sched with express := smMod {} s.sched.express f fun x => { x with cap := c } } }
  | .account f a r c w clear => s.putAcct f a r c w clear

/-- The state with every account as SCH has written it. -/
def State.acctsAhead (s : State) : State := s.sched.writes.foldl (fun u e => match e.2 with
  | .account f a r c w clear => u.putAcct f a r c w clear
  | _ => u) s

/-! ### OPEN (spec/13 R296, R297, R305, R485) -/

/-- The OPEN context with the oldest LAST_TICK. -/
def State.oldestOpen (s : State) : Option Nat :=
  (s.serv.ctxs.filter fun e => e.2.state == 1).foldl (fun m e => match m with
    | some y => if s.idleFor y < s.idleFor e.1 then some e.1 else some y
    | none => some e.1) none

/-- A cache entry is had, by parking the oldest OPEN context where the cache is full (spec/13 R299). -/
def State.cacheEntry (s : State) : Option State :=
  if s.cached.length < 2048 then some s
  else match s.oldestOpen with
    | some x => s.parkCtx x
    | none => none

/-- An account is set and belongs to the tenant space; SCH knows what it has written. -/
def State.acctOk (s : State) (t a : Nat) : Bool := (s.acctsAhead.acct a).valid && (s.acctsAhead.acct a).owner == some t

/-- The pages and tokens a context opens with: those of its client prefix, which begin with its variant's, or its variant's;
a status where a handle is refused (spec/13 R297, R305, R310). -/
def State.openPages (s : State) (t lay : Nat) (variant client : W64) : (List Page × Nat) ⊕ Byte :=
  let v := if variant = 0 then none else s.pfxOf t variant false
  let c := if client = 0 then none else s.pfxOf t client false
  if (variant ≠ 0 ∧ (match v with | some p => p.variantKind | none => false) = false)
      ∨ (client ≠ 0 ∧ (match c with | some p => !p.variantKind | none => false) = false) then .inr fPermission
  else match c, v with
    | some p, _ => if p.layout ≠ lay ∨ p.onVariant ≠ variant then .inr fInstruction else .inl (p.pages, p.tokens)
    | none, some p => if p.layout ≠ lay then .inr fInstruction else .inl (p.pages, p.tokens)
    | none, none => .inl ([], 0)

/-- OPEN. PLIST, which the spec leaves to SCH, is a free address in the reserve. -/
def execOpenContext (f : Fn) (cid : BitVec 16) (acct lay maxLen variant client tag : W64) (s : State) : Out :=
  s.request f cid 0 false (.openContext f cid acct lay maxLen variant client tag) <|
    let a := acct.toNat
    let l := bits lay.toNat 3 0
    let cand := bits lay.toNat 12 8
    if 4095 < a ∨ lay.toNat / 2 ^ 13 ≠ 0 ∨ bits lay.toNat 7 4 ≠ 0 ∨ cand = 0 ∨ 16 < cand then s.no fInstruction
    else if !s.acctOk f a then s.no fPermission
    else match s.layout f l with
      | none => s.no fPermission
      | some _ => match s.openPages f l variant client with
        | .inr e => s.no e
        | .inl (pages, n) =>
          if maxLen.toNat ≤ n ∨ 1048576 < maxLen.toNat then s.no fInstruction
          else if (s.ten f).ctxQuota ≤ s.ctxCount f then s.no rQuota
          else match s.cacheEntry with
            | none => (match s.oldestOpen.map s.flushStop with
              | some none => .wait
              | _ => s.no rQuota)
            | some s1 => match s1.layout f l, s1.pickFree 6 65536 fun x => (s1.ctx x).state == 0 with
              | some r, some x => (match s1.freeSlot r with
                | none => s.no rQuota
                | some i =>
                  let c : Ctx := { state := 1, tenant := f, account := a, layout := l, trough := i, candMax := cand, len := n
                                   plist := hbmReserve + 8192 * (s1.free 7 % 524288), pages := pages.map fun (p : Page) => { p with ro := true }
                                   maxLen := maxLen.toNat, pfxLen := n, variant := variant, client := client
                                   lastTick := BitVec.ofNat 32 s.tick, tag := tag }
                  .done ((((s1.setLayout f l (some { r with slots := r.slots ++ [i] })).setCtx x c)).bump) stOk (BitVec.ofNat 64 x))
              | _, _ => s.no rQuota

/-! ### CLOSE, PARK, CANCEL, QUERY -/

/-- The context a request names; a status where it is refused (spec/13 R297). -/
def State.reqCtx (s : State) (t : Nat) (n : W64) : Nat ⊕ Byte :=
  if 65536 ≤ n.toNat then .inr fInstruction
  else
    let c := s.ctx n.toNat
    if c.state = 0 ∨ c.tenant ≠ t then .inr fPermission else .inl n.toNat

/-- CLOSE: held while RUNNING. -/
def execCloseContext (f : Fn) (cid : BitVec 16) (ctx : W64) (s : State) : Out :=
  s.request f cid 0 false (.closeContext f cid ctx) <|
    match s.reqCtx f ctx with
    | .inr e => s.no e
    | .inl x => if (s.ctx x).state = 2 then .wait else .done (s.modCtx x fun k => { k with state := 4 }) stOk 0

/-- PARK: held while RUNNING; a PARKED context is left as it is; a CLOSING one is no longer one to park. -/
def execParkContext (f : Fn) (cid : BitVec 16) (ctx : W64) (s : State) : Out :=
  s.request f cid 0 false (.parkContext f cid ctx) <|
    match s.reqCtx f ctx with
    | .inr e => s.no e
    | .inl x => match (s.ctx x).state with
      | 1 => (match s.parkCtx x with
        | some t => .done t stOk 0
        | none => (match s.flushStop x with | none => .wait | some e => s.no e))
      | 2 => .wait
      | 3 => .done s stOk 0
      | _ => s.no fPermission

/-- Cancels a context in a command in flight: its commit drops the output, or the command is killed. -/
def State.cancelRun (s : State) (x : Nat) (now : Bool) (c : Cmd) : State :=
  let l := if c.cancelled.contains x then c.cancelled else c.cancelled ++ [x]
  if now && c.batch.all l.contains then s.killEnd c stAborted true else s.setCmd { c with cancelled := l }

/-- Cancels a context in one command (spec/13 R313). -/
def State.cancelIn (s : State) (x : Nat) (now : Bool) (cid : BitVec 16) (c : Cmd) : State :=
  match c.st with
  | .queued | .draining => s.dropQueued c stAborted
  | .ready => if c.gangSize ≠ 0 then s.setCmd { c with heldCancels := c.heldCancels ++ [cid] }
    else if s.standing c then s else s.cancelRun x now c
  | .running => s.cancelRun x now c

/-- CANCEL: a class 5 event that acts as it is latched; it is answered once a PARKED context is loaded (spec/13 R299, R313). Answered ALREADY_DONE where a commit was latched
first; a ready gang member holds it. -/
def execCancelContext (f : Fn) (cid : BitVec 16) (ctx flags : W64) (s : State) : Out :=
  s.request f cid 0 false (.cancelContext f cid ctx flags) <|
    match s.reqCtx f ctx with
    | .inr e => s.no e
    | .inl x =>
      if 1 < flags.toNat then s.no fInstruction
      else if (s.fn f).reqs.any (fun r => r.cid == cid && r.latched) = true then
        (if (s.ctx x).state = 3 then .wait else .done s stOk 0)
      else
        let hit := s.cmds.list.filter fun c => c.batch.contains x
        let s1 := s.stamp
        let s2 := hit.foldl (fun s c => s.cancelIn x (flags == 1) cid c)
          (s1.modCtx x fun k => { k with cancelSeq := s1.cmds.nextSeq })
        if (s.ctx x).state = 3 then .held (s2.modFn f fun b => { b with reqs := b.reqs.map fun r =>
          if r.cid == cid then { r with latched := true } else r })
        else if hit.any fun c => c.st == .ready && c.gangSize != 0 then .begun s2
        else .done s2 (if hit.any fun c => c.st == .ready && s.standing c then stAlreadyDone else stOk) 0

/-- The 256 bytes of a descriptor (spec/13 R294). -/
def Ctx.bytes (c : Ctx) : List Byte :=
  let w0 := c.state + (b2n c.stopped) * 8 + c.tenant * 2 ^ 8 + c.account * 2 ^ 16 + c.layout * 2 ^ 28 + c.trough * 2 ^ 32
    + c.candMax * 2 ^ 48 + c.fill * 2 ^ 53
  [w0, c.map.toNat, c.len + c.pages.length * 2 ^ 32, c.plist, c.epoch.toNat, c.maxLen + c.pfxLen * 2 ^ 21, c.variant.toNat,
   c.client.toNat, c.lastTick.toNat + c.steps.toNat * 2 ^ 32, c.charged.toNat, c.tag.toNat].flatMap (leBytes 8)
    ++ List.replicate 168 0

/-- QUERY: a PARKED context is loaded first (spec/13 R299). -/
def execQuery (f : Fn) (cid : BitVec 16) (ctx host : W64) (s : State) : Out :=
  s.request f cid 0 false (.query f cid ctx host) <|
    match s.reqCtx f ctx with
    | .inr e => s.no e
    | .inl x =>
      if (s.ctx x).state = 3 then .wait
      else .done { s with hostMem := memPuts s.hostMem host.toNat (s.ctx x).bytes } stOk 0

/-! ### Prompt pages (spec/13 R302, R307) -/

/-- The entries of a prompt page list as (size, tokens); none where one breaks its ranges. -/
def promptPages : Nat → List Byte → Option (List (Nat × Nat))
  | 0, _ => some []
  | n + 1, bs =>
    let e := fieldN bs 0 16
    let size := bits e 3 0
    let tokens := bits e 20 8
    if 8 < size ∨ bits e 7 4 ≠ 0 ∨ tokens = 0 ∨ 16 * 2 ^ size < tokens ∨ e / 2 ^ 21 ≠ 0 then none
    else (promptPages n (bs.drop 16)).map ((size, tokens) :: ·)

/-- Runs taken for pages, in order; none where one is not had. -/
def takeRuns (s : State) (t n : Nat) : List (Nat × Nat) → Option (State × List (Nat × Nat))
  | [] => some (s, [])
  | p :: ps => match s.layout t n with
    | none => none
    | some l => match s.takeRun l (l.u p.1) with
      | none => none
      | some r => match takeRuns (s.setLayout t n (some { l with units := l.units ++ [(r, l.u p.1)] })).bump t n ps with
        | none => none
        | some (s1, rs) => some (s1, (r, l.u p.1) :: rs)

/-- What a request to copy pages in begins: refused, or a job with its runs and its pages. -/
def State.beginCopy (s : State) (f : Nat) (cid : BitVec 16) (lay : Nat) (va count : W64) (room first : Nat)
    (variantOf : Option Nat) (ctx : Nat) : ReqOut :=
  let n := count.toNat
  if va.toNat % 4096 ≠ 0 ∨ 2 ^ 48 ≤ va.toNat ∨ n = 0 ∨ 64 < n then s.no fInstruction
  else match s.layout f lay with
    | none => s.no fPermission
    | some l => let rd := s.schRead f va.toNat (16 * n)
      let s := rd.1
      match rd.2 with
      | .inr e => s.no e
      | .inl bs => match promptPages n bs with
        | none => s.no fInstruction
        | some ps =>
          if room < n then s.no rQuota
          else match takeRuns s f lay ps with
            | none => if l.returningOne then .wait else s.no rQuota
            | some (s1, rs) =>
              let firsts := ps.zipIdx.map fun x => first + sumN ((ps.take x.2).map (·.2))
              let pages := (ps.zip (rs.zip firsts)).map fun x =>
                ({ addr := l.unitVa x.2.1.1, pkg := if s.glb.valid then s.glb.index else 0, size := x.1.1, ro := false
                   first := x.2.2, tokens := x.1.2, tuse := 0 } : Page)
              .begun { s1 with serv := { s1.serv with jobs := s1.serv.jobs ++
                [{ fn := f, cid := cid, variantOf := variantOf, ctx := ctx, pages := pages, runs := rs }] } }

/-- A request that its account held waits for its tick boundary (spec/13 R304). -/
def State.reqHeld (s : State) (f : Nat) (cid : BitVec 16) : Bool :=
  (s.fn f).reqs.any fun r => r.cid == cid && decide (s.tick < r.hold)

/-- IMPORT: held while the context is RUNNING or PARKED and while its account holds it (R304). -/
def execImportPages (f : Fn) (cid : BitVec 16) (ctx va count : W64) (s : State) : Out :=
  s.request f cid 0 false (.importPages f cid ctx va count) <|
    match s.reqCtx f ctx with
    | .inr e => s.no e
    | .inl x =>
      let c := s.ctx x
      let a := s.acct c.account
      if c.state = 4 then s.no fPermission
      else if c.state ≠ 1 ∨ !a.valid ∨ a.balance ≤ 0 ∨ s.reqHeld f cid = true then .wait
      else if c.mark ≤ c.fill then .wait
      else if c.fill ≠ 0 then s.no fInstruction
      else match s.beginCopy f cid c.layout va count (512 - c.pages.length) c.len none x with
        | .begun t =>
          let k := sumN (((t.serv.jobs.filter fun j => j.cid == cid && j.fn == f.val).flatMap (·.pages)).map (·.tokens))
          if c.maxLen < c.len + k then s.no rQuota else .begun (t.modCtx x fun k => { k with state := 2 })
        | r => r

/-- No further prefix can be registered: 8,192 are (spec/13 R309), or the generation's 2²⁰ serials are used up (R310). -/
def State.pfxFull (s : State) : Bool := decide (8192 ≤ s.serv.pfxs.length) || decide (2 ^ 20 ≤ s.serv.nextSerial)

/-- LOAD_VARIANT: as IMPORT, into units a new variant prefix will own. -/
def execLoadVariant (f : Fn) (cid : BitVec 16) (layout va count : W64) (s : State) : Out :=
  s.request f cid 0 false (.loadVariant f cid layout va count) <|
    if 15 < layout.toNat then s.no fInstruction
    else if s.pfxFull then s.no rQuota
    else s.beginCopy f cid layout.toNat va count 512 0 (some layout.toNat) 65536

/-- No address lies in a segment of another tenant space's tag (spec/01 R14, spec/04 R97). -/
def State.mayRead (s : State) (t : Nat) (as : List Nat) : Bool :=
  as.all fun a => !isWindow a || (match s.access t 0 a true with | .inl pa => s.tagged t a pa | .inr _ => true)

/-- The blocks of a job copied verbatim into its runs: the writes' state, each page's TUSE, and the faults met (R302,
spec/08 R204). -/
def State.copyPages (s : State) (f : Nat) (l : LayoutRec) : Nat → List Page → State × List Page × List Byte
  | _, [] => (s, [], [])
  | src, p :: ps =>
    let w := schWho f
    let bs := (List.range l.planes).flatMap fun pl => (List.range (ceilDiv p.tokens l.bt)).map fun j =>
      let a := src + (pl * l.u p.size + j) * pitchOf l.format
      let h := s.readBs w (addrs a 16)
      let hd := hdrOf h.1
      let r := if h.2.isEmpty then s.readBs w (addrs a (lineLen hd l.format)) else ([], h.2)
      (byteWrites (l.blockVa p.addr p.size pl j) r.1, (if hd.kind = 0 then some hd.table else none),
       onFault (!s.mayRead f (addrs a (pitchOf l.format))) fPermission ++ r.2, addrs a (max 16 (lineLen hd l.format)))
    let as := bs.flatMap (·.2.2.2)
    let m := ((s.pull f as).logged f as (bs.flatMap (·.2.2.1))).schWrites f (bs.flatMap (·.1))
    let r := m.1.copyPages f l (src + l.u p.size * l.unitBytes) ps
    (r.1, { p with tuse := (bs.filterMap fun b => b.2.1).foldl (fun v i => putBit v i true) 0 } :: r.2.1,
     bs.flatMap (fun b => b.2.2.1) ++ m.2 ++ r.2.2)

/-- The job of a request. -/
def State.jobOf (s : State) (f : Nat) (cid : BitVec 16) : Option CopyJob :=
  s.serv.jobs.find? fun j => j.fn == f && j.cid == cid

/-- A loft inlet that a job's copies need is closed: they wait (spec/10 R248). -/
def State.jobShut (s : State) (f : Nat) (l : LayoutRec) (j : CopyJob) (va : Nat) : Bool :=
  s.memc.rateBusy && s.shutTen f (addrs va (4096 + sumN (j.pages.map fun p => l.u p.size * l.unitBytes))
    ++ j.pages.flatMap fun p => addrs p.addr (l.u p.size * l.unitBytes))

def State.dropJob (s : State) (j : CopyJob) : State := { s with serv := { s.serv with jobs := s.serv.jobs.erase j } }

/-- An import takes effect at the beat after its last copy, or fails and changes nothing. -/
def execImportEffect (f : Fn) (cid : BitVec 16) (s : State) : Out :=
  whenSch s <| match s.jobOf f cid, ((s.fn f).reqs.find? fun r => r.cid == cid && r.begun).bind (·.what) with
  | some j, some (.importPages _ _ _ va _) =>
    let c := s.ctx j.ctx
    (match j.variantOf, s.layout f c.layout with
    | none, some l =>
      if s.jobShut f l j va.toNat then s else
      let r := s.copyPages f l (va.toNat + 4096) j.pages
      (match s.pickFault r.2.2 with
      | some e => ((((s.dropJob j).freeRuns f c.layout j.runs).answer f cid e 0).ctxIdle j.ctx).bump
      | none =>
        let n := sumN (j.pages.map (·.tokens))
        let s1 := (r.1.dropJob j).setCtx j.ctx { c with
          pages := c.pages ++ r.2.1, len := c.len + n, lastTick := BitVec.ofNat 32 s.tick, charged := c.charged + BitVec.ofNat 64 n }
        let s2 := s1.setAcct c.account ((s1.acct c.account).charge n true)
        (((s2.answer f cid stOk 0).ctxIdle j.ctx)).bump)
    | _, _ => s)
  | _, _ => s

/-- A variant's pages are in: the prefix is registered and its handle returned, or nothing changes. -/
def execVariantLoadEffect (f : Fn) (cid : BitVec 16) (s : State) : Out :=
  whenSch s <| match s.jobOf f cid, ((s.fn f).reqs.find? fun r => r.cid == cid && r.begun).bind (·.what) with
  | some j, some (.loadVariant _ _ _ va _) =>
    (match j.variantOf with
    | none => s
    | some n => match s.layout f n with
      | none => s
      | some l =>
        if s.jobShut f l j va.toNat then s else
        let r := s.copyPages f l (va.toNat + 4096) j.pages
        (match s.pickFault r.2.2 with
        | some e => (((s.dropJob j).freeRuns f n j.runs).answer f cid e 0).bump
        | none =>
          if s.pfxFull then (((s.dropJob j).freeRuns f n j.runs).answer f cid rQuota 0).bump else
          let p : Pfx := { tenant := f, variantKind := true, layout := n, serial := s.serv.nextSerial
                           pages := r.2.1.map fun (q : Page) => { q with ro := true }
                           tokens := sumN (j.pages.map (·.tokens)), onVariant := 0, onClient := 0, retired := false, mirrors := 0
                           own := j.runs }
          let s1 := r.1.dropJob j
          let s2 := { s1 with serv := { s1.serv with pfxs := s1.serv.pfxs ++ [p], nextSerial := s1.serv.nextSerial + 1 } }
          (s2.answer f cid stOk (p.handle s.serv.gen)).bump))
  | _, _ => s

/-! ### Prefixes (spec/13 R305-R310) -/

/-- REGISTER_PREFIX: held while RUNNING or PARKED. -/
def execRegisterPrefix (f : Fn) (cid : BitVec 16) (ctx len : W64) (s : State) : Out :=
  s.request f cid 0 false (.registerPrefix f cid ctx len) <|
    match s.reqCtx f ctx with
    | .inr e => s.no e
    | .inl x =>
      let c := s.ctx x
      let t := len.toNat
      if c.state = 4 then s.no fPermission
      else if c.state ≠ 1 then .wait
      else if c.len - c.fill < t ∨ t < c.pfxLen ∨ !(c.pages.any fun p => p.first + p.tokens == t) then s.no fInstruction
      else if s.pfxFull then s.no rQuota
      else match s.layout f c.layout with
        | none => s.no fPermission
        | some l =>
          let mine := fun (p : Page) => decide (p.first + p.tokens ≤ t) && !p.ro
          let lock := fun (p : Page) => if mine p then { p with ro := true } else p
          let p : Pfx := { tenant := f, variantKind := false, layout := c.layout, serial := s.serv.nextSerial
                           pages := (c.pages.filter fun p => decide (p.first + p.tokens ≤ t)).map lock
                           tokens := t, onVariant := c.variant, onClient := c.client, retired := false, mirrors := 0
                           own := (c.pages.filter mine).map fun p => (l.unitOf p.addr, l.u p.size) }
          let s1 := s.setCtx x { c with pages := c.pages.map lock }
          .done { s1 with serv := { s1.serv with pfxs := s1.serv.pfxs ++ [p], nextSerial := s1.serv.nextSerial + 1 } } stOk
            (p.handle s.serv.gen)

/-- Page-list entries of 16 bytes (spec/12 R273), shown as prefix pages of a package. -/
def mirrorPages (pkg : Nat) : Nat → List Byte → List Page
  | 0, _ => []
  | n + 1, bs =>
    let e := fieldN bs 0 16
    { addr := bits e 47 0, pkg := pkg, size := bits e 55 52, ro := true, first := bits e 83 64, tokens := bits e 96 84
      tuse := BitVec.ofNat 8 (bits e 111 104) } :: mirrorPages pkg n (bs.drop 16)

/-- MIRROR_PREFIX: the local prefix shows the owner's pages; it keeps the owner's handle to give the mirror up by. `pages` is the
owner's list, none where it holds no such prefix of the paired tenant space (spec/13 R297, R308, R310). -/
def execMirrorPrefix (f : Fn) (cid : BitVec 16) (pkg handle : W64) (pages : Option (List Byte)) (s : State) : Out :=
  s.request f cid 2 false (.mirrorPrefix f cid pkg handle pages) <|
    let p := pkg.toNat
    let lay := bits handle.toNat 11 8
    if 15 < p ∨ p = (if s.glb.valid then s.glb.index else 0) ∨ handle.getLsbD 7 = true then s.no fInstruction
    else if !s.reachable p then s.no fRemote
    else match s.pairOf f p, pages with
    | none, _ => s.no fRemote
    | _, none => s.no fPermission
    | some t, some pages =>
    if (s.layout f lay).isNone ∨ t ≠ bits handle.toNat 5 0 then s.no fPermission
    else if s.pfxFull then s.no rQuota
    else
      let ps := mirrorPages p (pages.length / 16) pages
      let x : Pfx := { tenant := f, variantKind := handle.getLsbD 6, layout := lay, serial := s.serv.nextSerial, pages := ps
                       tokens := sumN (ps.map (·.tokens)), onVariant := 0, onClient := 0, mirrorOf := some (p, handle), retired := false, mirrors := 0, own := [] }
      let s1 := s.send (.mirror p handle true)
      .done { s1 with serv := { s1.serv with pfxs := s1.serv.pfxs ++ [x], nextSerial := s1.serv.nextSerial + 1 } } stOk
        (x.handle s.serv.gen)

/-- RETIRE_PREFIX. -/
def execRetirePrefix (f : Fn) (cid : BitVec 16) (handle : W64) (s : State) : Out :=
  s.request f cid 0 false (.retirePrefix f cid handle) <|
    match s.pfxOf f handle false with
    | none => s.no fPermission
    | some p =>
      let off := fun (q : Pfx) => if q.serial = p.serial then { q with retired := true } else q
      let s1 := { s with serv := { s.serv with pfxs := s.serv.pfxs.map off } }
      .done (s1.sweepPfx s1.serv.pfxs.length) stOk 0

/-- SCH releases a CLOSING context (spec/13 R301). -/
def execContextRelease (ctx : Fin 65536) (s : State) : Out :=
  whenSch s <|
    let c := s.ctx ctx
    if c.state != 4 || (s.cmds.list.any fun k => k.inFlight && k.batch.contains ctx.val)
        || (s.serv.merges.any fun m => m.ctx == ctx.val) || (s.serv.jobs.any fun j => j.ctx == ctx.val) then s
    else
      let s1 := match s.layout c.tenant c.layout with
        | some l => (s.setLayout c.tenant c.layout (some { l with slots := l.slots.filter (· != c.trough) })).freeRuns c.tenant c.layout
            ((c.pages.filter fun (p : Page) => !p.ro).map fun (p : Page) => (l.unitOf p.addr, l.u p.size))
        | none => s
      let s2 := s1.setCtx ctx {}
      s2.sweepPfx s2.serv.pfxs.length

/-! ### ACCOUNT (spec/13 R303) -/

/-- ACCOUNT: SCH's write, latched at the next beat (spec/02 R41, R42, spec/14 R319). -/
def execAccount (f : Fn) (cid : BitVec 16) (acct rate cap weight clear : W64) (s : State) : Out :=
  s.request f cid 0 false (.account f cid acct rate cap weight clear) <|
    let a := acct.toNat
    if 4095 < a ∨ 65535 < rate.toNat ∨ 2 ^ 24 ≤ cap.toNat ∨ weight = 0 ∨ 255 < weight.toNat ∨ 1 < clear.toNat then s.no fInstruction
    else if (match s.acctsAhead.acctOwner a with | some t => t != f.val | none => false) then s.no fInstruction
    else .done (s.policy (.account f a rate.toNat cap.toNat weight.toNat (clear == 1))) stOk 0

/-- Every valid account is refilled at the first beat of a tick. -/
def execAccountRefill (s : State) : Out :=
  whenAlive s <|
    if s.tickEdge = false then s else
      { s with serv := { s.serv with accts := smMap {} s.serv.accts fun _ a =>
          if a.valid then { a with balance := min a.cap (a.balance + a.rate) } else a } }

end Sys2Proof.Machine
end

