-- ==== Sys2Proof/Machine/Fabric.lean ====
section
/-! DEFINITION. The yard and its links: presence, the live set and the lead (spec/01 R24-R33, spec/18 R398), ports, routes,
link loss and requests of other packages (spec/16 R361-R372, spec/07 R184-R188). -/

namespace Sys2Proof.Machine

/-- This package's index: 0 when standalone. -/
def State.self (s : State) : Nat := if s.glb.valid then s.glb.index else 0

/-! ### Presence and the live set -/

/-- This package's yard protocol range: the intersection of its PWR and SCH ranges (spec/18 R398). -/
def State.yardRange (s : State) : Nat × Nat :=
  let of := fun (c : Nat) => match (s.groom c).running with
    | some i => (bits i.yard.toNat 15 0, bits i.yard.toNat 31 16)
    | none => (0, 0)
  (max (of 1).1 (of 2).1, min (of 1).2 (of 2).2)

/-- A presence word heard in the current frame (spec/01 R29). -/
def execPresenceWord (pkg : Pk) (lo hi : BitVec 16) (s : State) : Out :=
  whenAlive s <|
    if s.glb.valid && decide (pkg.val < s.glb.count) then
      { s with glb := { s.glb with
        heard := (s.glb.heard.filter fun h => h.1 != pkg.val) ++ [(pkg.val, lo.toNat, hi.toNat)] } }
    else s

/-- The heard packages whose range holds a version. -/
def groupOf (heard : List (Nat × Nat × Nat)) (v : Nat) : List Nat :=
  (heard.filter fun h => decide (h.2.1 ≤ v) && decide (v ≤ h.2.2)).map (·.1)

/-- Whether version v goes before w: by the larger group, then the lowest-numbered package, then the higher version. -/
def betterVersion (heard : List (Nat × Nat × Nat)) (v w : Nat) : Bool :=
  let a := groupOf heard v
  let b := groupOf heard w
  let least := fun (l : List Nat) => l.foldl min 16
  decide (b.length < a.length) || (a.length == b.length &&
    (decide (least a < least b) || (least a == least b && decide (w < v))))

/-- The yard version of a heard set (spec/18 R398). A largest group's highest version is the upper end of a range. -/
def yardVersion (heard : List (Nat × Nat × Nat)) (old : Option Nat) : Option Nat :=
  let vs := (heard.filter fun h => decide (h.2.1 ≤ h.2.2)).map (·.2.2)
  match vs with
  | [] => old
  | v :: r =>
    let best := r.foldl (fun m x => if betterVersion heard x m then x else m) v
    match old with
    | some o => if (groupOf heard best).length ≤ (groupOf heard o).length then some o else some best
    | none => some best

/-- A port in service. -/
def Port.inService (p : Port) : Bool := p.state == 3 || p.state == 4

/-- Ports that carry traffic: in service and not taken for a test. -/
def State.carries (s : State) (p : Nat) : Bool := (s.port p).inService && !(s.port p).test

/-- Ports taken out of every route mask; an entry left empty no longer routes (spec/16 R368, R371). -/
def maskRoutes (m : SMap Route) (keep : Nat → Bool) : SMap Route :=
  smMap {} m fun _ r =>
    let ports := (List.range 8).foldl (fun (a : Byte) p => if keep p then a else putBit a p false) r.ports
    { r with ports := ports, valid := r.valid && ports != 0 }

/-- The remote reads in flight of a command to some packages: the slot and the package of each. -/
def State.readsTo (s : State) (ps : List Nat) (id : Nat) : List (Option Nat × Nat) :=
  ((List.range 96).flatMap fun g => (s.cl g).ops.filter fun o => o.cmd == id && !o.killed).flatMap fun o =>
    (o.remote.filter fun p => ps.contains p).map fun p => (o.slot, p)

/-- The first of them that is hit: which of a command's they are counts from 0. -/
def State.readHit (s : State) (ps : List Nat) (id : Nat) (hit : Nat → Nat → Bool) : Option (Option Nat × Nat) :=
  ((s.readsTo ps id).zipIdx.find? fun x => hit x.2 x.1.2).map (·.1)

/-- Remote reads to packages fail: their commands complete with FAULT_REMOTE and only their contexts end (spec/01 R32). -/
def State.failReads (s : State) (ps : List Nat) (hit : Cmd → Nat → Nat → Bool) : State :=
  (s.cmds.list.filter fun c => c.st == .running).foldl (fun s c =>
    match s.readHit ps c.id (hit c) with
    | some (slot, p) => s.faultCmd c fRemote slot (locPkg p) true
    | none => s) s

/-- What a failed link lost is sent again where a route leads to its package (spec/16 R369). -/
def State.resend (s : State) : State :=
  let goes := fun (u : Unacked) => u.lost && (s.route u.pkg).ports != 0
  { s with fab := { s.fab with
    outbox := s.fab.outbox ++ (s.fab.unacked.filter goes).map (·.msg)
    unacked := s.fab.unacked.map fun u => if goes u then { u with lost := false } else u } }

/-- Acknowledgements come: of which of the requests that a route leads to is free (spec/16 R364, log entry 52). -/
def State.ackBeat (s : State) : State :=
  if s.fab.unacked.isEmpty then s else
    let stays := fun (u : Unacked) (n : Nat) => u.lost || (s.route u.pkg).ports == 0 || s.free (2 ^ 77 + n) % 2 == 0
    let left := (s.fab.unacked.zipIdx.filter fun x => stays x.1 x.2).map fun x => x.1
    { s with fab := { s.fab with unacked := left } }.bump

/-- Routes computed before the frame boundary apply, and requests that waited for one go on (spec/16 R363, R368). -/
def State.applyRoutes (s : State) : State :=
  let s1 := match s.fab.nextRoutes with
    | some m => { s with fab := { s.fab with routes := maskRoutes m s.carries, nextRoutes := none } }
    | none => s
  { s1 with fab := { s1.fab with waiting := s1.fab.waiting.filter fun w => (s1.route w.pkg).ports == 0 } }.resend

/-- Nothing is in flight to packages that left, and the numbers of their pairs start again (spec/16 R364, log entry 52). -/
def Fab.leave (f : Fab) (gone : List Nat) : Fab :=
  let kept := fun (e : Nat × Nat) => !gone.contains (e.1 / 65536)
  { f with
    seqIn := f.seqIn.filter kept, seqOut := f.seqOut.filter kept
    early := f.early.filter fun e => !gone.contains (e.1 / 65536)
    unacked := f.unacked.filter fun u => !gone.contains u.pkg }

/-- Packages leave the live set: commands with reads or writes in flight to them fail, gang members with a member there are killed
unless their commit is latched (spec/01 R32, spec/07 R188, spec/16 R367). -/
def State.depart (s : State) (gone : List Nat) : State :=
  if gone.isEmpty then s else
    let s1 := s.failReads gone fun _ _ _ => true
    let writes := fun (u : Unacked) => u.op != 0 && gone.contains u.pkg
    let s2 := (s1.fab.unacked.filter writes).foldl (fun t u => match t.cmd u.cmd with
      | some c => if c.st == .running then t.faultCmd c fRemote none (locPkg u.pkg) true else t
      | none => t) s1
    let hit := s.cmds.list.filter fun c => c.gangSize != 0 && c.inFlight && !(c.gangReady && s.standing c) && gone.any fun p => s.gangOn c p
    let s3 := hit.foldl (fun s c => match s.cmd c.id with
      | some d => if d.inFlight then s.killMember d .faulted else s
      | none => s) s2
    { s3 with fab := s3.fab.leave gone }.bump

/-- The number of members of a set of packages. -/
def countBits {w : Nat} (m : BitVec w) : Nat := (setBits m).length

/-- The table of typical floors (spec/17 R377): regions that run, and the temperature of the hottest die in 1/16 °C. -/
def typicalFloor (regions : Nat) (temp : Int) : Option Nat :=
  if temp = 960 then (if regions = 8 then some 150 else if regions = 1 then some 70 else none)
  else if temp = 1600 then (if regions = 8 then some 175 else if regions = 1 then some 85 else none)
  else none

/-- The floor that this package reports: the measured one where the cap cannot be reached, else the table's; between the table's
figures it is free (log entry 32). -/
def State.floorNow (s : State) : Nat :=
  if s.pwr.capUnreachable then s.pwr.avg.toNat / 8 else
    let hot := (List.range 3).foldl (fun (m : Int) d => max m (smGet 0 s.pwr.tempMax d).toInt) (smGet 0 s.pwr.tempMax 0).toInt
    (typicalFloor ((List.range 8).filter fun r => (s.region r).state == 0).length hot).getD (s.free 1)

/-- This package's demand report to the lead, which keeps its own (spec/17 R379): the demand is free, since the spec gives no rule
for its figure (log entry 32). -/
def State.sendDemand (s : State) : State :=
  if !s.pwrUp then s else
    let i := s.glb.index
    let d := s.free 0
    let f := s.floorNow
    let m := if s.pwr.cooled then 650 else 400
    (if s.glb.isLead then { s with pwr := { s.pwr with reports := (s.pwr.reports.filter fun r => r.1 != i) ++ [(i, d, f, m)] } }
     else s.send (.demand i d f m)).bump

/-- The frame boundary: yard version, live set, lead and partition (spec/01 R29-R32, spec/18 R398), and what the fabric does
there: routes apply, replays of the frame start at 0, this package's own
presence word and demand report go out. -/
def execLiveSetUpdate (s : State) : Out :=
  whenAlive s <|
    if !s.glb.valid || !s.frameEdge then s else
    let i := s.glb.index
    let r := s.yardRange
    let heard := (s.glb.heard.filter fun h => h.1 != i) ++ [(i, r.1, r.2)]
    let v := yardVersion heard (if s.grm.protoSet then some s.grm.protoInUse.toNat else none)
    let group := match v with | some x => groupOf heard x | none => []
    let live : BitVec 16 := group.foldl (fun m p => putBit m p true) 0
    let lead := group.foldl min 16 % 16
    let isLead := !group.isEmpty && lead == i
    let part := decide (countBits live < countBits s.glb.whole)
    let gone := (setBits s.glb.live).filter fun p => !live.getLsbD p && p != i
    let newLead := isLead && !s.glb.isLead
    let s1 := { s with
      glb := { s.glb with live := live, lead := lead, isLead := isLead, partitioned := part, heard := []
                          whole := if part then s.glb.whole else live }
      grm := { s.grm with protoInUse := match v with | some x => BitVec.ofNat 16 x | none => s.grm.protoInUse
                          protoSet := v.isSome, excluded := !group.contains i }
      pwr := if newLead then { s.pwr with leadChanged := true, budget := s.pwr.lastB } else s.pwr
      fab := { s.fab with ports := smMap {} s.fab.ports fun _ p => { p with frameReplays := 0 } } }
    ((s1.applyRoutes.depart gone).send (.presence r.1 r.2)).sendDemand

/-! ### Ports (spec/16 R361, R362, spec/01 R27) -/

/-- Lanes 0-3 or 4-7 of a port are all good. -/
def lowHalf (m : Byte) : Bool := m &&& 0x0F == 0x0F
def highHalf (m : Byte) : Bool := m &&& 0xF0 == 0xF0
def halfGood (m : Byte) : Bool := lowHalf m || highHalf m

/-- Training ends; it needs four good lanes of one half. This end then sends its identity (spec/01 R27). -/
def execPortTrainingDone (p : Pt) (ok : Bool) (s : State) : Out :=
  whenAlive s <|
    let x := s.port p
    if x.state ≠ 1 then s
    else if ok && halfGood x.good then
      (s.setPort p { x with state := 2 }).send (.ident p s.glb.yardId s.glb.index s.sec.idHash)
    else s.setPort p { x with state := 6, since := s.tim.ns }

/-- The identity exchange agrees with the yard record, whose cabling map must join both ends (spec/01 R27). -/
def State.identOk (s : State) (p : Nat) (yard : W32) (pkg port : Nat) (hash : BitVec 512) : Bool :=
  match s.glb.yard with
  | none => false
  | some y => s.glb.valid && yard == y.id && smGet none y.cabling (8 * s.glb.index + p) == some (pkg, port)
      && smGet none y.cabling (8 * pkg + port) == some (s.glb.index, p)
      && y.hashes[pkg]? == some hash

/-- The identity exchange of a port in IDENT. In service, another identity than the exchange gave is a link failure. -/
def execIdent (p : Pt) (yard : W32) (pkg : Pk) (port : Pt) (hash : BitVec 512) (s : State) : Out :=
  whenAlive s <|
    let x := s.port p
    if x.state = 2 then
      s.setPort p { x with
        nbrPkg := pkg, nbrPort := port, narrow := x.good != 0xFF, since := s.tim.ns
        state := if !halfGood x.good then 6 else if !s.identOk p yard pkg port hash then 5 else if x.good = 0xFF then 3 else 4 }
    else s

/-- A MISCABLED or FAILED port trains again, on all its lanes, a second after it came to be so (spec/16 R362, log entry 72). -/
def execPortRetrain (p : Pt) (s : State) : Out :=
  whenAlive s <|
    let x := s.port p
    if (x.state = 5 ∨ x.state = 6) ∧ x.since + 1000000000 ≤ s.tim.ns then
      s.setPort p { x with state := 1, good := 0xFF, narrow := false } else s

/-! ### Routes (spec/16 R363) -/

/-- Links of the cabling map as (package, port, neighbour, neighbour's port). -/
def YardRec.links (y : YardRec) : List (Nat × Nat × Nat × Nat) :=
  y.cabling.filterMap fun e => e.2.map fun n => (e.1 / 8, e.1 % 8, n.1, n.2)

/-- Hop counts to package d after n rounds over a list of links. -/
def hopRounds (links : List (Nat × Nat)) (d : Nat) : Nat → SMap Nat
  | 0 => [(d, 1)]
  | n + 1 =>
    let m := hopRounds links d n
    links.foldl (fun m e =>
      let h := smGet 0 m e.2
      if h ≠ 0 ∧ (smGet 0 m e.1 = 0 ∨ h + 1 < smGet 0 m e.1) then smPut 0 m e.1 (h + 1) else m) m

/-- The entry for destination d: every port of the fewest hops. -/
def routeTo (links : List (Nat × Nat × Nat × Nat)) (self d : Nat) : Route :=
  let m := hopRounds (links.map fun l => (l.1, l.2.2.1)) d 15
  let h := smGet 0 m self
  if d = self ∨ h = 0 then {} else
    let ports : Byte := (links.filter fun l => l.1 == self && smGet 0 m l.2.2.1 + 1 == h).foldl (fun a l => putBit a l.2.1 true) 0
    { ports := ports, hops := h - 1, valid := ports != 0 }

/-- PWR computes the entries from the cabling and the links in service; they apply at the next frame boundary. -/
def execRouteUpdate (down : List (Pk × Pt)) (s : State) : Out :=
  whenAlive s <| match s.glb.yard with
  | none => s
  | some y =>
    if !s.glb.valid || !s.pwrUp then s else
    let i := s.glb.index
    let off := fun (a p : Nat) => if a = i then !s.carries p else down.any fun x => x.1.val == a && x.2.val == p
    let links := y.links.filter fun l => !off l.1 l.2.1 && !off l.2.2.1 l.2.2.2
    { s with fab := { s.fab with
      nextRoutes := some ((List.range 16).foldl (fun m d => smPut {} m d (routeTo links i d)) []) } }

/-! ### Link loss (spec/16 R368, R369) -/

/-- A link fails: in its identity exchange it holds no traffic yet. In service the port leaves every mask at once; a read on it
fails its command, and what else was on it is lost and sent again. Which of the traffic whose route held the port was on it is
free; what had no other port was (log entry 52). -/
def State.failLink (s : State) (p : Nat) : State :=
  let x := s.port p
  if x.state = 2 then s.setPort p { x with state := 6, downs := x.downs + 1, since := s.tim.ns }
  else if !x.inService then s else
    let s1 := s.setPort p { x with state := 6, since := s.tim.ns, downs := x.downs + 1, frameReplays := 0, test := false }
    let on := (List.range 16).filter fun d => (s.route d).ports.getLsbD p
    let only := fun (d : Nat) => countBits (s.route d).ports == 1
    let lost := fun (x : Unacked × Nat) =>
      { x.1 with lost := x.1.lost || (on.contains x.1.pkg && (only x.1.pkg || s.free (2 ^ 40 + x.2) % 2 == 1)) }
    let s2 := { s1 with fab := { s1.fab with
      routes := maskRoutes s1.fab.routes (· != p), unacked := s1.fab.unacked.zipIdx.map lost } }.resend
    let s3 := (s2.failReads on fun c k d => only d || s.free (2 ^ 20 * c.id + k + 1) % 2 == 1).bump
    let cut := (List.range 16).filter fun d => (s3.route d).ports == 0 && on.contains d
    s3.cmds.list.foldl (fun u c => u.noteRoutes c.id (cut.filter fun d =>
      !(u.readsTo [d] c.id).isEmpty || u.fab.unacked.any fun k => k.cmd == c.id && k.pkg == d)) s3

def execLinkFail (p : Pt) (_cause : LinkCause) (s : State) : Out := whenAlive s (s.failLink p)

/-- A flit is replayed; more than 1,000 in a frame fail the link (spec/16 R361, R368). -/
def execFlitReplay (p : Pt) (s : State) : Out :=
  whenAlive s <|
    let x := s.port p
    if !x.inService then s else
      let s1 := s.setPort p { x with replays := x.replays + 1, frameReplays := x.frameReplays + 1 }
      if 1000 < x.frameReplays + 1 then s1.failLink p else s1

/-- Lanes fail: the link goes on with the four good ones of a half, or fails (spec/16 R361). -/
def execLaneFailure (p : Pt) (good : BitVec 8) (s : State) : Out :=
  whenAlive s <|
    let x := s.port p
    let m := x.good &&& good
    if x.state = 1 ∨ (x.state = 2 ∧ halfGood m = true) then s.setPort p { x with good := m }
    else if x.state = 2 then (s.setPort p { x with good := m }).failLink p
    else if !x.inService || m == 0xFF then s
    else if halfGood m then s.setPort p { x with good := m, narrow := true, state := 4 }
    else (s.setPort p { x with good := m }).failLink p

/-- A wait of a command that is longer than FAB_ROUTE_WAIT. -/
def State.overdue (s : State) (id : Nat) (w : RouteWait) : Bool :=
  w.cmd == id && decide (w.since + 1000000 * s.fab.routeWait.toNat < s.tim.ns)

/-- A request has waited for a route longer than FAB_ROUTE_WAIT: its command fails (spec/16 R368). -/
def execRouteWaitTimeout (id : Nat) (s : State) : Out :=
  whenAlive s <| match s.cmd id, s.fab.waiting.find? (s.overdue id) with
  | some c, some w =>
    if c.st == .running then
      s.faultCmd c fRemote ((s.readsTo [w.pkg] id).head?.bind (·.1)) (locPkg w.pkg) true
    else s
  | _, _ => s

/-! ### Requests of other packages (spec/16 R364, R369, spec/07 R185-R188, spec/13 R308) -/

/-- A remote read: the bytes, or the first fault met at this owner. A byte of a cluster buffer is checked against its segment's
tag (spec/04 R97, spec/07 R185). -/
def State.remoteRead (s : State) (t va : Nat) : Nat → List Byte ⊕ Byte
  | 0 => .inl []
  | n + 1 =>
    if isWindow va && bitN va 31 then .inr fTranslation
    else match s.access t 0 va true with
      | .inr f => .inr (if isWindow va && f = fRemote then fTranslation else f)
      | .inl pa => if !s.tagged t va pa then .inr fPermission else match s.remoteRead t (va + 1) n with
        | .inr f => .inr f
        | .inl bs => .inl (s.see 96 0 pa :: bs)

/-- A remote write into cluster buffers: every byte in a segment of the paired tenant space, or none is applied. -/
def State.remoteWrite (s : State) (t : Nat) (ws : List (BitVec 48 × Byte × Byte)) : State × Option Byte :=
  let places := ws.map fun x => if bitN x.1.toNat 31 then none else match s.window 0 x.1.toNat with
    | .phys pa => if isWindow x.1.toNat then some pa else none
    | _ => none
  if places.any fun p => p.isNone then (s, some fTranslation)
  else if places.any fun p => match p with | some a => s.segTag a != some t | none => true then (s, some fPermission)
  else (((ws.zip places).foldl (fun s x => match x.2 with
    | some a => s.put a x.1.2.1 x.1.2.2
    | none => s) s), none)

/-- A request applies at this package, under the pairing at its command's dispatch; the answer goes back to its source. -/
def State.applyRemote (s : State) (pkg src seq tenant : Nat) (frame : W32) (req : RemoteReq) : State :=
  let back := fun (s : State) (d : List Byte ⊕ Byte) => s.send (.reply pkg src seq d)
  match (s.asOfFrame frame).pairFrom pkg tenant with
  | none => back s (.inr fRemote)
  | some t => match req with
    | .read va len =>
      let as := addrs va.toNat len
      let a := (s.pull t as srcFab).arrive
      let r := a.remoteRead t va.toNat len
      back (match r with | .inr f => a.logged t as [f] srcFab | .inl _ => a).bump r
    | .write ws => match s.remoteWrite t ws with
      | (s1, some f) => back s1 (.inr f)
      | (s1, none) => back s1 (.inl [])
    | .mirror h made =>
      let count := fun (x : Pfx) =>
        if x.tenant = t ∧ x.handle s.serv.gen = h then
          { x with mirrors := if made then x.mirrors + 1 else x.mirrors - 1 }
        else x
      { s with serv := { s.serv with pfxs := s.serv.pfxs.map count } }.sweepPfx s.serv.pfxs.length

/-- What a source of another package asks is done. -/
def State.applyFab (s : State) (pkg src seq : Nat) : FabReq → State
  | .req t f r => s.applyRemote pkg src seq t f r
  | .signal t gang g ctr inc f => s.farSignal pkg t gang g ctr inc f
  | .barrier t gang num beat => s.farArrival pkg t gang num beat

/-- Requests that came early apply in their turn. -/
def State.applyEarly (s : State) (pair pkg src : Nat) : Nat → State
  | 0 => s
  | n + 1 =>
    let k := smGet 0 s.fab.seqIn pair
    match s.fab.early.find? fun e => e.1 == pair && e.2.1 == k with
    | none => s
    | some e =>
      let s1 := { s with fab := { s.fab with
        early := s.fab.early.filter fun x => !(x.1 == pair && x.2.1 == k), seqIn := smPut 0 s.fab.seqIn pair (k + 1) } }
      (s1.applyFab pkg src k e.2.2).applyEarly pair pkg src n

/-- A numbered request of a pair arrives: one already applied is discarded, one ahead of its turn waits (spec/16 R364, R369). -/
def State.arriveFab (s : State) (pkg src seq : Nat) (q : FabReq) : State :=
  let pair := 65536 * pkg + src % 65536
  let k := smGet 0 s.fab.seqIn pair
  if seq < k ∨ s.fab.early.any (fun e => e.1 == pair && e.2.1 == seq) = true then s
  else
    let s1 := { s with fab := { s.fab with early := s.fab.early ++ [(pair, seq, q)] } }
    s1.applyEarly pair pkg src s1.fab.early.length

/-- A request arrives. -/
def execRemoteRequestArrival (pkg : Pk) (src : Nat) (seq : Nat) (who : Asker) (req : RemoteReq) (s : State) : Out :=
  whenAlive s (s.arriveFab pkg src seq (.req who.tenant who.frame req))

/-- A yard barrier arrival of another member (spec/05 R121, R128). -/
def execBarArrivalMessage (src : FabSource) (tenant : Fn) (gang : BitVec 16) (num : Fin 8) (beat : W32)
    (s : State) : Out :=
  whenAlive s (s.arriveFab src.pkg (srcSeq src.cl) src.seq (.barrier tenant gang.toNat num beat))

/-- A signal arrives (spec/05 R107, R121, spec/06 R164). -/
def execSignalArrival (src : SigSource) (s : State) : Out :=
  whenAlive s <| match src with
  | .inFlight i =>
    match s.cmds.sigs[i]? with
    | none => s
    | some x =>
      let s1 := { s with cmds := { s.cmds with sigs := s.cmds.sigs.eraseIdx i } }
      s1.modCl x.cl fun k => k.signal x.cmd x.ctr x.inc
  | .fabric pkg from' seq frame t gang g ctr inc =>
    s.arriveFab pkg (srcSeq from') seq (.signal t gang.toNat g ctr inc.toNat frame)

/-! ### Loop-back test (spec/16 R371) -/

/-- Whether a port may be taken: no other port in test, and no route left empty. -/
def State.mayTest (s : State) (p : Nat) : Bool :=
  s.carries p && (List.range 8).all (fun q => q == p || !((s.port q).test || (s.port q).state == 7))
    && (List.range 16).all fun d => !(s.route d).valid || putBit (s.route d).ports p false != 0

/-- The port whose turn of a loop-back test has come: from the next in order, the first that may be taken; none while no test is
due (spec/22 R469). -/
def State.loopPort (s : State) : Option Nat :=
  if s.far.loops.any fun n => decide (n ≤ s.tick) then
    ((List.range 8).map fun k => (s.far.nextPort + k) % 8).find? s.mayTest
  else none

/-- A start is of this package's test: the port is the one whose turn has come, or those before it may not be taken because of their
neighbour, which only the sender knows, so that is free. Otherwise the neighbour tests the link, and this is its far end (spec/16
R371, log entry 52). -/
def State.ownTest (s : State) (p : Nat) : Bool :=
  s.loopPort == some p || (s.loopPort.isSome && s.free (2 ^ 41) % 2 == 1)

/-- One port's test, this package's or its neighbour's: both ends take it out at a frame boundary, it drains into TEST, and goes back
to training or FAILED (spec/16 R371). -/
def execFabricLoopback (p : Pt) (ph : LoopPhase) (s : State) : Out :=
  whenAlive s <|
    let x := s.port p
    match ph with
    | .start =>
      if s.frameEdge && s.mayTest p then
        let s1 := s.setPort p { x with test := true }
        let s2 := { s1 with fab := { s1.fab with routes := maskRoutes s1.fab.routes (· != p.val) } }
        if s.ownTest p then { s2 with far := { s2.far with
            loops := s2.far.loops.eraseP fun n => decide (n ≤ s.tick), nextPort := (p.val + 1) % 8 } }.bump
        else s2.bump
      else s
    | .drained => if x.test && x.inService then s.setPort p { x with state := 7 } else s
    | .ended ok =>
      if x.state ≠ 7 then s
      else if ok then s.setPort p { x with state := 1, test := false, good := 0xFF, narrow := false }
      else
        let s1 := s.setPort p { x with state := 6, test := false, since := s.tim.ns }
        ({ s1 with far := { s1.far with suspect := putBit s1.far.suspect (52 + p.val) true } }).logEvent 6 p

end Sys2Proof.Machine
end

