-- ==== Sys2Proof/Machine/Power.lean ====
section
/-! DEFINITION. Power, thermal and droop (spec/17 R373-R389, spec/23 R477). -/

namespace Sys2Proof.Machine

/-! ### Operating points (spec/17 R373, R374) -/

/-- The highest region voltage a die needs: points in effect and points its regions rise to. -/
def State.dieMv (s : State) (d : Nat) : Nat :=
  (List.range 4).foldl (fun m i =>
    let r := s.region (4 * d + i)
    max m (Config.regionMv (max r.current (r.rising.getD 0)))) 0

/-- The core rail of a die follows; a regulator that does not answer keeps its target (spec/17 R373, spec/23 R477). -/
def State.setRail (s : State) (d : Nat) : State :=
  if s.pwr.silent.getLsbD d then s
  else { s with pwr := { s.pwr with rail := smPut 750 s.pwr.rail d (Config.railTarget (s.dieMv d)) } }

/-- A die is forced to OP0 by heat or a voltage trip (spec/17 R385, R386). -/
def State.forced (s : State) (d : Nat) : Bool :=
  s.pwr.force.getLsbD d || s.pwr.force.getLsbD 2 || s.pwr.vtripDie.getLsbD d

/-- The point a region runs at: the lower of its grant and the package ceiling; OP0 under a force (spec/17 R375). -/
def State.pointOf (s : State) (r : Nat) : Nat :=
  if s.forced (r / 4) then 0 else min (s.region r).grant s.pwr.ceiling

/-- A region goes to its point at a tick boundary: upward by way of the voltage, downward at once (spec/17 R374). -/
def State.changePoint (s : State) (r : Nat) : State :=
  let x := s.region r
  if x.state ≠ 0 then s else
    let t := s.pointOf r
    let y := if x.current < t then { x with rising := some t } else { x with current := t, rising := none }
    (s.setRegion r y).setRail (r / 4)

/-- The change applies at a tick boundary. -/
def execOpChange (r : Rg) (s : State) : Out := whenAlive s (if s.tickEdge then s.changePoint r else s)

/-- The clock of an upward change switches (spec/17 R374). -/
def execOpClockSwitch (r : Rg) (s : State) : Out :=
  whenAlive s <|
    let x := s.region r
    match x.rising with
    | some t => if x.state = 0 then s.setRegion r { x with current := t, rising := none } else s
    | none => s

/-! ### Grants (spec/17 R375, R385, spec/23 R477) -/

/-- Phases of the commands issuing or draining in a region now. -/
def State.phasesIn (s : State) (r : Nat) : BitVec 6 :=
  (List.range 12).foldl (fun m k =>
    let c := s.cl (12 * r + k)
    [c.issuing, c.draining].foldl (fun m i => match i with
      | some j => match s.cmd j.cmd with
        | some x => putBit m x.phase true
        | none => m
      | none => m) m) 0

/-- The preferred point of a phase. -/
def Pwr.prefer (p : Pwr) (ph : Nat) : Nat := bits p.phaseOp.toNat (3 * ph + 2) (3 * ph)

/-- The highest preferred point among phases; IDLE's where there is none. -/
def Pwr.preferred (p : Pwr) (m : BitVec 6) : Nat :=
  match setBits m with
  | [] => p.prefer 5
  | l => l.foldl (fun a ph => max a (p.prefer ph)) 0

/-- The highest point whose rail target a silent core regulator has confirmed. -/
def confirmedPoint (mv : Nat) : Nat :=
  (List.range 8).foldl (fun m o => if Config.railTarget (Config.regionMv o) ≤ mv then o else m) 0

/-- A test slice runs in a region, or its start tick has come (spec/22 R463). -/
def State.sliceIn (s : State) (r : Nat) : Bool :=
  if s.far.state ≠ 0 then regionOf s.far.cluster == r
  else s.far.startupDone && s.sec.bootMode == 0 && regionOf s.far.nextCluster == r
    && decide (diff32 s.far.nextTick (BitVec.ofNat 32 s.tick) ≤ 0)

/-- The grant of a region: its commands' preferred point, less the steps of a hot die; at least OP3 for a test slice, at most
OP3 where its voltage monitor or droop detector is suspect (spec/22 R463, R469). -/
def State.grantOf (s : State) (r : Nat) : Nat :=
  let d := r / 4
  let g := s.pwr.preferred ((s.region r).seen ||| s.phasesIn r) - smGet 0 s.pwr.drop d
  let g := if s.sliceIn r then max 3 g else g
  let g := if s.far.suspect.getLsbD (36 + r) || s.far.suspect.getLsbD (44 + r) then min 3 g else g
  if s.pwr.silent.getLsbD d then min g (confirmedPoint (smGet 750 s.pwr.rail d)) else g

/-- A reading in 1/16 °C enters PWR_TEMP_d. -/
def State.tempRead (s : State) (d : Nat) (t : BitVec 16) : State :=
  let p := smGet 0 s.pwr.tempPeak d
  { s with pwr := { s.pwr with
    tempMax := smPut 0 s.pwr.tempMax d t
    tempPeak := smPut 0 s.pwr.tempPeak d (if p.toInt < t.toInt then t else p) } }

/-- A voltage trip may be released from a frame after it, once every monitor of the die reads in range: when PWR does so is free
(spec/17 R386, log entry 32). -/
def State.endVtrip (s : State) (d : Nat) : State :=
  if s.pwr.vtripDie.getLsbD d && decide (smGet 0 s.pwr.vtripAt d + 10000000 ≤ s.tim.ns) && s.free 0 % 2 == 1 then
    ({ s with pwr := { s.pwr with vtripDie := putBit s.pwr.vtripDie d false } }).bump
  else s.bump

/-- A tick boundary of PWR: temperatures, the policy of a hot die, the grants, and the release of a voltage trip. Whole ticks below
100 °C are counted by the hardware, which also knows the phases of the tick just ended while PWR is away. -/
def execGrantUpdate (t0 t1 tio : BitVec 16) (s : State) : Out :=
  whenAlive s <| if !s.tickEdge then s else
    let ts := [t0, t1, tio]
    let cool := ts.zipIdx.foldl (fun m x => smPut 0 m x.2 (if x.1.toInt < 1600 then smGet 0 m x.2 + 1 else 0)) s.pwr.cool
    let s1 := { s with pwr := { s.pwr with cool := cool } }
    let phases := fun (s : State) (r : Nat) (x : Region) =>
      let now := s.phasesIn r
      { x with seen := now, idleTicks := if x.seen ||| now = 0 then x.idleTicks + 1 else 0 }
    if !s.pwrUp then (List.range 8).foldl (fun s r => s.setRegion r (phases s r (s.region r))) s1 else
      let s2 := ts.zipIdx.foldl (fun s x => s.tempRead x.2 x.1)
        { s1 with pwr := match s1.pwr.phaseNext with
          | some (t, v) => if t < s.tick then { s1.pwr with phaseOp := v, phaseNext := none } else s1.pwr
          | none => s1.pwr }
      let drop := [t0, t1].zipIdx.foldl (fun m x =>
        smPut 0 m x.2 (if (16 * s.pwr.policyC : Int) ≤ x.1.toInt then min 7 (smGet 0 m x.2 + 1) else 0)) s2.pwr.drop
      let s3 := (({ s2 with pwr := { s2.pwr with drop := drop } } : State).endVtrip 0).endVtrip 1
      (List.range 8).foldl (fun s r => s.setRegion r { phases s r (s.region r) with grant := s.grantOf r }) s3

/-! ### The limiter (spec/17 R376, R377, R388) -/

/-- The highest point at which any region runs. -/
def State.topPoint (s : State) : Nat :=
  (List.range 8).foldl (fun m r => if (s.region r).state = 0 then max m (s.region r).current else m) 0

/-- Estimates of the points, as PWR writes them once per frame: free (spec/17 R376, log entry 32). -/
def State.newEstimates (s : State) : State :=
  if s.tick % 80 = 0 ∧ s.pwrUp = true then
    ({ s with pwr := { s.pwr with est := (List.range 8).foldl (fun m k => smPut 0 m k (s.free (k + 1) % 1024)) [] } }).bump
  else s

/-- Energy of a tick in µJ: within 3 % of the average times the tick (spec/17 R388). -/
def State.addEnergy (s : State) (avg : Nat) : State :=
  let base := avg * 125 / 8
  let lo := base - base * 3 / 100
  let e := lo + s.free 0 % (base + base * 3 / 100 - lo + 1)
  ({ s with pwr := { s.pwr with energy := s.pwr.energy + BitVec.ofNat 64 e } }).bump

/-- Ceiling and throttling after a tick of average power avg, in 1/8 W. -/
def Pwr.limit (p : Pwr) (top avg : Nat) : Pwr :=
  let cap := 8 * p.cap
  let q := if avg < cap then { p with capUnreachable := false } else p
  if cap < avg then
    if 0 < top then { q with ceiling := top - 1 }
    else if 0 < q.ceiling then { q with ceiling := 0 }
    else if q.duty < 3 then { q with duty := q.duty + 1 }
    else { q with capUnreachable := true }
  else if 100 * avg < 95 * cap then
    if 0 < q.duty then { q with duty := q.duty - 1 }
    else if q.ceiling < 7 ∧ smGet 0 q.est (q.ceiling + 1) < q.cap then { q with ceiling := q.ceiling + 1 }
    else q
  else q

/-- A tick boundary of the limiter, with the average of the tick just ended. -/
def execLimiterTick (avg : BitVec 16) (s : State) : Out :=
  whenAlive s <| if !s.tickEdge then s else
    let s1 := (s.addEnergy avg.toNat).newEstimates
    let p := s1.pwr.limit s1.topPoint avg.toNat
    let seen := fun (o : UnitOp) => { o with duty := (min o.duty.1 p.duty, max o.duty.2 p.duty) }
    { s1 with pwr := { p with avg := avg }, clusters := smMap {} s1.clusters fun _ k => { k with ops := k.ops.map seen } }

/-! ### Budget, division and cap (spec/17 R378-R381, spec/01 R30, R31) -/

/-- A cap in range: 160 to 650 W, at most 400 W without a cold plate (spec/17 R378). -/
def Pwr.inRange (p : Pwr) (c : Nat) : Nat := max 160 (min (if p.cooled then 650 else 400) c)

/-- A cap of the frame that begins waits for its tick boundary: the first after the frame boundary when lower, the second when
higher. -/
def Pwr.schedule (p : Pwr) (frame c : Nat) : Pwr :=
  let c := p.inRange c
  if c = p.cap then { p with next := 0, nextAt := 0 }
  else { p with next := c, nextAt := 80 * frame + (if c < p.cap then 1 else 2) }

/-- The site host's budget: taken in range on the lead and on a standalone package; elsewhere NOT_LEAD (spec/17 R379). -/
def execPwrCabBudget (v : W32) (s : State) : Out :=
  whenHost 0 s fun s =>
    let b := bits v.toNat 13 0
    if s.glb.valid && !s.glb.isLead then { s with pwr := { s.pwr with notLead := true } }
    else if 160 ≤ b ∧ b ≤ 10400 then { s with pwr := { s.pwr with budget := b } }
    else s

/-- A demand report arrives at the lead; it stands until the package's next (spec/18 R390). -/
def execDemandReport (pkg : Pk) (demand floor largest : Nat) (s : State) : Out :=
  whenAlive s <|
    if s.glb.isLead then
      { s with pwr := { s.pwr with
        reports := (s.pwr.reports.filter fun r => r.1 != pkg.val) ++ [(pkg.val, demand, floor, largest)] } }
    else s

/-- Water filling: `left` shared equally among the entries (value, limit) with room, n rounds. -/
def fillUp : Nat → Nat → List (Nat × Nat) → List (Nat × Nat)
  | 0, _, l => l
  | n + 1, left, l =>
    let open' := l.filter fun e => decide (e.1 < e.2)
    if open'.isEmpty || left == 0 then l else
      let room := open'.foldl (fun m e => min m (e.2 - e.1)) left
      let step := min (left / open'.length) room
      fillUp n (left - step * open'.length) (l.map fun e => if e.1 < e.2 then (e.1 + step, e.2) else e)

/-- The division of B among reports (package, D, F, M): caps, and UNDER_BUDGET (spec/17 R379). Watts are scaled by the
weights' sum and by 720,720, which every share of up to 16 packages divides. -/
def divide (B : Nat) (rs : List (Nat × Nat × Nat × Nat)) : List (Nat × Nat) × Bool :=
  let first := rs.map fun r => min r.2.2.2 (max 160 r.2.2.1)
  let sum := sumN first
  if B < sum then ((rs.zip first).map fun x => (x.1.1, x.2), true) else
    let want := (rs.zip first).map fun x => x.1.2.1 - x.2
    let W := sumN want
    let rem := B - sum
    let scale := 720720 * max 1 W
    let share := fun (w : Nat) => if W ≤ rem then w * scale else rem * w * 720720
    let third := ((rs.zip first).zip want).map fun x => (min (x.1.1.2.2.2 * scale) (x.1.2 * scale + share x.2), x.1.1.2.2.2 * scale)
    let left := B * scale - sumN (third.map (·.1))
    let fourth := fillUp 17 left third
    ((rs.zip fourth).map fun x => (x.1.1, x.2.1 / scale), false)

/-- The sum of the caps that an island's members held in the last whole-yard frame (spec/01 R31). -/
def State.islandSum (s : State) : Nat := sumN ((setBits s.glb.live).map fun p => smGet 160 s.pwr.lastCaps p)

/-- A package keeps the caps of a whole yard's division. -/
def State.noteCaps (s : State) (caps : List (Nat × Nat)) : State :=
  if s.glb.partitioned then s
  else { s with pwr := { s.pwr with lastCaps := caps.foldl (fun m c => smPut 160 m c.1 c.2) s.pwr.lastCaps } }

/-- The frame boundary: the lead divides the budget among the live packages and broadcasts it; a standalone package takes
its own budget (spec/17 R379-R381). A live package counts with its last report, D = F = 0
before its first (log entry 32). -/
def execCabinetDivision (s : State) : Out :=
  whenAlive s <|
    if !s.pwrUp || !s.frameEdge then s
    else if !s.glb.valid then { s with pwr := s.pwr.schedule s.frame s.pwr.budget }
    else if !s.glb.isLead then s
    else
      let B := if s.glb.partitioned then min s.pwr.budget s.islandSum else s.pwr.budget
      let rs := (setBits s.glb.live).map fun p =>
        (s.pwr.reports.find? fun r => r.1 == p).getD (p, 0, 0, 650)
      let d := divide B rs
      let own := (d.1.find? fun x => x.1 == s.glb.index).map (·.2)
      let s1 := (s.noteCaps d.1).send (.division s.pwr.budget d.1)
      let p := { s1.pwr with underBudget := d.2, lastB := s.pwr.budget }
      { s1 with pwr := match own with | some c => p.schedule s.frame c | none => p }

/-- The limiter's ceiling when a lowered cap takes effect: the highest point whose estimate lies under it (spec/17 R376). -/
def Pwr.ceilingFor (p : Pwr) (c : Nat) : Nat :=
  (List.range 8).foldl (fun m o => if smGet 0 p.est o < c then o else m) 0

/-- A broadcast is received by PWR, or a tick boundary passes and a waiting cap applies (spec/17 R376, R380). -/
def execCapApply (recv : Option (BitVec 14 × List (Pk × BitVec 10))) (s : State) : Out :=
  whenAlive s <| match recv with
  | some (b, caps) =>
    if !s.glb.valid || s.glb.isLead || !s.pwrUp then s else
      let l := caps.map fun x => (x.1.val, x.2.toNat)
      let s1 := s.noteCaps l
      let p := { s1.pwr with lastB := b.toNat }
      { s1 with pwr := match l.find? fun x => x.1 == s.glb.index with
        | some x => p.schedule s.frame x.2
        | none => p }
  | none =>
    let p := s.pwr
    if p.next = 0 ∨ s.tickEdge = false ∨ s.tick < p.nextAt then s
    else { s with pwr := { p with
      cap := p.next, next := 0, nextAt := 0, ceiling := if p.next < p.cap then p.ceilingFor p.next else p.ceiling } }

/-! ### Stabling (spec/17 R382, R383) -/

/-- Regions that run. -/
def State.runningRegions (s : State) : List Nat := (List.range 8).filter fun r => (s.region r).state == 0

/-- A region is stabled: its commands are killed and run again, its clocks stop. At least one region keeps running. -/
def State.stable (s : State) (r : Nat) : State :=
  if ((s.runningRegions.filter (· != r)).length) < max 1 s.pwr.stableLeast ∨ (s.far.state ≠ 0 ∧ regionOf s.far.cluster = r) then s else
    let s1 := (s.cmds.list.filter fun c => c.st == .running && c.place.any fun g => regionOf g == r).foldl
      (fun s c => s.killRerun c 3 true) (s.killMaint fun g => regionOf g == r)
    let x := s1.region r
    s1.setRegion r { x with state := 1, rising := none, halved := false, stableNext := false }

def execStableRegion (r : Rg) (s : State) : Out :=
  whenAlive s <|
    let x := s.region r
    if !s.pwrUp || !s.mayStable r then s
    else if x.state = 0 then s.stable r
    else if x.state = 2 then s.setRegion r { x with stableNext := true }
    else s

/-- A wake begins (spec/17 R383). -/
def State.wake (s : State) (r : Nat) : State := s.setRegion r { s.region r with state := 2, wokenAt := s.beat }

def execWakeRegion (r : Rg) (s : State) : Out :=
  whenAlive s (if s.pwrUp && (s.region r).state == 1 then s.wake r else s)

/-- The ramp of 50 µs ends; a stable request that came meanwhile applies. -/
def execWakeDone (r : Rg) (s : State) : Out :=
  whenAlive s <|
    let x := s.region r
    if x.state ≠ 2 ∨ s.beat < x.wokenAt + 50 then s else
      let s1 := s.setRegion r { x with state := 0, stableNext := false }
      if x.stableNext then s1.stable r else s1

/-! ### Droop (spec/17 R384) -/

def execDroopDetect (r : Rg) (s : State) : Out :=
  whenAlive s <|
    let x := s.region r
    if x.state ≠ 0 || x.halved then s else
      let s1 := s.setRegion r { x with halved := true }
      { s1 with pwr := { s1.pwr with droopEvents := smMod 0 s1.pwr.droopEvents r (· + 1) } }

def execDroopEnd (r : Rg) (s : State) : Out :=
  whenAlive s <| s.setRegion r { s.region r with halved := false }

/-! ### Hardware limits (spec/17 R385-R387) -/

/-- The regions of a die go to OP0 at once. -/
def State.forceDie (s : State) (d : Nat) : State :=
  ((List.range 4).foldl (fun s i =>
    let r := 4 * d + i
    s.setRegion r { s.region r with current := 0, rising := none }) s).setRail d

/-- A sensor reads 105 °C or more: its compute die is forced, or both by the I/O die. A reading from 100 °C up inside a tick keeps that
tick from counting for a release (spec/17 R385). -/
def execThermalForce (d : Fin 3) (reading : BitVec 16) (s : State) : Out :=
  whenAlive s <|
    if reading.toInt < 1600 then s
    else if reading.toInt < 1680 then { s with pwr := { s.pwr with cool := smPut 0 s.pwr.cool d 0 } } else
      let s1 := s.tempRead d reading
      let s2 := { s1 with pwr := { s1.pwr with force := putBit s1.pwr.force d true, cool := smPut 0 s1.pwr.cool d 0 } }
      (if d.val = 2 then [0, 1] else [d.val]).foldl State.forceDie s2

/-- A force is released at a tick boundary after a whole tick below 100 °C: the readings at its two boundaries, with no force
between. -/
def execThermalRelease (d : Fin 3) (s : State) : Out :=
  whenAlive s <|
    if s.tickEdge && decide (2 ≤ smGet 0 s.pwr.cool d) then { s with pwr := { s.pwr with force := putBit s.pwr.force d false } } else s

/-- A voltage monitor of a die trips: the die goes to OP0 and its rail to 0.65 V (spec/17 R386). -/
def execVoltageTrip (d : Fin 2) (s : State) : Out :=
  whenAlive s <|
    let s1 := { s with pwr := { s.pwr with vtrip := true, vtripDie := putBit s.pwr.vtripDie d true, vtripAt := smPut 0 s.pwr.vtripAt d s.tim.ns } }
    s1.forceDie d

/-- A sensor reads 115 °C or more: THERMTRIP_N falls and every clock stops, in reset too (spec/17 R387). -/
def execThermtrip (d : Fin 3) (reading : BitVec 16) (s : State) : Out :=
  .next <|
    if !s.board.pwrok || s.board.tripped || decide (reading.toInt < 1840) then s else
      let s1 := s.tempRead d reading
      { s1 with pwr := { s1.pwr with thermtripSeen := true }
                board := { s1.board with tripped := true, tripRecord := true } }

/-- A PMBus or AVSBus regulator stops or resumes answering (spec/23 R477). -/
def execRegulatorNotAnswering (rail : Fin 12) (answers : Bool) (s : State) : Out :=
  whenAlive s { s with pwr := { s.pwr with silent := putBit s.pwr.silent rail (!answers) } }

end Sys2Proof.Machine
end

