-- ==== Sys2Proof/Machine/Camera.lean ====
section
/-! DEFINITION. Camera input and the image pipeline (spec/21 R440-R458). Pixel values that pass the noise reduction, the
grids, the matrices and the curves are free within their ranges: the spec gives those stages no arithmetic (log entry 35). -/

namespace Sys2Proof.Machine

def State.setSensor (s : State) (n : Nat) (x : Sensor) : State :=
  { s with cam := { s.cam with sensors := smPut {} s.cam.sensors n x } }
def State.setBinding (s : State) (n : Nat) (x : Binding) : State :=
  { s with cam := { s.cam with binds := smPut {} s.cam.binds n x } }
def State.setCamPort (s : State) (p : Nat) (x : CamPort) : State :=
  { s with cam := { s.cam with ports := smPut {} s.cam.ports p x } }

/-! ### Configuration (spec/21 R441-R446) -/

/-- Pixels and bytes of a sensor's frame. -/
def SensRec.pixels (r : SensRec) : Nat := r.width * r.height
def SensRec.frameBytes (r : SensRec) : Nat := 2 * r.pixels
def SensRec.bits (r : SensRec) : Nat := 2 * (r.dt - 0x2A) + 8
/-- Sensor number 8·PORT + SLOT. -/
def SensRec.number (r : SensRec) : Nat := 8 * r.port + r.slot
/-- L of R452; 0 is taken as 2. -/
def SensRec.delay (r : SensRec) : Nat := if r.latency = 0 then 2 else r.latency

/-- A sensor record's fields. -/
def sensOf (b : List Byte) : SensRec :=
  { port := fieldN b 0 1 / 128, slot := fieldN b 0 1 % 8, vc := fieldN b 1 1, dt := fieldN b 2 1
    cfa := fieldN b 3 1 % 4, stripes := bitN (fieldN b 3 1) 4, width := fieldN b 4 2, height := fieldN b 6 2
    maxFps := fieldN b 8 1, latency := fieldN b 9 1, pedestal := fieldN b 10 2, fill := fieldN b 12 2
    embOffset := fieldN b 14 2, i3c := fieldN b 16 1, workVa := fieldN b 24 8 }

/-- A sensor record within its ranges (spec/21 R443). -/
def sensOk (b : List Byte) : Bool :=
  let r := sensOf b
  bits (fieldN b 0 1) 6 3 == 0 && decide (r.vc ≤ 31) && decide (0x2A ≤ r.dt) && decide (r.dt ≤ 0x2D)
    && bits (fieldN b 3 1) 3 2 == 0 && bits (fieldN b 3 1) 7 5 == 0
    && decide (64 ≤ r.width) && decide (r.width ≤ 8192) && r.width % 8 == 0
    && decide (64 ≤ r.height) && decide (r.height ≤ 8192) && r.height % 4 == 0
    && decide (1 ≤ r.maxFps) && decide (r.maxFps ≤ 240) && decide (r.latency ≤ 7) && zerosN b 17 24
    && r.workVa % 0x200000 == 0 && decide (r.workVa < 2 ^ 48)

/-- A binding record's fields. -/
def bindOf (b : List Byte) : BindRec :=
  { sensor := fieldN b 0 1, kind := fieldN b 1 1, tenant := fieldN b 2 1, slots := fieldN b 3 1, ringVa := fieldN b 4 6
    counter := fieldN b 10 1, cluster := fieldN b 11 1, vfmt := fieldN b 12 1, outW := fieldN b 14 2, outH := fieldN b 16 2
    crop := (List.range 4).map fun i => fieldN b (18 + 2 * i) 2
    ab := (List.range 6).map fun i => BitVec.ofNat 16 (fieldN b (26 + 2 * i) 2) }

/-- The source window of a V binding: the whole frame when CROP is all zeros. -/
def BindRec.window (r : BindRec) (w h : Nat) : Nat × Nat × Nat × Nat :=
  if r.crop.all (· == 0) then (0, 0, w, h) else (r.crop.getD 0 0, r.crop.getD 1 0, r.crop.getD 2 0, r.crop.getD 3 0)

/-- A binding record that may be served on a sensor of a frame size (spec/21 R446). -/
def bindOk (r : BindRec) (s : SensRec) : Bool :=
  let win := r.window s.width s.height
  decide (r.sensor ≤ 15) && decide (r.kind ≤ 3) && decide (r.tenant ≤ 63) && decide (2 ≤ r.slots) && decide (r.slots ≤ 64)
    && r.ringVa % 0x10000 == 0 && (r.counter == 0xFF || (decide (32 ≤ r.counter) && decide (r.counter ≤ 63)))
    && (r.counter == 0xFF || decide (r.cluster ≤ 95))
    && (r.kind != 3 || decide (r.vfmt ≤ 1))
    && (r.kind != 2 ||
      ((r.vfmt % 16 == 1 || r.vfmt % 16 == 8) && decide (r.vfmt < 32)
        && decide (8 ≤ r.outW) && decide (r.outW ≤ 4096) && decide (8 ≤ r.outH) && decide (r.outH ≤ 4096)
        && decide (win.1 + win.2.2.1 ≤ s.width) && decide (win.2.1 + win.2.2.2 ≤ s.height)
        && decide (r.outW ≤ win.2.2.1) && decide (win.2.2.1 ≤ 16 * r.outW)
        && decide (r.outH ≤ win.2.2.2) && decide (win.2.2.2 ≤ 16 * r.outH)))

/-- Records of a size in a list of bytes. -/
def chunks (n k : Nat) (bs : List Byte) : List (List Byte) := (List.range k).map fun i => (bs.drop (n * i)).take n

/-- The entry of tag 0x0031: sensor records and binding records; none where the counts do not fit. -/
def camEntry (bs : List Byte) : Option (List (List Byte) × List (List Byte)) :=
  let n := fieldN bs 0 4
  let m := fieldN bs (4 + 32 * n) 4
  if 1 ≤ n ∧ n ≤ 16 ∧ m ≤ 64 ∧ bs.length = 8 + 32 * n + 48 * m then
    some (chunks 32 n (bs.drop 4), chunks 48 m (bs.drop (8 + 32 * n)))
  else none

/-- The fault of a work area (spec/21 R444): the first page that is not mapped, or lacks W or PIN. -/
def State.workFault (s : State) (va : Nat) (n : Nat) : Nat → Option Byte
  | 0 => if n = 0 then none else some fTranslation
  | fuel + 1 =>
    if n = 0 then none
    else match s.leaf 0 va with
      | none => some fTranslation
      | some l => if l.w && l.pin then s.workFault (l.va + l.size) (n - (l.va + l.size - va)) fuel else some fPermission

/-- Payload bits per second of a port, times 7: 3 trios of 16 bits in 7 symbols (spec/21 R440). -/
def linkRate (p : Nat) : Nat := 48 * max 80000000 (min 4500000000 (Config.camSymbols p))

/-- Sensor numbers that the rates disable (spec/21 R445): highest first until 2.4 × 10⁹ pixels per second hold them, and
every sensor of a port whose link cannot carry its own; what the lowest rate carries fits any. -/
def overRate (rs : List SensRec) : List Nat :=
  let rate := fun (r : SensRec) => r.pixels * r.maxFps
  let load := fun (p : Nat) => 7 * sumN ((rs.filter fun r => r.port == p).map fun r => rate r * r.bits)
  let link := fun (p : Nat) => decide (48 * 80000000 < load p) && decide (linkRate p < load p)
  let drop := fun (n : Nat) =>
    decide (2400000000 < sumN ((rs.filter fun r => decide (r.number ≤ n)).map rate))
  (rs.filter fun r => drop r.number || link r.port).map (·.number)

/-- The fault of a sensor's work area, and of a line of an assembly frame in it (spec/21 R444). -/
def State.areaFault (s : State) (r : SensRec) : Option Byte := s.workFault r.workVa (3 * r.frameBytes) ((s.ten 0).leaves.length + 1)
def State.lineFault (s : State) (r : SensRec) (buf i : Nat) : Option Byte :=
  s.workFault (r.workVa + buf * r.frameBytes + 2 * r.width * i) (2 * r.width) ((s.ten 0).leaves.length + 1)

/-- A record and a STATE that the configuration gives a sensor: the record applies at the next frame start, and a frame in progress
is finished first (spec/21 R457). -/
def Sensor.take (x : Sensor) (r : Option SensRec) (st : Nat) (code : Byte) : Sensor :=
  if x.cur.isSome then { x with next := some r, after := some (st, code) }
  else { x with next := some r, after := none, state := st, code := code }

/-- The sensors and bindings of the configuration in effect: each applies at its sensor's next frame start (spec/21 R443,
R457). The CODE of a sensor that its record disables is stated only for a fault of its work area; otherwise it is free. -/
def State.applyCam (s : State) (entry : Option (List Byte)) : State :=
  let e := (entry.bind camEntry).getD ([], [])
  let recs := e.1.map fun b => (sensOf b, sensOk b)
  let nums := recs.map (·.1.number)
  let bad := fun (i : Nat) (r : SensRec × Bool) =>
    !r.2 || (recs.take i).any (fun q => q.1.port == r.1.port && q.1.vc == r.1.vc)
  let good := (recs.zipIdx.filter fun x => !bad x.2 x.1).map (·.1.1)
  let good := good.filter fun r => decide ((nums.filter (· == r.number)).length ≤ 1)
  let fast := overRate good
  let sens := fun (s : State) (n : Nat) =>
    let x := { s.sensor n with vc := (recs.find? fun (r : SensRec × Bool) => r.1.number == n).map fun (r : SensRec × Bool) => r.1.vc }
    s.setSensor n (match good.find? fun r => r.number == n with
    | none => x.take none (if nums.contains n then 2 else 0) (if nums.contains n then BitVec.ofNat 8 (s.free n) else 0)
    | some r =>
      if fast.contains n then x.take none 2 (BitVec.ofNat 8 (s.free n))
      else match s.areaFault r with
        | some f => x.take (some r) 2 f
        | none => x.take (some r) (if x.state = 2 then 0 else x.state) 0)
  let s1 := ((List.range 16).foldl sens s).bump
  (List.range 64).foldl (fun s n => s.setBinding n { s.binding n with next := some ((e.2[n]?).map bindOf) }) s1

/-! ### Frames (spec/21 R449, R451-R455) -/

def flTruncated : Nat := 0
def flOverlong : Nat := 1
def flLineErr : Nat := 2
def flPartial : Nat := 3
def flSkipped : Nat := 4
def flNrReset : Nat := 5
def flTagEmb : Nat := 6
def flMismatch : Nat := 7
def CamFrame.flag (f : CamFrame) (i : Nat) : CamFrame := { f with flags := putBit f.flags i true }

/-- The settings tag that a frame is predicted to carry (spec/21 R453). -/
def Sensor.predict (x : Sensor) (n delay : Nat) : BitVec 16 :=
  ((findLast (fun w => decide (w.1 ≤ (n : Int) - delay)) x.writes).map (·.2)).getD 0

/-- A row of the work area written: 16-bit little-endian samples. -/
def State.putLine (s : State) (r : SensRec) (buf i : Nat) (px : List (BitVec 16)) : State :=
  s.wrVa 0 (r.workVa + buf * r.frameBytes + 2 * r.width * i) (px.flatMap fun p => leBytes 2 p.toNat) srcCam

/-- A frame in progress ends (spec/21 R453-R455): missing lines are filled, its tag is taken; `cut` where no frame end came. -/
def State.endFrame (s : State) (n : Nat) (cut : Bool) : State :=
  let x := s.sensor n
  match x.cur with
  | none => s
  | some f =>
    let r := f.sens
    let short := decide (f.lines < r.height)
    let s1 := (List.range (r.height - f.lines)).foldl (fun s i =>
      s.putLine r f.buf (f.lines + i) (List.replicate r.width (BitVec.ofNat 16 r.fill))) s
    let f0 := if short || cut then f.flag flTruncated else f
    let f1 := if short then f0.flag flPartial else f0
    let p := x.predict f.count r.delay
    let f2 := match f.emb with
      | some v => if v = p then { f1.flag flTagEmb with tag := v } else { (f1.flag flTagEmb).flag flMismatch with tag := v }
      | none => { f1 with tag := p }
    let f3 := { f2 with endNs := s.beat * 1000 }
    s1.setSensor n { x with
      cur := none, waiting := x.waiting ++ [f3], frames := x.frames + 1
      truncated := if short || cut then x.truncated + 1 else x.truncated
      overlong := if f.flags.getLsbD flOverlong then x.overlong + 1 else x.overlong
      state := (x.after.map (·.1)).getD x.state, code := (x.after.map (·.2)).getD x.code, after := none }

/-- A sensor leaves PRESENT: its frame in progress ends (spec/21 R455). -/
def State.leavePresent (s : State) (n : Nat) : State :=
  let s1 := s.endFrame n true
  let x := s1.sensor n
  if x.state = 1 then s1.setSensor n { x with state := 0 } else s1

/-- A sensor whose work area faults reads DISABLED, until a frame starts over an area that does not (spec/21 R444). -/
def State.camFault (s : State) (n : Nat) (f : Byte) : State :=
  let s1 := s.leavePresent n
  s1.setSensor n { s1.sensor n with state := 2, code := f }

/-- Bindings into the tenant space write nothing: its function was reset and does not run yet (spec/21 R457). -/
def State.suspends (s : State) (t : Nat) : Bool := (s.fn t).resetBeat.isSome && (s.fn t).state != 2

/-- Records of the bindings of a sensor take effect at its frame start (spec/21 R446, R457). One that is REFUSED writes nothing, not
of the frames before either. -/
def State.startBindings (s : State) (n : Nat) (r : SensRec) : State :=
  (List.range 64).foldl (fun s b =>
    let x := s.binding b
    let new := match x.next with | some c => c | none => x.cfg
    let mine := fun (c : Option BindRec) => match c with | some q => q.sensor == n | none => false
    if !mine new && !mine x.cfg then s else
      match new with
      | none => s.setBinding b { x with cfg := none, next := none, state := 0, seq := 0 }
      | some q =>
        if q.sensor ≠ n then s else
        let ok := bindOk q r && (q.kind != 3 || s.cam.rawMask.getLsbD q.tenant)
        let s1 := s.setBinding b { x with
          cfg := some q, next := none, seq := if x.cfg = some q then x.seq else 0
          state := if !ok then 2 else if s.suspends q.tenant then 3 else 1 }
        if ok then s1 else
          let y := s1.sensor n
          let drop := fun (f : CamFrame) => { f with binds := f.binds.filter fun d => d.bind != b }
          s1.setSensor n { y with
            waiting := y.waiting.map drop, out := (y.out.map drop).filter fun f => !f.binds.isEmpty }) s

/-- The deliveries of a frame that starts: its sensor's bindings that are served, each with the SEQ after those of the frames before. -/
def State.dues (s : State) (n : Nat) : List CamDue :=
  let x := s.sensor n
  (List.range 64).filterMap fun b =>
    let y := s.binding b
    match y.cfg with
    | some q =>
      if q.sensor = n ∧ (y.state = 1 ∨ y.state = 3) then
        let before := (x.waiting ++ x.out).filter fun f => f.binds.any fun d => d.bind == b && d.rcd == q
        some { bind := b, rcd := q, seq := y.seq + BitVec.ofNat 64 before.length }
      else none
    | none => none

/-- The record that a sensor's next frame start uses. -/
def Sensor.record (x : Sensor) : Option SensRec := match x.next with | some c => c | none => x.cfg

/-- The sensor that a virtual channel of a port names, by the record that the next frame start uses. -/
def State.sensorAt (s : State) (p vc : Nat) : Option (Nat × SensRec) :=
  (List.range 8).findSome? fun i =>
    let n := 8 * p + i
    match (s.sensor n).record with
    | some r => if r.vc = vc then some (n, r) else none
    | none => none

/-- The sensor whose frame in progress a virtual channel carries. -/
def State.runningAt (s : State) (p vc : Nat) : Option (Nat × CamFrame) :=
  (List.range 8).findSome? fun i =>
    let n := 8 * p + i
    match (s.sensor n).cur with
    | some f => if f.sens.vc = vc then some (n, f) else none
    | none => none

/-- A frame start on a virtual channel that no sensor of the port has; of one that is DISABLED nothing is stray (spec/21 R441). -/
def State.strayFrame (s : State) (p vc : Nat) : State :=
  if (List.range 8).any fun i => (s.sensor (8 * p + i)).vc == some vc then s
  else s.setCamPort p { s.camPort p with stray := true }

/-- What a virtual channel carries outside a frame: it is sent by the sensor, and one of another data type counts (spec/21 R440,
R456). -/
def State.heardAt (s : State) (p vc : Nat) (dt : Option Byte) : State :=
  match s.sensorAt p vc with
  | none => s
  | some (n, r) =>
    let x := s.sensor n
    let other := match dt with | some d => d != 0x12 && d.toNat != r.dt | none => false
    s.setSensor n { x with lastNs := s.tim.ns, crcErrors := if other then x.crcErrors + 1 else x.crcErrors }

/-- Tag writes at the first frame of a presence, which restarts the count: the last of those before it has long applied, and those
that belong to it are frame 0's (spec/21 R452, R456). -/
def Sensor.rebased (x : Sensor) : List (Int × BitVec 16) :=
  let old := x.writes.filter fun w => decide (w.1 < (x.frameNo : Int))
  (old.getLast?.map fun w => ((-16 : Int), w.2)).toList
    ++ (x.writes.filter fun w => !decide (w.1 < (x.frameNo : Int))).map fun w => ((0 : Int), w.2)

/-- A frame of a sensor starts under a record (spec/21 R451, R456). -/
def State.startFrame (s : State) (n : Nat) (r : SensRec) : State :=
  let s1 := (s.setSensor n { s.sensor n with cfg := some r, next := none }).startBindings n r
  let x := s1.sensor n
  let fresh := x.state != 1
  let late := decide (2 ≤ x.waiting.length) && (match x.waiting with | f :: _ => f.stripes == 0 | [] => false)
  let skip := if late then (x.waiting.take 1).map fun f => f.flag flSkipped else []
  let count := if fresh then 0 else x.frameNo
  let f : CamFrame := { count := count, start := s.beat * 1000, buf := count % 2, sens := r, binds := s1.dues n }
  s1.setSensor n { x with
    state := 1, code := 0, cur := some (if fresh then f.flag flNrReset else f), frameNo := count + 1, lastNs := s.tim.ns
    waiting := if late then x.waiting.drop 1 else x.waiting
    out := x.out ++ skip.filter fun e => !e.binds.isEmpty
    skipped := if late then x.skipped + 1 else x.skipped
    writes := if fresh then x.rebased else x.writes }

/-- A frame start (spec/21 R441, R444, R451, R455-R457): the frame that the channel or the sensor has in progress ends. -/
def execCamFrameStart (p : Fin 2) (vc : Fin 32) (s : State) : Out :=
  whenAlive s <|
    if !(s.camPort p).hpd then s else
    let s := match s.runningAt p vc with | some (n, _) => s.endFrame n true | none => s
    match s.sensorAt p vc with
    | none => s.strayFrame p vc
    | some (n, r) =>
      let s := s.endFrame n true
      match s.areaFault r with
      | some f => s.camFault n f
      | none => s.startFrame n r

/-- A received line (spec/21 R440, R453, R454). A packet whose header fails is discarded. -/
def execCamLine (p : Fin 2) (vc : Fin 32) (dt : Byte) (px : List (BitVec 16)) (hdrOk crcOk : Bool) (s : State) : Out :=
  whenAlive s <|
    if !hdrOk || !(s.camPort p).hpd then s else
    match s.runningAt p vc with
    | none => s.heardAt p vc (some dt)
    | some (n, f) =>
      let r := f.sens
      let x := { s.sensor n with lastNs := s.tim.ns }
      if dt = 0x12 then
        if !crcOk then s.setSensor n { x with crcErrors := x.crcErrors + 1 }
        else
          let v := match px[r.embOffset]?, px[r.embOffset + 1]? with
            | some a, some b => if r.embOffset = 0xFFFF then none else some (a % 256 + 256 * (b % 256))
            | _, _ => none
          s.setSensor n { x with cur := some { f with emb := match v with | some t => some t | none => f.emb } }
      else if dt.toNat ≠ r.dt then s.setSensor n { x with crcErrors := x.crcErrors + 1 }
      else if r.height ≤ f.lines then
        s.setSensor n { x with
          cur := some { f.flag flOverlong with received := f.received + 1 }
          crcErrors := if crcOk then x.crcErrors else x.crcErrors + 1 }
      else
        let fill := BitVec.ofNat 16 r.fill
        let line := if crcOk then (px ++ List.replicate (r.width - px.length) fill).take r.width else List.replicate r.width fill
        let err := !crcOk || px.length != r.width
        let g := if err then { f.flag flLineErr with lineErrors := f.lineErrors + 1 } else f
        let t := (s.putLine r f.buf f.lines line).setSensor n { x with
          cur := some { g with lines := f.lines + 1, received := f.received + 1 }
          lineErrors := if err then x.lineErrors + 1 else x.lineErrors
          crcErrors := if crcOk then x.crcErrors else x.crcErrors + 1 }
        match s.lineFault r f.buf f.lines with
        | some e => t.camFault n e
        | none => t

/-- A frame end. -/
def execCamFrameEnd (p : Fin 2) (vc : Fin 32) (s : State) : Out :=
  whenAlive s <|
    if !(s.camPort p).hpd then s else
    let t := s.heardAt p vc none
    match t.runningAt p vc with
    | some (n, _) => t.endFrame n false
    | none => t

/-- Whether a sensor has been silent for k frame periods of a record. -/
def State.silent (s : State) (n k : Nat) (r : SensRec) : Bool :=
  decide (k * 1000000000 ≤ (s.tim.ns - (s.sensor n).lastNs) * r.maxFps)

/-- No line for two frame periods (spec/21 R455). -/
def execCamSilenceTimeout (n : Fin 16) (s : State) : Out :=
  whenAlive s <| match (s.sensor n).cur with
  | some f => if s.silent n 2 f.sens then s.endFrame n true else s
  | none => s

def execCamPresenceTimeout (n : Fin 16) (s : State) : Out :=
  whenAlive s <| match (s.sensor n).cfg with
  | some r => if (s.sensor n).state == 1 && s.silent n 3 r then s.leavePresent n else s
  | none => s

/-- CAM_HPD[p] changes (spec/21 R456). -/
def execCamHpd (p : Fin 2) (level : Bool) (s : State) : Out :=
  whenAlive s <|
    let s1 := s.setCamPort p { s.camPort p with hpd := level, link := level }
    if level then s1 else (List.range 8).foldl (fun s i => s.leavePresent (8 * p + i)) s1

/-- A frame start of the sensor waits in this beat: a settings write of the beat comes after it (spec/21 R452). -/
def State.startComing (s : State) (n : Nat) : Bool :=
  s.pending.any fun i => match i with
    | .camFrameStart p vc => (s.sensorAt p vc).map (·.1) == some n
    | _ => false

/-- VIS writes exposure settings with the next tag (spec/21 R452). -/
def execCamSettingsWrite (n : Fin 16) (s : State) : Out :=
  whenAlive s <|
    let x := s.sensor n
    if !s.groomUp 3 || x.record.isNone then s else
      let t := if x.tag + 1 = 0 then 1 else x.tag + 1
      let f : Int := if s.startComing n then x.frameNo else (x.frameNo : Int) - 1
      let w := (x.writes.filter fun w => w.1 != f) ++ [(f, t)]
      s.setSensor n { x with tag := t, writes := w.drop (w.length - 16) }

/-! ### The pipeline (spec/21 R447, R451) -/

/-- Ready work: start beat, sensor, whether the frame still assembles. -/
def State.camWork (s : State) : List (Nat × Nat × Bool) :=
  (List.range 16).filterMap fun n =>
    let x := s.sensor n
    match x.waiting, x.cur with
    | f :: _, _ => some (f.start, n, false)
    | [], some f => if f.sens.stripes && decide (64 * (f.stripes + 1) ≤ f.lines) then some (f.start, n, true) else none
    | _, _ => none

/-- A line of the work area, or the fault that reading it meets. -/
def State.camRow (s : State) (r : SensRec) (buf i : Nat) : List Byte ⊕ Byte :=
  s.rdVa 0 (r.workVa + buf * r.frameBytes + 2 * r.width * i) (2 * r.width)

/-- Lines of a frame whose memory fails are replaced by FILL; the error is counted (spec/21 R457, spec/10 R245, R247). -/
def State.mendLines (s : State) (r : SensRec) (f : CamFrame) : State × CamFrame :=
  (List.range r.height).foldl (fun a i => match a.1.camRow r f.buf i with
    | .inl _ => a
    | .inr e =>
      let line := addrs (r.workVa + f.buf * r.frameBytes + 2 * r.width * i) (2 * r.width)
      let s1 := if e = fEcc then a.1.eccMet (a.1.physTen 0 line) 0 else a.1
      (s1.putLine r f.buf i (List.replicate r.width (BitVec.ofNat 16 r.fill)), a.2.flag flLineErr)) (s, f)

/-- The assembled samples of a frame, a line that cannot be read as FILL. -/
def State.rawSamples (s : State) (f : CamFrame) : List Byte :=
  (List.range f.sens.height).flatMap fun i => match s.camRow f.sens f.buf i with
    | .inl bs => bs
    | .inr _ => (List.replicate f.sens.width (BitVec.ofNat 16 f.sens.fill)).flatMap fun p => leBytes 2 p.toNat

/-- A delivery of the samples as they were assembled. -/
def CamDue.taps (d : CamDue) : Bool := d.rcd.kind == 3 && d.rcd.vfmt % 2 == 0

/-- A frame goes through the pipeline, with its own record; its picture and statistics are drawn, once. Its reference rows, of the lines
received, take new values, which are free. -/
def State.runFrame (s : State) (n : Nat) (f : CamFrame) (rest : List CamFrame) : State :=
  let r := f.sens
  let area := addrs (r.workVa + f.buf * r.frameBytes) r.frameBytes
  if s.shutTen 0 area then s else
    let m := (s.pull 0 area srcCam).mendLines r f
    let g := { m.2 with draw := m.1.freeIx, raw := if f.binds.any (·.taps) then m.1.rawSamples f else [] }
    let ref := (List.range (2 * r.width * min f.received r.height)).map fun i => BitVec.ofNat 8 (m.1.free (2 ^ 52 + i))
    let s1 := m.1.wrVa 0 (r.workVa + 2 * r.frameBytes) ref srcCam
    let y := s1.sensor n
    let s2 := (s1.setSensor n { y with waiting := rest, out := if g.binds.isEmpty then y.out else y.out ++ [g] }).bump
    match s.areaFault r with
    | some e => if (s2.sensor n).state = 1 ∧ (s2.sensor n).cfg = some r then s2.camFault n e else s2
    | none => s2

/-- One frame or stripe, by ascending frame start and sensor number. -/
def execCamPipelineRun (s : State) : Out :=
  whenAlive s <| match s.camWork with
  | [] => s
  | w :: ws =>
    let best := ws.foldl (fun m x => if x.1 < m.1 ∨ (x.1 = m.1 ∧ x.2.1 < m.2.1) then x else m) w
    let n := best.2.1
    let x := s.sensor n
    if best.2.2 then
      match x.cur with
      | some f => s.setSensor n { x with cur := some { f with stripes := f.stripes + 1 } }
      | none => s
    else match x.waiting with
      | [] => s
      | f :: rest =>
        if f.sens.stripes && decide (64 * (f.stripes + 1) < f.sens.height) then
          s.setSensor n { x with waiting := { f with stripes := f.stripes + 1 } :: rest }
        else s.runFrame n f rest

/-! ### Delivery (spec/21 R448-R450) -/

/-- A free value of a frame's picture, and a sample of it within [lo, lo + n). -/
def CamFrame.free (f : CamFrame) (i : Nat) : Nat := Config.freeNat f.draw (i + 1)
def CamFrame.sample (f : CamFrame) (i lo n : Nat) : Nat := lo + f.free i % n

/-- D: 8-bit limited range, Y plane and interleaved Cb, Cr plane. -/
def CamFrame.imageD (f : CamFrame) : List Byte :=
  let r := f.sens
  (List.range r.pixels).map (fun i => BitVec.ofNat 8 (f.sample i 16 220))
    ++ (List.range (r.pixels / 2)).map fun i => BitVec.ofNat 8 (f.sample (r.pixels + i) 16 225)

/-- C: 10-bit tiles, three samples to a word; samples right of the width are 64. -/
def CamFrame.imageC (f : CamFrame) : List Byte :=
  let r := f.sens
  let cols := ceilDiv r.width 96
  let word := fun (i n : Nat) (pad : Nat → Bool) =>
    let v := fun (k : Nat) => if pad k then 64 else f.sample (2 ^ 44 + 3 * i + k) 64 n
    leBytes 4 (v 0 + 1024 * v 1 + 1048576 * v 2)
  let luma := (List.range (cols * ceilDiv r.height 16)).flatMap fun t => (List.range 512).flatMap fun k =>
    word (512 * t + k) 877 fun j => decide (r.width ≤ 96 * (t % cols) + 3 * (k % 32) + j)
  let n := 512 * cols * ceilDiv r.height 16
  let chroma := (List.range (cols * ceilDiv (r.height / 2) 8)).flatMap fun t => (List.range 256).flatMap fun k =>
    word (n + 256 * t + k) 897 fun j => decide (r.width ≤ 96 * (t % cols) + 3 * (k % 32) + j)
  luma ++ chroma

/-- A BF16 sample v × A + B with v free in [0, 1]: any pattern from B's to that of A + B, rounded (spec/21 R447, R448, spec/03 R59,
R63). -/
def vSample (r a b : Nat) : Nat :=
  let round := fun (v : Val) => (toFloat .nearest 1 0 v).bits
  let A := floatVal 1 a
  let B := floatVal 1 b
  if A.isNan || B.isNan || (A.isInf && r % 2 == 0) then nanBits 1
  else
    let low := round B
    let one := round (A.add B)
    let x := floatVal 1 (r % 65536)
    let v0 := floatVal 1 low
    let v1 := floatVal 1 one
    if A.isInf || B.isInf then one
    else if (v0.le x && x.le v1) || (v1.le x && x.le v0) then r % 65536 else low

/-- V: planes of OUT_H rows, each row padded to 64 bytes. The samples are free within their range, the padding wholly. -/
def CamFrame.imageV (f : CamFrame) (b : BindRec) : List Byte :=
  let wide := b.vfmt % 16 == 1
  let row := b.outW * (if wide then 2 else 1)
  let pitch := roundUp row 64
  (List.range (b.outH * (if bitN b.vfmt 4 then 1 else 3))).flatMap fun k =>
    let ab := fun (i : Nat) => (b.ab.getD (2 * (k / b.outH) + i) 0).toNat
    let at' := fun (i : Nat) => f.free (2 ^ 45 + k * pitch + i)
    (if wide then (List.range b.outW).flatMap fun i => leBytes 2 (vSample (at' i) (ab 0) (ab 1))
     else (List.range b.outW).map fun i => BitVec.ofNat 8 (at' i))
    ++ (List.range (pitch - row)).map fun i => BitVec.ofNat 8 (at' (row + i))

/-- A sample after noise reduction, the pedestal in it (spec/21 R447). -/
def CamFrame.clean (f : CamFrame) (i : Nat) : Nat := f.sample (2 ^ 46 + i) 0 (2 ^ f.sens.bits)

/-- T: the samples as they were assembled, or after noise reduction. -/
def CamFrame.imageT (f : CamFrame) (tap : Nat) : List Byte :=
  if tap = 0 then f.raw else (List.range f.sens.pixels).flatMap fun i => leBytes 2 (f.clean i)

/-- The colour of a pixel: 0 R, 1 G, 2 B (spec/21 R443). -/
def cfaColour (cfa x y : Nat) : Nat :=
  let p : List Nat := match cfa with | 0 => [0, 1, 1, 2] | 1 => [1, 0, 2, 1] | 2 => [1, 2, 0, 1] | _ => [2, 1, 1, 0]
  p.getD (2 * (y % 2) + x % 2) 0

/-- Pixels that the statistics cover: those of the lines assembled from received ones (spec/21 R454). -/
def CamFrame.covered (f : CamFrame) : List Nat := List.range (f.sens.width * min f.lines f.sens.height)

/-- GRID: R, G and B sums of 16 × 16 zones after PEDESTAL is subtracted, saturating (spec/21 R447, R449). The zones divide the frame
evenly (log entry 35). -/
def CamFrame.grid (f : CamFrame) : List Byte :=
  let r := f.sens
  (List.range 768).flatMap fun k =>
    let zone := fun (i : Nat) => 16 * (16 * (i / r.width) / r.height) + 16 * (i % r.width) / r.width
    let mine := f.covered.filter fun i => zone i == k / 3 && cfaColour r.cfa (i % r.width) (i / r.width) == k % 3
    leBytes 4 (min 0xFFFFFFFF (sumN (mine.map fun i => f.clean i - r.pedestal)))

/-- HIST: 64 bins of luma after the tone curve. -/
def CamFrame.hist (f : CamFrame) : List Byte :=
  (List.range 64).flatMap fun k => leBytes 4 (f.covered.filter fun i => f.free (2 ^ 47 + i) % 64 == k).length

/-- Bytes of an image. -/
def imageBytes (b : BindRec) (r : SensRec) : Nat :=
  match b.kind with
  | 0 => r.pixels + r.pixels / 2
  | 1 => ceilDiv r.width 96 * (ceilDiv r.height 16 * 2048 + ceilDiv (r.height / 2) 8 * 1024)
  | 2 => roundUp (b.outW * (if b.vfmt % 16 = 1 then 2 else 1)) 64 * b.outH * (if bitN b.vfmt 4 then 1 else 3)
  | _ => 2 * r.pixels

/-- The pitch of a ring's slots (spec/21 R449). -/
def ringPitch (b : BindRec) (r : SensRec) : Nat := roundUp (4096 + imageBytes b r) 65536

/-- The frame record (spec/21 R449); a frame that did not go through the pipeline has no statistics. -/
def CamFrame.record (f : CamFrame) (seq : W64) : List Byte :=
  leBytes 8 seq.toNat ++ leBytes 8 f.count ++ leBytes 8 f.start ++ leBytes 8 f.endNs ++ leBytes 2 f.flags.toNat
    ++ leBytes 2 f.tag.toNat ++ leBytes 2 (min f.received 65535) ++ leBytes 2 (min f.lineErrors 65535)
    ++ List.replicate 216 0
    ++ (if f.flags.getLsbD flSkipped then List.replicate 3328 0 else f.grid ++ f.hist) ++ List.replicate 512 0

/-- The image that a binding delivers of a frame; none of one that was skipped. -/
def CamFrame.image (f : CamFrame) (b : BindRec) : List Byte :=
  if f.flags.getLsbD flSkipped then []
  else match b.kind with
    | 0 => f.imageD
    | 1 => f.imageC
    | 2 => f.imageV b
    | _ => f.imageT (b.vfmt % 2)

/-- The physical bytes a binding's write reaches in its tenant space, in rising order, up to the first that faults
(spec/21 R450). -/
def State.camPlaces (s : State) (t va : Nat) : List Byte → List (Nat × Byte × Byte) × Option Byte
  | [] => ([], none)
  | b :: bs =>
    let deny := if isWindow va then (match s.window 0 va with
        | .phys pa => s.segTag pa != some t
        | _ => false)
      else !s.memc.separate && (match s.leaf t va with | some l => !l.w | none => false)
    match s.access t 0 va false with
    | .inr f => ([], some f)
    | .inl pa => if deny then ([], some fPermission) else
      let r := s.camPlaces t (va + 1) bs
      ((pa, 0xFF, b) :: r.1, r.2)

/-- Bytes written for a binding, up to the first that faults. -/
def State.camWrite (s : State) (t va : Nat) (bs : List Byte) : State × Option Byte :=
  let p := s.camPlaces t va bs
  (s.wrNow p.1 srcCam, p.2)

/-- The counter of a binding is signalled, if its tag is the tenant space's. -/
def State.camSignal (s : State) (n : Nat) (b : BindRec) : State :=
  if b.counter = 0xFF then s
  else if smGet none (s.cl b.cluster).sharedTag b.counter = some b.tenant then s.modCl b.cluster fun k => k.signal 0 b.counter 1
  else s.setBinding n { s.binding n with sigDropped := true }

/-- A delivery of one frame: image, record, signal. The SEQ of a binding whose record has changed since
is the new record's. -/
def State.deliverTo (s : State) (d : CamDue) (f : CamFrame) : State :=
  let b := d.rcd
  let x := s.binding d.bind
  let same := decide (x.cfg = some b)
  let s0 := if same then s.setBinding d.bind { x with seq := d.seq + 1 } else s
  if same && x.state == 3 then s0 else
    let base := b.ringVa + d.seq.toNat % max 1 b.slots * ringPitch b f.sens
    let w := s0.camWrite b.tenant (base + 4096) (f.image b)
    let w2 := match w.2 with | some _ => w | none => w.1.camWrite b.tenant base (f.record d.seq)
    (match w2.2 with
    | some e => w2.1.setBinding d.bind { w2.1.binding d.bind with code := e, faults := satAdd x.faults 1 }
    | none => w2.1.camSignal d.bind b).bump

/-- The oldest frame of a sensor that is still to be delivered to binding n. -/
def State.dueTo (s : State) (n : Nat) : Option (Nat × Nat × CamFrame × CamDue) :=
  (List.range 16).findSome? fun k =>
    (s.sensor k).out.zipIdx.findSome? fun e => (e.1.binds.find? fun d => d.bind == n).map fun d => (k, e.2, e.1, d)

/-- The oldest frame that binding n has not received is delivered to it, under the records of its start (spec/21 R449, R457). -/
def execCamDeliver (n : Fin 64) (s : State) : Out :=
  whenAlive s <| match s.dueTo n with
  | none => s
  | some (k, i, f, d) =>
    let x := s.sensor k
    let left := f.binds.filter fun e => e.bind != n.val
    let s1 := s.setSensor k { x with
      out := if left.isEmpty then x.out.eraseIdx i else x.out.set i { f with binds := left } }
    s1.deliverTo d f

end Sys2Proof.Machine
end

