-- ==== Sys2Proof/Machine/Flash.lean ====
section
/-! DEFINITION. The flash array: sectors, command sequences, execute-only regions, the erase journal, slots and commit
records, the health record and wear (spec/20 R423-R439, spec/22 R470). -/

namespace Sys2Proof.Machine

/-! ### Sectors (spec/20 R423, R424) -/

def windowBase : Nat := 0x20000000
def arrayBytes : Nat := 0x8000000
def flashKey1 : Nat := 0x2000AAA8
def flashKey2 : Nat := 0x20005554

/-- The sector of an array offset. -/
def sectorOf (x : Nat) : Nat := if x < 0x40000 then x / 0x2000 else 32 + (x - 0x40000) / 0x40000
def sectorSize (n : Nat) : Nat := if n < 32 then 0x2000 else 0x40000

/-- Bytes programmed: each bit becomes the AND of its old value and the data bit (spec/20 R427). -/
def Fls.prog (f : Fls) (x : Nat) (bs : List Byte) : Fls :=
  { f with arr := bs.zipIdx.foldl (fun m b => smPut 0xFF m (x + b.2) (smGet 0xFF m (x + b.2) &&& b.1)) f.arr }
/-- A sector of all ones. -/
def Fls.blank (f : Fls) (n : Nat) : Fls := { f with arr := smCut f.arr (sectorBase n) (sectorBase n + sectorSize n) }

/-! ### Health record and wear (spec/20 R436-R438, spec/22 R470) -/

/-- The highest-numbered usable sector of the log ring. -/
def Fls.lastRing (f : Fls) : Option Nat :=
  findLast (fun n => !f.unusable.contains n && !f.reloc.any fun e => e.2 == n) ((List.range 355).map (· + 188))

/-- A sector becomes unusable (spec/20 R438). -/
def State.loseSector (s : State) (n : Nat) : State :=
  let f := s.fls
  if f.unusable.contains n then s else
    let f1 := { f with unusable := f.unusable ++ [n], usable := f.usable - 1, healthDirty := true, healthUrgent := true }
    let fixed := (List.range 156).find? fun m => f.fixedSector m == n
    let f2 := if 188 ≤ n ∧ fixed.isNone then { f1 with ring := f1.ring - 1 }
      else match fixed, f1.lastRing with
        | some m, some r => { f1 with reloc := smPut (m + 32) f1.reloc m r, ring := f1.ring - 1 }
        | _, _ => f1
    ({ s with fls := f2 }).logEvent 8 n

/-- An erase of a sector ends with p pulses (spec/20 R429, R437, R438). -/
def State.eraseDone (s : State) (n p : Nat) (ok : Bool) : State :=
  let f := s.fls
  let was := smGet 0 f.pulses n
  let worn := decide (24 < p)
  let some1 := fun (m : SMap Byte) (e : Nat × Byte) => smPut 0xFF m e.1 (e.2 ||| BitVec.ofNat 8 (s.free (e.1 + 1)))
  let f1 := if ok then f.blank n
    else { f with arr := (smKeep f.arr (sectorBase n) (sectorBase n + sectorSize n)).foldl some1 f.arr }
  let x := smGet (0, 0) f.failedOnce n
  let f2 := { f1 with
    lastPulses := BitVec.ofNat 7 p, lastResult := !ok, lastSector := BitVec.ofNat 10 n
    eraseFail := f1.eraseFail || !ok, wear := f1.wear || worn, erases := f1.erases + 1
    wearCount := if worn && decide (was ≤ 24) then f1.wearCount + 1 else f1.wearCount
    wearLast := if worn && decide (was ≤ 24) then BitVec.ofNat 10 n else f1.wearLast
    pulses := smPut 0 f1.pulses n (max was p), healthDirty := f1.healthDirty || decide (was < p)
    failedOnce := smPut (0, 0) f1.failedOnce n (if x.1 = 1 then (2, x.2) else x) }
  let s1 := ({ s with fls := f2 }).bump
  if ok then s1 else s1.loseSector n

/-- Words a program brings to the array: exact where it ends well, otherwise bits to be cleared may stay (spec/20 R427). A second
failure in a sector that was re-erased since the first loses it, and the same program ending well clears the first (R438). -/
def State.programDone (s : State) (ws : List (Nat × W32)) (ok : Bool) : State :=
  let f := s.fls
  let at' := (ws.headD (0, 0)).1
  let n := sectorOf at'
  let x := smGet (0, 0) f.failedOnce n
  let bytes := ws.flatMap fun w => (leBytes 4 w.2.toNat).zipIdx.map fun b => (w.1 + b.2, b.1)
  let res := bytes.map fun b =>
    (b.1, f.rd b.1 &&& (if ok then b.2 else b.2 ||| BitVec.ofNat 8 (s.free (b.1 + 1))), b.2)
  let f1 := { f with
    arr := res.foldl (fun m b => smPut 0xFF m b.1 b.2.1) f.arr
    progErr := f.progErr || res.any fun b => b.2.1 != b.2.2
    progFail := f.progFail || !ok
    failedOnce := if ok then (if x.1 ≠ 0 ∧ x.2 = at' then smPut (0, 0) f.failedOnce n (0, 0) else f.failedOnce)
      else if x.1 = 2 then f.failedOnce else smPut (0, 0) f.failedOnce n (1, at') }
  let s1 := ({ s with fls := f1 }).bump
  if !ok ∧ x.1 = 2 then s1.loseSector n else s1

/-! ### The erase journal (spec/20 R432, R433) -/

/-- Entry k of journal sector j, where it is valid: SEQ, sector, pending. -/
def Fls.journalEntry (f : Fls) (j k : Nat) : Option (Nat × Nat × Bool) :=
  let b := f.rds (sectorBase j + 16 * k) 16
  if fieldN b 0 4 = 0xFFFFFFFF ∨ BitVec.ofNat 32 (fieldN b 8 4) ≠ crc32c (b.take 8) then none
  else some (fieldN b 0 4, fieldN b 4 4 % 1024, fieldN b 12 4 == 0xFFFFFFFF)

/-- Valid entries of the journal sectors in use: address, SEQ, sector, pending. -/
def Fls.journal (f : Fls) : List (Nat × Nat × Nat × Bool) :=
  (List.range 1024).filterMap fun i =>
    if f.unusable.contains (i / 512) then none else (f.journalEntry (i / 512) (i % 512)).map fun e => (16 * i, e)

/-- The address and SEQ of the newest valid entry. -/
def Fls.journalTop (f : Fls) : Option (Nat × Nat) :=
  f.journal.foldl (fun m e => match m with
    | some x => if x.2 < e.2.1 then some (e.1, e.2.1) else m
    | none => some (e.1, e.2.1)) none

/-- An entry's bytes. -/
def journalBytes (seq n : Nat) : List Byte :=
  let b := leBytes 4 seq ++ leBytes 4 n
  b ++ leBytes 4 (crc32c b).toNat

/-- The address of the entry after the newest one. -/
def Fls.journalNext (f : Fls) : Nat :=
  match f.journalTop with
  | none => if f.unusable.contains 0 then 0x2000 else 0
  | some (a, _) =>
    if (a + 16) % 0x2000 ≠ 0 then a + 16
    else if f.unusable.contains (1 - a / 0x2000) then a / 0x2000 * 0x2000 else (1 - a / 0x2000) * 0x2000

/-- What appending the entry of an erase of n takes: where the journal sector has room for one entry more, the other one is erased
with that entry and the journal goes on there; where the other one is unusable the journal is written in place (spec/20 R432,
R438). -/
def Fls.journalSteps (f : Fls) (n : Nat) : List FlsStep :=
  match f.journalTop with
  | none => [.entry n 0]
  | some (a, q) =>
    let j := a / 0x2000
    let o := 1 - j
    if f.unusable.contains o then (if a % 0x2000 = 0x1FF0 then [.erase j, .entry n (q + 1)] else [.entry n (q + 1)])
    else if a % 0x2000 = 0x1FE0 then [.entry o (q + 1), .erase o, .mark o, .journal n]
    else [.entry n (q + 1)]

/-- The address of the newest pending entry of a sector. -/
def Fls.pendingOf (f : Fls) (n : Nat) : Option Nat :=
  (f.journal.foldl (fun (m : Option (Nat × Nat)) e => if e.2.2.1 = n ∧ e.2.2.2 = true then (match m with
    | some x => if x.2 < e.2.1 then some (e.1, e.2.1) else m
    | none => some (e.1, e.2.1)) else m) none).map (·.1)

/-- The sectors of pending entries that are in use. -/
def Fls.pending (f : Fls) : List Nat :=
  (((f.journal.filter fun e => e.2.2.2).map fun e => e.2.2.1).eraseDups).filter fun n => !f.unusable.contains n

/-- Pulses of an erase, and whether the sector verifies: free, a failure only after 64 (spec/20 R429). -/
def State.erasePulses (s : State) : Nat × Bool := (1 + s.free 0 % 64, decide (s.free 0 % 64 < 63) || s.free 1 % 2 == 0)

/-- DONE of every pending entry of a sector, programmed (spec/20 R433). -/
def Fls.markAll (f : Fls) (n : Nat) : Fls :=
  (f.journal.filter fun e => e.2.2.1 == n && e.2.2.2).foldl (fun f e => f.prog (e.1 + 12) [0, 0, 0, 0]) f

/-- At boot, sectors of pending entries are erased again, and the entries' DONE programmed (spec/20 R433). -/
def State.repairErases (s : State) : State :=
  s.fls.pending.foldl (fun s n =>
    let p := s.erasePulses
    let s1 := s.eraseDone n p.1 p.2
    if p.2 then { s1 with fls := s1.fls.markAll n } else s1) s

/-! ### Slots and commit records (spec/20 R424, R434) -/

def baseSlot (b : Bool) : SlotPlace := ⟨10 + b2n b, 128 + 4 * b2n b, 4⟩
def overlaySlot (n : Nat) (b : Bool) : SlotPlace := ⟨12 + 2 * n + b2n b, 136 + 2 * n + b2n b, 1⟩

/-- Whether a slot can be used: no sector it needs was lost without a substitute (spec/20 R438). -/
def Fls.slotUsable (f : Fls) (p : SlotPlace) : Bool :=
  !f.unusable.contains p.commit && (List.range p.count).all fun i => !f.unusable.contains (f.fixedSector (p.first + i))

/-! ### SEC's work on the die (spec/20 R428, R432-R438) -/

/-- The sector that a number stands for: a fixed main sector may have moved. -/
def Fls.phys (f : Fls) (n : Nat) : Nat := if n < 32 then n else f.fixedSector (n - 32)

/-- The array offset of an offset of contents that begin in a sector. -/
def Fls.slotAt (f : Fls) (first off : Nat) : Nat :=
  if first < 32 then sectorBase first + off else sectorBase (f.phys (first + off / 0x40000)) + off % 0x40000

/-- An erase with its journal entry. -/
def eraseSteps (n : Nat) : List FlsStep := [.journal n, .erase n, .mark n]

/-- The steps that write a slot's contents (spec/20 R434 steps 1-4). -/
def slotSteps (p : SlotPlace) (bs : List Byte) : List FlsStep :=
  eraseSteps p.commit ++ (List.range p.count).flatMap (fun i => eraseSteps (32 + p.first + i))
    ++ [.fill (32 + p.first) 0 bs, .check (32 + p.first) bs]

/-- The step that appends a slot's commit record (R434 step 5). -/
def commitStep (place : Bool → SlotPlace) (b : Bool) (len : Nat) (hash : List Byte) : FlsStep :=
  .commit (place false).commit (place true).commit b len hash

/-- A commit record, and where the next of its sector lies. -/
def Fls.commitRecord (f : Fls) (a b len : Nat) (hash : List Byte) : List Byte :=
  let top := fun (x : Nat) => ((f.commitOf x).map (·.1)).getD 0
  let body := leBytes 4 (max (top a) (top b) + 1) ++ leBytes 4 len ++ hash.take 16 ++ List.replicate 4 0xFF
  body ++ leBytes 4 (crc32c body).toNat
def Fls.commitNext (f : Fls) (n : Nat) : Nat :=
  sectorBase n + 32 * (indexOf (fun k => (f.rds (sectorBase n + 32 * k) 32).all (· == 0xFF)) (List.range 256)).getD 255

/-- Bytes as words from an address on, the last word filled with ones. -/
def wordsAt : Nat → List Byte → List (Nat × W32)
  | x, a :: b :: c :: d :: l => (x, BitVec.ofNat 32 (leNat [a, b, c, d])) :: wordsAt (x + 4) l
  | _, [] => []
  | x, l => [(x, BitVec.ofNat 32 (leNat (l ++ List.replicate (4 - l.length) 0xFF)))]

/-- An operation starts on the die. -/
def Fls.start (f : Fls) (o : FlsOp) (code n : Nat) : Fls :=
  { f with seq := .read, busy := true, mine := false, run := some o, op := code, sector := BitVec.ofNat 10 n }

/-- An operation of SEC's own work starts. -/
def Fls.launch (f : Fls) (o : FlsOp) (code n : Nat) : Fls := { f.start o code n with mine := true }
def Fls.program (f : Fls) (x : Nat) (bs : List Byte) : Fls := f.launch (.buffer (wordsAt x bs)) 2 (sectorOf x)

/-- The steps of SEC's first job, replaced. -/
def Fls.go (f : Fls) (l : List FlsStep) : Fls :=
  match f.jobs with
  | [] => f
  | j :: js => { f with jobs := { j with steps := l } :: js }

/-- A step of SEC's first job: an operation that starts on the idle die, or the steps it stands for. -/
def Fls.step (f : Fls) (st : FlsStep) (rest : List FlsStep) : Fls :=
  match st with
  | .journal n => f.go (f.journalSteps (f.phys n) ++ rest)
  | .entry n q => f.program f.journalNext (journalBytes q n)
  | .erase n => f.launch (.erase (f.phys n)) 3 (f.phys n)
  | .mark n => match f.pendingOf (f.phys n) with
    | some a => f.launch (.word (a + 12) 0) 1 (sectorOf a)
    | none => f.go rest
  | .resume => f.go ((f.pending.map FlsStep.settle) ++ rest)
  | .settle n => if f.lastSector.toNat = n ∧ f.lastResult = false then f.go (.mark n :: rest) else f.go (.erase n :: .mark n :: rest)
  | .wipe n => if (f.commitOf n).isSome then f.go (eraseSteps n ++ rest) else f.go rest
  | .fill first off bs =>
    if bs.length ≤ off then f.go rest else f.program (f.slotAt first off) ((bs.drop off).take 256)
  | .check first bs => if f.slotBytes (first - 32) bs.length = bs then f.go rest else f.go [.abandon]
  | .commit a b second len hash => f.program (f.commitNext (if second then b else a)) (f.commitRecord a b len hash)
  | .fuse _ _ => f.go rest
  | .sigs bs =>
    if bs.isEmpty || f.slotBytes 152 bs.length == bs then f.go rest
    else f.go (eraseSteps 184 ++ eraseSteps 185 ++ eraseSteps 186 ++ eraseSteps 187 ++ .fill 184 0 bs :: rest)
  | .abandon => f

/-- Whether a sector still has one to stand for it. -/
def Fls.stands (f : Fls) (n : Nat) : Bool := !f.unusable.contains (f.phys n)

/-- The ring sector after one: the next that is usable and stands for no fixed sector. -/
def Fls.ringNext (f : Fls) (n : Nat) : Nat :=
  (((List.range 355).map fun i => 188 + (n - 188 + 1 + i) % 355).find? fun m =>
    !f.unusable.contains m && !f.reloc.any fun e => e.2 == m).getD n

/-- SEC writes a line of a groom's log at the ring's place; before a sector's first line, the sector is erased, which holds the oldest
ones (spec/20 R424). -/
def Fls.logLine (f : Fls) (bs : List Byte) : Fls :=
  let n := f.ringAt.1
  let o := f.ringAt.2
  { f with
    jobs := f.jobs ++ [⟨.other, (if o = 0 then eraseSteps n else []) ++ [.fill n o (List.replicate o 0xFF ++ bs.take 256)]⟩]
    ringAt := if o + 256 < 0x40000 then (n, o + 256) else (f.ringNext n, 0) }

/-- What follows an operation of SEC's work: the next step; a sector that was lost is replaced or the work abandoned; one that a
program failed in is erased and written again (spec/20 R438, log entry 95). -/
def Fls.ended (f : Fls) (ok : Bool) : Fls :=
  match f.jobs with
  | [] => f
  | j :: _ => match j.steps with
    | [] => f
    | st :: rest => match st with
      | .erase n =>
        if ok then f.go rest
        else if n < 2 then f.go (rest.drop 1)
        else if f.stands n then f.go (eraseSteps n ++ rest.drop 1) else f.go [.abandon]
      | .entry n _ => f.go (if ok then rest else .journal n :: rest)
      | .fill first off bs =>
        let n := if first < 32 then first else first + off / 0x40000
        if ok then f.go (.fill first (off + 256) bs :: rest)
        else if f.stands n then f.go (eraseSteps n ++ .fill first (if first < 32 then 0 else off / 0x40000 * 0x40000) bs :: rest)
        else f.go [.abandon]
      | .commit a b second _ _ => if ok then f.go rest else if f.stands (if second then b else a) then f else f.go [.abandon]
      | _ => f.go rest

/-! ### Command sequences (spec/20 R425, R426) -/

/-- A sequence is broken, or a command comes while BUSY. -/
def Fls.broken (f : Fls) : Fls := { f with seq := .read, seqErr := true }

/-- The end of a sequence: the operation starts, unless the die is BUSY. -/
def Fls.accept (f : Fls) (o : FlsOp) (code n : Nat) : Fls := if f.busy then f.broken else f.start o code n

/-- A word written to the window by SEC. -/
def Fls.write (f : Fls) (a : Nat) (w : W32) : Fls :=
  let v := w.toNat
  let x := a - windowBase
  let n := sectorOf x
  let first := x == sectorBase n
  let other := if v = 0xF0 then (if f.busy then f.broken else { f with seq := .read }) else f.broken
  match f.seq with
  | .read => if a = flashKey1 ∧ v = 0xAA then { f with seq := .unlock1 } else other
  | .unlock1 => if a = flashKey2 ∧ v = 0x55 then { f with seq := .unlocked } else other
  | .unlocked =>
    if a = flashKey1 ∧ v = 0xA0 then { f with seq := .program }
    else if a = flashKey1 ∧ v = 0x80 then { f with seq := .erase }
    else if a = flashKey1 ∧ v = 0x70 then { f with seq := .read, statusNext := true }
    else if first = true ∧ v = 0x25 then { f with seq := .bufCount n }
    else other
  | .program => if a % 4 = 0 then f.accept (.word x w) 1 n else other
  | .bufCount m => if x = sectorBase m ∧ v < 64 then { f with seq := .bufData m (v + 1) [] } else other
  | .bufData m k ws =>
    if k = 0 then (if x = sectorBase m ∧ v = 0x29 then f.accept (.buffer ws) 2 m else other)
    else
      let fits := match ws.getLast? with
        | none => true
        | some e => x == e.1 + 4 && x / 256 == e.1 / 256
      if a % 4 = 0 ∧ n = m ∧ fits = true then { f with seq := .bufData m (k - 1) (ws ++ [(x, w)]) } else other
  | .erase => if a = flashKey1 ∧ v = 0xAA then { f with seq := .erase1 } else other
  | .erase1 => if a = flashKey2 ∧ v = 0x55 then { f with seq := .erase2 } else other
  | .erase2 => if first = true ∧ v = 0x30 then f.accept (.erase n) 3 n else other

/-- A write of a groom to the window: only SEC's core is heard; a write of another one breaks a sequence, as any other access of the
window does. -/
def Fls.feed (f : Fls) (c : Nat) (a : Nat) (w : W32) : Fls :=
  if a < windowBase ∨ windowBase + arrayBytes ≤ a then f
  else if c ≠ 0 then { (if f.seq == .read then f else f.broken) with denied := f.denied + 1 }
  else f.write a w

def Fls.feedAll (f : Fls) (c : Nat) (ws : List (W32 × W32)) : Fls := ws.foldl (fun f w => f.feed c w.1.toNat w.2) f

/-- The die runs while it has power; a device reset does not stop it (spec/20 R439). -/
def whenPowered (s t : State) : Out := if s.board.pwrok && !s.board.tripped then .next t else .next s

def execWordProgram (c : Gc) (ws : List (W32 × W32)) (s : State) : Out :=
  whenPowered s { s with fls := s.fls.feedAll c ws }

def execBufferProgram (c : Gc) (ws : List (W32 × W32)) (s : State) : Out :=
  whenPowered s { s with fls := s.fls.feedAll c ws }

/-- SEC's core gives a SECTOR ERASE: the words that start one on the idle die follow its journal entry; where the journal has to turn
first, the erase is SEC's next work (spec/20 R432). -/
def execSectorErase (c : Gc) (ws : List (W32 × W32)) (s : State) : Out :=
  whenPowered s <|
    let f := s.fls.feedAll c ws
    match s.fls.run, f.run with
    | none, some (.erase n) => match s.fls.journalSteps n with
      | [.entry _ q] => { s with fls := (s.fls.prog s.fls.journalNext (journalBytes q n)).feedAll c ws }
      | _ => { s with fls := { f with busy := false, run := none, jobs := f.jobs ++ [⟨.other, eraseSteps n⟩] } }
    | _, _ => { s with fls := f }

def execFlashStatus (c : Gc) (ws : List (W32 × W32)) (s : State) : Out :=
  whenPowered s { s with fls := s.fls.feedAll c ws }

def execFlashReset (c : Gc) (addr : W32) (s : State) : Out :=
  whenPowered s { s with fls := s.fls.feed c addr.toNat 0xF0 }

/-- More than 1 ms between two words of a sequence. -/
def execSeqTimeout (s : State) : Out :=
  whenPowered s <| if s.fls.seq == .read then s else { s with fls := s.fls.broken }

/-- The regions that hold a sector. -/
def Fls.regionsOf (f : Fls) (n : Nat) : List FlsRegion :=
  ((List.range 8).map fun i => smGet {} f.xo i).filter fun r =>
    r.valid && decide (r.first.toNat ≤ n) && decide (n ≤ r.last.toNat)

/-- Whether a read is refused by the regions. -/
def Fls.refused (f : Fls) (c n : Nat) (fetch : Bool) : Bool :=
  let rs := f.regionsOf n
  if fetch then !rs.isEmpty && !rs.any fun r => r.fetch.getLsbD c else c != 0 && !rs.isEmpty

/-- A fetch that the regions refuse returns ones, which fault the groom's core (spec/20 R431). -/
def State.faultGroom (s : State) (c : Nat) : State := s.setGroom c { s.groom c with faulted := true }
/-- Fetches that waited for the busy sector proceed (spec/20 R430). -/
def State.fetchesGo (s : State) (f : Fls) : State :=
  (s.fls.fetches.filter fun e => f.refused e.1 (sectorOf e.2) true).foldl (fun t e => t.faultGroom e.1) { s with fls := f }

/-- The operation ends (spec/20 R427-R429): an erase fails only after 64 pulses. SEC's work goes on from it, and a verified erase that
SEC gave by hand is marked done in the journal; fetches that waited for the sector proceed (R430, R432). -/
def execFlashOpDone (pulses : Nat) (ok : Bool) (s : State) : Out :=
  whenPowered s <| match s.fls.run with
  | none => s
  | some o =>
    let s1 := s.fetchesGo { s.fls with busy := false, done := true, run := none, mine := false, fetches := [] }
    let s2 := match o with
      | .word x w => s1.programDone [(x, w)] ok
      | .buffer ws => s1.programDone ws ok
      | .erase n => s1.eraseDone n (if ok then max 1 (min 64 pulses) else 64) ok
    if s.fls.mine then { s2 with fls := s2.fls.ended ok }
    else match o with
      | .erase n => if ok && (s2.fls.pendingOf n).isSome then
          { s2 with fls := { s2.fls with jobs := s2.fls.jobs ++ [⟨.other, [.mark n]⟩] } } else s2
      | _ => s2

/-! ### Reads (spec/20 R425, R426, R430, R431) -/

/-- The sector an operation works on. -/
def Fls.busyIn (f : Fls) (n : Nat) : Bool := f.busy && f.sector.toNat == n

/-- The word a groom reads at an array offset. -/
def Fls.readWord (f : Fls) (c x : Nat) (fetch : Bool) : W32 :=
  if f.statusNext then f.statusWord
  else if f.refused c (sectorOf x) fetch || (!fetch && f.busyIn (sectorOf x)) then 0xFFFFFFFF
  else BitVec.ofNat 32 (leNat (f.rds (x / 4 * 4) 4))

/-- A groom reads the window: the flags that a refused or busy read sets, and both where it is both; a refused fetch faults the core,
and one from the busy sector waits for DONE; a read between the words of a sequence breaks it. -/
def execFlashWindowRead (c : Gc) (addr : W32) (fetch : Bool) (s : State) : Out :=
  whenPowered s <|
    let a := addr.toNat
    if a < windowBase ∨ windowBase + arrayBytes ≤ a then s else
      let x := a - windowBase
      let n := sectorOf x
      let f := if s.fls.seq == .read then s.fls else s.fls.broken
      if f.statusNext then { s with fls := { f with statusNext := false } }
      else if fetch then
        (if f.busyIn n then { s with fls := { f with fetches := f.fetches ++ [(c.val, x)] } }
        else if f.refused c n true then { s with fls := f }.faultGroom c
        else { s with fls := f })
      else
        let bad := f.refused c n false
        { s with fls := { f with
          xoHit := f.xoHit || bad, xoAddr := if bad then BitVec.ofNat 27 x else f.xoAddr, busyHit := f.busyHit || f.busyIn n } }

/-! ### The health record (spec/20 R436, spec/22 R470) -/

/-- Bytes 8-8,191 of the record. -/
def State.healthBody (s : State) : List Byte :=
  let f := s.fls
  leBytes 68 (sumN (f.unusable.map (2 ^ ·)))
    ++ (List.range 543).map (fun n => BitVec.ofNat 8 (smGet 0 f.pulses n))
    ++ (List.range 156).flatMap (fun m => leBytes 2 (f.fixedSector m))
    ++ leBytes 2 f.ring.toNat ++ List.replicate 91 0
    ++ leBytes 12 s.glb.disable.toNat ++ List.replicate 4 0
    ++ (List.range 96).flatMap (fun g =>
        let h : ClusterHealth := smGet {} s.far.health g
        leBytes 8 (h.lastPass.toNat + h.passes.toNat * 2 ^ 32 + h.inter.toNat * 2 ^ 48 + h.cause * 2 ^ 56))
    ++ leBytes 8 s.far.suspect.toNat ++ leBytes 2 s.far.pcieLow.toNat ++ List.replicate 230 0
    ++ (List.range 384).flatMap (fun k => match s.fls.events[k]? with
        | some e => leBytes 8 e.1 ++ leBytes 2 e.2.1 ++ [0, 0] ++ leBytes 4 e.2.2
        | none => List.replicate 16 0)

/-- The SEQ of a copy whose CRC holds. -/
def Fls.healthSeq (f : Fls) (n : Nat) : Option Nat :=
  let b := f.rds (sectorBase n) 8192
  if BitVec.ofNat 32 (fieldN b 4 4) = crc32c (b.drop 8) then some (fieldN b 0 4) else none

/-- The copy in use: the valid one with the higher SEQ. -/
def Fls.healthCopy (f : Fls) : Option Nat :=
  match f.healthSeq 28, f.healthSeq 29 with
  | some a, some b => some (if a < b then 29 else 28)
  | some _, none => some 28
  | none, some _ => some 29
  | none, none => none

/-- SEC starts to rewrite the older copy with the record's contents of now: when they changed, at most once per hour, at once for the
three events. -/
def State.writeHealth (s : State) : State :=
  let n := match s.fls.healthCopy with | some 28 => 29 | _ => 28
  let n := if s.fls.unusable.contains n then 57 - n else n
  let q := ((s.fls.healthCopy.bind s.fls.healthSeq).map (· + 1)).getD 0
  let b := s.healthBody
  { s with fls := { s.fls with
    healthDirty := false, healthUrgent := false, healthNs := some s.tim.ns
    jobs := s.fls.jobs ++ [⟨.health, eraseSteps n ++ [.fill n 0 (leBytes 4 q ++ leBytes 4 (crc32c b).toNat ++ b)]⟩] } }

def State.healthDue (s : State) : Bool :=
  s.fls.healthUrgent || (s.fls.healthDirty && (match s.fls.healthNs with
    | some t => decide (t + 3600 * 1000000000 ≤ s.tim.ns)
    | none => true))

def execHealthRecordWrite (s : State) : Out :=
  whenAlive s <| if s.groomUp 0 && s.healthDue && !(s.fls.jobs.any fun j => j.what == .health) then s.writeHealth else s

/-- The health record is read at boot; without a valid copy the disable map is empty, so that every cluster is tested
again (spec/20 R436, R438, R439, spec/22 R459). -/
def State.readHealth (s : State) : State :=
  match s.fls.healthCopy with
  | none => { s with glb := { s.glb with disable := 0 } }
  | some n =>
    let b := s.fls.rds (sectorBase n) 8192
    let bad := (List.range 543).filter fun i => bitN (fieldN b 8 68) i
    let pulses := (List.range 543).foldl (fun m i => smPut 0 m i (max (smGet 0 m i) (fieldN b (76 + i) 1))) s.fls.pulses
    let reloc := (List.range 156).foldl (fun m i => smPut (i + 32) m i (fieldN b (619 + 2 * i) 2)) []
    let health := (List.range 96).foldl (fun m g =>
      let x := fieldN b (1040 + 8 * g) 8
      smPut {} m g { lastPass := BitVec.ofNat 32 x, passes := BitVec.ofNat 16 (x / 2 ^ 32)
                     inter := BitVec.ofNat 8 (x / 2 ^ 48), cause := bits x 58 56 }) []
    let events := (List.range 384).filterMap fun k =>
      let x := (fieldN b (2048 + 16 * k) 8, fieldN b (2056 + 16 * k) 2, fieldN b (2060 + 16 * k) 4)
      if x.2.1 = 0 then none else some x
    { s with
      fls := { s.fls with unusable := bad, usable := BitVec.ofNat 10 (543 - bad.length), pulses := pulses, reloc := reloc
                          ring := BitVec.ofNat 9 (fieldN b 931 2), events := events
                          wearCount := BitVec.ofNat 10 (pulses.filter fun e => decide (24 < e.2)).length }
      glb := { s.glb with disable := s.glb.disable ||| BitVec.ofNat 96 (fieldN b 1024 12) }
      far := { s.far with health := health, suspect := BitVec.ofNat 64 (fieldN b 1808 8)
                          pcieLow := BitVec.ofNat 16 (fieldN b 1816 2) } }

end Sys2Proof.Machine
end

