-- ==== Sys2Proof/Machine/Sched.lean ====
section
/-! DEFINITION. Deficits and slices (spec/14 R319-R325). -/

namespace Sys2Proof.Machine

/-! ### Deficits (spec/14 R320) -/

/-- T: 8 times the region cycles of the usable clusters that are not stabled, over the tick just ended. -/
def State.tickCycles (s : State) : Nat :=
  8 * sumN ((List.range 8).map fun r =>
    if (s.region r).state ≠ 0 then 0
    else ((List.range 12).filter fun k => !s.disabled (12 * r + k)).length * (s.region r).lastCycles)

/-- A share of T by weight. -/
def shareOf (T w total : Nat) : Nat := T * w / total

/-- A deficit after its grant; an idle one keeps no credit. -/
def granted (d : Int) (g : Nat) (active : Bool) : Int := if active then min (d + g) (2 * g) else min d 0

/-- Accounts with a command queued or in flight, of tenant space t. -/
def State.activeAccts (s : State) (t : Nat) : List Nat :=
  ((s.cmds.list.filter fun c => c.fn == t).map fun c => (s.ctx (c.batch.getD 0 0)).account).eraseDups

/-- The tick's grants to tenant spaces and accounts. -/
def State.grantDeficits (s : State) : State :=
  let T := s.tickCycles
  let act := (List.range 64).filter fun t => s.cmds.list.any fun c => c.fn == t
  let total := sumN (act.map fun t => (s.ten t).weight.toNat)
  let g := fun (t : Nat) => shareOf T (s.ten t).weight.toNat total
  let s1 := (List.range 64).foldl (fun s t => s.modTen t fun n =>
    { n with deficit := granted n.deficit (g t) (act.contains t), active := act.contains t }) s
  let live := act.flatMap fun t =>
    let as := s.activeAccts t
    let w := sumN (as.map fun a => (s.acct a).weight)
    as.map fun a => (a, shareOf (g t) (s.acct a).weight w)
  let upd := fun (a : Nat) (x : Account) => match live.find? fun e => e.1 == a with
    | some e => { x with deficit := granted x.deficit e.2 true }
    | none => { x with deficit := granted x.deficit 0 false }
  let s2 := { s1 with serv := { s1.serv with accts := smMap {} s1.serv.accts upd } }
  live.foldl (fun s e => s.setAcct e.1 { s.acct e.1 with deficit := (upd e.1 (s1.acct e.1)).deficit }) s2

/-- The first beat of a tick. -/
def execDeficitUpdate (s : State) : Out :=
  whenAlive s <| if s.tickEdge then s.grantDeficits else s

/-! ### Slices (spec/14 R323, R324, R332) -/

/-- Whether a cluster lies in a region mask. -/
def inRegions (m : Byte) (g : Nat) : Bool := m.getLsbD (regionOf g)

/-- Running commands that satisfy p are killed and run again. -/
def State.killAll (s : State) (cause : Nat) (p : Cmd → Bool) : State :=
  (s.cmds.list.filter fun c => c.st == .running && p c).foldl (fun s c => match s.cmd c.id with
    | some d => s.killRerun d cause true
    | none => s) s

/-- A slice of paddock n ends at its tick: the outgoing tenant space's commands there that are not ready are killed. New
tables start at entry 0, at a tick boundary after the beat that set them (spec/14 R332). -/
def execSliceChange (n : Fin 8) (s : State) : Out :=
  whenAlive s <| if s.tickEdge = false then s else
    let p := s.paddockN n
    let old : Slice := smGet {} p.slices p.current
    let put := fun (s : State) (q : Paddock) =>
      { s with sched := { s.sched with paddocks := smPut {} s.sched.paddocks n q } }
    match (if p.nextAt < s.tick then p.next else none) with
    | some (m, tab) =>
      let first : Slice := tab.headD {}
      let s1 := if !s.sched.paddock then s else s.killAll 1 fun c =>
        c.place.any (fun g => inRegions p.regions g || inRegions m g)
          && !(!first.idle && c.fn == first.tenant && c.place.all (inRegions m))
      put s1 { regions := m, entries := tab.length - 1, current := 0, ends := s.tick + first.ticks + 1, next := none
               slices := tab.zipIdx.foldl (fun a x => smPut {} a x.2 x.1) [] }
    | none =>
      if !s.sched.paddock || decide (s.tick < p.ends) then s else
        let s1 := if old.idle then s else s.killAll 1 fun c =>
          c.fn == old.tenant && c.place.any (inRegions p.regions)
        let k := if p.entries ≤ p.current then 0 else p.current + 1
        let now : Slice := smGet {} p.slices k
        put s1 { p with current := k, ends := p.ends + now.ticks + 1 }

end Sys2Proof.Machine
end

