-- ==== Sys2Proof/Machine/Records.lean ====
section
/-! DEFINITION. Configuration records: their header, entries and tags, and what a configuration brings into effect
(spec/18 R401-R403, spec/01 R24-R26). The layouts of the tags' values are the model's (log entry 36). -/

namespace Sys2Proof.Machine

/-! ### Entries (spec/18 R401) -/

/-- The entries of a record's body: TAG, LEN and the value; none where one does not fit. -/
def recEntries : Nat → List Byte → Option (List (Nat × List Byte))
  | 0, bs => if bs.isEmpty then some [] else none
  | fuel + 1, bs =>
    if bs.isEmpty then some []
    else
      let n := fieldN bs 2 2
      if bs.length < 4 + n ∨ n % 4 ≠ 0 then none
      else match recEntries fuel (bs.drop (4 + n)) with
        | none => none
        | some es => some ((fieldN bs 0 2, (bs.drop 4).take n) :: es)

/-- The last entry of a tag. -/
def lastEntry (es : List (Nat × List Byte)) (t : Nat) : Option (List Byte) := (findLast (fun e => e.1 == t) es).map (·.2)

/-! ### The yard record (spec/01 R24-R26) -/

/-- The value of tag 0x0001. -/
def parseYard (v : List Byte) : Option YardRec :=
  let n := fieldN v 4 4
  let c := 8 + 64 * n
  let p := c + 32 * n
  let cab := fun (k : Nat) => (fieldN v (c + 4 * k) 1, fieldN v (c + 4 * k + 1) 1, fieldN v (c + 4 * k + 2) 1, fieldN v (c + 4 * k + 3) 1)
  let cabOk := fun (k : Nat) =>
    let x := cab k
    x.2.2.2 == 0 && (x.2.2.1 == 0 || (x.2.2.1 == 1 && decide (x.1 < n) && decide (x.2.1 < 8)))
  let pair := fun (t i : Nat) => fieldN v (p + n * t + i) 1
  if n < 2 ∨ 16 < n ∨ v.length ≠ p + 64 * n then none
  else if (List.range (8 * n)).any (fun k => !cabOk k)
      || (List.range (64 * n)).any (fun k => let x := fieldN v (p + k) 1; !(x == 0xFF || decide (x < 64))) then none
  else some {
    id := BitVec.ofNat 32 (fieldN v 0 4)
    count := n
    hashes := (List.range n).map fun i => BitVec.ofNat 512 (fieldN v (8 + 64 * i) 64)
    cabling := (List.range (8 * n)).foldl (fun m k =>
      let x := cab k
      if x.2.2.1 = 1 then smPut none m k (some (x.1, x.2.1)) else m) []
    pairing := (List.range 64).foldl (fun m t => (List.range n).foldl (fun m i =>
      let x := pair t i
      if x = 0xFF then m else smPut none m (16 * t + i) (some x)) m) [] }

/-- The indices whose identity matches. -/
def YardRec.matching (y : YardRec) (id : BitVec 512) : List Nat := (List.range y.count).filter fun i => y.hashes[i]? == some id

/-- SEC rejects a record that names the package's identity twice (spec/01 R26), or gives one tenant space of a package to two
yard tenants (spec/01 R25). -/
def YardRec.rejected (y : YardRec) (id : BitVec 512) : Bool :=
  decide (1 < (y.matching id).length) || (List.range y.count).any fun i =>
    hasDup ((List.range 64).filterMap fun t => smGet none y.pairing (16 * t + i))

/-! ### Tags (spec/18 R402) -/

/-- Known tags, and whether an overlay may hold them. -/
def knownTags : List (Nat × Bool) :=
  [(0x01, false), (0x02, false), (0x03, false), (0x04, false), (0x05, false), (0x10, true), (0x11, true), (0x12, true),
   (0x13, true), (0x14, true), (0x15, true), (0x16, true), (0x17, true), (0x20, true), (0x21, true), (0x22, true),
   (0x23, true), (0x24, true), (0x28, true), (0x30, true), (0x31, true)]

/-- The images of SCH_PADDOCK_n and SCH_SLICE_n_i of tag 0x0011. -/
def padReg (v : List Byte) (n : Nat) : Nat := fieldN v (132 * n) 4
def sliceReg (v : List Byte) (n i : Nat) : Nat := fieldN v (132 * n + 4 + 4 * i) 4
def padRegions (v : List Byte) (n : Nat) : Byte := BitVec.ofNat 8 (padReg v n)
def padEntries (v : List Byte) (n : Nat) : Nat := bits (padReg v n) 12 8
def sliceOf (x : Nat) : Slice := { tenant := bits x 5 0, idle := bitN x 6, ticks := bits x 27 16 }

/-- Paddocks are disjoint; reserved bits are 0. -/
def paddocksOk (v : List Byte) : Bool :=
  v.length == 1056
    && (List.range 8).all (fun n => bits (padReg v n) 7 0 + 256 * padEntries v n == padReg v n
      && (List.range 32).all fun i => let x := sliceReg v n i
        bits x 6 0 + 65536 * bits x 27 16 == x)
    && (List.range 8).all fun r => decide (((List.range 8).filter fun n => (padRegions v n).getLsbD r).length ≤ 1)

/-- A value of n bytes that lies in a range. -/
def inRange (v : List Byte) (n lo hi : Nat) : Bool := v.length == n && decide (lo ≤ fieldN v 0 n) && decide (fieldN v 0 n ≤ hi)
/-- k fields of w bytes, each in a range. -/
def eachIn (v : List Byte) (k w lo hi : Nat) : Bool :=
  v.length == k * w && (List.range k).all fun i => decide (lo ≤ fieldN v (w * i) w) && decide (fieldN v (w * i) w ≤ hi)

/-- Whether the value of a known tag is well formed. -/
def valueOk (id : BitVec 512) (t : Nat) (v : List Byte) : Bool :=
  let x := fieldN v 0 4
  match t with
  | 0x01 => match parseYard v with
    | none => false
    | some y => !y.rejected id
  | 0x02 => inRange v 4 0 15 && decide (x % 4 ≠ 3)
  | 0x03 => v.length == 4 && [0, 64, 128, 256, 512].contains (x % 65536) && decide (x / 65536 ≤ 1)
  | 0x04 => v.length == 8
  | 0x05 => eachIn v 4 2 10 1000
  | 0x10 => inRange v 4 0 1
  | 0x11 => paddocksOk v
  | 0x12 => eachIn v 64 4 0 65535
  | 0x13 => eachIn v 64 4 0 65535
  | 0x14 => inRange v 4 1 65535
  | 0x15 => v.length == 4
  | 0x16 => inRange v 4 0 0xFFFF && bits x 3 1 == 0 && decide (1 ≤ bits x 7 4) && decide (bits x 7 4 ≤ 8) && decide (1 ≤ bits x 15 8)
  | 0x17 => eachIn v 64 4 1 65536
  | 0x20 => inRange v 4 0 0x3FFFF
  | 0x21 => inRange v 4 60 104
  | 0x22 => inRange v 4 20 80
  | 0x23 => inRange v 4 0 2
  | 0x24 => v.length == 8 && decide (x ≤ 8)
  | 0x28 => inRange v 4 1 1000
  | 0x30 => inRange v 4 60 86400
  | 0x31 => (camEntry v).isSome
  | _ => true

/-! ### Checking a record (spec/18 R402, spec/19 R406) -/

/-- The header's LENGTH fits its kind. -/
def lengthOk (bs : List Byte) : Bool :=
  let n := fieldN bs 8 4
  decide (320 ≤ n) && decide (n ≤ (if fieldN bs 0 1 = 0 then 0x100000 else 0x10000))

/-- The body of a record: what lies between header and signature. -/
def recBody (bs : List Byte) : List Byte := (bs.take (bs.length - 256)).drop 64

/-- The owner's signature of a record of LENGTH bytes. -/
def ownerSigned (owner : Option (BitVec 512)) (bs : List Byte) : Bool :=
  match owner with
  | none => false
  | some h => blockValid (bs.drop (bs.length - 256)) (bs.take (bs.length - 256)) 1 h

/-- Everything but the signature and SEQ: the record, or the CODE. A stored record (no yard given) was checked when it was
loaded. -/
def State.readRecord (s : State) (yard : Option W32) (bs : List Byte) : Record ⊕ Nat :=
  let kind := fieldN bs 0 1
  let yid := fieldN bs 12 4
  if 1 < kind ∨ 7 < fieldN bs 1 1 ∨ (kind = 0 ∧ fieldN bs 1 1 ≠ 0) ∨ fieldN bs 2 2 ≠ 0
      ∨ (yid ≠ 0 ∧ yard.any (fun y => y.toNat != yid) = true) then .inr 3
  else match recEntries (recBody bs).length (recBody bs) with
    | none => .inr 3
    | some es =>
      let unknown := fun (e : Nat × List Byte) => !knownTags.any fun k => k.1 == e.1
      if es.any fun e => !unknown e && !valueOk s.sec.idHash e.1 e.2 then .inr 3
      else if kind = 1 ∧ es.any (fun e => knownTags.any fun k => k.1 == e.1 && !k.2) = true then .inr 4
      else if es.any fun e => unknown e && decide (e.1 < 0x8000) then .inr 7
      else .inl { bytes := bs, seq := BitVec.ofNat 32 (fieldN bs 4 4), entries := es.filter fun e => !unknown e }

/-! ### Settings in effect (spec/18 R403) -/

def Record.tag (r : Record) (t : Nat) : Option (List Byte) := lastEntry r.entries t

/-- The stored overlay of the number in effect. -/
def Grm.stored (g : Grm) : Option Record := if g.ovlCurrent < 8 then smGet none g.overlays g.ovlCurrent else none

/-- The overlay in effect. -/
def Grm.overlay (g : Grm) : Option Record := g.ovlRecord

/-- The value in effect of a tag: the overlay's, else the base's. -/
def Grm.setting (g : Grm) (t : Nat) : Option (List Byte) :=
  match g.overlay.bind (·.tag t) with
  | some v => some v
  | none => g.base.bind (·.tag t)

/-- Field i of w bytes of a tag's value; d where the tag is absent. -/
def Grm.field (g : Grm) (t i w d : Nat) : Nat := match g.setting t with | some v => fieldN v (w * i) w | none => d

/-- The ports that a yard record uses at index i train; the others go dark and leave every route, and a port in service whose neighbour is another
now trains again (spec/01 R26, R27, spec/16 R362). -/
def State.cablePorts (s : State) (cab : Nat → Option (Nat × Nat)) : State :=
  (List.range 8).foldl (fun s p =>
    let x := s.port p
    match cab p with
    | none =>
      let s1 := s.setPort p { x with state := 0, test := false, narrow := false }
      { s1 with fab := { s1.fab with routes := maskRoutes s1.fab.routes (· != p), nextRoutes := s1.fab.nextRoutes.map (maskRoutes · (· != p)) } }
    | some n =>
      if x.state = 0 then s.setPort p { x with state := 1, good := 0xFF }
      else if x.inService ∧ (x.nbrPkg, x.nbrPort) ≠ n then (s.failLink p).setPort p { (s.failLink p).port p with state := 1, good := 0xFF }
      else s) s

/-- Packages of the live set that a switch of the record parts this one from: all of them when it becomes standalone, else those
whose identity the new record does not list at their index (spec/01 R26, R32, R33). -/
def partedBy (old new : Option YardRec) (live : BitVec 16) : List Nat :=
  (setBits live).filter fun p => match new with
    | none => true
    | some r => decide (r.count ≤ p) || (old.bind fun o => o.hashes[p]?) != r.hashes[p]?

/-- The yard record of the configuration in effect switches in (spec/01 R24-R26, R33): the package takes the index its
identity has there, or is standalone. Packages that it parts from leave the live set (R32). -/
def State.applyYard (s : State) (y : Option YardRec) : State :=
  let mine := y.bind fun r => if r.rejected s.sec.idHash then none else match r.matching s.sec.idHash with
    | [i] => some (r, i)
    | _ => none
  let cab := fun (u : State) => u.cablePorts fun p => match mine with
    | some (r, i) => smGet none r.cabling (8 * i + p)
    | none => none
  if (mine.map (·.1)) = s.glb.yard then cab s else
    let gone := (partedBy s.glb.yard (mine.map (·.1)) s.glb.live).filter fun p => !(s.glb.valid && p == s.glb.index)
    let s0 := (s.depart gone).stamp
    let old := (s0.cmds.nextSeq, s0.frame, s0.glb.yard, s0.glb.index)
    let s1 := match mine with
      | some (r, i) => { s0 with glb := { s0.glb with
          yard := some r, index := i, valid := true, count := r.count, yardId := r.id
          live := gone.foldl (fun m p => putBit m p false) s0.glb.live
          whole := if s0.glb.index = i then s0.glb.whole &&& BitVec.ofNat 16 (2 ^ r.count - 1) else 0
          olds := s0.glb.olds ++ [old] } }
      | none => { s0 with glb := { s0.glb with
          yard := none, index := 0, valid := false, count := 0, lead := 0, isLead := false, partitioned := false, live := 0
          whole := 0, heard := [], yardId := 0, olds := s0.glb.olds ++ [old] } }
    cab s1

/-- The tables of paddock n in a setting of tag 0x0011. -/
def tablesOf (v : Option (List Byte)) (n : Nat) : Byte × List Slice :=
  match v with
  | none => (0, [{}])
  | some b => (padRegions b n, (List.range (padEntries b n + 1)).map fun i => sliceOf (sliceReg b n i))

/-- The tables of paddock n in effect. -/
def Paddock.tables (p : Paddock) : Byte × List Slice :=
  (p.regions, (List.range (p.entries + 1)).map fun i => smGet {} p.slices i)

/-- Sharing mode, paddocks and slice tables (spec/14 R322, R332): commands outside a current slice of their tenant space
are killed by a switch to paddock mode, and tables that change apply from the next tick boundary. -/
def State.applyMode (s : State) (g : Grm) : State :=
  let mode := g.field 0x10 0 4 0 == 1
  let enter := mode && !s.sched.paddock
  let inSlice := fun (c : Cmd) => (List.range 8).any fun n =>
    (s.paddockN n).owner == some c.fn && c.place.all (inRegions (s.paddockN n).regions)
  let s1 := if enter then s.killAll 2 fun c => !inSlice c else s
  let s2 := { s1 with sched := { s1.sched with paddock := mode } }
  (List.range 8).foldl (fun s n =>
    let p := s.paddockN n
    let t := tablesOf (g.setting 0x11) n
    let q := { p with next := if enter || decide (t ≠ p.tables) then some t else none, nextAt := s.tick }
    { s with sched := { s.sched with paddocks := smPut {} s.sched.paddocks n q } }) s2

/-- A switch, a base or a boot sets weights and express caps; new contents of the overlay in effect leave values that a request has
changed since (spec/18 R403): only a tag that changes sets them. -/
def Grm.sets (old new : Grm) (renew : Bool) (t : Nat) : Bool := !renew || decide (new.setting t ≠ old.setting t)

/-- The settings that tenant spaces, accounts and SCH take (spec/14 R319, R329, spec/11 R262, spec/13 R299, R485,
spec/12 SCH_KV_COMPACT). -/
def State.applySch (s : State) (g : Grm) (shares caps : Bool) : State :=
  let s1 := (List.range 64).foldl (fun s t => s.modTen t fun n =>
    { n with weight := if shares then BitVec.ofNat 16 (g.field 0x12 t 4 1) else n.weight
             ctxQuota := g.field 0x17 t 4 65536 }) s
  let c := g.field 0x16 0 4 0x481
  { s1 with
    sched := { s1.sched with
      express := (List.range 64).foldl (fun m f => smMod {} m f fun x =>
        { x with cap := if caps then BitVec.ofNat 16 (g.field 0x13 f 4 0) else x.cap }) s1.sched.express
      holdLimit := BitVec.ofNat 16 (g.field 0x14 0 4 0x10) }
    serv := { s1.serv with
      idleTicks := BitVec.ofNat 32 (g.field 0x15 0 4 0x9C40)
      compactEnable := bitN c 0, compactMax := bits c 7 4, compactStreams := bits c 15 8 } }

/-- The reset value of PWR_PHASE_OP: the points of PREFILL to IDLE (spec/17). -/
def phaseReset : Nat := 6 + 5 * 8 + 5 * 64 + 3 * 512 + 4 * 4096

/-- The settings that PWR, the loft, the fabric and the farrier take (spec/17, spec/10 R248, spec/16 R368, spec/22 R460). -/
def State.applyPwr (s : State) (g : Grm) : State :=
  let rate := g.field 0x23 0 4 0
  { s with
    pwr := { s.pwr with
      phaseNext := some (s.tick, BitVec.ofNat 32 (g.field 0x20 0 4 phaseReset)), policyC := g.field 0x21 0 4 0x5F
      thresh := g.field 0x22 0 4 0x28
      stableLeast := g.field 0x24 0 4 1, stableIdle := g.field 0x24 1 4 0 }
    memc := { s.memc with rateTarget := rate, rateAsked := s.memc.rateAsked || decide (rate ≠ s.memc.rateTarget) }
    fab := { s.fab with routeWait := BitVec.ofNat 16 (g.field 0x28 0 4 0x0A) }
    far := { s.far with interval := g.field 0x30 0 4 900 } }

/-- The settings that SEC and VIS take (spec/18 R391, spec/21 R446). -/
def State.applySec (s : State) (g : Grm) : State :=
  let s1 := (List.range 4).foldl (fun s c => s.setGroom c { s.groom c with wdog := BitVec.ofNat 16 (g.field 0x05 c 2 0x64) }) s
  { s1 with cam := { s1.cam with rawMask := BitVec.ofNat 64 (g.field 0x04 0 8 0) } }

/-- A configuration takes effect in one beat: every setting is that of the overlay, else the base, else the reset value. `renew`: new
contents of the overlay in effect, no switch and no base. -/
def State.reconfigure (s : State) (g0 : Grm) (boot renew : Bool) : State :=
  let g := { g0 with ovlRecord := g0.stored }
  let s1 := { s with grm := g, sched := { s.sched with overlay := g.ovlCurrent } }
  let s2 := (((s1.applyMode g).applySch g (s.grm.sets g renew 0x12) (s.grm.sets g renew 0x13)).applyPwr g).applySec g
  let s3 := if boot || decide (g.setting 0x31 ≠ s.grm.setting 0x31) then s2.applyCam (g.setting 0x31) else s2
  s3.applyYard ((g.base.bind (·.tag 0x01)).bind parseYard)

end Sys2Proof.Machine
end

