-- ==== Sys2Proof/Machine/Grooms.lean ====
section
/-! DEFINITION. Grooms, images, staging, activation and trial, and the loading of configuration records and overlays
(spec/18 R390-R404, spec/19 R413). -/

namespace Sys2Proof.Machine

/-! ### Images (spec/18 R393, spec/19 R406) -/

/-- The image lists this stepping; 0x00 is unused. -/
def Image.lists (i : Image) : Bool := (List.range 4).any fun k => bits i.steppings.toNat (8 * k + 7) (8 * k) == stepping

/-- An image checked: it, or the CODE (spec/18 R394). -/
def State.checkImage (s : State) (c : Nat) (bs : List Byte) : Image ⊕ Nat :=
  let m := bs.take 512
  if !blockValid (m.drop 256) (m.take 256) 0 s.sec.vendorHash then .inr 1
  else match parseImage m with
    | none => .inr 8
    | some i =>
      let code := (bs.drop 512).take (fieldN m 24 4)
      if i.cls ≠ c ∨ code.length ≠ fieldN m 24 4 ∨ (sha512 code) ≠ (m.drop 128).take 64 then .inr 8
      else if !i.lists then .inr 2
      else if i.svn < s.arb c then .inr 3
      else .inl i

/-- A groom's read of tenant space 0's memory in two parts, the second as long as the first says; none where they cannot be read. -/
def State.readTwo (s : State) (va n : Nat) (rest : List Byte → Nat × Nat) : State × Option (List Byte × List Byte) :=
  let a := s.schRead 0 va n
  match a.2 with
  | .inr _ => (a.1, none)
  | .inl m =>
    let b := a.1.schRead 0 (rest m).1 (rest m).2
    (b.1, match b.2 with | .inr _ => none | .inl c => some (m, c))

/-- Bytes of an image in tenant space 0's memory: the manifest, then the code it names; none where they cannot be read. -/
def State.imageAt (s : State) (va : Nat) : State × Option (List Byte) :=
  let r := s.readTwo va 512 fun m => (va + 512, min 0x400000 (fieldN m 24 4))
  (r.1, r.2.map fun x => x.1 ++ x.2)

/-- The committed image of slot b of a class that passes every check (spec/19 R407, R413). -/
def State.slotImage (s : State) (c : Nat) (b : Bool) : Option Image :=
  let p := imageSlot c b
  match s.fls.commitOf p.commit with
  | none => none
  | some (_, n, _) =>
    if !s.fls.slotUsable p then none else
      match s.checkImage c (s.fls.slotBytes p.first (min 0x400000 n)) with
      | .inl i => some i
      | .inr _ => none

/-- The slot of a class that staging writes: the one that is not active (spec/18 R394). -/
def State.inactiveSlot (s : State) (c : Nat) : Bool :=
  match s.fls.activeSlot (imageSlot c) with
  | some b => !b
  | none => false

/-! ### Compatibility (spec/18 R395-R398) -/

/-- Y's version lies in X's range for Y's class. -/
def Image.accepts (x y : Image) : Bool :=
  let r := x.peers.getD y.cls (0, 0)
  decide (r.1.toNat ≤ y.version.toNat) && decide (y.version.toNat ≤ r.2.toNat)

/-- Every pair of a set satisfies R396. -/
def peersAgree (l : List Image) : Bool := l.all fun x => l.all fun y => x.cls == y.cls || (x.accepts y && y.accepts x)

/-- A SCH image's range holds the negotiated version of every function that has one (spec/18 R397). -/
def State.holdsVersions (s : State) (i : Image) : Bool :=
  (List.range 64).all fun f =>
    let b := s.fn f
    let v := 256 * b.major.toNat + b.minor.toNat
    b.state != 2 || (decide (hiaLow i.hia ≤ v) && decide (v ≤ hiaHigh i.hia))

/-- The yard protocol range of a set holds the version in use (spec/18 R398). -/
def State.holdsYard (s : State) (l : List Image) : Bool :=
  !s.grm.protoSet || l.all fun i => !(i.cls == 1 || i.cls == 2)
    || (decide (bits i.yard.toNat 15 0 ≤ s.grm.protoInUse.toNat) && decide (s.grm.protoInUse.toNat ≤ bits i.yard.toNat 31 16))

/-- GRM_UPD_STATUS.STATE follows what SEC does. -/
def Grm.settle (g : Grm) : Grm :=
  { g with updState := if g.staging.isSome || g.activating then 1 else if g.trialSet ≠ 0 then 2 else 0 }

/-- The probation of a trial has ended and SEC writes its commit records. -/
def State.committing (s : State) : Bool := s.fls.jobs.any fun j => j.what == .trial

/-- The images that run. -/
def State.runningImages (s : State) : List Image := (List.range 4).filterMap fun c => (s.groom c).running

/-- The images that would run after an activation of a set (spec/18 R395). -/
def State.resultingSet (s : State) (set : BitVec 4) : List Image :=
  (List.range 4).filterMap fun c =>
    if set.getLsbD c then s.slotManifest c (s.inactiveSlot c) else (s.groom c).running

/-! ### Watchdogs and restarts (spec/18 R390-R392) -/

def State.updCode (s : State) (c : Nat) : State := { s with grm := { s.grm with updCode := BitVec.ofNat 4 c } }

/-- A groom's core is reset and its image loaded again. -/
def State.restartFrom (s : State) (c : Nat) (b : Bool) (i : Option Image) (st : Nat) : State :=
  match i with
  | none => s.setGroom c { s.groom c with state := 0, slotB := b, running := none, version := 0, measure := 0, down := true, faulted := false }
  | some i => s.setGroom c { s.groom c with
      state := st, slotB := b, running := some i, version := i.version, measure := i.hash, ready := false, down := true, faulted := false }

/-- What SEC was doing is lost with its core: a STAGE is abandoned with CODE 11, a load and a begun report are dropped. When SEC is
back it settles the journal's pending entry, and an abandoned slot keeps no commit record (spec/18 R399, spec/19 R414, spec/20 R435). -/
def State.secLost (s : State) : State :=
  let g := s.grm
  let wipe := match g.staging with
    | some (c, b) => [FlsStep.wipe (imageSlot c b).commit]
    | none => []
  let health := s.fls.jobs.any fun j => j.what == .health
  let s1 := { s with
    grm := ({ g with staging := none, cfgBusy := false, updCode := if g.staging.isSome then 11 else g.updCode } : Grm).settle
    fls := { s.fls with
      jobs := [⟨.other, .resume :: wipe⟩], mine := false
      healthDirty := s.fls.healthDirty || health, healthUrgent := s.fls.healthUrgent || health } }
  match s1.sec.attRun with
  | none => s1
  | some (f, _) => { s1.modFn f fun b => { b with attBusy := false, attCode := 3 } with
      sec := { s1.sec with attRun := none } }

/-- SEC reverts a trial: every groom of the set restarts from its active slot (spec/18 R399). -/
def State.revert (s : State) : State :=
  let set := setBits s.grm.trialSet
  let s0 := if s.grm.trialSet.getLsbD 0 then s.secLost else s
  let s1 := set.foldl (fun s c =>
    let b := (s.fls.activeSlot (imageSlot c)).getD false
    s.restartFrom c b ((s.fls.activeSlot (imageSlot c)).bind (s.slotManifest c)) 2) s0
  let s2 := { s1 with grm := ({ s1.grm with trialSet := 0, probEnd := none, updCode := 10 } : Grm).settle }
  s2.logEvent 4 (set.headD 0)

/-- Whether the other slot's image may take over (spec/18 R392). -/
def State.mayTake (s : State) (c : Nat) (i : Image) : Bool :=
  peersAgree (i :: s.runningImages.filter fun x => x.cls != c) && (c != 2 || s.holdsVersions i)
    && (!(c == 1 || c == 2) || s.holdsYard (i :: s.runningImages.filter fun x => x.cls != c))

/-- An hour in ns. -/
def hourNs : Nat := 3600 * 1000000000

/-- A groom's watchdog expires: outside a trial its core restarts, from its other slot on the third expiry within an hour. -/
def execWatchdogExpiry (c : Gc) (s : State) : Out :=
  whenAlive s <|
    let g := s.groom c
    if !(s.groomUp c || g.state == 3 || g.faulted) then s else
      let s0 := s.setGroom c { g with restarts := g.restarts + 1 }
      if s0.grm.inTrial && s0.grm.trialSet.getLsbD c && !s0.committing then s0.revert
      else
        let s1 := if c.val = 0 then s0.secLost else s0
        let recent := (g.expiries.filter fun t => decide (s.tim.ns < t + hourNs)) ++ [s.tim.ns]
        let s2 := s1.setGroom c { s1.groom c with expiries := recent, down := true, state := 2, faulted := false }
        if recent.length < 3 then s2
        else match s2.slotImage c (!g.slotB) with
          | some i =>
            if s2.mayTake c i then
              let s3 := s2.restartFrom c (!g.slotB) (some i) 2
              (s3.setGroom c { s3.groom c with expiries := [] }).logEvent 3 c
            else s2.setGroom c { s2.groom c with state := 4 }
          | none => s2.setGroom c { s2.groom c with state := 4 }

/-- A groom's image stands whole in the slot it runs from: its code matches CODE_HASH. One that the ROM took from memory stays there
(spec/18 R391, log entry 95). -/
def State.reloads (s : State) (c : Nat) : Bool :=
  let p := (imageSlot c (s.groom c).slotB).first
  let m := s.fls.slotBytes p 512
  (c == 0 && s.sec.romImage)
    || sha512 ((s.fls.slotBytes p (512 + min 0x400000 (fieldN m 24 4))).drop 512) == (m.drop 128).take 64

/-- A restarted groom is back in service: SEC has reloaded its image from its slot, so that PWR, SCH and VIS wait for SEC. SCH tells
every running function (spec/15 R352). A press that SEC's absence left latched is the caller's to take. -/
def State.backInService (s : State) (c : Nat) : State :=
  let g := s.groom c
  if !g.down || g.state == 0 || !(c == 0 || s.secUp) || !s.reloads c then s else
    let s1 := s.setGroom c { g with down := false, state := if g.state = 2 then 1 else g.state }
    if c ≠ 2 then s1
    else (List.range 64).foldl (fun s f =>
      if (s.fn f).state = 2 then s.notice f 0x04 (BitVec.ofNat 64 (s.beat % 2 ^ 32)) else s) s1

/-! ### Staging (spec/18 R394) -/

/-- STAGE: the checks, and the writing of the inactive slot. A class of a set that is accepted or in trial is not staged meanwhile (log
entry 55). -/
def execStage (s : State) : Out :=
  whenHost 0 s fun s =>
    let g := s.grm
    let c := g.updClass
    if !s.secUp then s
    else if g.staging.isSome || g.trialSet.getLsbD c then s.updCode 7
    else if g.updSrc.toNat % 64 ≠ 0 then s.updCode 8
    else
      let rd := s.imageAt g.updSrc.toNat
      let s := rd.1
      match rd.2 with
      | none => s.updCode 8
      | some bs => match s.checkImage c bs with
        | .inr e => s.updCode e
        | .inl _ =>
          let b := s.inactiveSlot c
          if !s.fls.slotUsable (imageSlot c b) then s.updCode 8
          else { s with
            grm := ({ s.grm with staging := some (c, b), stagedBits := putBit g.stagedBits c false } : Grm).settle
            fls := { s.fls with jobs := s.fls.jobs ++ [⟨.stage c b, slotSteps (imageSlot c b) bs⟩] } }

/-- The image stands in the inactive slot. -/
def State.stageEnds (s : State) (c : Nat) : State :=
  { s with grm := ({ s.grm with staging := none, stagedBits := putBit s.grm.stagedBits c true } : Grm).settle }

/-! ### Activation and trial (spec/18 R399) -/

/-- ACTIVATE: accepted for the next frame boundary, or refused. -/
def execActivate (s : State) : Out :=
  whenHost 0 s fun s =>
    let g := s.grm
    let l := s.resultingSet g.updSet
    if !s.secUp then s
    else if g.updState ≠ 0 then s.updCode 7
    else if g.updSet = 0 ∨ g.updSet &&& ~~~ g.stagedBits ≠ 0 then s.updCode 9
    else if !peersAgree l then s.updCode 4
    else if g.updSet.getLsbD 2 && l.any fun i => i.cls == 2 && !s.holdsVersions i then s.updCode 5
    else if !s.holdsYard l then s.updCode 6
    else { s with grm := ({ g with activating := true, trialSet := g.updSet } : Grm).settle }

/-- The frame boundary at which the trial starts: every groom of the set stops, SEC with what it was doing. None at which an overlay
switch is pending, nor one that an overlay switch has used. -/
def execTrialStart (s : State) : Out :=
  whenAlive s <|
    let g := s.grm
    if !s.secUp || !s.frameEdge || !g.activating || g.ovlSwitch.isSome || g.ovlAt == some s.frame then s else
      let s0 := if g.trialSet.getLsbD 0 then s.secLost else s
      let s1 := (setBits g.trialSet).foldl (fun s c =>
        let b := s.inactiveSlot c
        match s.slotManifest c b with
        | some i => s.setGroom c { s.groom c with
            state := 3, slotB := b, running := some i, version := i.version, measure := i.hash, ready := false, down := false, faulted := false }
        | none => s) s0
      { s1 with grm := ({ s1.grm with activating := false, trialStartNs := s.tim.ns, probEnd := none } : Grm).settle }

/-- A trial image has not reported ready within 1 s. -/
def execTrialTimeout (s : State) : Out :=
  whenAlive s <|
    if s.grm.inTrial = true ∧ s.grm.probEnd = none ∧ s.grm.trialStartNs + 1000000000 ≤ s.tim.ns then s.revert else s

/-- The rollback count of a class rises to the SVN of its active image (spec/19 R413). -/
def State.raiseArb (s : State) (c svn : Nat) : State :=
  { s with sec := { s.sec with arb := smPut 0 s.sec.arb c (max (s.arb c) (min 64 svn)) } }

/-- The steps that commit a class of the trial: its slot's commit record, then the rollback count; after SEC's record, the table of
signatures that its image carries (spec/19 R413, spec/22 R465). -/
def State.commitImage (s : State) (c : Nat) : List FlsStep :=
  let b := (s.groom c).slotB
  let p := (imageSlot c b).first
  let m := s.fls.slotBytes p 512
  let len := 512 + min 0x400000 (fieldN m 24 4)
  let svn := match parseImage m with
    | some i => i.svn
    | none => 0
  [commitStep (imageSlot c) b len (sha512 m), .fuse c svn]
    ++ (if c = 0 then [.sigs ((Config.signatureTable (s.fls.slotBytes p len)).take 0x100000)] else [])

/-- Probation ends without an expiry: SEC commits the set in ascending class order. -/
def execProbationEnd (s : State) : Out :=
  whenAlive s <| match s.grm.probEnd with
  | none => s
  | some t =>
    if !s.secUp || s.tim.ns < t || s.committing then s else
      { s with fls := { s.fls with jobs := s.fls.jobs ++ [⟨.trial, (setBits s.grm.trialSet).flatMap s.commitImage⟩] } }

/-- The set is committed. -/
def State.trialEnds (s : State) : State :=
  let set := s.grm.trialSet
  let s1 := (setBits set).foldl (fun s c => if (s.groom c).state = 3 then s.setGroom c { s.groom c with state := 1 } else s) s
  { s1 with grm := ({ s1.grm with
      stagedBits := s1.grm.stagedBits &&& ~~~ set, trialSet := 0, probEnd := none } : Grm).settle }

/-! ### Loading records (spec/18 R402) -/

def State.cfgRefuse (s : State) (c : Nat) : State := { s with grm := { s.grm with cfgCode := BitVec.ofNat 4 c } }

/-- The bytes of a record at GRM_CFG_SRC: the header, then as many as its LENGTH; none where they cannot be read. -/
def State.recordAt (s : State) (va : Nat) : State × Option (List Byte) :=
  if va % 64 ≠ 0 then (s, none)
  else
    let r := s.readTwo va 64 fun h => (va, if lengthOk h then fieldN h 8 4 else 0)
    (r.1, r.2.bind fun x => if lengthOk x.1 then some x.2 else none)

/-- SEQ of the record that a new one of its kind and number replaces. -/
def Grm.replacedSeq (g : Grm) (bs : List Byte) : Option Nat :=
  let old : Option Record := if fieldN bs 0 1 = 0 then (match g.baseNext with | some r => some r | none => g.base)
    else smGet none g.overlays (fieldN bs 1 1)
  old.map fun r => r.seq.toNat

/-- Where a record is kept: its two slots. -/
def recordPlace (bs : List Byte) : Bool → SlotPlace :=
  if fieldN bs 0 1 = 0 then baseSlot else overlaySlot (fieldN bs 1 1)

/-- LOAD: the checks of SEC; an unprovisioned package refuses every one (spec/19 R412). -/
def execLoad (s : State) : Out :=
  whenHost 0 s fun s =>
    if !s.secUp then s
    else if s.sec.owners.isEmpty then s.cfgRefuse 1
    else if s.grm.cfgBusy then s.cfgRefuse 5
    else
      let rd := s.recordAt s.grm.cfgSrc.toNat
      let s := rd.1
      match rd.2 with
      | none => s.cfgRefuse 3
      | some bs =>
        if !ownerSigned s.sec.owner bs then s.cfgRefuse 1
        else match s.readRecord (some s.glb.yardId) bs with
          | .inr c => s.cfgRefuse c
          | .inl r =>
            let place := recordPlace bs
            let b := match s.fls.activeSlot place with | some x => !x | none => false
            if (match s.grm.replacedSeq bs with | some q => decide (r.seq.toNat ≤ q) | none => false) then s.cfgRefuse 2
            else if !s.fls.slotUsable (place b) then s.cfgRefuse 3
            else { s with
              grm := { s.grm with cfgBusy := true }
              fls := { s.fls with jobs := s.fls.jobs
                ++ [⟨.load bs, slotSteps (place b) bs ++ [commitStep place b bs.length (sha512 bs)]⟩] } }

/-- An accepted record stands in flash: a base waits for the frame boundary, an overlay replaces the stored one. -/
def State.loadEnds (s : State) (bs : List Byte) : State :=
  let g := { s.grm with cfgBusy := false }
  match s.readRecord none bs with
  | .inr _ => { s with grm := g }
  | .inl r =>
    if fieldN bs 0 1 = 0 then { s with grm := { g with baseNext := some r } }
    else
      let n := fieldN bs 1 1
      { s with grm := { g with overlays := smPut none g.overlays n (some r), ovlRenew := g.ovlRenew || g.ovlCurrent == n } }

/-- A load under way is abandoned with a CODE: no step of it follows, and its slot stays uncommitted. -/
def State.dropLoad (s : State) (code : Nat) : State :=
  let load := fun (j : FlsJob) => match j.what with
    | .load _ => true
    | _ => false
  if !s.grm.cfgBusy then s else
    { s with
      grm := { s.grm with cfgBusy := false, cfgCode := BitVec.ofNat 4 code }
      fls := { s.fls with
        jobs := s.fls.jobs.filter fun j => !load j
        mine := s.fls.mine && !(match s.fls.jobs with | j :: _ => load j | [] => false) } }

/-! ### SEC's work on the die (spec/20 R434) -/

/-- SEC's first job ends, done or abandoned. -/
def State.endJob (s : State) (ok : Bool) : State :=
  match s.fls.jobs with
  | [] => s
  | j :: js =>
    let t := { s with fls := { s.fls with jobs := js } }
    match j.what with
    | .stage c _ => if ok then t.stageEnds c else
        { t with grm := ({ t.grm with staging := none, updCode := 8 } : Grm).settle }
    | .load bs => if ok then t.loadEnds bs else { t with grm := { t.grm with cfgBusy := false, cfgCode := 3 } }
    | .health => if ok then t else { t with fls := { t.fls with healthDirty := true, healthUrgent := true } }
    | .trial => if ok then t.trialEnds else t.revert
    | .other => t

/-- SEC takes the next step of its work when the die is idle and no sequence of its own has begun. -/
def State.secStep (s : State) : State :=
  if !s.secUp || s.fls.busy || s.fls.seq != .read then s
  else match s.fls.jobs with
    | [] => s
    | j :: _ => match j.steps with
      | [] => s.endJob true
      | .abandon :: _ => s.endJob false
      | .fuse c svn :: rest =>
        let t := s.raiseArb c svn
        { t with fls := t.fls.go rest, grm := { t.grm with stagedBits := putBit t.grm.stagedBits c false } }
      | st :: rest => { s with fls := s.fls.step st rest }

/-- A groom may have a line for the log ring: whether, and what it says, is free (spec/20 R424, log entry 95). -/
def State.logRing (s : State) : State :=
  let x := fun (k : Nat) => s.free (2 ^ 77 + 512 * s.beat + k)
  let line := (List.range 256).map fun k => BitVec.ofNat 8 (x (k + 1))
  { s with fls := if s.secUp && s.fls.jobs.isEmpty && x 0 % 2 == 1 then s.fls.logLine line else s.fls }

/-- Camera frame events of the beat come before an overlay or a base: frame start, frame end, hot-plug (spec/02 R42, R44). -/
def State.camEvents (s : State) : Bool := s.pending.any fun i => match i with
  | .camFrameStart _ _ | .camFrameEnd _ _ | .camHpd _ _ => true
  | _ => false

/-- The frame boundary: an accepted base, and new contents of the overlay in effect. -/
def execConfigApply (s : State) : Out :=
  whenAlive s <|
    let g := s.grm
    if !s.frameEdge || s.camEvents || (g.baseNext.isNone && !g.ovlRenew) then s else
      let g1 := match g.baseNext with
        | some r => { g with base := some r, baseNext := none, baseSeq := r.seq, ovlRenew := false }
        | none => { g with ovlRenew := false }
      s.reconfigure g1 false g.baseNext.isNone

/-! ### Overlays (spec/18 R403) -/

/-- The PF writes GRM_OVL_NEXT: the switch is latched, or refused. Without a base SEC refuses every switch
(spec/19 R412). -/
def execGrmOvlNext (v : W64) (s : State) : Out :=
  whenHost 0 s fun s =>
    let n := bits v.toNat 3 0
    let f : W32 := BitVec.ofNat 32 (bits v.toNat 63 32)
    if 8 ≤ n ∧ n ≤ 14 then s else
      let g := { s.grm with ovlNext := BitVec.ofNat 4 n, ovlFrame := f }
      let late := decide (diff32 f (BitVec.ofNat 32 s.frame) ≤ 0)
      let gone := s.grm.base.isNone || (decide (n < 8) && (smGet none s.grm.overlays n).isNone)
      if !s.secUp then { s with grm := g }
      else if late || gone then
        { s with grm := { g with ovlLate := g.ovlLate || late, ovlNotLoaded := g.ovlNotLoaded || gone } }
      else { s with grm := { g with ovlSwitch := some (n, f) } }

/-- The frame boundary of a switch. -/
def execOverlaySwitch (s : State) : Out :=
  whenAlive s <| match s.grm.ovlSwitch with
  | none => s
  | some (n, f) =>
    if s.frameEdge = false ∨ s.camEvents = true ∨ 0 < diff32 f (BitVec.ofNat 32 s.frame) then s
    else s.reconfigure { s.grm with ovlSwitch := none, ovlAt := some s.frame, ovlCurrent := n } false false

end Sys2Proof.Machine
end

