-- ==== Sys2Proof/Machine/Reset.lean ====
section
/-! DEFINITION. Device reset, function-level reset and loss of power (spec/15 R356, R357, spec/23 R475, R476, and each chapter's
reset rule). -/

namespace Sys2Proof.Machine

/-! ### Function-level reset (spec/15 R357, spec/02 R44) -/

/-- Every command of a function is discarded without a completion. -/
def State.discardCmds (s : State) (f : Nat) : State :=
  (s.cmds.list.filter fun c => c.fn == f).foldl (fun s c => (s.killRun c).dropCmd c.id) s

/-- The contexts of a tenant space close without a completion, its accounts are cleared and its prefixes retired (spec/13
R315). -/
def State.dropServing (s : State) (t : Nat) : State :=
  let v := s.serv
  let gone := fun (m : Maint) => match m with
    | .layer u _ => u == t
    | .merge x _ => (s.ctx x).tenant == t
  let cls := smMap {} s.clusters fun _ (k : Cluster) => { k with maint := k.maint.filter fun m => !gone m }
  let mine := fun (p : Policy) => match p with
    | .account f _ _ _ _ _ => f == t
    | _ => false
  let s1 := { s with clusters := cls, sched := { s.sched with writes := s.sched.writes.filter fun e => !mine e.2 }, serv := { v with
    ctxs := smMap {} v.ctxs fun _ c => if c.tenant = t ∧ c.state ≠ 0 then { c with state := 4 } else c
    accts := smMap {} v.accts fun _ a =>
      if a.owner = some t then { a with valid := false, deficit := 0, meCycles := 0, vuCycles := 0 } else a
    pfxs := v.pfxs.map fun (p : Pfx) => if p.tenant = t then { p with retired := true } else p
    merges := v.merges.filter fun m => (s.ctx m.ctx).tenant != t
    jobs := v.jobs.filter fun j => j.fn != t
    oldRuns := v.oldRuns.filter fun r => r.1 != t } }
  s1.sweepPfx s1.serv.pfxs.length

/-- The running histograms of a tenant space's layouts are set to zero (spec/12 R282). -/
def State.zeroHists (s : State) (t : Nat) : State :=
  (s.ten t).layouts.foldl (fun (u : State) e => match e.2 with
    | some l => u.wrVa t l.poolBase (List.replicate (16 + 4 * numSyms l.format) 0)
    | none => u) s

/-- The tenant space's own state: mappings, gates, layouts, programs, tables, deficit and totals; its quotas and its
configured weight and context quota stay (spec/09 R234, spec/11 R268, spec/12 R293, spec/14 R335). -/
def State.dropTenant (s : State) (t : Nat) : State :=
  let s1 := (s.zeroHists t).unmapLeaves t fun _ => true
  let k := s1.ten t
  let s2 := s1.setTen t {
    quotaHbm := k.quotaHbm, quotaLoft := k.quotaLoft, useHbm := k.useHbm, useLoft := k.useLoft
    weight := k.weight, ctxQuota := k.ctxQuota, leaving := k.leaving }
  let s3 := (List.range 96).foldl (fun s g => s.modCl g fun c => { c with
    recCache := c.recCache.filter fun r => r.tenant != t, progs := c.progs.filter fun p => p.tenant != t }) s2
  { s3 with
    sched := { s3.sched with express := smMod {} s3.sched.express t fun x => { x with sum := 0 } }
    cam := { s3.cam with binds := smMap {} s3.cam.binds fun _ b => match b.cfg with
      | some r => if r.tenant = t ∧ b.state = 1 then { b with state := 3 } else b
      | none => b } }

/-- A function's block goes to its reset values; its own attestation request is abandoned (spec/15 R360, spec/19 R422).
Bus Master Enable is configuration space, which an FLR resets and FN_CTRL.RESET does not (log entry 7). -/
def State.resetFn (s : State) (f : Nat) (keepBm : Bool) : State :=
  let b := s.fn f
  let s1 := s.setFn f { busMaster := keepBm && b.busMaster, resetBeat := some s.beat, aer := b.aer }
  match s1.sec.attRun with
  | some (g, _) => if g = f then { s1 with sec := { s1.sec with attRun := none } } else s1
  | none => s1

/-- A function-level reset. The halves of split accesses that the function holds are kept (log entry 65). -/
def State.functionReset (s : State) (f : Nat) (keepBm : Bool) : State :=
  (((s.discardCmds f).resetFn f keepBm).dropServing f).dropTenant f

/-! ### Device reset (spec/15 R356) -/

/-- Every pending write lands or is dropped, freely (spec/07 R181). -/
def State.landReset (s : State) : State :=
  let kept := (s.infl.zipIdx).filter fun x => !isRegs x.1.addr && s.free (x.2 + 1) % 2 == 1
  { kept.foldl (fun (t : State) (x : PWrite × Nat) => t.put x.1.addr x.1.mask x.1.val) s with infl := [] }.bump

/-- The functions: STOPPED, and a pending attestation request reads CODE 3. -/
def State.resetFns (s : State) (keepBm : Bool) : State :=
  { s with fns := smMap {} s.fns fun _ b =>
      { busMaster := keepBm && b.busMaster, attCode := if b.attBusy then 3 else 0, aer := b.aer } }

/-- Tenant spaces keep their quotas alone. -/
def State.resetTens (s : State) : State :=
  { s with tens := smMap {} s.tens fun _ n => { quotaHbm := n.quotaHbm, quotaLoft := n.quotaLoft } }

/-- No frame is held, and each is zeroed before its next mapping (spec/19 R419); poisoned words and words that an error
has spoiled stay (spec/10 R245). -/
def Memc.reset (m : Memc) : Memc :=
  { loftGib := m.loftGib, poison := m.poison, loftBad := m.loftBad, upset := m.upset, lost := m.lost, fresh := m.fresh
    frames := smMap {} m.frames fun _ f => { retired := f.retired } }

/-- The cap, the budget, PWR_ENERGY, PEAK and THERMTRIP_SEEN are kept, with the state of the board's regulators; every other
field takes its reset value, so that each region is awake at IDLE's point, OP0 (spec/17 R389, spec/00 R11). -/
def Pwr.reset (p : Pwr) : Pwr :=
  { cap := p.cap, budget := p.budget, lastB := p.lastB, energy := p.energy, tempPeak := p.tempPeak
    thermtripSeen := p.thermtripSeen, rail := p.rail, silent := p.silent }

/-- Used ports train, and the counters are 0 (spec/16 R372). -/
def Fab.reset (f : Fab) : Fab :=
  { ports := smMap {} f.ports fun _ p => if p.state = 0 then {} else { state := 1 }, outbox := f.outbox }

/-- Grooms stop; stored images, records, staged slots and restart counts are kept; a trial is abandoned with CODE 10
(spec/18 R404). -/
def Grm.reset (g : Grm) : Grm :=
  { grooms := smMap {} g.grooms fun _ x => { restarts := x.restarts, expiries := x.expiries }
    stagedBits := g.stagedBits, updCode := if g.inTrial then 10 else 0 }

/-- Presence actions are disarmed; fuses, DEBUG and the identity are kept (spec/19 R422). -/
def Sec.reset (x : Sec) : Sec :=
  { debug := x.debug, seed := x.seed, vendorHash := x.vendorHash, owners := x.owners, arb := x.arb, jtagOff := x.jtagOff
    idHash := x.idHash, recNext := x.recNext, debugNext := x.debugNext }

/-- Every register field takes its reset value and SEC's sequence is lost; the counts of the health record are read again, and
FLS_ERASES counts since power-up. An operation on the die goes on, and OP and SECTOR name it (spec/20 R439, spec/00 R11). -/
def Fls.reset (f : Fls) : Fls :=
  let on := f.run.isSome
  { f with done := false, seqErr := false, progErr := false, progFail := false, eraseFail := false, xoHit := false
           busyHit := false, wear := false, op := if on then f.op else 0, sector := if on then f.sector else 0
           lock := false, lastPulses := 0, lastResult := false, lastSector := 0, wearLast := 0, xoAddr := 0, denied := 0
           xo := [], seq := .read, statusNext := false, jobs := [], mine := false, fetches := [] }

/-- Sensors, bindings and counters are cleared; the hot-plug levels are pins (spec/21 R457, R458). -/
def Cam.reset (c : Cam) : Cam :=
  { ports := smMap {} c.ports fun _ p => { hpd := p.hpd, link := p.link } }

/-- A slice ends unjudged, the counters are 0, the order starts at the lowest usable cluster (spec/22 R471). -/
def State.resetFar (s : State) : State :=
  { s with far := {
      nextCluster := ((List.range 96).find? fun g => !s.disabled g).getD 0, turn := ((List.range 96).find? fun g => !s.disabled g).getD 0
      suspect := s.far.suspect, pcieLow := s.far.pcieLow, health := s.far.health } }

/-- A device reset: the functions, tenant spaces and commands are gone, the grooms restart at the next boot. The TIM block is kept
whole: beside the counter, LOCKED and the rate (spec/02 R52) also TOD_NEXT, ARM, REF10_EN, PPS_FALLING and its W1C bits (log
entry 66). -/
def State.deviceReset (s : State) (keepBm : Bool) : State :=
  let s1 := (((s.landReset).resetFns keepBm).resetTens).resetFar
  { s1 with
    clusters := []
    cmds := { nextId := s.cmds.nextId, nextSeq := s.cmds.nextSeq, nextOp := s.cmds.nextOp }
    serv := { gen := s.serv.gen + 1 }
    sched := {}
    glb := { disable := s.glb.disable }
    pwr := s1.pwr.reset
    memc := s1.memc.reset
    fab := s1.fab.reset
    grm := s1.grm.reset
    sec := s1.sec.reset
    fls := s1.fls.reset
    cam := s1.cam.reset
    board := { s1.board with bootPending := true, booted := false, vfEnable := s1.board.vfEnable && keepBm }
    latch := {} }

/-! ### Loss of power (spec/23 R475, R476) -/

/-- What a flash operation cut short leaves: a bit that a program clears may have changed or not, and an erase leaves its sector with bits
in any pattern (spec/20 R433). -/
def State.cutFlash (s : State) : State :=
  let f := s.fls
  match f.run with
  | none => s
  | some o =>
    let prog := fun (ws : List (Nat × W32)) =>
      (ws.flatMap fun w => (leBytes 4 w.2.toNat).zipIdx.map fun b => (w.1 + b.2, b.1)).foldl (fun m b =>
        smPut 0xFF m b.1 (smGet 0xFF m b.1 &&& (b.2 ||| BitVec.ofNat 8 (s.free (b.1 + 1))))) f.arr
    let arr := match o with
      | .word x w => prog [(x, w)]
      | .buffer ws => prog ws
      | .erase n => (List.range (sectorSize n)).foldl (fun m i =>
          smPut 0xFF m (sectorBase n + i) (BitVec.ofNat 8 (s.free (sectorBase n + i + 1)))) f.arr
    ({ s with fls := { f with arr := arr, run := none, busy := false } }).bump

/-- What holds after a fall of SYS_PWROK and the next rise: the flash array, the fuses, the host's memory, and the always-on
state while VDD_AON stays. Memory that lost its power reads as unlisted memory does (log entry 3). -/
def State.powerUp (s : State) : State :=
  let c := s.cutFlash
  { pending := c.pending, freeIx := c.freeIx, hostMem := c.hostMem
    fls := { arr := c.fls.arr }
    sec := { seed := c.sec.seed, vendorHash := c.sec.vendorHash, owners := c.sec.owners, arb := c.sec.arb, jtagOff := c.sec.jtagOff }
    cam := { ports := smMap {} c.cam.ports fun _ p => { hpd := p.hpd, link := p.link } }
    pwr := { thermtripSeen := c.pwr.thermtripSeen }
    cmds := { nextId := c.cmds.nextId, nextSeq := c.cmds.nextSeq, nextOp := c.cmds.nextOp }
    board := { pwrok := true, perst := c.board.perst, tripped := c.board.tripped, tripRecord := c.board.tripRecord
               refPresent := c.board.refPresent } }

end Sys2Proof.Machine
end

