-- ==== Sys2Proof/Machine/Security.lean ====
section
/-! DEFINITION. The tack room: the boot chain, recovery, owner keys, presence, attestation (spec/19 R405-R422, spec/18 R400,
spec/15 R358). -/

namespace Sys2Proof.Machine

/-! ### The boot chain (spec/19 R407, R408, spec/18 R400) -/

/-- A groom starts an image and is measured. -/
def State.startGroom (s : State) (c : Nat) (b : Bool) (i : Image) : State :=
  s.setGroom c { s.groom c with
    state := 1, slotB := b, running := some i, version := i.version, measure := i.hash, ready := false, down := false, faulted := false }

/-- SEC's committed slots that pass the boot ROM's checks, the newer commit record first. -/
def State.secSlot (s : State) : Option (Bool × Image) :=
  let first := (s.fls.activeSlot (imageSlot 0)).getD false
  match s.slotImage 0 first with
  | some i => some (first, i)
  | none => (s.slotImage 0 (!first)).map fun i => (!first, i)

/-- Sets of inactive slots of classes 1 to 3, in the order SEC tries them. -/
def bootOrder : List (List Nat) := [[], [1], [2], [3], [1, 2], [1, 3], [2, 3], [1, 2, 3]]

/-- The images of classes 1 to 3 with these inactive slots, where all are committed. -/
def State.bootImages (s : State) (inactive : List Nat) : Option (List (Nat × Bool × Image)) :=
  let pick := fun (c : Nat) =>
    let b := ((s.fls.activeSlot (imageSlot c)).getD false) != inactive.contains c
    (s.slotImage c b).map fun i => (c, b, i)
  match pick 1, pick 2, pick 3 with
  | some a, some b, some c => some [a, b, c]
  | _, _, _ => none

/-- The first set that meets R396 with SEC's image. -/
def State.bootSet (s : State) (sec : Image) : Option (List (Nat × Bool × Image)) :=
  bootOrder.findSome? fun u => (s.bootImages u).filter fun l => peersAgree (sec :: l.map fun x => x.2.2)

/-- The stored record of two slots with a valid signature of the current owner key and the highest SEQ (spec/19 R407, R412). -/
def State.storedRecord (s : State) (place : Bool → SlotPlace) : Option Record :=
  let one := fun (b : Bool) =>
    let p := place b
    match s.fls.commitOf p.commit with
    | none => none
    | some (_, n, _) =>
      let bs := s.fls.slotBytes p.first (min 0x100000 n)
      if !s.fls.slotUsable p || !ownerSigned s.sec.owner bs then none
      else match s.readRecord none bs with
        | .inl r => some r
        | .inr _ => none
  match one false, one true with
  | some a, some b => some (if a.seq.toNat < b.seq.toNat then b else a)
  | some a, none => some a
  | none, r => r

/-- Mapping orders, populated loft and cooling of the base take effect at a boot, the reset values where the base has none; without a
cold plate a cap above 400 W is taken as 400 W (spec/18 R402, spec/17 R378). -/
def State.applyMaps (s : State) : State :=
  let f := fun (t : Nat) => (s.grm.base.bind (·.tag t)).map fun v => fieldN v 0 4
  let s1 := match f 0x02 with
    | some x => { s with memc := { s.memc with hbmOrder := bits x 1 0, loftOrder := bits x 3 2, mapLock := true } }
    | none => { s with memc := { s.memc with hbmOrder := 2, loftOrder := 2, mapLock := true } }
  match f 0x03 with
  | some x => { s1 with
      memc := { s1.memc with loftGib := bits x 9 0 }
      pwr := { s1.pwr with cooled := bitN x 16, cap := if bitN x 16 then s1.pwr.cap else min 400 s1.pwr.cap } }
  | none => { s1 with memc := { s1.memc with loftGib := ({} : Memc).loftGib }, pwr := { s1.pwr with cooled := false, cap := min 400 s1.pwr.cap } }

/-- Stored base and overlays come into effect, the base alone (spec/18 R404). -/
def State.loadStored (s : State) : State :=
  let base := s.storedRecord baseSlot
  let ovl := (List.range 8).foldl (fun m n => smPut none m n (s.storedRecord (overlaySlot n))) []
  let seq : W32 := match base with | some r => r.seq | none => 0
  (s.reconfigure { s.grm with base := base, overlays := ovl, baseSeq := seq } true false).applyMaps

/-- SEC sets one execute-only region over both slots of each class and locks them (spec/20 R431). -/
def Fls.lockRegions (f : Fls) : Fls :=
  { f with
    lock := true
    xo := (List.range 4).foldl (fun m c => smPut {} m c {
      first := BitVec.ofNat 10 (32 + 32 * c), last := BitVec.ofNat 10 (63 + 32 * c), fetch := BitVec.ofNat 4 (2 ^ c)
      valid := true }) [] }

/-- SEC runs: it starts the other grooms and loads the configuration. Where no
set qualifies, or a recovery boot was commanded, it runs in recovery mode. -/
def State.secBoot (s : State) (b : Bool) (i : Image) (recovery : Bool) : State :=
  let s0 := s.startGroom 0 b i
  let s1 := { s0 with fls := s0.fls.lockRegions }
  let s2 := if s1.board.tripRecord then
      { s1 with board := { s1.board with tripRecord := false } }.logEvent 2 0
    else s1
  let s3 := (List.range 4).foldl (fun (s : State) c =>
    match (s.fls.activeSlot (imageSlot c)).bind (s.slotManifest c) with
    | some m => s.raiseArb c m.svn
    | none => s) s2
  let set := s3.bootSet i
  let s4 := match set with
    | some l => l.foldl (fun (s : State) (x : Nat × Bool × Image) => s.startGroom x.1 x.2.1 x.2.2) s3
    | none => s3
  let mode := if recovery || set.isNone then 1 else 0
  ({ s4 with sec := { s4.sec with bootMode := mode } }).loadStored

/-- At a release of reset, once an operation that the reset left on the die has ended, the health record is read, the erases that the
journal shows pending are made again, and the boot ROM derives the identity and starts SEC, or enters ROM recovery (spec/20 R433, R439,
log entry 95). Recovery clears the memory before BAR4 opens, and so does a debug unlock before it takes effect (spec/19 R419, R421). -/
def execBoot (s : State) : Out :=
  whenAlive s <|
    if !s.board.bootPending || s.fls.busy then s else
      let rec' := s.sec.recNext
      let s0 := s.readHealth.repairErases
      let s1 := { s0 with
        board := { s0.board with bootPending := false, booted := true }
        sec := { s0.sec with idHash := idHashOf s0.sec.seed, recNext := false } }
      let s2 := match s1.secSlot with
        | some (b, i) => s1.secBoot b i rec'
        | none => { s1 with sec := { s1.sec with bootMode := 2 }, board := { s1.board with vfEnable := false } }
      { s2 with sec := { s2.sec with clearing := s2.sec.bootMode != 0 || s2.sec.debugNext } }

/-- SEC_ROM_LOAD in ROM recovery: an image at physical address 0 that passes step 2 runs in recovery mode. -/
def execSecRomLoad (len : BitVec 23) (s : State) : Out :=
  whenHost 0 s fun s =>
    if s.sec.bootMode ≠ 2 || s.sec.clearing then s
    else match s.checkImage 0 (s.rds 0 len.toNat) with
      | .inl i => ({ s with sec := { s.sec with romImage := true } }).secBoot false i true
      | .inr _ => { s with sec := { s.sec with romReject := true } }

/-- The clearing ends: zeros over HBM, loft and every cluster buffer (spec/19 R419). -/
def execMemoryClearDone (s : State) : Out :=
  whenAlive s <|
    if !s.sec.clearing then s else
      let s1 := { s with
        mem := [], infl := [], memc := { s.memc with poison := [], loftBad := [], upset := [], lost := [], fresh := [] }
        sec := { s.sec with clearing := false } }
      if s1.sec.debugNext then
        { s1 with sec := { s1.sec with debug := true, debugNext := false, ownerDone := true } }
      else s1

/-! ### Owner change and debug unlock (spec/19 R410, R411, R421) -/

def State.ownerRefuse (s : State) (c : Nat) : State := { s with sec := { s.sec with ownerCode := BitVec.ofNat 4 c } }

/-- A presence action is armed. -/
def State.armPresence (s : State) (k : Nat) (h : BitVec 512) : State :=
  { s with sec := { s.sec with presence := k, armHash := h, armBeat := s.beat, pressed := false } }

/-- The entries of an owner-change or debug record of a kind whose last n bytes are signature blocks; none where it is
malformed. -/
def State.ownerEntries (s : State) (kind n : Nat) (bs : List Byte) : Option (List (Nat × List Byte)) :=
  let yid := fieldN bs 12 4
  if fieldN bs 0 1 ≠ kind ∨ !zerosN bs 1 4 ∨ bs.length < 64 + n ∨ (yid ≠ 0 ∧ yid ≠ s.glb.yardId.toNat) then none
  else let body := (bs.take (bs.length - n)).drop 64
    recEntries body.length body

/-- The record at SEC_OWNER_SRC. -/
def State.ownerRecord (s : State) : State × Option (List Byte) :=
  let va := s.sec.ownerSrc.toNat
  let ok := fun (h : List Byte) => decide (320 ≤ fieldN h 8 4) && decide (fieldN h 8 4 ≤ 0x10000)
  if va % 64 ≠ 0 then (s, none)
  else
    let r := s.readTwo va 64 fun h => (va, if ok h then fieldN h 8 4 else 0)
    (r.1, r.2.bind fun x => if ok x.1 then some x.2 else none)

/-- The target identity of a record, TAG 0x00F1. -/
def attestedTarget (es : List (Nat × List Byte)) : Option (BitVec 512) :=
  match lastEntry es 0xF1 with
  | some v => if v.length = 64 then some (BitVec.ofNat 512 (leNat v)) else none
  | none => none

/-- SEC_OWNER_CTRL.ARM: the record is checked and an owner change armed, or CODE set. -/
def execSecOwnerArm (s : State) : Out :=
  whenHost 0 s fun s =>
    if !s.secUp then s
    else if s.sec.presence ≠ 0 then s.ownerRefuse 5
    else
      let rd := s.ownerRecord
      let s := rd.1
      match rd.2 with
      | none => s.ownerRefuse 6
      | some bs => match s.ownerEntries 2 256 bs with
        | none => s.ownerRefuse 6
        | some es => match lastEntry es 0xF0, attestedTarget es with
          | some v, some t =>
            let h := hash512 (v.take 67)
            if v.length ≠ 68 ∨ !zerosN v 67 68 ∨ (p521Unpack (v.take 67)).isNone ∨ es.length ≠ 2 then s.ownerRefuse 6
            else if !ownerSigned (some (s.sec.owner.getD h)) bs then s.ownerRefuse 1
            else if t ≠ s.sec.idHash then s.ownerRefuse 2
            else if 4 ≤ s.sec.owners.length then s.ownerRefuse 3
            else s.armPresence 2 h
          | _, _ => s.ownerRefuse 6

/-- SEC_OWNER_CTRL.DEBUG: two blocks end the record, Womoro's and then the owner's countersignature over all before it
(log entry 37). -/
def execSecOwnerDebug (s : State) : Out :=
  whenHost 0 s fun s =>
    if !s.secUp then s
    else if s.sec.jtagOff then s.ownerRefuse 6
    else if s.sec.presence ≠ 0 then s.ownerRefuse 5
    else
      let rd := s.ownerRecord
      let s := rd.1
      match rd.2 with
      | none => s.ownerRefuse 6
      | some bs => match (s.ownerEntries 3 512 bs).bind attestedTarget with
        | none => s.ownerRefuse 6
        | some t =>
          let n := bs.length
          if !blockValid ((bs.drop (n - 512)).take 256) (bs.take (n - 512)) 0 s.sec.vendorHash
              || !ownerSigned s.sec.owner bs then s.ownerRefuse 1
          else if t ≠ s.sec.idHash then s.ownerRefuse 2
          else s.armPresence 3 0

/-- The press proves presence: the armed action is carried out. Records in effect then stem from an earlier owner key,
and a load under way is refused (spec/19 R412). -/
def State.pressActs (s : State) : State :=
  match s.sec.presence with
  | 1 => { s with sec := { s.sec with recNext := true } }.deviceReset true
  | 2 =>
    let old := fun (r : Record) => { r with oldKey := true }
    ({ s with
      sec := { s.sec with owners := s.sec.owners ++ [s.sec.armHash], ownerDone := true, presence := 0, pressed := false }
      grm := { s.grm with base := s.grm.base.map old, baseNext := s.grm.baseNext.map old
                          overlays := s.grm.overlays.map fun e => (e.1, e.2.map old) } } : State).dropLoad 1
  | 3 => { s with sec := { s.sec with debugNext := true } }.deviceReset true
  | _ => s

/-- Beats in 30 s. -/
def presenceBeats : Nat := 30000000

/-- RECOVER_N is held low for two beats or more. -/
def execRecoverNPress (s : State) : Out :=
  whenAlive s <|
    if s.sec.presence = 0 ∨ s.sec.armBeat + presenceBeats < s.beat then s
    else if s.secUp then s.pressActs
    else { s with sec := { s.sec with pressed := true } }

/-- 30 s have passed since the arming. -/
def execPresenceTimeout (s : State) : Out :=
  whenAlive s <|
    if s.sec.presence = 0 ∨ s.beat < s.sec.armBeat + presenceBeats then s else
      let s1 := if s.sec.presence = 1 then s.modFn 0 fun b => { b with recoverArmed := false } else s.ownerRefuse 4
      { s1 with sec := { s1.sec with presence := 0, pressed := false } }

/-- SEC takes a press that came while it was out of service, within the 30 s of the arming (spec/19 R411). -/
def State.takePress (s : State) (c : Nat) : State :=
  if c = 0 ∧ s.secUp = true ∧ s.sec.pressed = true ∧ s.beat ≤ s.sec.armBeat + presenceBeats then s.pressActs else s

/-- A trial image reports ready; the last report starts probation. -/
def execTrialReady (c : Gc) (s : State) : Out :=
  whenAlive s <|
    let g := s.groom c
    if !s.grm.inTrial || g.state != 3 || g.ready then s else
      let s1 := s.setGroom c { g with ready := true }
      let last := (setBits s.grm.trialSet).all fun d => (s1.groom d).ready
      let s2 := { s1 with grm := { s1.grm with
        probEnd := if last then some (s.tim.ns + s.grm.probation.toNat * 1000000000) else s1.grm.probEnd } }
      s2.takePress c

/-- A groom is back in service; SEC then takes a press that came meanwhile. -/
def execGroomBackInService (c : Gc) (s : State) : Out :=
  whenAlive s <|
    (s.backInService c).takePress c

/-! ### Attestation (spec/19 R414-R416) -/

/-- FN_ATT_CTRL.REQ. -/
def execFnAttReq (f : Fn) (s : State) : Out :=
  whenHost f s fun s =>
    if (s.fn f).attBusy then s else s.modFn f fun b => { b with attBusy := true }

/-- FLAGS of a report. -/
def State.attFlags (s : State) : Nat :=
  b2n (s.sec.bootMode != 0) + 2 * b2n s.memc.separate + 4 * b2n (!s.sec.owners.isEmpty) + 8 * b2n s.grm.inTrial
    + 16 * b2n s.sec.debug + 32 * b2n s.sec.jtagOff + 64 * b2n s.degraded
    + 128 * b2n (match s.grm.base with | some r => r.oldKey | none => false)

/-- The bytes that a report's signature covers. -/
def State.reportBody (s : State) (f : Nat) : List Byte :=
  let img := fun (c : Nat) => (s.groom c).running
  leBytes 4 1 ++ leBytes 4 1024 ++ (List.range 16).flatMap (fun i => leBytes 4 (smGet 0 (s.fn f).attNonce i).toNat)
    ++ leBytes 8 s.tim.ns ++ leBytes 4 glbId ++ leBytes 4 s.glb.yardId.toNat
    ++ leBytes 1 (if s.glb.valid then s.glb.index else 0xFF) ++ leBytes 1 f ++ leBytes 1 s.attFlags
    ++ leBytes 1 (if s.sec.owners.isEmpty then 0xFF else s.sec.owners.length - 1) ++ leBytes 4 0
    ++ leBytes 12 s.glb.disable.toNat ++ leBytes 4 0
    ++ (List.range 4).flatMap (fun c => leBytes 1 (s.arb c))
    ++ (List.range 4).flatMap (fun c => leBytes 1 (match img c with | some i => i.svn | none => 0)) ++ leBytes 8 0
    ++ (List.range 4).flatMap (fun c => leBytes 4 (s.groom c).version.toNat)
    ++ (List.range 4).flatMap (fun c => leBytes 64 (s.groom c).measure.toNat)
    ++ (match s.grm.base with | some r => sha512 r.bytes | none => leBytes 64 0)
    ++ (match s.grm.overlay with | some r => sha512 r.bytes | none => leBytes 64 0)
    ++ leBytes 4 s.grm.baseSeq.toNat ++ leBytes 1 s.grm.ovlCurrent ++ leBytes 3 0
    ++ leBytes 64 (s.sec.owner.getD 0).toNat ++ leBytes 64 s.sec.idHash.toNat ++ leBytes 104 0

/-- The destination of a report: 0 where it can be written, else CODE 1 or 2 (log entry 38 for a misaligned one). -/
def State.attFault (s : State) (f va : Nat) : Nat :=
  let fs := (List.range 1024).flatMap fun i => s.hostFault f (va + i) true
  if va % 64 ≠ 0 ∨ fs.contains fTranslation = true ∨ (s.memc.separate = true ∧ f ≠ 0) then 1 else if fs.isEmpty then 0 else 2

/-- SEC begins the report of the lowest function that waits, with the package's state at this beat; or writes the one it has
begun. -/
def execAttestationReport (s : State) : Out :=
  whenAlive s <|
    if !s.secUp then s
    else match s.sec.attRun with
      | some (f, bs) =>
        let va := (s.fn f).attDst.toNat
        let code := s.attFault f va
        let s1 := if code = 0 then s.wrVa f va bs else s
        let s2 := s1.modFn f fun b => { b with
          attBusy := false, attDone := b.attDone || code == 0, attCode := BitVec.ofNat 4 code }
        { s2 with sec := { s2.sec with attRun := none } }
      | none => match (List.range 64).find? fun f => (s.fn f).attBusy with
        | none => s
        | some f =>
          let body := s.reportBody f
          { s with sec := { s.sec with attRun := some (f, body ++ signBlock (idScalar s.sec.seed) body) } }

end Sys2Proof.Machine
end

