-- ==== Sys2Proof/Machine/Functions.lean ====
section
/-! DEFINITION. Functions: their start, negotiation and resets, recovery, and the configuration-space switches that act on them
(spec/15 R336, R337, R341, R354-R359). -/

namespace Sys2Proof.Machine

/-- A function exists on the link: the PF always, a VF while VF Enable is set (spec/15 R336). -/
def State.present (s : State) (f : Nat) : Bool := f == 0 || s.board.vfEnable

/-! ### Identity (spec/15 R336) -/

/-- What configuration space shows of a function: Vendor ID, Device ID, Class Code and Revision ID. -/
structure Identity where
  vendorId : BitVec 16
  deviceId : Nat
  classCode : Nat
  revision : Nat
deriving DecidableEq, Repr

def identityOf (f : Nat) : Identity :=
  { vendorId := Config.vendorId, deviceId := if f = 0 then 0x9200 else 0x9201, classCode := 0x120000, revision := 0xB0 }

/-- The SR-IOV fields of the PF: TotalVFs, InitialVFs, First VF Offset and VF Stride. -/
def sriov : Nat × Nat × Nat × Nat := (63, 63, 1, 1)

/-- MSI-X vectors of a function, and the largest payload and read request the link takes. -/
def msixVectors : Nat := 32
def maxPayload : Nat := 512
def maxReadRequest : Nat := 4096

/-! ### Starting -/

/-- A function may start: SEC has booted and the start-up self-test has ended, 100 ms have passed since the function's reset, ROM
recovery starts none and recovery mode only function 0 (spec/15 R357, R359, spec/09 R216, spec/19 R408, spec/23 R475). -/
def State.mayStart (s : State) (f : Nat) : Bool :=
  s.board.booted && s.far.startupDone && (s.sec.bootMode == 0 || (s.sec.bootMode == 1 && f == 0)) && !s.resetting f

/-- Whether a command is in flight (spec/09 R216). -/
def State.anyFlight (s : State) : Bool := s.cmds.list.any (·.inFlight)

/-- The normal view, outside recovery, once no command is in flight (spec/09 R216). -/
def State.toNormal (s : State) : State :=
  if s.sec.bootMode != 0 || s.anyFlight then s else { s with memc := { s.memc with separate := false } }

/-- FN_CTRL.ENABLE is written: 1 starts the function, 0 while RUNNING resets it (spec/15 R354, R360). A 1 that may not start it
is kept by the field and starts nothing (log entry 57). -/
def execFnCtrlEnable (f : Fn) (v : Bool) (s : State) : Out :=
  whenHost f s fun s =>
    let b := s.fn f
    if !s.present f then s
    else if v then
      if s.mayStart f && b.state == 0 then (s.setFn f { b with enable := true, state := 1 }).toNormal
      else s.setFn f { b with enable := true }
    else if b.state = 2 then s.functionReset f true
    else s.setFn f { b with enable := false, state := if b.state = 1 ∨ b.state = 3 then 0 else b.state
                            code := if b.state = 3 then 0 else b.code }

/-- Bindings that a function-level reset suspended serve again once the function runs (spec/21 R457). -/
def State.resumeBindings (s : State) (t : Nat) : State :=
  { s with cam := { s.cam with binds := smMap {} s.cam.binds fun _ b => match b.cfg with
      | some r => if r.tenant = t ∧ b.state = 3 then { b with state := 1 } else b
      | none => b } }

/-- SCH compares a function's range with FN_HIA_FW (spec/15 R354). -/
def execNegotiate (f : Fn) (s : State) : Out :=
  whenSch s <|
    let b := s.fn f
    if b.state ≠ 1 then s else
      let fw := s.hiaFw
      let hi := min (hiaHigh b.drv) (hiaHigh fw)
      if max (hiaLow b.drv) (hiaLow fw) ≤ hi then
        (s.setFn f { b with resetBeat := none, state := 2, code := 0, major := BitVec.ofNat 8 (hi / 256), minor := BitVec.ofNat 8 hi }).resumeBindings f
      else s.setFn f { b with state := 3, code := rVersion }

/-- FN_CTRL.RESET of function 0. -/
def execFnReset (s : State) : Out := whenHost 0 s fun s => s.functionReset 0 true

/-- An FLR, or a move to D3hot, which resets alike; that of the PF is a device reset (R356). A move back to D0 resets nothing (spec/15
R336, log entry 96). -/
def execFlr (r : FnReset) (s : State) : Out :=
  whenAlive s <|
    if !s.present r.fn then s
    else if r.cause = .d0 then s.modFn r.fn fun b => { b with d3hot := false }
    else
      let t := if r.fn.val = 0 then s.deviceReset false else s.functionReset r.fn false
      if r.cause = .d3hot then t.modFn r.fn fun b => { b with d3hot := true } else t

/-- A device reset: FN_CTRL.DEV_RESET keeps all configuration space; the other causes do not (spec/15 R356). -/
def execDevReset (cause : ResetCause) (s : State) : Out :=
  whenAlive s (s.deviceReset (cause == .devReset))

/-- FN_CTRL.RECOVER arms a recovery boot, unless another action that needs presence is armed (spec/15 R358, spec/19 R411). -/
def execRecover (s : State) : Out :=
  whenHost 0 s fun s =>
    if s.sec.presence ≠ 0 then s
    else (s.armPresence 1 0).modFn 0 fun b => { b with recoverArmed := true }

/-- Bus Master Enable of a function; once set, held completions are written (spec/15 R337, R345). -/
def execBusMasterEnable (f : Fn) (v : Bool) (s : State) : Out :=
  whenAlive s <|
    if !s.present f then s else
      let s1 := s.modFn f fun b => { b with busMaster := v }
      if v then (s1.fn f).queues.foldl (fun s e => if e.2.held.isEmpty then s else s.drainHeld f e.1 (e.2.held.length + 1)) s1
      else s1

/-- VF Enable: ignored in recovery; where it is cleared, every VF's state goes with it (spec/15 R356, R359, spec/19 R408, log
entry 7). -/
def execVfEnable (v : Bool) (s : State) : Out :=
  whenAlive s <|
    if s.sec.bootMode ≠ 0 then s
    else
      let s1 := if s.board.vfEnable && !v then
          (List.range 63).foldl (fun s i => s.functionReset (i + 1) false) s
        else s
      { s1 with board := { s1.board with vfEnable := v } }

end Sys2Proof.Machine
end

