-- ==== Sys2Proof/Machine/Farrier.lean ====
section
/-! DEFINITION. The farrier: start-up self-test, test slices, disabling, reference checks (spec/22 R459-R471, spec/19 R420). -/

namespace Sys2Proof.Machine

/-! ### Clearing a cluster (spec/19 R420) -/

/-- Zeros over a cluster's buffer, banks, instruction store and registers; `free` also sets every segment unassigned. Totals
of engine time are SCH's (spec/14 R321). -/
def State.clearCluster (s : State) (g : Nat) (free : Bool) : State :=
  let c := s.cl g
  { s with mem := memZero s.mem (cbAddr g 0) 0x600000 }.setCl g {
    totals := c.totals, drained := c.drained, segs := if free then [] else c.segs }

/-! ### Disabling (spec/22 R467) -/

/-- A cluster's record in the health record. -/
def State.modHealth (s : State) (g : Nat) (f : ClusterHealth → ClusterHealth) : State :=
  { s with far := { s.far with health := smMod {} s.far.health g f }, fls := { s.fls with healthDirty := true } }

/-- A cluster is disabled for good: commands whose masks name it and whose turn it is complete in interleave mode. -/
def State.disableCluster (s : State) (g cause : Nat) : State :=
  if s.disabled g then s else
    let s1 := { s with glb := { s.glb with disable := putBit s.glb.disable g true }
                       far := { s.far with failed := s.far.failed + 1 } }
    let s2 := (s1.modHealth g fun h => { h with cause := cause }).logEvent 1 (s1.loc g 6 0).toNat
    let s3 := { s2 with fls := { s2.fls with healthUrgent := true } }
    if s3.sched.paddock then s3
    else (s3.heads.filter fun c => c.mask.getLsbD g && !c.inFlight).foldl (fun s c => s.refuseCmd c rOffline) s3

/-- What names a suspect part in its event: the region of a voltage monitor or a droop detector, the port of one that failed its
test; a sensor has no location code, so its argument is free (spec/01 R23, log entry 71). -/
def State.suspectArg (s : State) (i : Nat) : Nat :=
  if 52 ≤ i then i - 52 else if 44 ≤ i then (s.locRegion (i - 44)).toNat else if 36 ≤ i then (s.locRegion (i - 36)).toNat
  else s.free (2 ^ 75 + i) % 2 ^ 32

/-- Parts become suspect; each new one is an event (spec/22 R469, R470). -/
def State.suspects (s : State) (m : W64) : State :=
  let new := setBits (m &&& ~~~ s.far.suspect)
  (new.foldl (fun (u : State) i => u.logEvent (if 52 ≤ i then 6 else 7) (s.suspectArg i))
    { s with far := { s.far with suspect := s.far.suspect ||| m } }).bump

/-! ### The start-up self-test (spec/22 R459) -/

/-- Ticks between slices. -/
def Far.gap (f : Far) : W32 := BitVec.ofNat 32 (8000 * f.interval)

/-- The lowest usable cluster at or after index i, wrapping. -/
def State.nextUsable (s : State) (i : Nat) : Nat :=
  (((List.range 96).map fun k => (i + k) % 96).find? fun g => !s.disabled g).getD 0

/-- The start-up self-test ends: what failed is taken out, and the package enters the normal view, or stays in the separate
view in recovery mode (spec/19 R407, spec/09 R216). -/
def execStartupSelfTest (res : SelfTest) (s : State) : Out :=
  whenAlive s <|
    if !s.board.booted || s.far.startupDone || s.sec.bootMode == 2 || s.sec.clearing then s else
      let tested := (List.range 96).filter fun g => !s.disabled g
      let s1 := tested.foldl (fun s g => s.clearCluster g true) s
      let s2 := tested.foldl (fun s g =>
        if res.plls.getLsbD (regionOf g) then s.disableCluster g 3
        else if res.clusters.getLsbD g then s.disableCluster g 4 else s) s1
      let bad := (List.range 8).filter fun p => res.ports.getLsbD p && (s.port p).state != 0
      let s3 := bad.foldl (fun s p => s.setPort p { s.port p with state := 6, since := s.tim.ns }) s2
      let marks : W64 := bad.foldl (fun m p => putBit m (52 + p) true) (res.suspect.setWidth 64)
      let s4 := s3.suspects marks
      { s4 with far := { s4.far with
        startupDone := true, pcieLow := s4.far.pcieLow ||| res.lanes
        nextCluster := s4.nextUsable 0, turn := s4.nextUsable 0, nextTick := BitVec.ofNat 32 s4.tick + s4.far.gap } }.toNormal

/-! ### Slices (spec/22 R460-R466) -/

/-- The first of the four conditions that fails (spec/22 R463). -/
def State.sliceBar (s : State) (g : Nat) : Option Nat :=
  let r := s.region (regionOf g)
  let t := (smGet 0 s.pwr.tempMax (dieOf g)).toInt
  if r.state ≠ 0 ∨ r.current < 3 ∨ 5 < r.current then some 0
  else if t < 0 ∨ 1600 < t then some 1
  else if s.expressOn g then some 2
  else if !s.pwrUp then some 3
  else none

/-- The drain of a slice has ended, at the first tick boundary at the earliest: the cluster is cleared and scanned (spec/22 R462). -/
def State.farScan (s : State) : State :=
  let g := s.far.cluster
  if s.far.state = 1 ∧ s.far.stepAt < s.tick ∧ (s.cl g).ops.isEmpty = true then
    let s1 := s.clearCluster g false
    { s1 with far := { s1.far with state := 2, stepAt := s.tick } }
  else s

/-- The start tick of the next slice has come, or the tick boundary after a deferral: the slice starts, or is deferred to the next
tick boundary; a stabled region is woken. -/
def execFarSliceStart (s : State) : Out :=
  whenAlive s <|
    let g := s.far.nextCluster
    let f := s.far
    if !s.tickEdge || f.state ≠ 0 || !f.startupDone || s.memc.separate || s.disabled g
        || decide (0 < diff32 f.nextTick (BitVec.ofNat 32 s.tick)) then s
    else match s.sliceBar g with
      | some k =>
        let s1 := { s with far := { f with
          deferred := smMod 0 f.deferred k (· + 1), nextTick := BitVec.ofNat 32 (s.tick + 1) } }
        let r := s.region (regionOf g)
        if s.pwrUp && r.state == 1 then s1.wake (regionOf g) else s1
      | none =>
        let s1 := (s.killMaint (· == g)).killAll 4 fun c => c.place.contains g
        let s2 := s1.modCl g fun c => { c with drained := true }
        { s2 with far := { s2.far with
          state := 1, cluster := g, slices := f.slices + 1, repeating := false, front := s2.far.front.filter (· != g)
          nextTick := BitVec.ofNat 32 s.tick, stepAt := s.tick } }

/-- Step 5 of a slice begins: the cluster is cleared again (spec/22 R462). -/
def State.endSlice (s : State) (result : Nat) : State :=
  let s1 := s.clearCluster s.far.cluster true
  { s1 with far := { s1.far with state := 3, repeating := false, verdict := result, stepAt := s.tick } }

/-- Step 6: a tick later the cluster serves again; FAR_LAST shows the slice. The loop-back test of a port is due 450 s after it
(spec/22 R462, R469). -/
def State.farReturn (s : State) : State :=
  let f := s.far
  if f.state = 3 ∧ f.stepAt < s.tick then
    let s1 := s.modCl f.cluster fun c => { c with drained := false }
    { s1 with far := { f with
      state := 0, lastCluster := f.cluster, lastPset := f.slices.toNat % 16, lastResult := f.verdict
      lastTick := BitVec.ofNat 32 s.tick, loops := f.loops ++ [s.tick + 8000 * 450] } }
  else s

/-- The next slice, one interval after the last start: the front of the order, else the usable index after the last whose turn came in
ascending order, which a cluster from the front does not move. -/
def State.planSlice (s : State) : State :=
  let f := s.far
  let g := match f.front.find? fun g => !s.disabled g with
    | some g => (g, f.turn)
    | none => (s.nextUsable (f.turn + 1), s.nextUsable (f.turn + 1))
  { s with far := { f with nextCluster := g.1, turn := g.2, nextTick := f.nextTick + f.gap } }

/-- Ticks from the clear before the scan to the comparison: the clear, 640 of the logic scan and 16 of the memory test. -/
def scanTicks : Nat := 657

/-- Both signatures are compared at the end of both tests; without a stored table for this stepping the logic scan is not judged (spec/22 R465,
R466). -/
def execFarSliceJudge (logic memory stored : Bool) (s : State) : Out :=
  whenAlive s <|
    let g := s.far.cluster
    if s.far.state ≠ 2 ∨ s.tick < s.far.stepAt + scanTicks then s else
      let s1 := if stored then s else { s with far := { s.far with nosig := s.far.nosig + 1 } }
      let pass := memory && (logic || !stored)
      if !pass && !s1.far.repeating then
        let s2 := s1.clearCluster g false
        { s2 with far := { s2.far with repeating := true, stepAt := s.tick } }
      else if pass && !s1.far.repeating then
        (((s1.modHealth g fun h => { h with
          lastPass := BitVec.ofNat 32 s1.frame, passes := satAdd h.passes 1 }).endSlice 0).planSlice)
      else if pass then
        let s2 := (s1.modHealth g fun h => { h with inter := satAdd h.inter 1 }).endSlice 1
        { s2 with far := { s2.far with intermittent := s2.far.intermittent + 1, front := g :: s2.far.front } }.planSlice
      else ((s1.endSlice 2).disableCluster g (if !logic && stored then 1 else 2)).planSlice

/-- A test is broken off: its region's point leaves OP3 to OP5, or a force or a voltage trip acts on its die (spec/22 R464). The
same cluster is next, a frame later. -/
def execFarSliceAbandon (s : State) : Out :=
  whenAlive s <|
    let g := s.far.cluster
    let o := (s.region (regionOf g)).current
    if s.far.state ≠ 2 || !(decide (o < 3) || decide (5 < o) || s.forced (dieOf g)) then s else
      let s1 := s.endSlice 3
      { s1 with far := { s1.far with
        abandoned := s1.far.abandoned + 1, nextCluster := g, nextTick := BitVec.ofNat 32 (s.tick + 80) } }

/-! ### Reference checks (spec/22 R469) -/

/-- An analogue part is compared with its reference. -/
def execFarReferenceCheck (part : AnalogPart) (ok : Bool) (s : State) : Out :=
  whenAlive s <|
    if ok then s
    else
      let mark := fun (i : Nat) => s.suspects (putBit 0 i true)
      match part with
      | .sensor i => mark i
      | .monitor r => mark (36 + r.val)
      | .droop r => mark (44 + r.val)
      | .lane i => { s with far := { s.far with pcieLow := putBit s.far.pcieLow i true }
                            fls := { s.fls with healthDirty := true } }

end Sys2Proof.Machine
end

