-- ==== Sys2Proof/Machine/Board.lean ====
section
/-! DEFINITION. Board events: power, reset pins, the always-on state, and the status lamps (spec/23 R475, R476, R481-R483,
spec/17 R387). -/

namespace Sys2Proof.Machine

/-! ### Power and reset pins -/

/-- SYS_PWROK rises: the power-up of spec/02 R52 and spec/17 R387. A trip is released when every sensor reads below 105 °C;
the boot waits for rails in range. -/
def execSysPwrokRise (railsOk : Bool) (hottest : BitVec 16) (s : State) : Out :=
  if s.board.pwrok then .next s
  else
    let s1 := s.powerUp
    .next { s1 with board := { s1.board with
      aon := true, supplyFault := !railsOk, tripped := s1.board.tripped && decide (1680 ≤ hottest.toInt) } }

/-- The rails are checked again every 100 ms while SYS_PWROK stays high. -/
def execRailRecheck (railsOk : Bool) (s : State) : Out :=
  .next (if s.board.pwrok && s.board.supplyFault && railsOk then { s with board := { s.board with supplyFault := false } } else s)

/-- SYS_PWROK falls: the device stops, and what has no power of its own is lost (spec/23 R476). -/
def execSysPwrokFall (s : State) : Out :=
  if s.board.pwrok then .next { s.powerUp with board := { s.powerUp.board with pwrok := false } } else .next s

/-- PERST_N: its fall on a device out of reset is a device reset; its rise releases reset (spec/23 R475). -/
def execPerstN (level : Bool) (s : State) : Out :=
  if level == s.board.perst then .next s
  else
    let s1 := if !level && s.alive then s.deviceReset false else s
    .next { s1 with board := { s1.board with perst := level } }

/-- VDD_AON is removed: the trip and THERMTRIP_SEEN go with it (spec/17 R387). -/
def execVddAonRemoved (s : State) : Out :=
  let s1 := if s.board.pwrok then s.powerUp else s
  .next { s1 with board := { s1.board with pwrok := false, aon := false, tripped := false, tripRecord := false }
                  pwr := { s1.pwr with thermtripSeen := false } }

/-- THERMTRIP_N is pulled low (spec/17 R387). -/
def State.thermtripN (s : State) : Bool := !s.board.tripped

/-! ### Lamps (spec/23 R482) -/

/-- A lamp: off, on, or blinking at a rate in Hz. -/
inductive Lamp where
  | off | on | blink (hz : Nat)
deriving DecidableEq, Repr

/-- A port is miscabled or failed, or a loft channel failed, or fewer than 48 clusters are usable. -/
def State.impaired (s : State) : Bool :=
  s.degraded || s.memc.chFail != 0 || (List.range 8).any fun p => (s.port p).state == 5 || (s.port p).state == 6

/-- The green, amber and red lamps: the first state of the table that holds. -/
def State.lamps (s : State) : Lamp × Lamp × Lamp :=
  if s.board.tripped then (.off, .off, .on)
  else if !s.board.pwrok then (.off, .off, .off)
  else if s.board.supplyFault || s.pwr.vtrip then (.off, .off, .blink 4)
  else if s.sec.bootMode ≠ 0 then (.off, .blink 1, .off)
  else if s.sec.presence ≠ 0 then (.off, .blink 4, .off)
  else if !s.far.startupDone then (.blink 1, .off, .off)
  else if s.impaired then (.on, .on, .off)
  else (.on, .off, .off)

end Sys2Proof.Machine
end

