-- ==== Sys2Proof/Machine/Dram.lean ====
section
/-! DEFINITION. The channel controllers: refresh, scrub, the loft's data rate and retraining (spec/10 R241-R249). -/

namespace Sys2Proof.Machine

/-- A bank's refresh (spec/10 R241). One that is due is issued or postponed; one postponed before is made up. At most 8 of a bank
are postponed, and one is whenever its issue would delay a request that a refresh has already delayed: those of the channel's
queue from the first to that bank on, for they are served in order. Its time is not modelled. -/
def execHbmRefresh (ch : Fin 128) (bank : Fin 32) (act : RefreshAct) (s : State) : Out :=
  whenAlive s <|
    let k := 32 * ch.val + bank.val
    let n := smGet 0 s.memc.postponed k
    let c := s.chan ch
    let clear := c.queue.takeWhile fun r => (s.bankRow r).1 != bank.val
    let hit := c.queue.drop clear.length
    let again := hit.any (·.delayed)
    let issued := s.setChan ch { c with queue := clear ++ hit.map fun r => { r with delayed := true } }
    let count := fun (t : State) (m : Nat) => { t with memc := { t.memc with postponed := smPut 0 t.memc.postponed k m } }
    match act with
    | .issue => if again && decide (n < 8) then count s (n + 1) else issued
    | .postpone => if n < 8 then count s (n + 1) else issued
    | .makeUp => if n = 0 || again then s else count issued (n - 1)

/-- A rank's refresh: the rank is unavailable for a time that is not modelled, and no state changes (spec/10 R242). -/
def execLoftRefresh (_ch : Fin 32) (_rank : Fin 2) (s : State) : Out := whenAlive s s

/-- The words of a tier. -/
def State.tierWords (s : State) (loft : Bool) : Nat := if loft then s.memc.loftGib * 2 ^ 25 else hbmEnd / 32

/-- Patrol scrub reads the next word of a tier's pass, which covers every word once; a pass starts at the first and counts each
frame's corrections afresh (spec/10 R245-R247, log entry 26). The read enters its queue like any other source's, and waits while
the loft's inlets are closed; what it finds is the row's, or what the word holds where that is worse. -/
def execPatrolScrubRead (loft : Bool) (pa : BitVec 48) (res : EccResult) (s : State) : Out :=
  whenAlive s <|
    let a := pa.toNat
    let base := if loft then loftBase else 0
    let at' := if loft then s.memc.scrubLoft else s.memc.scrubHbm
    if a ≠ base + 32 * at' ∨ s.tierWords loft ≤ at' ∨ s.shut [a] = true then s
    else
      let s := s.fetches 0 0 srcScrub false (List.replicate 32 a)
      let held := smGet 0 s.memc.upset (a / 32)
      let next := (at' + 1) % s.tierWords loft
      let m := if loft then { s.memc with scrubLoft := next } else { s.memc with scrubHbm := next }
      let s1 := { s with memc := { m with
        frames := if !loft && at' == 0 then smMap {} m.frames fun _ x => { x with corrections := 0 } else m.frames } }
      match (if s1.memc.poison.contains (a / 32) || decide (2 ≤ held) then EccResult.uncorrectable
        else if held = 1 ∧ res = .good then .corrected else res) with
      | .good => s1
      | .corrected =>
        if loft then s1
        else
          let n := a / frameBytes
          let k := (s1.frameAt n).corrections + 1
          let s2 := s1.modFrame n fun x => { x with
            corrections := k, retired := x.retired || decide (s.memc.retireAt.toNat ≤ k) }
          { s2 with memc := { s2.memc with
            eccCorr := if held = 1 then s2.memc.eccCorr else s2.memc.eccCorr + 1, upset := smDel s2.memc.upset (a / 32) } }
      | .uncorrectable => s1.eccError a 2

/-- A change of the loft's rate starts at the first tick boundary after TARGET was written (spec/10 R248). -/
def execLoftRateChange (s : State) : Out :=
  whenAlive s <|
    if s.memc.rateAsked && !s.memc.rateBusy && s.tickEdge then
      { s with memc := { s.memc with rateBusy := true, rateAsked := false, rateNext := s.memc.rateTarget } }
    else s

/-- The change ends: the queues have drained and every rank's rows are closed; each channel that is not failed takes its timing
set for the new rate. -/
def execLoftRateChangeEnd (s : State) : Out :=
  whenAlive s <|
    if s.memc.rateBusy then
      { s with memc := { s.memc with
        rateBusy := false, rateCurrent := s.memc.rateNext, rateChanges := s.memc.rateChanges + 1
        chans := s.memc.chans.filter fun e => decide (e.1 < 128)
        chRate := (List.range 32).foldl (fun m ch => if s.memc.chFail.getLsbD ch then m else smPut 0 m ch s.memc.rateNext)
          s.memc.chRate } }
    else s

/-- The host writes MEM_CH_RETRAIN: bits of channels that are not failed are ignored (spec/10 R249). -/
def execMemChRetrain (mask : W32) (s : State) : Out :=
  whenHost 0 s fun s => { s with memc := { s.memc with retrain := s.memc.retrain ||| (mask &&& s.memc.chFail) } }

/-- A retraining ends: the channel is back at the rate in effect, and what was lost stays lost (spec/10 R249). -/
def execLoftRetrainDone (ch : Fin 32) (ok : Bool) (s : State) : Out :=
  whenAlive s <|
    if !s.memc.retrain.getLsbD ch then s
    else
      let m := { s.memc with retrain := putBit s.memc.retrain ch false }
      if ok then { s with memc := { m with
        chFail := putBit m.chFail ch false, chRate := smPut 0 m.chRate ch s.memc.rateCurrent } }
      else ({ s with memc := m }).logEvent 5 ch

end Sys2Proof.Machine
end

