-- ==== Sys2Proof/Machine/Time.lean ====
section
/-! DEFINITION. Site time: loading, disciplining and holdover (spec/02 R34-R39, R50-R52, spec/23 R479). -/

namespace Sys2Proof.Machine

/-- TIM runs while the device has power and its clocks; a device reset does not stop it (spec/02 R52). -/
def whenTicking (s t : State) : Out := if s.board.pwrok && !s.board.tripped then .next t else .next s

/-- Nanoseconds in a second. -/
def secNs : Nat := 1000000000

/-- The error of a counter value against the whole second (spec/02 R37). -/
def secError (c : Nat) : Int := if c % secNs < secNs / 2 then (c % secNs : Nat) else (c % secNs : Nat) - (secNs : Int)

/-- Seconds of a holdover, a begun one counting whole (spec/02 R51, log entry 33). -/
def holdoverSecs (beats : W64) : Nat := ceilDiv beats.toNat 1000000

/-- The bound of an edge after holdover, in ns (spec/02 R51). -/
def edgeBound (beats : W64) : Int := 1500 * holdoverSecs beats + 1000

/-- An armed value is used up: compared with the counter while LOCKED (spec/02 R37). -/
def Tim.compare (t : Tim) (c : Nat) : Tim :=
  if !t.arm then t else
    let d : Int := (t.todNext.toNat : Int) - c
    { t with arm := false, todRejected := t.todRejected || decide (1000000 < d.natAbs) }

/-- The rate an accepted edge leaves: within ±100 ppm, as the edges measure it (spec/02 R37, log entry 66). -/
def freeRate (n : Nat) : Int := (Config.freeNat n 0 % 200001 : Nat) - 100000

/-- An edge while LOCKED: measured, and accepted unless a holdover's bound excludes it (spec/02 R37, R51). An edge ignored so is
compared with an armed time of day all the same, and uses it up (log entry 66). -/
def Tim.lockedEdge (t : Tim) (c off : Nat) (rate : Int) : Tim :=
  let e := secError c
  let t1 := { t.compare c with ppsError := BitVec.ofInt 32 e }
  if t.holdover ∧ edgeBound t.holdoverBeats < (e.natAbs : Int) then
    { t1 with ppsFault := true, ignored := t.ignored + 1, locked := decide (t.ignored + 1 < 3) }
  else { t1 with holdover := false, slew := -10 * e, rate := rate, edgeAge := some (-(off : Int)), ignored := 0 }

/-- An edge that an armed time of day names while LOCKED is 0 (spec/02 R36, R51, log entry 33); the load ends a holdover too (log
entry 66). Where the counter takes the value, its beats begin at the edge. -/
def Tim.loadEdge (t : Tim) (c off : Nat) : Tim :=
  let v := t.todNext.toNat
  let on := { t with arm := false, locked := true, todLoaded := true, holdover := false, edgeAge := some (-(off : Int)), ignored := 0 }
  if c ≤ v then { on with ns := v, slew := 0, edgeAge := some 0 }
  else if c ≤ v + 1000000 then { on with slew := -10 * ((c - v : Nat) : Int) }
  else { t with arm := false, todRejected := true }

/-- A SYNC_PPS edge `off` ns after the last beat edge. -/
def Tim.edge (t : Tim) (off : Nat) (rate : Int) : Tim :=
  let c := t.ns + off
  if t.locked then t.lockedEdge c off rate else if t.arm then t.loadEdge c off else t

/-- The edge that marks the second acts; the other one does not. -/
def execPpsEdge (rising : Bool) (off : Fin 1000) (s : State) : Out :=
  whenTicking s <| if rising == s.tim.ppsFalling then s else { s with tim := s.tim.edge off (freeRate s.freeIx) }.bump

/-- TIM_CTRL.ARM is set (spec/02 R36). -/
def execArm (s : State) : Out :=
  whenHost 0 s fun s =>
    if s.tim.todNext.toNat % secNs = 0 then { s with tim := { s.tim with arm := true } }
    else { s with tim := { s.tim with arm := false, todRejected := true } }

/-- No edge for 1 s + 2 µs after the last accepted one: holdover begins, the slew ends (spec/02 R50). -/
def execHoldoverEntry (s : State) : Out :=
  whenTicking s <| match s.tim.edgeAge with
  | some a =>
    if 1000002000 ≤ a ∧ s.tim.holdover = false then
      { s with tim := { s.tim with holdover := true, holdoverBeats := 0, slew := 0 } }
    else s
  | none => s

/-- SYNC_REF10 appears, leaves its range or is lost (spec/02 R35). -/
def execSyncRef10Change (present inRange : Bool) (s : State) : Out :=
  whenTicking s { s with tim := { s.tim with ref10Ok := present && inRange }
                         board := { s.board with refPresent := present } }

/-- The timebase runs from SYNC_REF10: it is present, in range, enabled, and the device is not in holdover (spec/02 R35, R50). -/
def State.fromRef10 (s : State) : Bool := s.tim.ref10Ok && s.tim.ref10En && !s.tim.holdover

end Sys2Proof.Machine
end

