-- ==== Sys2Proof/Machine/Registers.lean ====
section
/-! DEFINITION. The host's registers: what a read of BAR0 returns, and what a write does by each field's access code, with the
actions that a field starts (spec/00 R4-R11, spec/15 R338, R339, R359, R360, and the register tables of every block). -/

namespace Sys2Proof.Machine

/-- The latched high words of a function, each used once (spec/00 R9). -/
def State.setHigh (s : State) (f : Nat) (l : List (Nat × W32)) : State :=
  { s with latch := { s.latch with high := smPut [] s.latch.high f l } }

/-- A 32-bit read: the low word of a 64-bit register latches that register's high word (spec/00 R9). -/
def State.read32 (s : State) (f off : Nat) : State × Nat :=
  let held := smGet [] s.latch.high f
  match s.halfAt f off with
  | .whole => (s, s.regVal f off)
  | .low =>
    let v := s.regVal f off
    (s.setHigh f ((off, BitVec.ofNat 32 (v / 2 ^ 32)) :: held.filter fun e => e.1 != off), v % 2 ^ 32)
  | .high => match held.find? fun e => e.1 + 4 == off with
    | some e => (s.setHigh f (held.filter fun d => d.1 != e.1), e.2.toNat)
    | none => (s, s.regVal f (off - 4) / 2 ^ 32)
  | .none => (s, 0)

/-- What a host read of BAR2 returns: reads have no effect (spec/15 R339). -/
def bar2Read : Nat := 0

/-- What a host read of BAR0 returns, and the latch it leaves; reads have no row of the table (spec/00 R8, R9). -/
def State.hostRead (s : State) (f off size : Nat) : State × Nat :=
  if size = 4 ∧ off % 4 = 0 then s.read32 f off
  else if size = 8 ∧ off % 8 = 0 then
    (match s.regAt f off with
    | some (8, v) => (s, v)
    | _ =>
      let a := s.read32 f off
      let b := a.1.read32 f (off + 4)
      (b.1, a.2 + b.2 * 2 ^ 32))
  else (s, 0xFFFFFFFF)

/-! ### Writes. `v` is the register's new word; `lo` tells whether bits 31:0 were written (spec/00 R10). -/

/-- The low word where it was written, 0 otherwise: what write-1 fields and actions see. -/
def lowOf (v : W64) (lo : Bool) : Nat := if lo then v.toNat % 2 ^ 32 else 0

/-- Actions in order; one that stops ends the write. -/
def andThen (o : Out) (k : State → Out) : Out :=
  match o with
  | .next s => k s
  | o => o

/-- Writes of TIM's registers. TIM_TOD_NEXT written again while ARM is 1 is not checked: the edge loads the value that stands then
(spec/02 R36, log entry 33). -/
def State.timWrite (s : State) (o : Nat) (v : W64) : Out :=
  let t := s.tim
  if o = 8 then .next { s with tim := { t with todNext := v } }
  else if o = 0x10 then
    let s1 := { s with tim := { t with ref10En := v.getLsbD 1, ppsFalling := v.getLsbD 2 } }
    if v.getLsbD 0 then execArm s1 else .next s1
  else if o = 0x14 then .next { s with tim := { t with
    todLoaded := t.todLoaded && !v.getLsbD 3, todRejected := t.todRejected && !v.getLsbD 4, ppsFault := t.ppsFault && !v.getLsbD 5 } }
  else .next s

def State.pwrWrite (s : State) (o : Nat) (v : W64) : Out :=
  let p := s.pwr
  if o = 8 then execPwrCabBudget (v.setWidth 32) s
  else if o = 0x0C then .next { s with pwr := { p with
    leadChanged := p.leadChanged && !v.getLsbD 1, notLead := p.notLead && !v.getLsbD 2 } }
  else if o = 0x10 then .next { s with pwr := { p with
    vtrip := p.vtrip && !v.getLsbD 8, thermtripSeen := p.thermtripSeen && !v.getLsbD 9 } }
  else .next s

def State.schWrite (s : State) (o : Nat) (v : W64) : Out :=
  if o = 0x3F50 then .next { s with serv := { s.serv with acctSel := v.setWidth 12 } }
  else if o = 0x3F90 then .next { s with sched := { s.sched with gateSel := v.setWidth 6 } }
  else .next s

def State.memWrite (s : State) (o : Nat) (v : W64) : Out :=
  if o = 0x200 then execMemChRetrain (v.setWidth 32) s
  else if o = 0x8010 then
    let u := v.toNat % 65536
    .next (if 100 ≤ u ∧ u ≤ 50000 then { s with memc := { s.memc with tierTimeout := v.setWidth 16 } } else s)
  else match arrayAt o 0x8400 16 64 with
    | some n => .next (s.modTen n fun t => t.setQuota (min 96256 (bits v.toNat 16 0)) (min 262144 (bits v.toNat 50 32)))
    | none => .next s

def State.secWrite (s : State) (o : Nat) (v : W64) : Out :=
  let x := s.sec
  if o = 0 then .next { s with sec := { x with romReject := x.romReject && !v.getLsbD 9 } }
  else if o = 0x10 then
    andThen (if v.getLsbD 0 then execSecOwnerArm s else .next s) fun s1 =>
      if v.getLsbD 1 then execSecOwnerDebug s1 else .next s1
  else if o = 0x14 then .next { s with sec := { x with
    ownerDone := x.ownerDone && !v.getLsbD 2, ownerCode := x.ownerCode &&& ~~~ BitVec.ofNat 4 (bits v.toNat 7 4) } }
  else if o = 0x18 then .next { s with sec := { x with ownerSrc := v.setWidth 48 } }
  else if o = 0x20 then execSecRomLoad (v.setWidth 23) s
  else .next s

def State.grmWrite (s : State) (o : Nat) (v : W64) : Out :=
  let g := s.grm
  match o with
  | 0x200 => .next { s with grm := { g with updSrc := v.setWidth 48 } }
  | 0x208 =>
    let s1 := { s with grm := { g with updClass := bits v.toNat 1 0, updSet := BitVec.ofNat 4 (bits v.toNat 7 4) } }
    andThen (if v.getLsbD 2 then execStage s1 else .next s1) fun s2 => if v.getLsbD 3 then execActivate s2 else .next s2
  | 0x20C => .next { s with grm := { g with updCode := g.updCode &&& ~~~ BitVec.ofNat 4 (bits v.toNat 11 8) } }
  | 0x210 =>
    let n := bits v.toNat 11 0
    .next (if 10 ≤ n ∧ n ≤ 3600 then { s with grm := { g with probation := v.setWidth 12 } } else s)
  | 0x300 => .next { s with grm := { g with cfgSrc := v.setWidth 48 } }
  | 0x308 => if v.getLsbD 0 then execLoad s else .next s
  | 0x30C => .next { s with grm := { g with cfgCode := g.cfgCode &&& ~~~ BitVec.ofNat 4 (bits v.toNat 7 4) } }
  | 0x320 => execGrmOvlNext v s
  | 0x328 => .next { s with grm := { g with ovlLate := g.ovlLate && !v.getLsbD 5, ovlNotLoaded := g.ovlNotLoaded && !v.getLsbD 6 } }
  | _ => .next s

/-- Reserved bits of FN_Q_n_CFG read 0. -/
def cfgBits (v : W64) : W32 := (v.setWidth 32) &&& 0x03FFFFFF

/-- Queue fields are written while ENABLE is 0; while it is 1 only ENABLE changes (spec/15 R341). -/
def State.queueWrite (s : State) (f q k : Nat) (v : W64) : Out :=
  let x := s.queue f q
  let on := cfgEnable x
  match k with
  | 0x00 => .next (if on then s else s.setQueue f q { x with sqBase := v &&& ~~~ (0xFFF : W64) })
  | 0x08 => .next (if on then s else s.setQueue f q { x with cqBase := v &&& ~~~ (0xFFF : W64) })
  | 0x10 =>
    if on then (if v.getLsbD 0 then .next s else execQueueEnable (Fin.ofNat 64 f) (Fin.ofNat 256 q) false s)
    else
      let s1 := s.setQueue f q { x with cfg := cfgBits v &&& ~~~ 1 }
      if v.getLsbD 0 then execQueueEnable (Fin.ofNat 64 f) (Fin.ofNat 256 q) true s1 else .next s1
  | 0x14 => .next (s.setQueue f q { x with overrun := x.overrun && !v.getLsbD 4 })
  | _ => .next s

/-- The MSI-X table; a vector that is unmasked sends its pending message (spec/15 R336, log entry 7). -/
def State.msixWrite (s : State) (f e k : Nat) (v : W64) : State :=
  let b := s.fn f
  let a := smGet 0 b.msixAddr e
  let w := v.toNat % 2 ^ 32
  match k with
  | 0 => s.setFn f { b with msixAddr := smPut 0 b.msixAddr e (BitVec.ofNat 64 (a.toNat / 2 ^ 32 * 2 ^ 32 + w / 4 * 4)) }
  | 4 => s.setFn f { b with msixAddr := smPut 0 b.msixAddr e (BitVec.ofNat 64 (a.toNat % 2 ^ 32 + w * 2 ^ 32)) }
  | 8 => s.setFn f { b with msixData := smPut 0 b.msixData e (BitVec.ofNat 32 w) }
  | 12 =>
    let s1 := s.setFn f { b with msixMask := putBit b.msixMask e (v.getLsbD 0) }
    if !v.getLsbD 0 && b.msixPend.getLsbD e then
      (s1.modFn f fun c => { c with msixPend := putBit c.msixPend e false }).msix f e
    else s1
  | _ => s

/-- FN_CTRL: resets first, then RECOVER, then ENABLE (spec/15 R360, spec/02 R42). -/
def State.fnCtrl (s : State) (f : Fn) (v : W64) : Out :=
  if f.val = 0 ∧ v.getLsbD 2 = true then execDevReset .devReset s
  else andThen (if f.val = 0 ∧ v.getLsbD 1 = true then execFnReset s else .next s) fun s1 =>
    andThen (if f.val = 0 ∧ v.getLsbD 3 = true then execRecover s1 else .next s1) fun s2 =>
      if v.getLsbD 0 || (s2.fn f).enable then execFnCtrlEnable f (v.getLsbD 0) s2 else .next s2

def State.fnWrite (s : State) (f : Fn) (o : Nat) (v : W64) (lo : Bool) : Out :=
  let b := s.fn f
  match o with
  | 0x0000 => s.fnCtrl f v
  | 0x0200 =>
    if f.val ≠ 0 then .next s
    else .next (s.setFn f { b with recBase := if lo then v.setWidth 16 else b.recBase, recMiss := b.recMiss && !bitN (lowOf v lo) 16 })
  | 0xC000 => .next (s.setFn f { b with drv := v.setWidth 32 })
  | 0xC010 => if v.getLsbD 0 then execFnAttReq f s else .next s
  | 0xC014 => .next (s.setFn f { b with
      attDone := b.attDone && !v.getLsbD 1, attCode := b.attCode &&& ~~~ BitVec.ofNat 4 (bits v.toNat 5 2) })
  | 0xC018 => .next (s.setFn f { b with attDst := BitVec.ofNat 64 (bits v.toNat 47 0) })
  | _ => match arrayAt o 0xC040 4 16 with
    | some i => .next (s.setFn f { b with attNonce := smPut 0 b.attNonce i (v.setWidth 32) })
    | none =>
      if 0x4000 ≤ o ∧ o < 0x6000 then s.queueWrite f ((o - 0x4000) / 32) (o % 32) v
      else if 0x8000 ≤ o ∧ o < 0x8200 then .next (s.msixWrite f ((o - 0x8000) / 16) (o % 16) v)
      else .next s

/-- A register written whole by function f: through the PF the FN blocks of VFs are read-only (spec/15 R339). -/
def State.regWrite (s : State) (f : Fn) (off : Nat) (v : W64) (lo : Bool) : Out :=
  if f.val ≠ 0 then (if off < 0x10000 then s.fnWrite f off v lo else .next s)
  else if 0x100000 ≤ off then (if off < 0x110000 then s.fnWrite f (off % 0x10000) v lo else .next s)
  else
    let o := off % 0x10000
    match off / 0x10000 with
    | 1 => s.timWrite o v
    | 2 => s.pwrWrite o v
    | 3 => s.schWrite o v
    | 4 => s.memWrite o v
    | 9 => s.secWrite o v
    | 10 => s.grmWrite o v
    | _ => .next s

/-- A 32-bit write: the low word of a 64-bit register is held for the high one; a write of any other register discards it. -/
def State.write32 (s : State) (f : Fn) (off : Nat) (w : W32) : Out :=
  match s.halfAt f off with
  | .none => .next s
  | .whole => (s.setLow f none).regWrite f off (w.setWidth 64) true
  | .low => .next (s.setLow f (some (off, w)))
  | .high =>
    let old := s.regVal f (off - 4) % 2 ^ 32
    let low := match smGet none s.latch.low f with
      | some (o, x) => if o + 4 = off then some x.toNat else none
      | none => none
    (s.setLow f none).regWrite f (off - 4) (BitVec.ofNat 64 (low.getD old + w.toNat * 2 ^ 32)) low.isSome

/-- An aligned write of 4 or 8 bytes (spec/00 R8, R10). -/
def State.hostWrite (s : State) (f : Fn) (off size : Nat) (v : W64) : Out :=
  if size = 4 ∧ off % 4 = 0 then s.write32 f off (v.setWidth 32)
  else if size = 8 ∧ off % 8 = 0 then
    (match s.regAt f off with
    | some (8, _) => (s.setLow f none).regWrite f off v true
    | _ => andThen (s.write32 f off (v.setWidth 32)) fun s1 => s1.write32 f (off + 4) (BitVec.ofNat 32 (v.toNat / 2 ^ 32)))
  else .next s

/-- A write into the doorbell page of a queue (spec/15 R342): bytes of a PUSH record, or one of the three registers. It is a
write of another register by R10. -/
def State.doorbellWrite (s : State) (f : Fn) (off size : Nat) (v : W64) : Out :=
  let q : Qn := Fin.ofNat 256 (off / 4096)
  let o := off % 4096
  if o + size ≤ 0xC00 then
    let x := s.queue f q
    let s1 := s.setLow f none
    .next (if cfgPush x then s1.setQueue f q { x with push := memPuts x.push o (leBytes size v.toNat) } else s1)
  else if size < 4 ∨ off % size ≠ 0 then .next s
  else if o = 0xC00 then execSqTail f q (v.setWidth 32) s
  else if o = 0xC08 then execCqHead f q (v.setWidth 32) s
  else if o = 0xC10 then execAbort f q (v.setWidth 32) s
  else .next s

/-- Bytes of a BAR of a function (spec/15 R338). -/
def barSize (f : Nat) : Bar → Nat
  | .bar0 => if f = 0 then 0x4000000 else 0x100000
  | .bar2 => 0x100000

/-- A host write into a function's BAR0 or BAR2. -/
def execRegisterWrite (f : Fn) (at' : BarOff) (size : Nat) (v : W64) (s : State) : Out :=
  if !s.alive || !s.present f || decide (barSize f at'.bar < at'.off.toNat + size) then .next s
  else match at'.bar with
    | .bar0 => s.hostWrite f at'.off.toNat size v
    | .bar2 => s.doorbellWrite f at'.off.toNat size v

/-! ### The recovery window (spec/15 R359, spec/09 R215, R216, spec/19 R419) -/

/-- BAR4 is open: in recovery mode or ROM recovery, once the clearing has ended; while the start-up self-test of a recovery boot runs it
behaves as in the normal view. -/
def State.windowOpen (s : State) : Bool :=
  s.sec.bootMode != 0 && !s.sec.clearing && (s.sec.bootMode == 2 || s.far.startupDone)

/-- The physical byte that an address of the separate view names for the host: memory, or a cluster buffer. -/
def State.viewByte (s : State) (pa : Nat) : Option Nat :=
  if isHbm pa || s.isLoft pa then some pa
  else if isWindow pa && pa / 2 ^ 32 == 0xF0 && bits pa 30 23 != 255 then (match s.window 0 pa with | .phys b => some b | _ => none)
  else none

/-- Byte addresses of an access inside the window. -/
def State.windowBytes (s : State) (off n : Nat) : List Nat :=
  (List.range n).filterMap fun i => if off + i < 2 ^ 32 then some ((s.fn 0).recBase.toNat * 2 ^ 32 + off + i) else none

def State.recMissed (s : State) : State := s.modFn 0 fun b => { b with recMiss := true }

/-- The registers that an access to the register range touches, at the PF's BAR0 offsets: one of its width where it is an aligned
access of 4 or 8 bytes, else each word of 4 (log entry 94). -/
def regParts (a n : Nat) : List (Nat × Nat) :=
  if (n = 4 ∨ n = 8) ∧ a % n = 0 then [(a - regBase, n)]
  else (List.range ((a + n - 1) / 4 + 1 - a / 4)).map fun k => (4 * (a / 4 + k) - regBase, 4)

/-- Register words read one after another: their bytes by BAR0 offset. -/
def State.readParts (s : State) (ps : List (Nat × Nat)) : State × List (Nat × Byte) :=
  ps.foldl (fun a p =>
    let r := a.1.hostRead 0 p.1 p.2
    (r.1, a.2 ++ (leBytes p.2 r.2).zipIdx.map fun x => (p.1 + x.2, x.1))) (s, [])

/-- What a read through BAR4 returns, and the state it leaves: memory is read through the channels as a host window, and a word that
cannot be read counts and is logged; of the register range the PF's BAR0 registers; any other byte reads ones. -/
def State.windowRead (s : State) (off n : Nat) : State × List Byte :=
  let as := s.windowBytes off n
  if !s.windowOpen then (s, List.replicate n 0xFF)
  else
    let ps := (as.filterMap s.viewByte).map s.redirect
    let s1 := s.fetches 0 0 srcHost false ps
    let s2 := if ps.any fun p => s1.memFault p true == some fEcc then s1.eccMet ps 3 else s1
    let rs := as.filter isRegs
    let r := if rs.isEmpty then (s2, []) else s2.readParts (regParts (rs.headD 0) rs.length)
    (r.1, as.map fun a => match s.viewByte a with
      | some p => s1.rd p
      | none => if isRegs a then (match r.2.find? fun x => x.1 == a - regBase with | some x => x.2 | none => 0xFF) else 0xFF)

/-- Register words written one after another: a byte of a word that the access does not cover keeps what the word reads as (log entry
94). -/
def State.writeParts (s : State) (bs : List (Nat × Byte)) : List (Nat × Nat) → Out
  | [] => .next s
  | p :: ps =>
    let all := (List.range p.2).all fun i => bs.any fun x => x.1 == p.1 + i
    let r := if all then (s, 0) else s.hostRead 0 p.1 p.2
    let v := leNat ((leBytes p.2 r.2).zipIdx.map fun x => match bs.find? fun y => y.1 == p.1 + x.2 with | some y => y.2 | none => x.1)
    andThen (r.1.hostWrite 0 p.1 p.2 (BitVec.ofNat 64 v)) fun t => t.writeParts bs ps

/-- A BAR4 access of 1 to 64 bytes: memory and registers take the bytes that lie in them. -/
def execRecoveryWindowAccess (off : W32) (data : List Byte ⊕ Nat) (s : State) : Out :=
  let n := match data with | .inl bs => bs.length | .inr k => k
  if n = 0 || decide (64 < n) || !s.alive || !s.windowOpen then .next s
  else
    let as := s.windowBytes off.toNat n
    let s1 := if as.any fun a => !isRegs a && (s.viewByte a).isNone then s.recMissed else s
    match data with
    | .inr _ => .next (s1.windowRead off.toNat n).1
    | .inl bs =>
      let rs := ((as.zip bs).filter fun x => isRegs x.1).map fun x => (x.1 - regBase, x.2)
      let ws := (as.zip bs).filterMap fun x => (s.viewByte x.1).map fun p => (p, (0xFF : Byte), x.2)
      (s1.wrNow ws srcHost).writeParts rs (if rs.isEmpty then [] else regParts (regBase + (rs.headD (0, 0)).1) rs.length)

/-- The register words that bytes of a unit's write touch, in the order of the bytes: one of 8 where all of its bytes are written, else
each word of 4 (log entry 63). -/
def touchedWords (bs : List (Nat × Byte)) : List (Nat × Nat) :=
  ((bs.map fun x => x.1 / 8).eraseDups).flatMap fun k =>
    if (List.range 8).all fun i => bs.any fun x => x.1 == 8 * k + i then [(8 * k, 8)]
    else [(8 * k, 4), (8 * k + 4, 4)].filter fun p => bs.any fun x => x.1 / 4 * 4 == p.1

/-- What units have written into the register range of the separate view is done to the PF's registers, write by write (spec/09 R215, log
entry 63). -/
def State.regBeat (s : State) : State :=
  let ws := s.infl.filter fun w => isRegs w.addr
  let ops := (ws.map fun w => (w.cl, w.writer, w.op)).eraseDups
  ops.foldl (fun t k =>
    let bs := (ws.filter fun w => (w.cl, w.writer, w.op) == k).map fun w =>
      (w.addr - regBase, merge w.mask (t.regByte (w.addr - regBase)) w.val)
    match t.writeParts bs (touchedWords bs) with | .next u => u | _ => t) { s with infl := s.infl.filter fun w => !isRegs w.addr }

/-! ### The service console (spec/23 R481; spec/01 R27) -/

/-- What the console on SVC_USB says: nothing, the boot mode alone, or the health record, the status registers of GLB, FAR and FAB, the
ports that disagree with the cabling map, and the core rails' targets in mV. It takes no input that changes any state. -/
inductive Console where
  | quiet
  | bootMode (mode : Nat)
  | shows (health : List Byte) (status : List Nat) (miscabled rails : List Nat)
deriving DecidableEq, Repr

/-- The console works while SEC runs; in ROM recovery it prints the boot mode. Which words of the blocks it prints is not stated: those
of the status registers (log entry 102). -/
def State.console (s : State) : Console :=
  if s.alive && s.sec.bootMode == 2 then .bootMode 2
  else if s.secUp then
    .shows s.healthBody
      (([0x08, 0x0C].map (s.regVal 0)) ++ ((List.range 8).map fun p => s.regVal 0 (0x50000 + 0x20 * p))
        ++ [s.regVal 0 0x80000, s.regVal 0 0x80018])
      ((List.range 8).filter fun p => (s.port p).state == 5)
      ((List.range 2).map (smGet 750 s.pwr.rail))
  else .quiet

end Sys2Proof.Machine
end

