-- ==== Sys2Proof/Machine/Beat.lean ====
section
/-! DEFINITION. One idle beat: the clocks' beat, the policy writes, what units wrote to registers, the channel queues, and the work
the grooms and the farrier have under way, which no row of the table ends: SEC's next step on the flash die, the steps of a test slice (log entry 1). -/

namespace Sys2Proof.Machine

/-- SCH's policy writes of earlier beats are latched, last of their beat (spec/02 R41, R42). -/
def State.policyBeat (s : State) : State :=
  let due := fun (e : Nat × Policy) => decide (e.1 < s.beat)
  (s.sched.writes.filter due).foldl (fun s e => s.applyPolicy e.2)
    { s with sched := { s.sched with writes := s.sched.writes.filter fun e => !due e } }

/-- The channels' beat: requests enter, and each queue serves what a beat of at most 55 ns a request serves at the least, or more;
how fast a loft channel serves is not stated, so that count is free (spec/10 R235, R236). -/
def State.dramBeat (s : State) : State :=
  if s.memc.waiting.isEmpty && s.infl.isEmpty && (s.memc.chans.all fun e => e.2.queue.isEmpty) then s else
    let t := s.arrive
    (t.memc.chans.foldl (fun u e =>
      let n := if e.1 < 128 then 18 + t.free (2 ^ 74 + e.1) else t.free (2 ^ 74 + e.1)
      if e.2.queue.isEmpty then u else u.serveChan e.1 n) t).bump

/-- A word of DRAM may go bad in a beat: which, and how badly, is free (spec/10 R243, R247, log entry 92). -/
def State.spoil (s : State) : State :=
  let x := fun (k : Nat) => s.free (2 ^ 76 + 4 * s.beat + k)
  let w := x 1
  let bad := decide (x 0 % 2 = 1) && (isHbm (32 * w) || s.isLoft (32 * w))
  { s with memc := { s.memc with upset := if bad then smPut 0 s.memc.upset w (1 + x 2 % 2) else s.memc.upset } }

/-- What passes with one beat when no command waits: the beat's policy writes, time, and the faults latched in it. A device in
reset keeps its site time and does nothing else. -/
def idleBeat (s : State) : State :=
  let s1 := oneBeat (if s.alive then s.policyBeat else s)
  if s1.alive then
    let s2 := s1.regBeat.spoil.dramBeat.settleLate
    s2.ackBeat.secStep.logRing.farScan.farReturn.endFaulted
  else s1

end Sys2Proof.Machine
end

