-- ==== Sys2Proof/Machine/Descriptor.lean ====
section
/-! DEFINITION. The descriptor instructions (spec/06 R147, R148, spec/07 R165, R166). -/

namespace Sys2Proof.Machine

/-- A descriptor register loaded: its offsets become 0 (spec/07 R166). -/
def Inst.setT (i : Inst) (t : Nat) (x : BitVec 256) : Inst :=
  { i with desc := smPut 0 i.desc t x, offs := smCut i.offs (8 * t) (8 * t + 8) }

/-- TDL: 32 bytes into a register (spec/06 R147). -/
def execTdl (g : Cl) (w : W64) (s : State) : Out :=
  s.issue 0x20 1 g w 0 none fun s c i =>
    { st := s.bump
      inst := i.setT (fA w) (BitVec.ofNat 256 (leNat (s.eaRead g w i 32)))
      faults := rsvFaults w [(41, 37), (33, 24)] ++ s.eaFaults c g w i 32 false }

/-- TDS: 32 bytes to the own buffer (spec/06 R147). -/
def execTds (g : Cl) (w : W64) (s : State) : Out :=
  s.issue 0x21 1 g w 0 none fun s c i =>
    let fs := rsvFaults w [(41, 37), (33, 24)] ++ s.eaFaults c g w i 32 true
    { st := if fs.isEmpty then s.eaWrite c g w i (leBytes 32 (smGet 0 i.desc (fA w)).toNat) else s
      inst := i
      faults := fs }

/-- First bit and width of the field a TDSET selector names (spec/06 R148, spec/07 R165). -/
def tdField (n : Nat) : Option (Nat × Nat) :=
  if n = 0x00 then some (0, 48) else if n = 0x01 then some (48, 4) else if n = 0x02 then some (52, 3)
  else if n = 0x03 then some (55, 7)
  else if 0x10 ≤ n ∧ n ≤ 0x14 then some (extPos (n - 0x10))
  else if 0x18 ≤ n ∧ n ≤ 0x1C then some (strPos (n - 0x18))
  else if 0x20 ≤ n ∧ n ≤ 0x24 then some (bndPos (n - 0x20))
  else if n = 0x30 then some (64, 16) else if n = 0x31 then some (80, 6) else if n = 0x32 then some (86, 10)
  else none

/-- TDSET: one field; a value too wide for it faults (spec/06 R148). -/
def execTdset (g : Cl) (w : W64) (s : State) : Out :=
  s.issue 0x22 1 g w 0 none fun s _ i =>
    let x := (i.s (fB w)).toNat
    match tdField (fld w 7 0) with
    | none => { st := s, inst := i, faults := [fInstruction] }
    | some (p, n) =>
      { st := s
        inst := { i with desc := smMod 0 i.desc (fA w) fun d => putBits d (p + n - 1) p x }
        faults := rsvFaults w [(41, 8)] ++ onFault (decide (2 ^ n ≤ x)) fInstruction }

/-- TDOFF: a dimension's offset is set, or added to modulo 2³² (spec/06 R147, spec/07 R166). DESIGN CHOICE (log entry 70): a set
takes the low 32 bits of its register. -/
def execTdoff (g : Cl) (w : W64) (s : State) : Out :=
  s.issue 0x23 1 g w 0 none fun s _ i =>
    let d := fld w 2 0
    let x : W32 := (i.s (fB w)).setWidth 32
    { st := s
      inst := { i with offs := smMod 0 i.offs (8 * fA w + d) fun o => if fld w 3 3 = 1 then o + x else x }
      faults := rsvFaults w [(41, 4)] ++ onFault (decide (4 < d)) fInstruction }

end Sys2Proof.Machine
end

