-- ==== Sys2Proof/Machine/Matrix.lean ====
section
/-! DEFINITION. The matrix instructions (spec/04 R78-R95, spec/06 R153-R155, spec/03 R69-R75). -/

namespace Sys2Proof.Machine

def meNo (w : W64) : Nat := fld w 51 49
def bankNo (w : W64) : Nat := fld w 48 47
def meOf (w : W64) : UnitId := .me (Fin.ofNat 8 (meNo w))

/-- A list in a free order. -/
def freeOrder (fr : Nat → Nat) : Nat → List α → List α
  | 0, l => l
  | _, [] => []
  | _, [x] => [x]
  | n + 1, x :: xs =>
    let k := fr n % (xs.length + 1)
    match (x :: xs)[k]? with
    | some y => y :: freeOrder fr n ((x :: xs).eraseIdx k)
    | none => x :: freeOrder fr n xs

/-! ### Banks (spec/04 R82, R83) -/

/-- The bank as an operation of a tenant space meets it: zeroed and FP32 when another's used it last. -/
def Cluster.bank (k : Cluster) (t m b : Nat) : Bank :=
  let x := smGet {} k.banks (4 * m + b)
  if x.tenant = t then x else { tenant := t }

def Cluster.setBank (k : Cluster) (m b : Nat) (x : Bank) : Cluster := { k with banks := smPut {} k.banks (4 * m + b) x }

def Bank.get (x : Bank) (i j : Nat) : W32 := smGet 0 x.el (64 * i + j)
def Bank.set (x : Bank) (i j : Nat) (v : W32) : Bank := { x with el := smPut 0 x.el (64 * i + j) v }
def Bank.setL (x : Bank) : List ((Nat × Nat) × W32) → Bank
  | [] => x
  | e :: es => (x.set e.1.1 e.1.2 e.2).setL es

/-- An operation of tenant space t about to touch a bank zeroes it where another's used it last (spec/04 R83). -/
def Cluster.touchBank (k : Cluster) (t m b : Nat) : Cluster :=
  if (smGet {} k.banks (4 * m + b)).tenant = t then k else k.setBank m b { tenant := t }
def State.touchBank (s : State) (g t m b : Nat) : State := s.modCl g fun k => k.touchBank t m b

/-- An ME operation enters its queue with its path and the bank as it was before it, and what `f` adds (spec/04 R84, R99). -/
def State.pushMe (s : State) (g : Nat) (c : Cmd) (m b path : Nat) (before : Bank) (f : UnitOp → UnitOp := id) : State :=
  s.pushOp g (f { unit := .me (Fin.ofNat 8 m), cmd := c.id, id := s.cmds.nextOp, express := c.xrun, path, bank := b
                  before := some before })

/-- The initialised mark of a bank for the running command. -/
def Inst.bankOn (i : Inst) (m b : Nat) : Bool := i.bankInit.getLsbD (4 * m + b)
def Inst.initBank (i : Inst) (m b : Nat) : Inst := { i with bankInit := putBit i.bankInit (4 * m + b) true }

/-- The type mark a load takes: a first load names it, a later one must match it (spec/04 R95). -/
def typeFaults (i : Inst) (m b : Nat) (x : Bank) (int : Bool) : List Byte :=
  onFault (i.bankOn m b && x.int != int) fFormat

/-- The bank a load writes into: cleared and typed when the load initialises it. -/
def loadBank (i : Inst) (m b : Nat) (x : Bank) (int : Bool) : Bank :=
  if i.bankOn m b then x else { x with int := int, el := [] }

/-! ### Operand pairs (spec/04 R79, R80) -/

/-- Class of a pair and whether it accumulates into INT32; none where it is refused. -/
def pairClass (a b : Nat) : Option (Nat × Bool) :=
  if a = 0 ∨ b = 0 ∨ 11 < a ∨ 11 < b then none
  else if fmtInt a != fmtInt b then none
  else some (min (fmtClass a) (fmtClass b), fmtInt a)

def tileRows (cl : Nat) : Nat := if cl = 2 then 64 else 32
def tileCols (cl : Nat) : Nat := if cl = 0 then 32 else 64
/-- Products in a group of a class (spec/03 R73). -/
def groupSize (cl : Nat) : Nat := if cl = 0 then 1 else if cl = 1 then 4 else 8

/-- Groups of g, summed exactly and rounded once. -/
def groupSums (g : Nat) : Nat → List Val → List W32
  | 0, _ => []
  | _, [] => []
  | n + 1, l => r32 (Val.sum (l.take g)) :: groupSums g n (l.drop g)

/-- The magnitude of a finite value. -/
def Val.abs : Val → Val | .fin _ m e => .fin false m e | x => x

/-- Whether a result lies within the bound of n groups: |r − exact| × (2²⁴ − n) ≤ n × total + 2n × 2⁻¹⁵⁰ × (2²⁴ − n)
(spec/03 R74). -/
def withinAcc (n : Nat) (r exact total : Val) : Bool :=
  ((r.dist exact).times (2 ^ 24 - n)).le ((total.times n).add (.fin false (n * (2 ^ 24 - n)) (-149)))

/-- Products grouped, and the groups' sums added with a rounding each, in an order that is not promised (spec/03 R73). -/
def accOrder (fr : Nat → Nat) (cl : Nat) (acc : W32) (ps : List Val) : W32 :=
  let l := freeOrder fr ps.length ps
  let gs := groupSums (groupSize cl) (l.length + 1) l
  (freeOrder (fun n => fr (2 ^ 20 + n)) gs.length gs).foldl fadd acc

/-- A float accumulation. Where R73's two roundings of a group leave the bound of R74, the result is a free one within it
(log entry 45). -/
def accFloat (fr : Nat → Nat) (cl : Nat) (acc : W32) (ps : List Val) : W32 :=
  let r := accOrder fr cl acc ps
  let exact := (f32 acc).add (Val.sum ps)
  let total := (f32 acc).abs.add (Val.sum (ps.map Val.abs))
  let n := ceilDiv ps.length (groupSize cl)
  match f32 r, exact with
  | .fin _ _ _, .fin _ _ _ =>
    let y : W32 := BitVec.ofNat 32 (fr (2 ^ 22))
    if withinAcc n (f32 r) exact total then r
    else if withinAcc n (f32 y) exact total && !(f32 y).isInf then y else r32 exact
  | _, _ => r

/-- An integer accumulation, exact modulo 2³² (spec/03 R72). -/
def accInt (acc : W32) (ps : List Int) : W32 := ps.foldl (fun a p => a + BitVec.ofInt 32 p) acc

/-- Positions of an operand: k along dimension 0, the tile's index along dimension 1 (spec/07 R176). -/
def opaLocs (d : Desc) (k n : Nat) : List (List (Option Loc)) :=
  (List.range k).map fun x => (List.range n).map fun y => d.at 0 [Int.ofNat x, Int.ofNat y, 0, 0, 0]

/-- K of an OPA: an immediate or an s register (spec/06 R153). -/
def opaK (i : Inst) (w2 : W64) : Nat := if fld w2 21 21 = 1 then (i.s (fld w2 26 22)).toNat else fld w2 20 0

/-- Faults of an OPA at issue (spec/04 R79-R83, spec/05 R120, spec/07 R176, spec/08 R205). -/
def State.opaFaults (s : State) (c : Cmd) (g : Nat) (w w2 : W64) (i : Inst) : List Byte :=
  let m := meNo w
  let b := bankNo w
  let col := i.desc' (fB w)
  let row := i.desc' (fC w)
  let k := opaK i w2
  let zs := fld w2 27 27 == 1
  let x := (s.cl g).bank c.fn m b
  let pre := rsvFaults w [(36, 0)] ++ rsvFaults w2 [(55, 28)] ++ s.descFaults c.fn false col ++ s.descFaults c.fn false row
    ++ onFault (k == 0 || decide (1048576 < k)) fInstruction ++ onFault (!zs && !i.bankOn m b) fInstruction
  match pairClass col.fmt row.fmt with
  | none => pre ++ [fFormat]
  | some (cl, int) =>
    let cls := opaLocs col k (tileRows cl)
    let rls := opaLocs row k (tileCols cl)
    if k = 0 ∨ 1048576 < k then pre else
      pre ++ onFault (!zs && i.bankOn m b && x.int != int) fFormat
        ++ s.ownFaults g col cls.flatten ++ s.ownFaults g row rls.flatten
        ++ s.rdChecks c g (col.touched cls.flatten) ++ s.rdChecks c g (row.touched rls.flatten)
        ++ storeFaults col cls ++ storeFaults row rls

/-- OPA (spec/04 R78-R83, spec/06 R153). The cycles its expanders hold it up are 0 for raw operands (R87); those that throttling
withholds are counted when it ends (R88). -/
def execOpa (g : Cl) (w w2 : W64) (s : State) : Out :=
  s.issue 0x40 2 g w w2 (some (meOf w)) fun s c i =>
    let m := meNo w
    let b := bankNo w
    let col := i.desc' (fB w)
    let row := i.desc' (fC w)
    let k := opaK i w2
    let zs := fld w2 27 27 == 1
    let x := (s.cl g).bank c.fn m b
    let fs := s.opaFaults c g w w2 i
    match pairClass col.fmt row.fmt with
    | none => { st := s.touchBank g c.fn m b, inst := i, faults := fs, kind := 0, unit := m }
    | some (cl, int) =>
      let cls := opaLocs col k (tileRows cl)
      let rls := opaLocs row k (tileCols cl)
      if !fs.isEmpty then { st := s.touchBank g c.fn m b, inst := i, faults := fs, kind := 0, unit := m } else
        let who : Who := ⟨c.fn, g, ordMe⟩
        let cv := s.readView who col cls.flatten
        let rv := s.readView who row rls.flatten
        let R := tileRows cl
        let C := tileCols cl
        let ce := fun (q p : Nat) => cv.1.getD (q * R + p) (0, 0)
        let re := fun (q p : Nat) => rv.1.getD (q * C + p) (0, 0)
        let x0 := if zs then { x with int := int, el := [] } else x
        let upd := (List.range R).flatMap fun p => (List.range C).map fun q =>
          let acc := x0.get p q
          ((p, q),
            if int then accInt acc ((List.range k).map fun z =>
              sext (fmtWidth col.fmt) (ce z p).1 * sext (fmtWidth row.fmt) (re z q).1)
            else accFloat (fun n => s.free (2 ^ 64 + (64 * p + q) * 2 ^ 23 + n)) cl acc ((List.range k).map fun z =>
              (elemVal col.fmt (ce z p).1 (ce z p).2).mul (elemVal row.fmt (re z q).1 (re z q).2)))
        let nr := s.free (2 ^ 80) % 2 ^ 32
        let es := if col.isCoded || row.isCoded then s.free (2 ^ 80 + 1) % (nr + 1) else 0
        let i1 := (((i.count kAcc k).count kNotReady nr).count kExpStall es).count kConflict
          (s.free (2 ^ 80 + 3) % (nr - es + 1))
        let s1 := (s.cacheView who col cls.flatten).cacheView who row rls.flatten
        let s2 := (s1.modCl g fun q => q.setBank m b (x0.setL upd)).pushMe g c m b 0 x fun o => { o with
          tile := (R, C), acc := (k, nr), duty := (s.pwr.duty, s.pwr.duty)
          feeds := feedOf (2 * m) col cls ++ feedOf (2 * m + 1) row rls }
        { st := s2.bump
          inst := { i1.initBank m b with meCycles := i1.meCycles + BitVec.ofNat 64 (k + nr) }
          faults := cv.2 ++ rv.2, kind := 0, unit := m }

/-- OPZ: the bank is zeroed and typed (spec/04 R95). -/
def execOpz (g : Cl) (w : W64) (s : State) : Out :=
  s.issue 0x41 1 g w 0 (some (meOf w)) fun s c i =>
    let m := meNo w
    let b := bankNo w
    let fs := rsvFaults w [(46, 1)]
    if !fs.isEmpty then { st := s.touchBank g c.fn m b, inst := i, faults := fs, kind := 0, unit := m } else
      { st := (s.modCl g fun k => k.setBank m b { int := fld w 0 0 == 1, tenant := c.fn }).pushMe g c m b 3 ((s.cl g).bank c.fn m b)
        inst := i.initBank m b
        faults := [], kind := 0, unit := m }

/-- First row, first column, height and width of a region. -/
def regRow (w : W64) : Nat := fld w 23 18
def regCol (w : W64) : Nat := fld w 17 12
def regH (w : W64) : Nat := fld w 11 6 + 1
def regW (w : W64) : Nat := fld w 5 0 + 1
def regFaults (w : W64) : List Byte := onFault (decide (64 < regRow w + regH w) || decide (64 < regCol w + regW w)) fInstruction

/-- The coordinates of a region, row by row, counted from its first row and column. -/
def regionIx (w : W64) : List (Nat × Nat) :=
  (List.range (regH w)).flatMap fun i => (List.range (regW w)).map fun j => (i, j)

/-- Positions an ACCL reads. -/
def acclLocs (w : W64) (d : Desc) : List (Option Loc) :=
  (regionIx w).map fun p => d.at 9 [Int.ofNat p.2, Int.ofNat p.1, 0, 0, 0]

/-- Faults of an ACCL at issue (spec/04 R95, spec/07 R176). -/
def State.acclFaults (s : State) (c : Cmd) (g : Nat) (w : W64) (i : Inst) : List Byte :=
  let m := meNo w
  let b := bankNo w
  let d := i.desc' (fB w)
  let ls := acclLocs w d
  rsvFaults w [(41, 25)] ++ regFaults w ++ s.descFaults c.fn false d ++ s.ownFaults g d ls
    ++ typeFaults i m b ((s.cl g).bank c.fn m b) (fld w 24 24 == 1) ++ s.rdChecks c g (d.touched ls)
    ++ storeFaults d (cutN 64 ls)

/-- ACCL (spec/04 R95, spec/07 R176). -/
def execAccl (g : Cl) (w : W64) (s : State) : Out :=
  s.issue 0x42 1 g w 0 (some (meOf w)) fun s c i =>
    let m := meNo w
    let b := bankNo w
    let d := i.desc' (fB w)
    let int := fld w 24 24 == 1
    let x := (s.cl g).bank c.fn m b
    let ix := regionIx w
    let ls := acclLocs w d
    let fs := s.acclFaults c g w i
    if !fs.isEmpty then { st := s.touchBank g c.fn m b, inst := i, faults := fs, kind := 0, unit := m } else
      let who : Who := ⟨c.fn, g, ordMe⟩
      let v := s.readView who d ls
      let cs := v.1.map fun e =>
        let y := elemVal d.fmt e.1 e.2
        if int then toInt32 .nearest y else toFloat .nearest 0 0 y
      let upd := (ix.zip cs).map fun p => ((regRow w + p.1.1, regCol w + p.1.2), BitVec.ofNat 32 p.2.bits)
      { st := (((s.cacheView who d ls).modCl g fun k => k.setBank m b ((loadBank i m b x int).setL upd)).pushMe g c m b 2 x fun o =>
          { o with feeds := feedOf (2 * m) d (cutN 64 ls) }).bump
        inst := (i.initBank m b).countConv (((ls.zip cs).filter fun e => e.1.isSome).map (·.2))
        faults := v.2, kind := 0, unit := m }

/-- ACCW: four rows from one VU register (spec/04 R95). -/
def execAccw (g : Cl) (w : W64) (s : State) : Out :=
  s.issue 0x44 1 g w 0 (some (meOf w)) fun s c i =>
    let m := meNo w
    let b := bankNo w
    let int := fld w 6 6 == 1
    let x := (s.cl g).bank c.fn m b
    let upd := (List.range 256).map fun n => ((fld w 5 0 + n / 64, n % 64), smGet 0 i.vreg (256 * fB w + n))
    let fs := rsvFaults w [(41, 7)] ++ onFault (decide (60 < fld w 5 0)) fInstruction ++ typeFaults i m b x int
    if !fs.isEmpty then { st := s.touchBank g c.fn m b, inst := i, faults := fs, kind := 0, unit := m } else
      { st := (s.modCl g fun k => k.setBank m b ((loadBank i m b x int).setL upd)).pushMe g c m b 2 x
        inst := i.initBank m b
        faults := [], kind := 0, unit := m }

/-! ### ACCS (spec/04 R89-R94, spec/06 R155) -/

/-- Dimensions a mapping field names, high first. -/
def mapDims (f : Nat) : List Nat := if f / 8 = 7 then [f % 8] else [f / 8, f % 8]

/-- The view index of a mapped coordinate, as (dimension, index). -/
def mapIx (d : Desc) (f x : Nat) : List (Nat × Nat) :=
  if f / 8 = 7 then [(f % 8, x)]
  else let e := d.ext.getD (f % 8) 1
       [(f / 8, x / e), (f % 8, x % e)]

def mapFaults (d : Desc) (r c : Nat) : List Byte :=
  let ds := mapDims r ++ mapDims c
  onFault (ds.any (fun n => decide (4 < n) || decide (d.rank ≤ n)) || ds.eraseDups.length != ds.length) fInstruction

/-- The view index a region coordinate goes to. -/
def accsIx (d : Desc) (r c : Nat) (p : Nat × Nat) : List Int :=
  let ms := mapIx d r p.1 ++ mapIx d c p.2
  (List.range 5).map fun k => match ms.find? fun e => e.1 == k with
    | some e => Int.ofNat e.2
    | none => 0

/-- Block destinations take whole blocks: of every block the clipped region touches it has the 32 elements (spec/04 R92, spec/07
R175). -/
def wholeBlocks (d : Desc) (ixs : List (List Int)) : Bool :=
  let keys := (ixs.filter fun ix => (d.at 9 ix).isSome).map fun ix => (d.coords ix).zipIdx.map fun c => if c.2 = d.inner then c.1 / 32 else c.1
  keys.all fun k => (keys.filter (· == k)).length == 32

/-- Converted elements by element number, rising. -/
def rawSorted (d : Desc) (xs : List (Loc × El)) : List (Nat × Nat) :=
  sortKey (xs.map fun x => ((x.1.byte * 8 + x.1.bit) / fmtWidth d.fmt, x.2.1))

/-- What an encoding ACCS puts into its assembler: blocks to emit, by number, and the assembler left; none when the
elements do not continue its range (spec/04 R93, spec/08 R203). -/
def assemble (f reg : Nat) (last : Bool) (a : Option Assembler) (els : List (Nat × Nat)) :
    Option (List (Nat × List Nat) × Option Assembler) :=
  let start := match a with | some x => x.start | none => (els.head?.map (·.1)).getD 0
  let held := match a with | some x => x.els | none => []
  if start % blockElems f ≠ 0 then none
  else if !(els.zipIdx.all fun x => x.1.1 == start + held.length + x.2) then none
  else
    let all := (held ++ els.map (·.2)).zipIdx.map fun x => (start + x.2, x.1)
    let n := all.length / blockElems f * blockElems f
    let out := if last then all else all.take n
    let rest := if last then [] else all.drop n
    some (cutBlocks f (all.length + 1) out,
      match rest with
      | [] => none
      | y :: ys => some { reg := reg, fmt := f, start := y.1, els := (y :: ys).map (·.2) })

/-- View indices of an ACCS's region, in its order. -/
def accsIxs (w : W64) (d : Desc) : List (List Int) := (regionIx w).map (accsIx d (fld w 41 36) (fld w 35 30))

/-- Elements of an ACCS's region, rounded and converted for their positions, with the conversions made; the elements out of
bounds are dropped (spec/04 R89-R91, spec/03 R69-R71). -/
def State.accsConv (s : State) (c : Cmd) (g : Nat) (w : W64) (i : Inst) : List (Loc × El) × List Conv :=
  let d := i.desc' (fB w)
  let x := (s.cl g).bank c.fn (meNo w) (bankNo w)
  let n := (regionIx w).length
  let order := freeOrder (fun q => s.free (2 ^ 65 + q)) n (List.range n)
  let draws := genList i.gen n
  let rs : Nat → Rounding := fun q => if fld w 29 29 = 1 then
    .draw (genDraw (draws.getD (order.getD q 0) 0)) else .nearest
  let vals := (regionIx w).map fun p =>
    let e := x.get (regRow w + p.1) (regCol w + p.2)
    if x.int then i32 e else f32 e
  let kept := ((((accsIxs w d).map (d.at 9)).zip vals).zipIdx).filterMap fun p => p.1.1.map fun l => (l, p.1.2, p.2)
  convertTo d (fld w 28 27) (fun q => rs ((kept.getD q ({ byte := 0, bit := 0, scale := none }, .nan, 0)).2.2))
    (kept.map fun k => (k.1, k.2.1))

/-- What an encoding ACCS puts into the assembler of its ME (spec/04 R93). -/
def State.accsAsm (s : State) (c : Cmd) (g : Nat) (w : W64) (i : Inst) :
    Option (List (Nat × List Nat) × Option Assembler) :=
  let d := i.desc' (fB w)
  assemble d.fmt (fB w) (fld w 25 25 == 1) (smGet none (s.cl g).asm (meNo w)) (rawSorted d (s.accsConv c g w i).1)

/-- Faults of an ACCS at issue (spec/04 R89-R94). -/
def State.accsFaults (s : State) (c : Cmd) (g : Nat) (w : W64) (i : Inst) : List Byte :=
  let m := meNo w
  let d := i.desc' (fB w)
  let a := smGet none (s.cl g).asm m
  let ls := (accsIxs w d).map (d.at 9)
  rsvFaults w [(24, 24)] ++ regFaults w ++ s.descFaults c.fn false d ++ mapFaults d (fld w 41 36) (fld w 35 30)
    ++ onFault (fld w 28 27 == 3) fFormat ++ onFault (!i.bankOn m (bankNo w)) fInstruction ++ s.ownFaults g d ls
    ++ s.wrChecks c g (d.written ls)
    ++ onFault (fmtBlock d.fmt && !wholeBlocks d (accsIxs w d)) fFormat
    ++ (if fld w 26 26 == 1 then
          onFault (!fmtFloat d.fmt) fInstruction ++ onFault (fmtFloat d.fmt && d.tset == 0) fFormat
            ++ onFault (match a with | some y => y.reg != fB w | none => false) fInstruction
            ++ onFault (match a with | some y => y.fmt != d.fmt | none => false) fFormat
            ++ onFault (s.accsAsm c g w i).isNone fFormat
        else onFault (d.tset != 0) fFormat)

/-- Blocks an encoding ACCS emits, by number: their bytes and whether they are coded. -/
def State.accsBlocks (s : State) (c : Cmd) (g : Nat) (w : W64) (i : Inst) : List (Nat × List Byte × Bool) :=
  let d := i.desc' (fB w)
  (((s.accsAsm c g w i).map (·.1)).getD []).map fun y =>
    (y.1, match s.tset c.fn d.tset with | some t => encodeBest d.fmt t 0xFF y.2 | none => ([], false))

/-- The writes of an ACCS: elements, or slots of emitted blocks. -/
def State.accsWrites (s : State) (c : Cmd) (g : Nat) (w : W64) (i : Inst) : List (Nat × Byte × Byte) :=
  let d := i.desc' (fB w)
  if fld w 26 26 == 1 then (s.accsBlocks c g w i).flatMap fun y => byteWrites (d.slot y.1) (s.lineBytes (d.slot y.1) y.2.1)
  else (s.accsConv c g w i).1.flatMap fun y => d.elWrites y.1 y.2

/-- ACCS (spec/04 R89-R94). DESIGN CHOICE (log entry 45): LAST without the encode flag does
nothing. -/
def execAccs (g : Cl) (w : W64) (s : State) : Out :=
  s.issue 0x43 1 g w 0 (some (meOf w)) fun s c i =>
    let m := meNo w
    let enc := fld w 26 26 == 1
    let n := (regionIx w).length
    let conv := s.accsConv c g w i
    let fs := s.accsFaults c g w i
    if !fs.isEmpty then { st := s.touchBank g c.fn m (bankNo w), inst := i, faults := fs, kind := 0, unit := m } else
      let blocks := if enc then s.accsBlocks c g w i else []
      let p := s.placeWrites c.fn g (s.accsWrites c g w i)
      let s1 := s.accept g m s.cmds.nextOp c.id p.1
      let s2 := if enc then s1.modCl g fun k =>
        { k with asm := smPut none k.asm m (((s.accsAsm c g w i).map (·.2)).getD none) } else s1
      let nc := (blocks.filter fun y => y.2.2).length
      let i1 := (((i.count kOob (n - conv.2.length)).countConv conv.2).count kAccsCoded nc).count kAccsStored (blocks.length - nc)
      { st := (s2.pushMe g c m (bankNo w) 1 ((s.cl g).bank c.fn m (bankNo w))).bump
        inst := { i1 with gen := if fld w 29 29 = 1 then genSteps i1.gen n else i1.gen }
        faults := p.2, kind := 0, unit := m }

end Sys2Proof.Machine
end

