-- ==== Sys2Proof/Machine/Vector.lean ====
section
/-! DEFINITION. The vector instructions (spec/06 R156-R161, spec/03 R76, R77). -/

namespace Sys2Proof.Machine

def Inst.v (i : Inst) (n lane : Nat) : W32 := smGet 0 i.vreg (256 * n + lane)
def Inst.vL (i : Inst) (n : Nat) : List W32 := (List.range 256).map (i.v n)

/-- Lanes written from `k` upward. -/
def putLanes (m : SMap W32) (k : Nat) : List W32 → SMap W32
  | [] => m
  | x :: xs => putLanes (smPut 0 m k x) (k + 1) xs

/-- A whole register written. -/
def Inst.setV (i : Inst) (n : Nat) (xs : List W32) : Inst := { i with vreg := putLanes i.vreg (256 * n) xs }

/-- A VU operation is queued and its `cy` VU-cycles are counted (spec/14 R321). -/
def State.vuDone (s : State) (g : Nat) (c : Cmd) (cy : Nat) (i : Inst) (feeds : List Feed := []) : State × Inst :=
  ((s.push g c .vu [] 0 none (0, 0) feeds).bump, { i with vuCycles := i.vuCycles + BitVec.ofNat 64 cy })

/-- Cycles of an operation whose occupancy the spec does not fix, between `lo` and `lo + n` (log entry 2). -/
def State.freeCycles (s : State) (lo n : Nat) : Nat := lo + s.free (2 ^ 81) % (n + 1)

/-- An instruction on registers alone: its effect on the destination's lanes. -/
def State.vuOp (s : State) (op : Nat) (g : Nat) (w : W64) (cy : Nat) (k : Cmd → Inst → List Byte × Inst) : Out :=
  s.issue op 1 g w 0 (some .vu) fun s c i =>
    let r := k c i
    if !r.1.isEmpty then { st := s, inst := i, faults := r.1, kind := 1 } else
      let d := s.vuDone g c cy r.2
      { st := d.1, inst := d.2, kind := 1 }

/-- The second operand of an elementwise instruction: lanes, or the low half of an s register (spec/06 R156). -/
def Inst.vB (i : Inst) (w : W64) : List W32 :=
  if fld w 30 30 = 1 then List.replicate 256 ((i.s (fC w)).setWidth 32) else i.vL (fC w)

/-- An elementwise instruction. -/
def execVew (op : Nat) (rsv : List (Nat × Nat)) (f : Bool → W32 → W32 → W32) (g : Nat) (w : W64) (s : State) : Out :=
  s.vuOp op g w 1 fun _ i =>
    (rsvFaults w rsv, i.setV (fA w) (((i.vL (fB w)).zip (i.vB w)).map fun p => f (fld w 31 31 == 1) p.1 p.2))

def vewRsv : List (Nat × Nat) := [(36, 32), (29, 0)]

def execVadd (g : Cl) (w : W64) (s : State) : Out :=
  execVew 0x52 vewRsv (fun ty a b => if ty then a + b else fadd a b) g w s
def execVsub (g : Cl) (w : W64) (s : State) : Out :=
  execVew 0x53 vewRsv (fun ty a b => if ty then a - b else fsub a b) g w s
def execVmul (g : Cl) (w : W64) (s : State) : Out :=
  execVew 0x54 vewRsv (fun ty a b => if ty then a * b else fmul a b) g w s
def imax (a b : W32) : W32 := if a.toInt < b.toInt then b else a
def imin (a b : W32) : W32 := if b.toInt < a.toInt then b else a
def execVmax (g : Cl) (w : W64) (s : State) : Out :=
  execVew 0x55 vewRsv (fun ty a b => if ty then imax a b else fmax a b) g w s
def execVmin (g : Cl) (w : W64) (s : State) : Out :=
  execVew 0x56 vewRsv (fun ty a b => if ty then imin a b else fmin a b) g w s
def execVand (g : Cl) (w : W64) (s : State) : Out := execVew 0x57 vewRsv (fun _ a b => a &&& b) g w s
def execVor (g : Cl) (w : W64) (s : State) : Out := execVew 0x58 vewRsv (fun _ a b => a ||| b) g w s
def execVxor (g : Cl) (w : W64) (s : State) : Out := execVew 0x59 vewRsv (fun _ a b => a ^^^ b) g w s
def execVshl (g : Cl) (w : W64) (s : State) : Out :=
  execVew 0x5A vewRsv (fun _ a b => a <<< (b.toNat % 32)) g w s
def execVshr (g : Cl) (w : W64) (s : State) : Out :=
  execVew 0x5B [(36, 32), (29, 1)]
    (fun _ a b => if fld w 0 0 = 1 then a.sshiftRight (b.toNat % 32) else a >>> (b.toNat % 32)) g w s

/-- VCMP: a mask of all ones where the test holds (spec/06 R156). -/
def execVcmp (g : Cl) (w : W64) (s : State) : Out :=
  s.vuOp 0x5C g w 1 fun _ i =>
    let cc := fld w 36 33
    let int := fld w 31 31 == 1
    (rsvFaults w [(32, 32), (29, 0)] ++ onFault (decide ((if int then 9 else 5) < cc)) fInstruction,
     i.setV (fA w) (((i.vL (fB w)).zip (i.vB w)).map fun p =>
       if (if int then condInt cc p.1 p.2 else condF32 cc p.1 p.2) = some true then 0xFFFFFFFF else 0))

def execVsel (g : Cl) (w : W64) (s : State) : Out :=
  s.vuOp 0x5D g w 1 fun _ i =>
    (rsvFaults w [(31, 0)], i.setV (fA w) ((List.range 256).map fun n =>
      if i.v (fD w) n ≠ 0 then i.v (fB w) n else i.v (fC w) n))

def execVfma (g : Cl) (w : W64) (s : State) : Out :=
  s.vuOp 0x5E g w 1 fun _ i =>
    (rsvFaults w [(31, 0)], i.setV (fA w) ((List.range 256).map fun n => ffma (i.v (fB w) n) (i.v (fC w) n) (i.v (fD w) n)))

/-- VSF: a special function within its bound (spec/03 R76). -/
def execVsf (g : Cl) (w : W64) (s : State) : Out :=
  s.vuOp 0x5F g w 1 fun _ i =>
    (rsvFaults w [(41, 3)] ++ onFault (decide (4 < fld w 2 0)) fInstruction,
     i.setV (fA w) ((i.vL (fB w)).zipIdx.map fun x => specialLane (fld w 2 0) (s.free x.2) x.1))

def execVbcast (g : Cl) (w : W64) (s : State) : Out :=
  s.vuOp 0x66 g w 1 fun _ i =>
    (rsvFaults w [(41, 16), (7, 1)],
     i.setV (fA w) (List.replicate 256
       (if fld w 0 0 = 1 then i.v (fB w) (fld w 15 8) else (i.s (fB w)).setWidth 32)))

/-- VRED (spec/06 R158). -/
def execVred (g : Cl) (w : W64) (s : State) : Out :=
  s.vuOp 0x60 g w 1 fun _ i =>
    let n := fld w 8 0
    let op := fld w 11 10
    let int := fld w 31 31 == 1
    let xs := (i.vL (fB w)).take n
    let x0 := xs.headD 0
    let r := match op with
      | 0 => if int then xs.foldl (· + ·) 0 else sumLanes (s.free 0) xs
      | 1 => xs.foldl (fun a b => if int then imax a b else fmax a b) x0
      | _ => xs.foldl (fun a b => if int then imin a b else fmin a b) x0
    (rsvFaults w [(41, 32), (30, 12), (9, 9)] ++ onFault (n == 0 || decide (256 < n) || op == 3) fInstruction,
     i.setV (fA w) (r :: List.replicate 255 0))

/-- exp of a lane for VMRG and VSAMP: exp of −infinity is 0 (log entry 18). -/
def expLane (r : Nat) (x : W32) : W32 :=
  match f32 x with
  | .inf true => 0
  | _ => specialLane 0 r x

/-- o₁ × a₁ + o₂ × a₂: the spec states no rounding inside it; each of the ways to round it may come (log entry 18). -/
def mergeSum (r : Nat) (o1 a1 o2 a2 : W32) : W32 :=
  match r % 4 with
  | 0 => fadd (fmul o1 a1) (fmul o2 a2)
  | 1 => ffma o1 a1 (fmul o2 a2)
  | 2 => ffma o2 a2 (fmul o1 a1)
  | _ => r32 (((f32 o1).mul (f32 a1)).add ((f32 o2).mul (f32 a2)))

/-- VMRG (spec/06 R159). -/
def execVmrg (g : Cl) (w : W64) (s : State) : Out :=
  s.vuOp 0x61 g w (s.freeCycles 1 1) fun _ i =>
    let W := 2 ^ (fld w 2 0 + 1)
    let row := fun (r : Nat) =>
      let m1 := i.v (fC w) (2 * r)
      let l1 := i.v (fC w) (2 * r + 1)
      let m2 := i.v (fD w) (2 * r)
      let l2 := i.v (fD w) (2 * r + 1)
      let m := fmax m1 m2
      let a1 := expLane (s.free (4 * r)) (fsub m1 m)
      let a2 := expLane (s.free (4 * r + 1)) (fsub m2 m)
      (m1 == 0xFF800000 && m2 == 0xFF800000, m, mergeSum (s.free (4 * r + 2)) l1 a1 l2 a2, a1, a2)
    let rows := (List.range (256 / W)).map row
    let o := (List.range 256).map fun n =>
      let q := rows.getD (n / W) (true, 0, 0, 0, 0)
      if q.1 then i.v (fA w) n
      else mergeSum (s.free (1024 + n)) (i.v (fA w) n) q.2.2.2.1 (i.v (fB w) n) q.2.2.2.2
    let st := (List.range 256).map fun n =>
      let q := rows.getD (n / 2) (true, 0, 0, 0, 0)
      if q.1 then i.v (fC w) n else if n % 2 = 0 then q.2.1 else q.2.2.1
    (rsvFaults w [(31, 3)] ++ onFault (fA w == fC w) fInstruction, (i.setV (fA w) o).setV (fC w) st)

/-- VCVT: rounded to a format and widened back (spec/06 R157). A value of YB beyond FP32 widens to an infinity, as overflow mode
DEFAULT gives, under SAT too; an infinite lane counts as saturated (spec/03 R64, R66, log entry 97). -/
def execVcvt (g : Cl) (w : W64) (s : State) : Out :=
  s.vuOp 0x63 g w 1 fun _ i =>
    let f := fld w 3 0
    let vals := (i.vL (fB w)).map fun x => if fld w 31 31 = 1 then i32 x else f32 x
    let back := fun (b sc : Nat) =>
      if fmtInt f then BitVec.ofInt 32 (sext (fmtWidth f) b) else r32 (elemVal f b sc)
    let r : List (W32 × Conv) := if fmtBlock f then
        (List.range 8).flatMap fun k =>
          let e := toBlock (fun _ => .nearest) f ((vals.drop (32 * k)).take 32)
          e.2.map fun c => (back c.bits e.1, c)
      else vals.map fun v => let c := toFmt .nearest f (fld w 5 4) v
                             (back c.bits 0, c)
    (rsvFaults w [(41, 32), (30, 6)] ++ onFault (decide (11 < f) || fld w 5 4 == 3) fFormat,
     (i.setV (fA w) (r.map (·.1))).countConv (r.map (·.2)))

/-! ### Loads, stores and gathers (spec/06 R157, R160) -/

/-- The position at index n along position 0, from the offsets. -/
def Desc.along (d : Desc) (n : Int) : Option Loc :=
  d.at 9 ((List.range 5).map fun k => if k = d.inner then n else 0)

/-- An element widened to a lane: INT32 for integer formats, FP32 otherwise; a value of YB beyond FP32 is an infinity (spec/03 R62,
log entry 97). -/
def widen (f : Nat) (e : El) : W32 :=
  if fmtInt f then BitVec.ofInt 32 (sext (fmtWidth f) e.1) else r32 (elemVal f e.1 e.2)

/-- Faults of a VU read of positions at issue. -/
def State.vuReadFaults (s : State) (c : Cmd) (g : Nat) (d : Desc) (ls : List (Option Loc)) : List Byte :=
  s.descFaults c.fn false d ++ s.ownFaults g d ls ++ s.rdChecks c g (d.touched ls)

/-- The 256 positions of a VLD or VST. -/
def Desc.run (d : Desc) : List (Option Loc) := (List.range 256).map fun n => d.along (Int.ofNat n)

/-- A VU read of positions, over port cycles of n, into lanes. -/
def State.vuLoad (s : State) (c : Cmd) (g : Nat) (i : Inst) (a cy : Nat) (d : Desc) (n : Nat) (ls : List (Option Loc)) : Res :=
  let who : Who := ⟨c.fn, g, ordVu⟩
  let v := s.readView who d ls
  let r := (s.cacheView who d ls).vuDone g c cy (i.setV a (v.1.map (widen d.fmt))) (feedOf 16 d (cutN n ls))
  { st := r.1, inst := r.2, faults := v.2, kind := 1 }

/-- VLD (spec/06 R157, spec/08 R205). -/
def execVld (g : Cl) (w : W64) (s : State) : Out :=
  s.issue 0x50 1 g w 0 (some .vu) fun s c i =>
    let d := i.desc' (fB w)
    let ls := d.run
    let fs := rsvFaults w [(41, 0)] ++ s.vuReadFaults c g d ls ++ storeFaults d (cutN 256 ls)
    if !fs.isEmpty then { st := s, inst := i, faults := fs, kind := 1 } else s.vuLoad c g i (fA w) (s.freeCycles 1 4096) d 256 ls

/-- Faults of a VST at issue (spec/06 R157, spec/07 R175). -/
def State.vstFaults (s : State) (c : Cmd) (g : Nat) (w : W64) (d : Desc) : List Byte :=
  let run := { d with ext := (List.range 5).map fun k => if k = d.inner then min 256 (d.ext.getD k 1) else 1 }
  rsvFaults w [(41, 2)] ++ s.descFaults c.fn false d ++ s.ownFaults g d d.run
    ++ onFault (d.tset != 0 || fld w 1 0 == 3) fFormat ++ run.edgeFaults false ++ s.wrChecks c g (d.written d.run)

/-- VST (spec/06 R157). -/
def execVst (g : Cl) (w : W64) (s : State) : Out :=
  s.issue 0x51 1 g w 0 (some .vu) fun s c i =>
    let d := i.desc' (fB w)
    let ls := d.run
    let fs := s.vstFaults c g w d
    if !fs.isEmpty then { st := s, inst := i, faults := fs, kind := 1 } else
      let kept := (ls.zip (i.vL (fA w))).filterMap fun p => p.1.map fun l =>
        (l, if fmtInt d.fmt then i32 p.2 else f32 p.2)
      let r := convertTo d (fld w 1 0) (fun _ => .nearest) kept
      let p := s.placeWrites c.fn g (r.1.flatMap fun x => d.elWrites x.1 x.2)
      let t := (s.accept g wVst s.cmds.nextOp c.id p.1).vuDone g c (s.freeCycles 1 3) ((i.count kOob (256 - kept.length)).countConv r.2)
      { st := t.1, inst := t.2, faults := p.2, kind := 1 }

/-- VPERM: lanes by index, or a gather along position 0 (spec/06 R160), 16 lanes to a port cycle (log entry 69). -/
def execVperm (g : Cl) (w : W64) (s : State) : Out :=
  s.issue 0x64 1 g w 0 (some .vu) fun s c i =>
    let rs := rsvFaults w [(36, 1)]
    if fld w 0 0 = 0 then
      if !rs.isEmpty then { st := s, inst := i, faults := rs, kind := 1 } else
        let t := s.vuDone g c 1 (i.setV (fA w) ((i.vL (fC w)).map fun x => i.v (fB w) (x.toNat % 256)))
        { st := t.1, inst := t.2, kind := 1 }
    else
      let d := i.desc' (fB w)
      let ls := (i.vL (fC w)).map fun x => d.along x.toInt
      let fs := rs ++ s.vuReadFaults c g d ls ++ storeFaults d (cutN 16 ls)
      if !fs.isEmpty then { st := s, inst := i, faults := fs, kind := 1 } else s.vuLoad c g i (fA w) (s.freeCycles 16 240) d 16 ls

/-- The 32 bytes of a VMASK's mask. -/
def Desc.maskAddrs (d : Desc) : List Nat :=
  match d.at 9 [0, 0, 0, 0, 0] with
  | some l => addrs (d.base + l.byte) 32
  | none => []

/-- Faults of a VMASK at issue (spec/06 R160). -/
def State.vmaskFaults (s : State) (c : Cmd) (g : Nat) (w : W64) (d : Desc) : List Byte :=
  rsvFaults w [(36, 32), (30, 0)] ++ s.descFaults c.fn false d
    ++ onFault (!(s.ownAddr g d.base && d.maskAddrs.all (s.ownAddr g))) fInstruction ++ s.rdChecks c g d.maskAddrs

/-- VMASK (spec/06 R160). -/
def execVmask (g : Cl) (w : W64) (s : State) : Out :=
  s.issue 0x65 1 g w 0 (some .vu) fun s c i =>
    let d := i.desc' (fC w)
    let as := d.maskAddrs
    let fs := s.vmaskFaults c g w d
    if !fs.isEmpty then { st := s, inst := i, faults := fs, kind := 1 } else
      let m := s.readBs ⟨c.fn, g, ordVu⟩ as
      let y := floatVal 1 d.fill
      let cv := if fld w 31 31 = 1 then toInt32 .nearest y else toFloat .nearest 0 0 y
      let keep := fun (n : Nat) => (m.1.getD (n / 8) 0).getLsbD (n % 8)
      let lanes := (List.range 256).map fun n => if keep n then i.v (fB w) n else BitVec.ofNat 32 cv.bits
      let gone := ((List.range 256).filter fun n => !keep n).map fun _ => cv
      let t := s.vuDone g c (s.freeCycles 1 3) ((i.setV (fA w) lanes).countConv gone)
      { st := t.1, inst := t.2, faults := m.2, kind := 1 }

/-! ### Sampling (spec/06 R161) -/

/-- A quotient of finite values, the divisor not 0: logit / T has no format of its own in the spec, so it is taken to far beyond
FP32 precision and never overflows (spec/06 R161, log entry 18). -/
def Val.div : Val → Val → Val
  | .fin a m e, .fin b n f => .fin (a != b) (if n = 0 then 0 else m * 2 ^ fixBits / n) (e - f - fixBits)
  | x, _ => x

/-- exp of a value that is finite or −infinity, within its bound. -/
def expFree (r : Nat) : Val → Val
  | .fin n m e => f32 (boundedFree r (expVal n m e) ((ulp32 (expVal n m e)).times 2))
  | _ => .fin false 0 0

/-- Insertion into a list ordered by descending value, ties after. -/
def insDesc (x : Val × Nat) : List (Val × Nat) → List (Val × Nat)
  | [] => [x]
  | y :: ys => if y.1.lt x.1 then x :: y :: ys else y :: insDesc x ys

/-- Insertion into a list ordered by descending probability, ties to the lower index. -/
def insProb (x : Val × Nat) : List (Val × Nat) → List (Val × Nat)
  | [] => [x]
  | y :: ys => if y.1.lt x.1 || (!x.1.lt y.1 && decide (x.2 < y.2)) then x :: y :: ys else y :: insProb x ys

/-- An equal share of 1 among n, exact where FP32 holds it. -/
def equalShare (r n : Nat) : Val :=
  let q := (Val.fin false 1 0).div (.fin false n 0)
  if (f32 (r32 q)).eqv q then q else f32 (boundedFree r q (ulp32 q))

/-- The probabilities of the kept logits, with their indices, in the order of step 3. Infinite logits share it all equally. -/
def probs (fr : Nat → Nat) (kept : List (Val × Nat)) : List (Val × Nat) :=
  let hot := kept.filter fun x => x.1 == .inf false
  let ps : List (Val × Nat) := match kept with
    | [] => []
    | top :: _ =>
      if !hot.isEmpty then
        let q := equalShare (fr 5000) hot.length
        kept.map fun x => (if x.1 == .inf false then q else .fin false 0 0, x.2)
      else
        let w := kept.zipIdx.map fun x => expFree (fr x.2) (x.1.1.add top.1.negate)
        let exact := Val.sum w
        let tot := f32 (boundedFree (fr 5000) exact (gamma8 exact))
        (w.zip kept).zipIdx.map fun x =>
          let q := x.1.1.div tot
          (if x.1.1.isZero then .fin false 0 0 else f32 (boundedFree (fr (2000 + x.2)) q (ulp32 q)), x.1.2.2)
  ps.foldl (fun l x => insProb x l) []

/-- Running sums of probabilities, rounded at each addition. -/
def runSums : Val → List Val → List Val
  | _, [] => []
  | a, x :: xs => let b := f32 (r32 (a.add x))
                  b :: runSums b xs

/-- The draw of VSAMP: lane 0, lane 1, and whether the generator stepped. `z` holds each logit after step 1 with its index;
`fr` the free values its arithmetic takes within the bounds of R76 (log entry 18). With nothing kept the generator does not step
(log entry 18). -/
def sample (fr : Nat → Nat) (k : Nat) (p : Val) (gen : W32) (z : List (Val × Nat)) : W32 × W32 × Bool :=
  let kept := ((z.filter fun x => !x.1.isNan).foldl (fun l x => insDesc x l) []).take k
  if kept.isEmpty then (0xFFFFFFFF, 0x7FC00000, false) else
    let ps := probs fr kept
    let sums := runSums (.fin false 0 0) (ps.map (·.1))
    let n := match indexOf (fun x : Val => p.le x) sums with | some j => j + 1 | none => ps.length
    let run := sums.take n
    let total := run.getLastD (.fin false 0 0)
    let u := (Val.fin false (genStep gen).toNat (-32)).mul total
    let j := match indexOf (fun x : Val => u.lt x) run with | some j => j | none => n - 1
    let x := ps.getD j (.fin false 0 0, 0)
    let q := x.1.div total
    (BitVec.ofNat 32 x.2, boundedFree (fr 5001) q (ulp32 q), true)

/-- The largest logit, ties to the lower index. -/
def largest (z : List (Val × Nat)) : Option (Val × Nat) :=
  ((z.filter fun x => !x.1.isNan).foldl (fun l x => insDesc x l) []).head?

/-- The positions of a VSAMP's logits. -/
def Desc.logits (d : Desc) : List (Option Loc) :=
  (List.range (d.ext.getD d.inner 1)).map fun n => d.along (Int.ofNat n)

/-- Faults of a VSAMP at issue (spec/06 R161). -/
def State.vsampFaults (s : State) (c : Cmd) (g : Nat) (w : W64) (i : Inst) : List Byte :=
  let d := i.desc' (fB w)
  let k := (i.s (fC w)).toNat
  let p := f32 ((i.s (fD w)).setWidth 32)
  let T := f32 ((i.s (fD w) >>> 32).setWidth 32)
  let badT := T.isNan || (T.neg && !T.isZero)
  let badP := !(Val.lt (.fin false 0 0) p && p.le (.fin false 1 0))
  rsvFaults w [(31, 0)] ++ onFault (k == 0 || decide (1024 < k) || badT || badP) fInstruction ++ s.vuReadFaults c g d d.logits
    ++ storeFaults d (cutN 256 d.logits)

/-- VSAMP (spec/06 R161). DESIGN CHOICE (log entry 18): the generator does not step where no logit is finite or +infinity. -/
def execVsamp (g : Cl) (w : W64) (s : State) : Out :=
  s.issue 0x62 1 g w 0 (some .vu) fun s c i =>
    let d := i.desc' (fB w)
    let k := (i.s (fC w)).toNat
    let pt := i.s (fD w)
    let p := f32 (pt.setWidth 32)
    let T := f32 ((pt >>> 32).setWidth 32)
    let ls := d.logits
    let fs := s.vsampFaults c g w i
    if !fs.isEmpty then { st := s, inst := i, faults := fs, kind := 1 } else
      let who : Who := ⟨c.fn, g, ordVu⟩
      let v := s.readView who d ls
      let z : List (Val × Nat) := (ls.zip v.1).zipIdx.map fun x =>
        ((match x.1.1 with | some _ => f32 (r32 (elemVal d.fmt x.1.2.1 x.1.2.2)) | none => .nan), x.2)
      let none_ := z.all fun x => x.1.isNan || x.1 == .inf true
      let r : W32 × W32 × Bool :=
        if none_ then (0xFFFFFFFF, 0x7FC00000, false)
        else if T.isZero then
          (match largest z with | some x => (BitVec.ofNat 32 x.2, 0x3F800000, false) | none => (0xFFFFFFFF, 0x7FC00000, false))
        else
          let zt := z.map fun x => ((match T with
            | .inf _ => (match x.1 with | .fin _ _ _ => Val.fin false 0 0 | _ => .nan)
            | _ => x.1.div T), x.2)
          sample s.free k p i.gen zt
      let i1 := i.setV (fA w) (r.1 :: r.2.1 :: List.replicate 254 0)
      let t := (s.cacheView who d ls).vuDone g c (s.freeCycles 1 (2 ^ 20)) { i1 with gen := if r.2.2 then genStep i.gen else i.gen }
        (feedOf 16 d (cutN 256 ls))
      { st := t.1, inst := t.2, faults := v.2, kind := 1 }

end Sys2Proof.Machine
end

