-- ==== Sys2Proof/Machine/Dispatch.lean ====
section
/-! DEFINITION. One arm per command: each calls its meaning, or rejects the command by name. -/

namespace Sys2Proof.Machine

/-- The effect of a command on everything but the queue. -/
def exec (i : Instr) (s : State) : Host.Outcome State Fault Refusal :=
  match i with
  | .nop g w => Sys2Proof.Machine.execNop g w s
  | .halt g w => Sys2Proof.Machine.execHalt g w s
  | .commit g w => Sys2Proof.Machine.execCommit g w s
  | .br g w => Sys2Proof.Machine.execBr g w s
  | .brp g w => Sys2Proof.Machine.execBrp g w s
  | .loop g w => Sys2Proof.Machine.execLoop g w s
  | .call g w => Sys2Proof.Machine.execCall g w s
  | .ret g w => Sys2Proof.Machine.execRet g w s
  | .add g w => Sys2Proof.Machine.execAdd g w s
  | .sub g w => Sys2Proof.Machine.execSub g w s
  | .mul g w => Sys2Proof.Machine.execMul g w s
  | .and g w => Sys2Proof.Machine.execAnd g w s
  | .or g w => Sys2Proof.Machine.execOr g w s
  | .xor g w => Sys2Proof.Machine.execXor g w s
  | .shl g w => Sys2Proof.Machine.execShl g w s
  | .shr g w => Sys2Proof.Machine.execShr g w s
  | .ldi g w => Sys2Proof.Machine.execLdi g w s
  | .cmp g w => Sys2Proof.Machine.execCmp g w s
  | .lds g w => Sys2Proof.Machine.execLds g w s
  | .sts g w => Sys2Proof.Machine.execSts g w s
  | .csrr g w => Sys2Proof.Machine.execCsrr g w s
  | .csrw g w => Sys2Proof.Machine.execCsrw g w s
  | .tdl g w => Sys2Proof.Machine.execTdl g w s
  | .tds g w => Sys2Proof.Machine.execTds g w s
  | .tdset g w => Sys2Proof.Machine.execTdset g w s
  | .tdoff g w => Sys2Proof.Machine.execTdoff g w s
  | .cpy g w w2 => Sys2Proof.Machine.execCpy g w w2 s
  | .cpyr g w => Sys2Proof.Machine.execCpyr g w s
  | .fill g w => Sys2Proof.Machine.execFill g w s
  | .pref g w => Sys2Proof.Machine.execPref g w s
  | .kva g w => Sys2Proof.Machine.execKva g w s
  | .kvg g w => Sys2Proof.Machine.execKvg g w s
  | .kvf g w => Sys2Proof.Machine.execKvf g w s
  | .codeHist g w => Sys2Proof.Machine.execCodeHist g w s
  | .codeTable g w => Sys2Proof.Machine.execCodeTable g w s
  | .codeEnc g w => Sys2Proof.Machine.execCodeEnc g w s
  | .opa g w w2 => Sys2Proof.Machine.execOpa g w w2 s
  | .opz g w => Sys2Proof.Machine.execOpz g w s
  | .accl g w => Sys2Proof.Machine.execAccl g w s
  | .accs g w => Sys2Proof.Machine.execAccs g w s
  | .accw g w => Sys2Proof.Machine.execAccw g w s
  | .vld g w => Sys2Proof.Machine.execVld g w s
  | .vst g w => Sys2Proof.Machine.execVst g w s
  | .vadd g w => Sys2Proof.Machine.execVadd g w s
  | .vsub g w => Sys2Proof.Machine.execVsub g w s
  | .vmul g w => Sys2Proof.Machine.execVmul g w s
  | .vmax g w => Sys2Proof.Machine.execVmax g w s
  | .vmin g w => Sys2Proof.Machine.execVmin g w s
  | .vand g w => Sys2Proof.Machine.execVand g w s
  | .vor g w => Sys2Proof.Machine.execVor g w s
  | .vxor g w => Sys2Proof.Machine.execVxor g w s
  | .vshl g w => Sys2Proof.Machine.execVshl g w s
  | .vshr g w => Sys2Proof.Machine.execVshr g w s
  | .vcmp g w => Sys2Proof.Machine.execVcmp g w s
  | .vsel g w => Sys2Proof.Machine.execVsel g w s
  | .vfma g w => Sys2Proof.Machine.execVfma g w s
  | .vsf g w => Sys2Proof.Machine.execVsf g w s
  | .vbcast g w => Sys2Proof.Machine.execVbcast g w s
  | .vred g w => Sys2Proof.Machine.execVred g w s
  | .vmrg g w => Sys2Proof.Machine.execVmrg g w s
  | .vsamp g w => Sys2Proof.Machine.execVsamp g w s
  | .vcvt g w => Sys2Proof.Machine.execVcvt g w s
  | .vperm g w => Sys2Proof.Machine.execVperm g w s
  | .vmask g w => Sys2Proof.Machine.execVmask g w s
  | .wait g w => Sys2Proof.Machine.execWait g w s
  | .waitResolve g => Sys2Proof.Machine.execWaitResolve g s
  | .sig g w => Sys2Proof.Machine.execSig g w s
  | .sigr g w => Sys2Proof.Machine.execSigr g w s
  | .signalArrival src => Sys2Proof.Machine.execSignalArrival src s
  | .bar g w => Sys2Proof.Machine.execBar g w s
  | .barArrivalMessage src tenant gang num beat => Sys2Proof.Machine.execBarArrivalMessage src tenant gang num beat s
  | .barrierRelease id scope num g => Sys2Proof.Machine.execBarrierRelease id scope num g s
  | .gate g w => Sys2Proof.Machine.execGate g w s
  | .gatePass g => Sys2Proof.Machine.execGatePass g s
  | .tickw g w => Sys2Proof.Machine.execTickw g w s
  | .tickwResolve g => Sys2Proof.Machine.execTickwResolve g s
  | .fence g w => Sys2Proof.Machine.execFence g w s
  | .fenceResolve g => Sys2Proof.Machine.execFenceResolve g s
  | .unitOperationComplete g u e => Sys2Proof.Machine.execUnitOperationComplete g u e s
  | .unassignedOpcode g w => Sys2Proof.Machine.execUnassignedOpcode g w s
  | .expanderBlockCheck g x d n => Sys2Proof.Machine.execExpanderBlockCheck g x d n s
  | .blockCrcCheck g x d n => Sys2Proof.Machine.execBlockCrcCheck g x d n s
  | .programImageLoad g => Sys2Proof.Machine.execProgramImageLoad g s
  | .sqTail f q tail => Sys2Proof.Machine.execSqTail f q tail s
  | .entryFetch f q data => Sys2Proof.Machine.execEntryFetch f q data s
  | .cqHead f q head => Sys2Proof.Machine.execCqHead f q head s
  | .abort f q v => Sys2Proof.Machine.execAbort f q v s
  | .notBeforeRelease id => Sys2Proof.Machine.execNotBeforeRelease id s
  | .commandDispatch  => Sys2Proof.Machine.execCommandDispatch  s
  | .expressDispatch  => Sys2Proof.Machine.execExpressDispatch  s
  | .deadlineExpiry id => Sys2Proof.Machine.execDeadlineExpiry id s
  | .instanceReady id g => Sys2Proof.Machine.execInstanceReady id g s
  | .commandCommit id => Sys2Proof.Machine.execCommandCommit id s
  | .ceDrainComplete id => Sys2Proof.Machine.execCeDrainComplete id s
  | .gangReadyNotice pkg tenant gang beat epoch => Sys2Proof.Machine.execGangReadyNotice pkg tenant gang beat epoch s
  | .gangCommit id => Sys2Proof.Machine.execGangCommit id s
  | .gangKillNotice pkg tenant gang cause => Sys2Proof.Machine.execGangKillNotice pkg tenant gang cause s
  | .tickRelease f q => Sys2Proof.Machine.execTickRelease f q s
  | .fnCtrlEnable f v => Sys2Proof.Machine.execFnCtrlEnable f v s
  | .negotiate f => Sys2Proof.Machine.execNegotiate f s
  | .fnReset  => Sys2Proof.Machine.execFnReset  s
  | .flr r => Sys2Proof.Machine.execFlr r s
  | .devReset cause => Sys2Proof.Machine.execDevReset cause s
  | .recover  => Sys2Proof.Machine.execRecover  s
  | .queueEnable f q v => Sys2Proof.Machine.execQueueEnable f q v s
  | .queueCheck f q => Sys2Proof.Machine.execQueueCheck f q s
  | .recoveryWindowAccess off data => Sys2Proof.Machine.execRecoveryWindowAccess off data s
  | .registerWrite f at' size v => Sys2Proof.Machine.execRegisterWrite f at' size v s
  | .map f cid va bytes p2 => Sys2Proof.Machine.execMap f cid va bytes p2 s
  | .unmap f cid va bytes => Sys2Proof.Machine.execUnmap f cid va bytes s
  | .transfer f cid va host bytes dir data => Sys2Proof.Machine.execTransfer f cid va host bytes dir data s
  | .programLoad f cid image => Sys2Proof.Machine.execProgramLoad f cid image s
  | .programDrop f cid prog => Sys2Proof.Machine.execProgramDrop f cid prog s
  | .tsetInstall f cid tset param => Sys2Proof.Machine.execTsetInstall f cid tset param s
  | .ownerInstall f cid table frame param => Sys2Proof.Machine.execOwnerInstall f cid table frame param s
  | .ownerTableSwitch t table => Sys2Proof.Machine.execOwnerTableSwitch t table s
  | .gateRegister f cid gt param => Sys2Proof.Machine.execGateRegister f cid gt param s
  | .gateSwap f cid gt param => Sys2Proof.Machine.execGateSwap f cid gt param s
  | .gateClose t gt => Sys2Proof.Machine.execGateClose t gt s
  | .layerCopyStart t gt => Sys2Proof.Machine.execLayerCopyStart t gt s
  | .layerCopyCommit t gt => Sys2Proof.Machine.execLayerCopyCommit t gt s
  | .layerCopyFail t gt => Sys2Proof.Machine.execLayerCopyFail t gt s
  | .gateHoldKill t gt => Sys2Proof.Machine.execGateHoldKill t gt s
  | .gateResume f cid gt => Sys2Proof.Machine.execGateResume f cid gt s
  | .gateUnregister f cid gt => Sys2Proof.Machine.execGateUnregister f cid gt s
  | .layoutRegister f cid layout param => Sys2Proof.Machine.execLayoutRegister f cid layout param s
  | .layoutMask f cid layout mask => Sys2Proof.Machine.execLayoutMask f cid layout mask s
  | .layoutRecode f cid layout record => Sys2Proof.Machine.execLayoutRecode f cid layout record s
  | .openContext f cid acct lay maxLen variant client tag => Sys2Proof.Machine.execOpenContext f cid acct lay maxLen variant client tag s
  | .closeContext f cid ctx => Sys2Proof.Machine.execCloseContext f cid ctx s
  | .parkContext f cid ctx => Sys2Proof.Machine.execParkContext f cid ctx s
  | .cancelContext f cid ctx flags => Sys2Proof.Machine.execCancelContext f cid ctx flags s
  | .importPages f cid ctx va count => Sys2Proof.Machine.execImportPages f cid ctx va count s
  | .importEffect f cid => Sys2Proof.Machine.execImportEffect f cid s
  | .registerPrefix f cid ctx len => Sys2Proof.Machine.execRegisterPrefix f cid ctx len s
  | .loadVariant f cid layout va count => Sys2Proof.Machine.execLoadVariant f cid layout va count s
  | .mirrorPrefix f cid pkg handle pages => Sys2Proof.Machine.execMirrorPrefix f cid pkg handle pages s
  | .retirePrefix f cid handle => Sys2Proof.Machine.execRetirePrefix f cid handle s
  | .account f cid acct rate cap weight clear => Sys2Proof.Machine.execAccount f cid acct rate cap weight clear s
  | .query f cid ctx host => Sys2Proof.Machine.execQuery f cid ctx host s
  | .share f cid tenant weight => Sys2Proof.Machine.execShare f cid tenant weight s
  | .expressCap f cid fn cap => Sys2Proof.Machine.execExpressCap f cid fn cap s
  | .contextPark ctx => Sys2Proof.Machine.execContextPark ctx s
  | .contextUnpark ctx => Sys2Proof.Machine.execContextUnpark ctx s
  | .catchupFlush ctx => Sys2Proof.Machine.execCatchupFlush ctx s
  | .contextRelease ctx => Sys2Proof.Machine.execContextRelease ctx s
  | .mergeStart ctx i0 => Sys2Proof.Machine.execMergeStart ctx i0 s
  | .mergeEffect ctx => Sys2Proof.Machine.execMergeEffect ctx s
  | .accountRefill  => Sys2Proof.Machine.execAccountRefill  s
  | .deficitUpdate  => Sys2Proof.Machine.execDeficitUpdate  s
  | .sliceChange n => Sys2Proof.Machine.execSliceChange n s
  | .ppsEdge rising off => Sys2Proof.Machine.execPpsEdge rising off s
  | .arm  => Sys2Proof.Machine.execArm  s
  | .holdoverEntry  => Sys2Proof.Machine.execHoldoverEntry  s
  | .presenceWord pkg lo hi => Sys2Proof.Machine.execPresenceWord pkg lo hi s
  | .liveSetUpdate  => Sys2Proof.Machine.execLiveSetUpdate  s
  | .portTrainingDone p ok => Sys2Proof.Machine.execPortTrainingDone p ok s
  | .ident p yard pkg port hash => Sys2Proof.Machine.execIdent p yard pkg port hash s
  | .portRetrain p => Sys2Proof.Machine.execPortRetrain p s
  | .routeUpdate down => Sys2Proof.Machine.execRouteUpdate down s
  | .linkFail p cause => Sys2Proof.Machine.execLinkFail p cause s
  | .flitReplay p => Sys2Proof.Machine.execFlitReplay p s
  | .routeWaitTimeout id => Sys2Proof.Machine.execRouteWaitTimeout id s
  | .remoteRequestArrival pkg src seq who req => Sys2Proof.Machine.execRemoteRequestArrival pkg src seq who req s
  | .fabricLoopback p ph => Sys2Proof.Machine.execFabricLoopback p ph s
  | .limiterTick avg => Sys2Proof.Machine.execLimiterTick avg s
  | .grantUpdate t0 t1 tio => Sys2Proof.Machine.execGrantUpdate t0 t1 tio s
  | .opChange r => Sys2Proof.Machine.execOpChange r s
  | .opClockSwitch r => Sys2Proof.Machine.execOpClockSwitch r s
  | .pwrCabBudget v => Sys2Proof.Machine.execPwrCabBudget v s
  | .demandReport pkg demand floor largest => Sys2Proof.Machine.execDemandReport pkg demand floor largest s
  | .cabinetDivision  => Sys2Proof.Machine.execCabinetDivision  s
  | .capApply recv => Sys2Proof.Machine.execCapApply recv s
  | .stableRegion r => Sys2Proof.Machine.execStableRegion r s
  | .wakeRegion r => Sys2Proof.Machine.execWakeRegion r s
  | .wakeDone r => Sys2Proof.Machine.execWakeDone r s
  | .droopDetect r => Sys2Proof.Machine.execDroopDetect r s
  | .droopEnd r => Sys2Proof.Machine.execDroopEnd r s
  | .thermalForce d reading => Sys2Proof.Machine.execThermalForce d reading s
  | .thermalRelease d => Sys2Proof.Machine.execThermalRelease d s
  | .voltageTrip d => Sys2Proof.Machine.execVoltageTrip d s
  | .thermtrip d reading => Sys2Proof.Machine.execThermtrip d reading s
  | .loftRequestTimeout id ch => Sys2Proof.Machine.execLoftRequestTimeout id ch s
  | .hbmRefresh ch bank act => Sys2Proof.Machine.execHbmRefresh ch bank act s
  | .loftRefresh ch rank => Sys2Proof.Machine.execLoftRefresh ch rank s
  | .patrolScrubRead loft pa res => Sys2Proof.Machine.execPatrolScrubRead loft pa res s
  | .loftRateChange  => Sys2Proof.Machine.execLoftRateChange  s
  | .loftRateChangeEnd  => Sys2Proof.Machine.execLoftRateChangeEnd  s
  | .memChRetrain mask => Sys2Proof.Machine.execMemChRetrain mask s
  | .loftRetrainDone ch ok => Sys2Proof.Machine.execLoftRetrainDone ch ok s
  | .migrationStart src dst => Sys2Proof.Machine.execMigrationStart src dst s
  | .migrationChunk src res => Sys2Proof.Machine.execMigrationChunk src res s
  | .migrationComplete src => Sys2Proof.Machine.execMigrationComplete src s
  | .frameZero frame => Sys2Proof.Machine.execFrameZero frame s
  | .accessCountHalve  => Sys2Proof.Machine.execAccessCountHalve  s
  | .segmentRetag g seg tag => Sys2Proof.Machine.execSegmentRetag g seg tag s
  | .watchdogExpiry c => Sys2Proof.Machine.execWatchdogExpiry c s
  | .stage  => Sys2Proof.Machine.execStage  s
  | .activate  => Sys2Proof.Machine.execActivate  s
  | .trialStart  => Sys2Proof.Machine.execTrialStart  s
  | .trialReady c => Sys2Proof.Machine.execTrialReady c s
  | .trialTimeout  => Sys2Proof.Machine.execTrialTimeout  s
  | .probationEnd  => Sys2Proof.Machine.execProbationEnd  s
  | .load  => Sys2Proof.Machine.execLoad  s
  | .configApply  => Sys2Proof.Machine.execConfigApply  s
  | .grmOvlNext v => Sys2Proof.Machine.execGrmOvlNext v s
  | .overlaySwitch  => Sys2Proof.Machine.execOverlaySwitch  s
  | .boot  => Sys2Proof.Machine.execBoot  s
  | .startupSelfTest res => Sys2Proof.Machine.execStartupSelfTest res s
  | .secRomLoad len => Sys2Proof.Machine.execSecRomLoad len s
  | .memoryClearDone  => Sys2Proof.Machine.execMemoryClearDone  s
  | .secOwnerArm  => Sys2Proof.Machine.execSecOwnerArm  s
  | .secOwnerDebug  => Sys2Proof.Machine.execSecOwnerDebug  s
  | .recoverNPress  => Sys2Proof.Machine.execRecoverNPress  s
  | .presenceTimeout  => Sys2Proof.Machine.execPresenceTimeout  s
  | .fnAttReq f => Sys2Proof.Machine.execFnAttReq f s
  | .attestationReport  => Sys2Proof.Machine.execAttestationReport  s
  | .wordProgram c ws => Sys2Proof.Machine.execWordProgram c ws s
  | .bufferProgram c ws => Sys2Proof.Machine.execBufferProgram c ws s
  | .sectorErase c ws => Sys2Proof.Machine.execSectorErase c ws s
  | .flashStatus c ws => Sys2Proof.Machine.execFlashStatus c ws s
  | .flashReset c addr => Sys2Proof.Machine.execFlashReset c addr s
  | .seqTimeout  => Sys2Proof.Machine.execSeqTimeout  s
  | .flashOpDone pulses ok => Sys2Proof.Machine.execFlashOpDone pulses ok s
  | .flashWindowRead c addr fetch => Sys2Proof.Machine.execFlashWindowRead c addr fetch s
  | .healthRecordWrite  => Sys2Proof.Machine.execHealthRecordWrite  s
  | .camHpd p level => Sys2Proof.Machine.execCamHpd p level s
  | .camFrameStart p vc => Sys2Proof.Machine.execCamFrameStart p vc s
  | .camLine p vc dt px hdrOk crcOk => Sys2Proof.Machine.execCamLine p vc dt px hdrOk crcOk s
  | .camFrameEnd p vc => Sys2Proof.Machine.execCamFrameEnd p vc s
  | .camSilenceTimeout s0 => Sys2Proof.Machine.execCamSilenceTimeout s0 s
  | .camPresenceTimeout s0 => Sys2Proof.Machine.execCamPresenceTimeout s0 s
  | .camPipelineRun  => Sys2Proof.Machine.execCamPipelineRun  s
  | .camDeliver n => Sys2Proof.Machine.execCamDeliver n s
  | .camSettingsWrite s0 => Sys2Proof.Machine.execCamSettingsWrite s0 s
  | .farSliceStart  => Sys2Proof.Machine.execFarSliceStart  s
  | .farSliceJudge logic memory stored => Sys2Proof.Machine.execFarSliceJudge logic memory stored s
  | .farSliceAbandon  => Sys2Proof.Machine.execFarSliceAbandon  s
  | .farReferenceCheck part ok => Sys2Proof.Machine.execFarReferenceCheck part ok s
  | .sysPwrokRise railsOk hottest => Sys2Proof.Machine.execSysPwrokRise railsOk hottest s
  | .railRecheck railsOk => Sys2Proof.Machine.execRailRecheck railsOk s
  | .sysPwrokFall  => Sys2Proof.Machine.execSysPwrokFall  s
  | .perstN level => Sys2Proof.Machine.execPerstN level s
  | .vddAonRemoved  => Sys2Proof.Machine.execVddAonRemoved  s
  | .syncRef10Change present inRange => Sys2Proof.Machine.execSyncRef10Change present inRange s
  | .loftTrainingLost ch => Sys2Proof.Machine.execLoftTrainingLost ch s
  | .busMasterEnable f v => Sys2Proof.Machine.execBusMasterEnable f v s
  | .vfEnable v => Sys2Proof.Machine.execVfEnable v s
  | .groomBackInService c => Sys2Proof.Machine.execGroomBackInService c s
  | .regulatorNotAnswering rail answers => Sys2Proof.Machine.execRegulatorNotAnswering rail answers s
  | .laneFailure p good => Sys2Proof.Machine.execLaneFailure p good s
  | .transferDone f cid => Sys2Proof.Machine.execTransferDone f cid s
  | .variantLoadEffect f cid => Sys2Proof.Machine.execVariantLoadEffect f cid s
  | .pageRecodeEffect f cid => Sys2Proof.Machine.execPageRecodeEffect f cid s

end Sys2Proof.Machine
end

