-- ==== Sys2Proof/WellFormed.lean ====
section
/-! DEFINITION. Which commands the hardware can receive. An instruction command carries a word of its own opcode (spec/05 R136) and,
for CODE, of its own mode (spec/06 R149); a host write is 1, 2, 4 or 8 bytes wide (spec/00 R8); an access through the recovery
window is 1 to 64 bytes (log entry 10). Every other operand is bounded by its type. -/

namespace Sys2Proof

open Sys2Proof.Machine

/-- The command can come from the hardware. -/
def Instr.wf : Instr → Bool
  | .nop _ w => opOf w == 0x00
  | .halt _ w => opOf w == 0x01
  | .commit _ w => opOf w == 0x02
  | .br _ w => opOf w == 0x03
  | .brp _ w => opOf w == 0x04
  | .loop _ w => opOf w == 0x05
  | .call _ w => opOf w == 0x06
  | .ret _ w => opOf w == 0x07
  | .add _ w => opOf w == 0x10
  | .sub _ w => opOf w == 0x11
  | .mul _ w => opOf w == 0x12
  | .and _ w => opOf w == 0x13
  | .or _ w => opOf w == 0x14
  | .xor _ w => opOf w == 0x15
  | .shl _ w => opOf w == 0x16
  | .shr _ w => opOf w == 0x17
  | .ldi _ w => opOf w == 0x18
  | .cmp _ w => opOf w == 0x19
  | .lds _ w => opOf w == 0x1A
  | .sts _ w => opOf w == 0x1B
  | .csrr _ w => opOf w == 0x1C
  | .csrw _ w => opOf w == 0x1D
  | .tdl _ w => opOf w == 0x20
  | .tds _ w => opOf w == 0x21
  | .tdset _ w => opOf w == 0x22
  | .tdoff _ w => opOf w == 0x23
  | .cpy _ w _ => opOf w == 0x30
  | .cpyr _ w => opOf w == 0x31
  | .fill _ w => opOf w == 0x32
  | .pref _ w => opOf w == 0x33
  | .kva _ w => opOf w == 0x34
  | .kvg _ w => opOf w == 0x35
  | .kvf _ w => opOf w == 0x36
  | .opa _ w _ => opOf w == 0x40
  | .opz _ w => opOf w == 0x41
  | .accl _ w => opOf w == 0x42
  | .accs _ w => opOf w == 0x43
  | .accw _ w => opOf w == 0x44
  | .vld _ w => opOf w == 0x50
  | .vst _ w => opOf w == 0x51
  | .vadd _ w => opOf w == 0x52
  | .vsub _ w => opOf w == 0x53
  | .vmul _ w => opOf w == 0x54
  | .vmax _ w => opOf w == 0x55
  | .vmin _ w => opOf w == 0x56
  | .vand _ w => opOf w == 0x57
  | .vor _ w => opOf w == 0x58
  | .vxor _ w => opOf w == 0x59
  | .vshl _ w => opOf w == 0x5A
  | .vshr _ w => opOf w == 0x5B
  | .vcmp _ w => opOf w == 0x5C
  | .vsel _ w => opOf w == 0x5D
  | .vfma _ w => opOf w == 0x5E
  | .vsf _ w => opOf w == 0x5F
  | .vred _ w => opOf w == 0x60
  | .vmrg _ w => opOf w == 0x61
  | .vsamp _ w => opOf w == 0x62
  | .vcvt _ w => opOf w == 0x63
  | .vperm _ w => opOf w == 0x64
  | .vmask _ w => opOf w == 0x65
  | .vbcast _ w => opOf w == 0x66
  | .wait _ w => opOf w == 0x70
  | .sig _ w => opOf w == 0x71
  | .sigr _ w => opOf w == 0x72
  | .bar _ w => opOf w == 0x73
  | .gate _ w => opOf w == 0x74
  | .tickw _ w => opOf w == 0x75
  | .fence _ w => opOf w == 0x76
  | .codeHist _ w => opOf w == 0x37 && codeMode w 0
  | .codeTable _ w => opOf w == 0x37 && codeMode w 1
  | .codeEnc _ w => opOf w == 0x37 && codeMode w 2
  | .unassignedOpcode _ w => !opListed w
  | .registerWrite _ _ size _ => size == 1 || size == 2 || size == 4 || size == 8
  | .recoveryWindowAccess _ data =>
    let n := match data with | .inl bs => bs.length | .inr k => k
    decide (0 < n) && decide (n ≤ 64)
  | .waitResolve _ => true
  | .signalArrival _ => true
  | .barArrivalMessage _ _ _ _ _ => true
  | .barrierRelease _ _ _ _ => true
  | .gatePass _ => true
  | .tickwResolve _ => true
  | .fenceResolve _ => true
  | .expanderBlockCheck _ _ _ _ => true
  | .blockCrcCheck _ _ _ _ => true
  | .programImageLoad _ => true
  | .sqTail _ _ _ => true
  | .entryFetch _ _ _ => true
  | .cqHead _ _ _ => true
  | .abort _ _ _ => true
  | .notBeforeRelease _ => true
  | .commandDispatch => true
  | .expressDispatch => true
  | .deadlineExpiry _ => true
  | .instanceReady _ _ => true
  | .commandCommit _ => true
  | .ceDrainComplete _ => true
  | .gangReadyNotice _ _ _ _ _ => true
  | .gangCommit _ => true
  | .gangKillNotice _ _ _ _ => true
  | .tickRelease _ _ => true
  | .fnCtrlEnable _ _ => true
  | .negotiate _ => true
  | .fnReset => true
  | .flr _ => true
  | .devReset _ => true
  | .recover => true
  | .queueEnable _ _ _ => true
  | .queueCheck _ _ => true
  | .map _ _ _ _ _ => true
  | .unmap _ _ _ _ => true
  | .transfer _ _ _ _ _ _ _ => true
  | .programLoad _ _ _ => true
  | .programDrop _ _ _ => true
  | .tsetInstall _ _ _ _ => true
  | .ownerInstall _ _ _ _ _ => true
  | .ownerTableSwitch _ _ => true
  | .gateRegister _ _ _ _ => true
  | .gateSwap _ _ _ _ => true
  | .gateClose _ _ => true
  | .layerCopyStart _ _ => true
  | .layerCopyCommit _ _ => true
  | .layerCopyFail _ _ => true
  | .gateHoldKill _ _ => true
  | .gateResume _ _ _ => true
  | .gateUnregister _ _ _ => true
  | .layoutRegister _ _ _ _ => true
  | .layoutMask _ _ _ _ => true
  | .layoutRecode _ _ _ _ => true
  | .openContext _ _ _ _ _ _ _ _ => true
  | .closeContext _ _ _ => true
  | .parkContext _ _ _ => true
  | .cancelContext _ _ _ _ => true
  | .importPages _ _ _ _ _ => true
  | .importEffect _ _ => true
  | .registerPrefix _ _ _ _ => true
  | .loadVariant _ _ _ _ _ => true
  | .mirrorPrefix _ _ _ _ _ => true
  | .retirePrefix _ _ _ => true
  | .account _ _ _ _ _ _ _ => true
  | .query _ _ _ _ => true
  | .share _ _ _ _ => true
  | .expressCap _ _ _ _ => true
  | .contextPark _ => true
  | .contextUnpark _ => true
  | .catchupFlush _ => true
  | .contextRelease _ => true
  | .mergeStart _ _ => true
  | .mergeEffect _ => true
  | .accountRefill => true
  | .deficitUpdate => true
  | .sliceChange _ => true
  | .ppsEdge _ _ => true
  | .arm => true
  | .holdoverEntry => true
  | .presenceWord _ _ _ => true
  | .liveSetUpdate => true
  | .portTrainingDone _ _ => true
  | .ident _ _ _ _ _ => true
  | .portRetrain _ => true
  | .routeUpdate _ => true
  | .linkFail _ _ => true
  | .flitReplay _ => true
  | .routeWaitTimeout _ => true
  | .remoteRequestArrival _ _ _ _ _ => true
  | .fabricLoopback _ _ => true
  | .limiterTick _ => true
  | .grantUpdate _ _ _ => true
  | .opChange _ => true
  | .opClockSwitch _ => true
  | .pwrCabBudget _ => true
  | .demandReport _ _ _ _ => true
  | .cabinetDivision => true
  | .capApply _ => true
  | .stableRegion _ => true
  | .wakeRegion _ => true
  | .wakeDone _ => true
  | .droopDetect _ => true
  | .droopEnd _ => true
  | .thermalForce _ _ => true
  | .thermalRelease _ => true
  | .voltageTrip _ => true
  | .thermtrip _ _ => true
  | .loftRequestTimeout _ _ => true
  | .hbmRefresh _ _ _ => true
  | .loftRefresh _ _ => true
  | .patrolScrubRead _ _ _ => true
  | .loftRateChange => true
  | .loftRateChangeEnd => true
  | .memChRetrain _ => true
  | .loftRetrainDone _ _ => true
  | .migrationStart _ _ => true
  | .migrationChunk _ _ => true
  | .migrationComplete _ => true
  | .frameZero _ => true
  | .accessCountHalve => true
  | .segmentRetag _ _ _ => true
  | .watchdogExpiry _ => true
  | .stage => true
  | .activate => true
  | .trialStart => true
  | .trialReady _ => true
  | .trialTimeout => true
  | .probationEnd => true
  | .load => true
  | .configApply => true
  | .grmOvlNext _ => true
  | .overlaySwitch => true
  | .boot => true
  | .startupSelfTest _ => true
  | .secRomLoad _ => true
  | .memoryClearDone => true
  | .secOwnerArm => true
  | .secOwnerDebug => true
  | .recoverNPress => true
  | .presenceTimeout => true
  | .fnAttReq _ => true
  | .attestationReport => true
  | .wordProgram _ _ => true
  | .bufferProgram _ _ => true
  | .sectorErase _ _ => true
  | .flashStatus _ _ => true
  | .flashReset _ _ => true
  | .seqTimeout => true
  | .flashOpDone _ _ => true
  | .flashWindowRead _ _ _ => true
  | .healthRecordWrite => true
  | .camHpd _ _ => true
  | .camFrameStart _ _ => true
  | .camLine _ _ _ _ _ _ => true
  | .camFrameEnd _ _ => true
  | .camSilenceTimeout _ => true
  | .camPresenceTimeout _ => true
  | .camPipelineRun => true
  | .camDeliver _ => true
  | .camSettingsWrite _ => true
  | .farSliceStart => true
  | .farSliceJudge _ _ _ => true
  | .farSliceAbandon => true
  | .farReferenceCheck _ _ => true
  | .sysPwrokRise _ _ => true
  | .railRecheck _ => true
  | .sysPwrokFall => true
  | .perstN _ => true
  | .vddAonRemoved => true
  | .syncRef10Change _ _ => true
  | .unitOperationComplete _ _ _ => true
  | .loftTrainingLost _ => true
  | .busMasterEnable _ _ => true
  | .vfEnable _ => true
  | .groomBackInService _ => true
  | .regulatorNotAnswering _ _ => true
  | .laneFailure _ _ => true
  | .transferDone _ _ => true
  | .variantLoadEffect _ _ => true
  | .pageRecodeEffect _ _ => true

end Sys2Proof
end

