-- ==== Sys2Proof/Safety.lean ====
section
/-! DEFINITION. What counts as a safe run of the block: every command that waits is well formed, and every memory of the state keeps
its canonical form. And the terms the statements use: when an instruction issues, how its instance goes on, and what stands still. -/

namespace Sys2Proof.Machine

/-- Every command that waits can come from the hardware. -/
def State.queueWf (s : State) : Bool := s.pending.all Instr.wf

/-- The device memory and the host memory list their bytes with rising addresses and no zero. -/
abbrev State.memWf (s : State) : Prop := Memory.wf s.mem ∧ Memory.wf s.hostMem

/-- The tables of clusters, functions, tenant spaces, contexts and accounts are in their canonical form. -/
abbrev State.tablesWf (s : State) : Prop :=
  smWf ({} : Cluster) s.clusters = true ∧ smWf ({} : FnBlk) s.fns = true ∧ smWf ({} : Tenant) s.tens = true
    ∧ smWf ({} : Ctx) s.serv.ctxs = true ∧ smWf ({} : Account) s.serv.accts = true

/-- The state of a safe run. -/
abbrev State.safe (s : State) : Prop := s.queueWf = true ∧ s.memWf ∧ s.tablesWf

/-! ### Issue -/

/-- The instance `i` of command `c` is the one that issues on cluster `g`, and word `w` of its image `ws` is next
(spec/05 R103, R109). -/
abbrev State.NextWord (s : State) (g : Cl) (w : W64) (c : Cmd) (i : Inst) (ws : List W64) : Prop :=
  s.atIssue g = some (c, i, ws) ∧ ws[i.pc]? = some w

/-- The next word issues: its guard holds (spec/05 R110). -/
abbrev State.Issues (s : State) (g : Cl) (w : W64) (c : Cmd) (i : Inst) (ws : List W64) : Prop :=
  s.NextWord g w c i ws ∧ i.guard w = true

/-- The next two words issue: the second is a second word (spec/05 R135). -/
abbrev State.Issues2 (s : State) (g : Cl) (w w2 : W64) (c : Cmd) (i : Inst) (ws : List W64) : Prop :=
  s.Issues g w c i ws ∧ ws[i.pc + 1]? = some w2 ∧ opOf w2 = 0xFE

/-- A unit of the cluster takes an operation of the command (spec/04 R84, spec/05 R109). -/
abbrev State.Room (s : State) (g : Cl) (c : Cmd) (u : UnitId) : Prop := (s.cl g).full c.xrun u = false

/-- The state with the instance of a cluster replaced; nothing else changes. -/
def State.goes (s : State) (g : Nat) (i : Inst) : State := s.modCl g fun k => k.setInst i

/-- A VU operation of `cy` VU-cycles, whose expander takes the blocks `feeds`, is queued and the instance goes on past its word; nothing else changes. -/
def State.vuGoes (s : State) (g : Nat) (c : Cmd) (cy : Nat) (i : Inst) (feeds : List Feed := []) : State :=
  (s.vuDone g c cy i feeds).1.goes g ((s.vuDone g c cy i feeds).2.advance 1)

/-- The state after the request numbered `n` of a pair was taken; nothing else changes (spec/16 R364). -/
def State.nowIn (s : State) (pair n : Nat) : State := { s with fab := { s.fab with seqIn := smPut 0 s.fab.seqIn pair (n + 1) } }

/-! ### What stands still -/

/-- All but the clusters, the pending writes, the commands, the memory controllers, the fabric and the free draws. -/
abbrev State.KeepsSystem (s t : State) : Prop :=
  t.pending = s.pending ∧ t.mem = s.mem ∧ t.hostMem = s.hostMem ∧ t.fns = s.fns ∧ t.tens = s.tens ∧ t.serv = s.serv
    ∧ t.sched = s.sched ∧ t.tim = s.tim ∧ t.glb = s.glb ∧ t.pwr = s.pwr ∧ t.grm = s.grm ∧ t.sec = s.sec ∧ t.fls = s.fls
    ∧ t.cam = s.cam ∧ t.far = s.far ∧ t.board = s.board ∧ t.latch = s.latch

/-- Every cluster but one is as it was. -/
def State.KeepsClusters (s t : State) (g : Nat) : Prop := ∀ h, h ≠ g → t.cl h = s.cl h

end Sys2Proof.Machine
end

