-- ==== Sys2Proof/Certificates/Slice0/Obligations.lean ====
section
/-! DEFINITION. What is claimed of the machine: the results and frames of its commands, when they complete, the promises the spec
makes about the whole package, and the invariants every step keeps. -/

open Sys2Proof Sys2Proof.Machine

/-! ### Program instructions: results and frames -/

/-- The result of one of the eight arithmetic and logic instructions of opcode `op`, whose field D may hold up to `d` in the register
form; `f` answers the result of (word, first operand, second operand) (spec/06 R142). Nothing else in the package changes. -/
def Sys2Proof.Claims.AluResult (op d : Nat) (mk : Cl → W64 → Instr) (f : W64 → W64 → W64 → W64) : Prop :=
  ∀ (s : State) (g : Cl) (w : W64) (c : Cmd) (i : Inst) (ws : List W64),
    s.Issues g w c i ws → opOf w = op → aluFaults w d = [] →
    exec (mk g w) s = .next (s.goes g ((i.setS (fA w) (f w (i.s (fB w)) (i.opB w))).advance 1))

/-- ADD, SUB, MUL, AND, OR, XOR, SHL and SHR in the register and the immediate form (spec/06 R142): register A takes the result,
the instance goes on by one word, and nothing else in the package changes. -/
def Obligations.ScalarArithmeticResult : Prop :=
  Claims.AluResult 0x10 0 .add (fun _ a b => a + b)
  ∧ Claims.AluResult 0x11 0 .sub (fun _ a b => a - b)
  ∧ Claims.AluResult 0x12 0 .mul (fun _ a b => a * b)
  ∧ Claims.AluResult 0x13 0 .and (fun _ a b => a &&& b)
  ∧ Claims.AluResult 0x14 0 .or (fun _ a b => a ||| b)
  ∧ Claims.AluResult 0x15 0 .xor (fun _ a b => a ^^^ b)
  ∧ Claims.AluResult 0x16 0 .shl (fun _ a b => a <<< (b.toNat % 64))
  ∧ Claims.AluResult 0x17 1 .shr (fun w a b =>
      if fD w = 1 then a.sshiftRight (b.toNat % 64) else a >>> (b.toNat % 64))

/-- LDI, CMP, CSRR and CSRW (spec/06 R143, R144, R146, spec/05 R108): the named register, predicate or seed takes its value, and
nothing else changes but the free draw that CSR CYCLE takes and the CYCLE last read. A write to p0 is discarded; a zero seed is stored as 1. -/
def Obligations.MoveAndCompareResult : Prop :=
  ∀ (s : State) (g : Cl) (w : W64) (c : Cmd) (i : Inst) (ws : List W64), s.Issues g w c i ws →
    (opOf w = 0x18 → fld w 46 33 = 0 → exec (.ldi g w) s = .next (s.goes g ((i.setS (fA w)
      (if fld w 32 32 = 1 then BitVec.ofNat 64 (low w * 2 ^ 32 + (i.s (fA w)).toNat % 2 ^ 32)
       else BitVec.ofInt 64 (sext 32 (low w)))).advance 1)))
    ∧ (∀ b, opOf w = 0x19 → fld w 48 47 = 0 → fld w 32 32 = 0 → (if fld w 31 31 = 1 then fC w = 0 else fld w 30 0 = 0) →
        condInt (fld w 36 33) (i.s (fB w)) (i.opB w) = some b →
        exec (.cmp g w) s = .next (s.goes g ((i.setP (fld w 51 49) b).advance 1)))
    ∧ (∀ x, opOf w = 0x1C → fld w 46 12 = 0 → s.csr c g i (fld w 11 0) = some x →
        exec (.csrr g w) s = .next ((if fld w 11 0 = 0x012 then s.bump else s).goes g
          (((if fld w 11 0 = 0x012 then { i with cycle := s.cyclesOf g i } else i).setS (fA w) x).advance 1)))
    ∧ (opOf w = 0x1D → fld w 46 0 = 0 → exec (.csrw g w) s = .next (s.goes g (Inst.advance
        { i with gen := if (i.s (fA w)).setWidth 32 = (0 : W32) then 1 else (i.s (fA w)).setWidth 32 } 1)))
    ∧ (∀ b, i.setP 0 b = i)

/-- LDS and TDL read the argument memory or the own buffer; STS and TDS have their bytes accepted by the own buffer at the
address the instruction computes, little-endian (spec/06 R145, R147, spec/00 R12). Nothing else changes. -/
def Sys2Proof.Claims.ScalarLoadStoreResult : Prop :=
  ∀ (s : State) (g : Cl) (w : W64) (c : Cmd) (i : Inst) (ws : List W64), s.Issues g w c i ws →
    (opOf w = 0x1A → rsvFaults w [(41, 37), (31, 31), (29, 24)] = [] → s.eaFaults c g w i (2 ^ fld w 33 32) false = [] →
      exec (.lds g w) s = .next (s.bump.goes g ((i.setS (fA w)
        (if fld w 30 30 = 1 then BitVec.ofInt 64 (sext (8 * 2 ^ fld w 33 32) (leNat (s.eaRead g w i (2 ^ fld w 33 32))))
         else BitVec.ofNat 64 (leNat (s.eaRead g w i (2 ^ fld w 33 32))))).advance 1)))
    ∧ (opOf w = 0x1B → rsvFaults w [(41, 37), (31, 24)] = [] → s.eaFaults c g w i (2 ^ fld w 33 32) true = [] →
      exec (.sts g w) s = .next ((s.accept g wSts 0 c.id (byteWrites (cbAddr g (i.ea w))
        (leBytes (2 ^ fld w 33 32) (i.s (fA w)).toNat))).goes g (i.advance 1)))
    ∧ (opOf w = 0x20 → rsvFaults w [(41, 37), (33, 24)] = [] → s.eaFaults c g w i 32 false = [] →
      exec (.tdl g w) s = .next (s.bump.goes g
        ((i.setT (fA w) (BitVec.ofNat 256 (leNat (s.eaRead g w i 32)))).advance 1)))
    ∧ (opOf w = 0x21 → rsvFaults w [(41, 37), (33, 24)] = [] → s.eaFaults c g w i 32 true = [] →
      exec (.tds g w) s = .next ((s.accept g wSts 0 c.id (byteWrites (cbAddr g (i.ea w))
        (leBytes 32 (smGet 0 i.desc (fA w)).toNat))).goes g (i.advance 1)))

/-- TDSET writes one field of a descriptor register, TDOFF one of its offsets, set or added modulo 2³² (spec/06 R147, R148). -/
def Sys2Proof.Claims.DescriptorFieldResult : Prop :=
  ∀ (s : State) (g : Cl) (w : W64) (c : Cmd) (i : Inst) (ws : List W64), s.Issues g w c i ws →
    (∀ p n, opOf w = 0x22 → fld w 41 8 = 0 → tdField (fld w 7 0) = some (p, n) → (i.s (fB w)).toNat < 2 ^ n →
      exec (.tdset g w) s = .next (s.goes g (Inst.advance
        { i with desc := smMod 0 i.desc (fA w) fun d => putBits d (p + n - 1) p (i.s (fB w)).toNat } 1)))
    ∧ (opOf w = 0x23 → fld w 41 4 = 0 → fld w 2 0 ≤ 4 →
      exec (.tdoff g w) s = .next (s.goes g (Inst.advance
        { i with offs := smMod 0 i.offs (8 * fA w + fld w 2 0) fun o =>
            if fld w 3 3 = 1 then o + (i.s (fB w)).setWidth 32 else (i.s (fB w)).setWidth 32 } 1)))

/-- Scalar loads and stores, and the writes of one field of a descriptor register or of an offset (spec/06 R145, R147, R148). -/
def Obligations.LoadStoreAndDescriptorResult : Prop := Claims.ScalarLoadStoreResult ∧ Claims.DescriptorFieldResult

/-- NOP, BR, BRP, LOOP, CALL and RET (spec/06 R140, R141): where the instance goes on, and its loop and call stacks. A body whose
last word is a CALL ends when that call returns, and a body that has turns left runs again from its first word. -/
def Obligations.ControlFlowResult : Prop :=
  ∀ (s : State) (g : Cl) (w : W64) (c : Cmd) (i : Inst) (ws : List W64), s.NextWord g w c i ws → fld w 55 52 = 0 →
    (opOf w = 0x00 → fld w 51 0 = 0 → exec (.nop g w) s = .next (s.goes g (i.advance 1)))
    ∧ (opOf w = 0x03 → fld w 51 32 = 0 → exec (.br g w) s = .next (s.goes g (i.jump (targetOf i.pc (low w)))))
    ∧ (opOf w = 0x04 → fld w 47 32 = 0 → exec (.brp g w) s = .next (s.goes g
        (if i.predOf (fld w 51 49) != (fld w 48 48 == 1) then i.jump (targetOf i.pc (low w)) else i.advance 1)))
    ∧ (∀ x, opOf w = 0x05 → fld w 46 12 = 0 → i.loops.length < 4 → 1 ≤ (i.s (fA w)).toNat → (i.s (fA w)).toNat < 2 ^ 32 →
        ws[i.pc + 1 + fld w 11 0]? = some x → opOf x ≠ 0x40 → opOf x ≠ 0x30 →
        exec (.loop g w) s = .next (s.goes g { i with pc := i.pc + 1, loops :=
          { first := i.pc + 1, last := i.pc + 1 + fld w 11 0, left := (i.s (fA w)).toNat } :: i.loops }))
    ∧ (opOf w = 0x06 → fld w 51 32 = 0 → i.calls.length < 8 → exec (.call g w) s = .next (s.goes g
        { i with pc := targetOf i.pc (low w), calls := (i.pc + 1, i.loops.length) :: i.calls }))
    ∧ (∀ pc d cs r, opOf w = 0x07 → fld w 51 0 = 0 → i.calls = (pc, d) :: cs →
        r = closeLoops pc (i.loops.drop (i.loops.length - d)) → exec (.ret g w) s = .next (s.goes g
        { i with pc := r.1, calls := cs, loops := r.2 }))
    ∧ (∀ l ls, 1 < l.left → closeLoops (l.last + 1) (l :: ls) = (l.first, { l with left := l.left - 1 } :: ls))

/-- A fault of FAULT_INSTRUCTION at the sequencer of cluster g, latched for a command. -/
def Sys2Proof.Claims.latched (s : State) (c : Cmd) (g : Nat) : State :=
  (s.latchFault c.id { cl := g, code := fInstruction, slot := none, loc := s.loc g 3 0 }).bump

/-- How an instance ends (spec/05 R113, R116, R117, R132, R136): COMMIT ends issue; HALT kills the command, which completes
ABORTED; an unassigned opcode is a FAULT_INSTRUCTION of the sequencer. -/
def Obligations.InstanceEndResult : Prop :=
  ∀ (s : State) (g : Cl) (w : W64) (c : Cmd) (i : Inst) (ws : List W64), s.NextWord g w c i ws →
    (opOf w = 0x02 → fld w 55 52 = 0 → fld w 51 0 = 0 → ((s.cl g).asm.any fun a => a.2.isSome) = false →
      exec (.commit g w) s = .next (s.goes g { i with done := true, calls := [], loops := [] }))
    ∧ (opOf w = 0x01 → fld w 55 52 = 0 → fld w 51 0 = 0 →
      exec (.halt g w) s = .next ((s.killEnd c stAborted true).goes g i))
    ∧ (opListed w = false → opOf w ≠ 0x37 →
      exec (.unassignedOpcode g w) s = .next (Claims.latched s c g))

/-- A word of a guarded instruction whose guard is false only advances the instance, whatever its fields hold (spec/05 R110). -/
def Sys2Proof.Claims.FalseGuardOnlyAdvances : Prop :=
  ∀ (s : State) (g : Cl) (w : W64) (c : Cmd) (i : Inst) (ws : List W64), s.NextWord g w c i ws → i.guard w = false →
    0x10 ≤ opOf w → opListed w = true → exec (issueCommand g w (ws.getD (i.pc + 1) 0)) s =
      .next (s.goes g (i.advance (if opOf w = 0x40 ∨ opOf w = 0x30 then 2 else 1)))

/-- A set bit that the encoding of an arithmetic instruction of opcode `op` reserves is a FAULT_INSTRUCTION. -/
def Sys2Proof.Claims.AluFault (op d : Nat) (mk : Cl → W64 → Instr) : Prop :=
  ∀ (s : State) (g : Cl) (w : W64) (c : Cmd) (i : Inst) (ws : List W64),
    s.Issues g w c i ws → opOf w = op → aluFaults w d ≠ [] →
    exec (mk g w) s = .next (Claims.latched s c g)

/-- A set bit that the encoding of an arithmetic instruction reserves is a FAULT_INSTRUCTION at the sequencer of its cluster, latched
for its command (spec/06 R137, spec/05 R117, R133). -/
def Sys2Proof.Claims.ReservedBitFaults : Prop :=
  Claims.AluFault 0x10 0 .add ∧ Claims.AluFault 0x11 0 .sub ∧ Claims.AluFault 0x12 0 .mul ∧ Claims.AluFault 0x13 0 .and
  ∧ Claims.AluFault 0x14 0 .or ∧ Claims.AluFault 0x15 0 .xor ∧ Claims.AluFault 0x16 0 .shl ∧ Claims.AluFault 0x17 1 .shr

/-- A command with latched faults ends as a beat passes, with the first latched on the lowest cluster, and the command issues nothing
more on a cluster that faulted (spec/05 R117). -/
def Sys2Proof.Claims.LatchedFaultEnds : Prop :=
  (∀ (s : State) (c : Cmd) (r : FaultRec) (rs : List FaultRec), s.cmd c.id = some c → c.st = .running → c.faults = r :: rs →
    (∀ d ∈ s.cmds.list, d.id ≠ c.id → d.faults = []) →
    s.endFaulted = s.faultCmd c (firstFault r rs).code (firstFault r rs).slot (firstFault r rs).loc true)
  ∧ (∀ (r : FaultRec) (rs : List FaultRec), firstFault r rs ∈ r :: rs ∧ ∀ x ∈ r :: rs, (firstFault r rs).cl ≤ x.cl)
  ∧ (∀ (s : State) (c : Cmd) (g : Cl) (i : Inst), (s.cl g).issuing = some i → s.cmd i.cmd = some c →
      (c.faults.any fun r => r.cl == g.val) = true → s.atIssue g = none)

/-- A false guard, a reserved bit, and what a latched fault does (spec/05 R110, R117, R133, spec/06 R137). -/
def Obligations.GuardAndReservedBits : Prop :=
  Claims.FalseGuardOnlyAdvances ∧ Claims.ReservedBitFaults ∧ Claims.LatchedFaultEnds

/-- The result of an elementwise vector instruction of opcode `op` with reserved bits `rsv`; `f` answers the lane of (word, first
lane, second lane) (spec/06 R156). One VU-cycle, and nothing else changes. -/
def Sys2Proof.Claims.LaneResult (op : Nat) (rsv : List (Nat × Nat)) (mk : Cl → W64 → Instr) (f : W64 → W32 → W32 → W32) : Prop :=
  ∀ (s : State) (g : Cl) (w : W64) (c : Cmd) (i : Inst) (ws : List W64),
    s.Issues g w c i ws → s.Room g c .vu → opOf w = op → rsvFaults w rsv = [] →
    exec (mk g w) s = .next (s.vuGoes g c 1
      (i.setV (fA w) (((i.vL (fB w)).zip (i.vB w)).map fun p => f w p.1 p.2)))

/-- VADD, VSUB, VMUL, VMAX, VMIN, VAND, VOR, VXOR, VSHL and VSHR on 256 lanes, the second operand a register or a broadcast
s register (spec/06 R156). -/
def Obligations.ElementwiseVectorResult : Prop :=
  Claims.LaneResult 0x52 vewRsv .vadd (fun w a b => if fld w 31 31 = 1 then a + b else fadd a b)
  ∧ Claims.LaneResult 0x53 vewRsv .vsub (fun w a b => if fld w 31 31 = 1 then a - b else fsub a b)
  ∧ Claims.LaneResult 0x54 vewRsv .vmul (fun w a b => if fld w 31 31 = 1 then a * b else fmul a b)
  ∧ Claims.LaneResult 0x55 vewRsv .vmax (fun w a b =>
      if fld w 31 31 = 1 then (if a.toInt < b.toInt then b else a) else fmax a b)
  ∧ Claims.LaneResult 0x56 vewRsv .vmin (fun w a b =>
      if fld w 31 31 = 1 then (if b.toInt < a.toInt then b else a) else fmin a b)
  ∧ Claims.LaneResult 0x57 vewRsv .vand (fun _ a b => a &&& b)
  ∧ Claims.LaneResult 0x58 vewRsv .vor (fun _ a b => a ||| b)
  ∧ Claims.LaneResult 0x59 vewRsv .vxor (fun _ a b => a ^^^ b)
  ∧ Claims.LaneResult 0x5A vewRsv .vshl (fun _ a b => a <<< (b.toNat % 32))
  ∧ Claims.LaneResult 0x5B [(36, 32), (29, 1)] .vshr (fun w a b =>
      if fld w 0 0 = 1 then a.sshiftRight (b.toNat % 32) else a >>> (b.toNat % 32))

/-- VCMP, VSEL, VFMA, VSF, VBCAST, VRED, VPERM by index and VCVT of a format without blocks: the destination's lanes
(spec/06 R156-R158, R160). The value of VSF inside its bound and the order of a float sum are free. -/
def Obligations.VectorRegisterResult : Prop :=
  ∀ (s : State) (g : Cl) (w : W64) (c : Cmd) (i : Inst) (ws : List W64), s.Issues g w c i ws → s.Room g c .vu →
    (opOf w = 0x5C → rsvFaults w [(32, 32), (29, 0)] = [] → fld w 36 33 ≤ (if fld w 31 31 = 1 then 9 else 5) →
      exec (.vcmp g w) s = .next (s.vuGoes g c 1 (i.setV (fA w) (((i.vL (fB w)).zip (i.vB w)).map fun p =>
        if (if fld w 31 31 = 1 then condInt (fld w 36 33) p.1 p.2 else condF32 (fld w 36 33) p.1 p.2) = some true
        then 0xFFFFFFFF else 0))))
    ∧ (opOf w = 0x5D → fld w 31 0 = 0 → exec (.vsel g w) s = .next (s.vuGoes g c 1 (i.setV (fA w)
      ((List.range 256).map fun n => if i.v (fD w) n ≠ 0 then i.v (fB w) n else i.v (fC w) n))))
    ∧ (opOf w = 0x5E → fld w 31 0 = 0 → exec (.vfma g w) s = .next (s.vuGoes g c 1 (i.setV (fA w)
      ((List.range 256).map fun n => ffma (i.v (fB w) n) (i.v (fC w) n) (i.v (fD w) n)))))
    ∧ (opOf w = 0x5F → fld w 41 3 = 0 → fld w 2 0 ≤ 4 → exec (.vsf g w) s = .next (s.vuGoes g c 1 (i.setV (fA w)
      ((i.vL (fB w)).zipIdx.map fun x => specialLane (fld w 2 0) (s.free x.2) x.1))))
    ∧ (opOf w = 0x66 → rsvFaults w [(41, 16), (7, 1)] = [] → exec (.vbcast g w) s = .next (s.vuGoes g c 1 (i.setV (fA w)
      (List.replicate 256 (if fld w 0 0 = 1 then i.v (fB w) (fld w 15 8) else (i.s (fB w)).setWidth 32)))))
    ∧ (∀ r, opOf w = 0x60 → rsvFaults w [(41, 32), (30, 12), (9, 9)] = [] → 1 ≤ fld w 8 0 → fld w 8 0 ≤ 256 →
        fld w 11 10 ≠ 3 →
        r = (let xs := (i.vL (fB w)).take (fld w 8 0)
             match fld w 11 10, fld w 31 31 == 1 with
             | 0, true => xs.foldl (· + ·) 0
             | 0, false => sumLanes (s.free 0) xs
             | 1, true => xs.foldl imax (xs.headD 0)
             | 1, false => xs.foldl fmax (xs.headD 0)
             | _, true => xs.foldl imin (xs.headD 0)
             | _, false => xs.foldl fmin (xs.headD 0)) →
        exec (.vred g w) s = .next (s.vuGoes g c 1 (i.setV (fA w) (r :: List.replicate 255 0))))
    ∧ (opOf w = 0x64 → fld w 36 0 = 0 → exec (.vperm g w) s = .next (s.vuGoes g c 1 (i.setV (fA w)
      ((i.vL (fC w)).map fun x => i.v (fB w) (x.toNat % 256)))))
    ∧ (∀ cs, opOf w = 0x63 → rsvFaults w [(41, 32), (30, 6)] = [] → fld w 3 0 ≤ 9 → fld w 5 4 ≠ 3 →
        cs = ((i.vL (fB w)).map fun x => toFmt .nearest (fld w 3 0) (fld w 5 4) (if fld w 31 31 = 1 then i32 x else f32 x)) →
        exec (.vcvt g w) s = .next (s.vuGoes g c 1 ((i.setV (fA w) (cs.map fun c =>
          if fmtInt (fld w 3 0) then BitVec.ofInt 32 (sext (fmtWidth (fld w 3 0)) c.bits)
          else r32 (elemVal (fld w 3 0) c.bits 0))).countConv cs)))

/-- VMRG (spec/06 R159): a row whose two maxima are minus infinity keeps its lanes and its maximum; the new maximum of any other row
is the larger of the two; and no register but the two it writes changes. -/
def Sys2Proof.Claims.VmrgRows : Prop :=
  ∀ (s : State) (g : Cl) (w : W64) (c : Cmd) (i : Inst) (ws : List W64), s.Issues g w c i ws → s.Room g c .vu →
    opOf w = 0x61 → fld w 31 3 = 0 → fA w ≠ fC w → smWf 0 i.vreg = true →
    ∃ j, exec (.vmrg g w) s = .next (s.vuGoes g c (s.freeCycles 1 1) j)
      ∧ (∀ r, r < 256 / 2 ^ (fld w 2 0 + 1) → j.v (fC w) (2 * r) =
          (if i.v (fC w) (2 * r) = 0xFF800000 ∧ i.v (fD w) (2 * r) = 0xFF800000 then 0xFF800000
           else fmax (i.v (fC w) (2 * r)) (i.v (fD w) (2 * r))))
      ∧ (∀ n r, n < 256 → r = n / 2 ^ (fld w 2 0 + 1) → i.v (fC w) (2 * r) = 0xFF800000 → i.v (fD w) (2 * r) = 0xFF800000 →
          j.v (fA w) n = i.v (fA w) n)
      ∧ (∀ v n, n < 256 → v ≠ fA w → v ≠ fC w → j.v v n = i.v v n)

/-- The merge of one row of partials by VMRG: whether it is left unchanged, its maximum, its sum, and the factors of the two outputs;
`fr` the free values within the bounds of the exponentials and in the rounding of the sums (spec/06 R159, log entry 18). -/
def Sys2Proof.Claims.vmrgRow (fr : Nat → Nat) (i : Inst) (w : W64) (r : Nat) : Bool × W32 × W32 × W32 × W32 :=
  let m := fmax (i.v (fC w) (2 * r)) (i.v (fD w) (2 * r))
  let a1 := expLane (fr (4 * r)) (fsub (i.v (fC w) (2 * r)) m)
  let a2 := expLane (fr (4 * r + 1)) (fsub (i.v (fD w) (2 * r)) m)
  (i.v (fC w) (2 * r) == 0xFF800000 && i.v (fD w) (2 * r) == 0xFF800000, m,
    mergeSum (fr (4 * r + 2)) (i.v (fC w) (2 * r + 1)) a1 (i.v (fD w) (2 * r + 1)) a2, a1, a2)

/-- VMRG completes where field A names another register than field C (spec/06 R159): each output lane of a merged row is o₁ × a₁ +
o₂ × a₂, each merged row's maximum and sum replace those of register C, and every other lane stays. -/
def Sys2Proof.Claims.VmrgResult : Prop :=
  ∀ (s : State) (g : Cl) (w : W64) (c : Cmd) (i : Inst) (ws : List W64), s.Issues g w c i ws → s.Room g c .vu →
    opOf w = 0x61 → fld w 31 3 = 0 → fA w ≠ fC w →
    ∃ o st, exec (.vmrg g w) s = .next (s.vuGoes g c (s.freeCycles 1 1) ((i.setV (fA w) o).setV (fC w) st))
      ∧ o.length = 256 ∧ st.length = 256
      ∧ (∀ n q, n < 256 → q = Claims.vmrgRow s.free i w (n / 2 ^ (fld w 2 0 + 1)) → o.getD n 0 =
          if q.1 then i.v (fA w) n else mergeSum (s.free (1024 + n)) (i.v (fA w) n) q.2.2.2.1 (i.v (fB w) n) q.2.2.2.2)
      ∧ (∀ r q, r < 256 / 2 ^ (fld w 2 0 + 1) → q = Claims.vmrgRow s.free i w r →
          st.getD (2 * r) 0 = (if q.1 then i.v (fC w) (2 * r) else q.2.1)
          ∧ st.getD (2 * r + 1) 0 = if q.1 then i.v (fC w) (2 * r + 1) else q.2.2.1)
      ∧ (∀ n, n < 256 → 256 / 2 ^ (fld w 2 0 + 1) ≤ n / 2 → st.getD n 0 = i.v (fC w) n)
/-- VLD, VPERM gathering, VMASK and VST where their checks and accesses meet no fault (spec/06 R157, R160, spec/07 R175, R176):
lanes are the widened elements, or the masked lanes with the fill value; VST has its elements' bits accepted at the addresses
the view gives. Memory stays as it is until writes land. -/
def Obligations.VectorMemoryResult : Prop :=
  ∀ (s : State) (g : Cl) (w : W64) (c : Cmd) (i : Inst) (ws : List W64), s.Issues g w c i ws → s.Room g c .vu →
    (∀ d v, opOf w = 0x50 → d = i.desc' (fB w) → v = s.readView ⟨c.fn, g, ordVu⟩ d d.run → fld w 41 0 = 0 →
      s.vuReadFaults c g d d.run = [] → storeFaults d (cutN 256 d.run) = [] → v.2 = [] →
      exec (.vld g w) s = .next ((s.cacheView ⟨c.fn, g, ordVu⟩ d d.run).vuGoes g c (s.freeCycles 1 4096)
        (i.setV (fA w) (v.1.map (widen d.fmt))) (feedOf 16 d (cutN 256 d.run))))
    ∧ (∀ d ls v, opOf w = 0x64 → d = i.desc' (fB w) → ls = (i.vL (fC w)).map (fun x => d.along x.toInt) →
      v = s.readView ⟨c.fn, g, ordVu⟩ d ls → fld w 36 1 = 0 → fld w 0 0 = 1 →
      s.vuReadFaults c g d ls = [] → storeFaults d (cutN 16 ls) = [] → v.2 = [] →
      exec (.vperm g w) s = .next ((s.cacheView ⟨c.fn, g, ordVu⟩ d ls).vuGoes g c (s.freeCycles 16 240)
        (i.setV (fA w) (v.1.map (widen d.fmt))) (feedOf 16 d (cutN 16 ls))))
    ∧ (∀ d m, opOf w = 0x65 → d = i.desc' (fC w) → s.vmaskFaults c g w d = [] →
      m = s.readBs ⟨c.fn, g, ordVu⟩ d.maskAddrs → m.2 = [] →
      ∃ t j, exec (.vmask g w) s = .next t ∧ t = (s.push g c .vu [] 0 none (0, 0)).bump.goes g j
        ∧ j.pc = (i.advance 1).pc ∧ j.vreg = (i.setV (fA w) ((List.range 256).map fun n =>
            if (m.1.getD (n / 8) 0).getLsbD (n % 8) then i.v (fB w) n
            else if fld w 31 31 = 1 then BitVec.ofNat 32 (toInt32 .nearest (floatVal 1 d.fill)).bits
            else r32 (floatVal 1 d.fill))).vreg)
    ∧ (∀ d kept, opOf w = 0x51 → d = i.desc' (fB w) → s.vstFaults c g w d = [] →
      kept = ((d.run.zip (i.vL (fA w))).filterMap fun p => p.1.map fun l => (l, if fmtInt d.fmt then i32 p.2 else f32 p.2)) →
      (s.placeWrites c.fn g ((convertTo d (fld w 1 0) (fun _ => .nearest) kept).1.flatMap fun x => d.elWrites x.1 x.2)).2 = [] →
      ∃ t j, exec (.vst g w) s = .next t ∧ t = ((s.accept g wVst s.cmds.nextOp c.id (s.placeWrites c.fn g
          ((convertTo d (fld w 1 0) (fun _ => .nearest) kept).1.flatMap fun x => d.elWrites x.1 x.2)).1).push g c .vu [] 0 none
            (0, 0)).bump.goes g j
        ∧ j.pc = (i.advance 1).pc ∧ j.vreg = i.vreg ∧ j.sreg = i.sreg)

/-- VSAMP (spec/06 R161) where its checks and reads meet no fault: with no logit above minus infinity lane 0 is 0xFFFFFFFF and lane
1 a NaN; at temperature 0 lane 0 is the largest logit's index and lane 1 is 1.0; neither steps the generator. Lanes from 2 up
are 0. Otherwise the two lanes are those of one draw over the scaled logits, whose arithmetic takes free values within its bounds. -/
def Sys2Proof.Claims.VsampResult : Prop :=
  ∀ (s : State) (g : Cl) (w : W64) (c : Cmd) (i : Inst) (ws : List W64) (d : Desc) (v : List El × List Byte)
      (z : List (Val × Nat)),
    s.Issues g w c i ws → s.Room g c .vu → opOf w = 0x62 → s.vsampFaults c g w i = [] → d = i.desc' (fB w) →
    v = s.readView ⟨c.fn, g, ordVu⟩ d d.logits → v.2 = [] →
    z = ((d.logits.zip v.1).zipIdx.map fun x =>
      ((match x.1.1 with | some _ => f32 (r32 (elemVal d.fmt x.1.2.1 x.1.2.2)) | none => .nan), x.2)) →
    ∃ t j a b, exec (.vsamp g w) s = .next t
      ∧ t = ((s.cacheView ⟨c.fn, g, ordVu⟩ d d.logits).push g c .vu [] 0 none (0, 0) (feedOf 16 d (cutN 256 d.logits))).bump.goes g j
      ∧ j.pc = (i.advance 1).pc ∧ j.sreg = i.sreg ∧ j.pred = i.pred
      ∧ j.vreg = (i.setV (fA w) (a :: b :: List.replicate 254 0)).vreg
      ∧ ((z.all fun x => x.1.isNan || x.1 == .inf true) = true → a = 0xFFFFFFFF ∧ b = 0x7FC00000 ∧ j.gen = i.gen)
      ∧ ((z.all fun x => x.1.isNan || x.1 == .inf true) = false → (f32 ((i.s (fD w) >>> 32).setWidth 32)).isZero = true →
          ∀ x, largest z = some x → a = BitVec.ofNat 32 x.2 ∧ b = 0x3F800000 ∧ j.gen = i.gen)
      ∧ (∀ r, (z.all fun x => x.1.isNan || x.1 == .inf true) = false → (f32 ((i.s (fD w) >>> 32).setWidth 32)).isZero = false →
          r = sample s.free (i.s (fC w)).toNat (f32 ((i.s (fD w)).setWidth 32)) i.gen (z.map fun x =>
            ((match f32 ((i.s (fD w) >>> 32).setWidth 32) with
              | .inf _ => (match x.1 with | .fin _ _ _ => Val.fin false 0 0 | _ => .nan)
              | T => x.1.div T), x.2)) →
          a = r.1 ∧ b = r.2.1 ∧ j.gen = if r.2.2 then genStep i.gen else i.gen)

/-- What a draw of VSAMP answers (spec/06 R161): the index of a logit that is a number, or, with nothing kept, 0xFFFFFFFF. -/
def Sys2Proof.Claims.SampleDraws : Prop :=
  ∀ (fr : Nat → Nat) (k : Nat) (p : Val) (gen : W32) (z : List (Val × Nat)),
    (sample fr k p gen z).1 = 0xFFFFFFFF ∨ ∃ x ∈ z, x.1.isNan = false ∧ (sample fr k p gen z).1 = BitVec.ofNat 32 x.2

/-- VMRG and VSAMP (spec/06 R159, R161). -/
def Obligations.MergeAndSampleResult : Prop :=
  Claims.VmrgRows ∧ Claims.VmrgResult ∧ Claims.VsampResult ∧ Claims.SampleDraws

/-- OPZ, ACCW and ACCL (spec/04 R95, spec/07 R176): the bank they name is zeroed and typed, takes four rows of a VU register, or
takes a region of converted elements; it is marked initialised for the command and the operation enters its ME's queue. -/
def Obligations.BankLoadResult : Prop :=
  ∀ (s : State) (g : Cl) (w : W64) (c : Cmd) (i : Inst) (ws : List W64), s.Issues g w c i ws → s.Room g c (meOf w) →
    (opOf w = 0x41 → fld w 46 1 = 0 → smWf ({} : Bank) (s.cl g).banks = true →
      ∃ t, exec (.opz g w) s = .next t
        ∧ t = ((s.modCl g fun k => k.setBank (meNo w) (bankNo w) { int := fld w 0 0 == 1, tenant := c.fn }).pushMe g c (meNo w)
            (bankNo w) 3 ((s.cl g).bank c.fn (meNo w) (bankNo w))).goes g ((i.initBank (meNo w) (bankNo w)).advance 1)
        ∧ ∀ p q, ((t.cl g).bank c.fn (meNo w) (bankNo w)).get p q = 0)
    ∧ (opOf w = 0x44 → fld w 41 7 = 0 → fld w 5 0 ≤ 60 →
      typeFaults i (meNo w) (bankNo w) ((s.cl g).bank c.fn (meNo w) (bankNo w)) (fld w 6 6 == 1) = [] →
      ∃ t, exec (.accw g w) s = .next t
        ∧ t = ((s.modCl g fun k => k.setBank (meNo w) (bankNo w)
            ((loadBank i (meNo w) (bankNo w) (k.bank c.fn (meNo w) (bankNo w)) (fld w 6 6 == 1)).setL
              ((List.range 256).map fun n => ((fld w 5 0 + n / 64, n % 64), i.v (fB w) n)))).pushMe g c (meNo w)
            (bankNo w) 2 ((s.cl g).bank c.fn (meNo w) (bankNo w))).goes g ((i.initBank (meNo w) (bankNo w)).advance 1))
    ∧ (∀ d v, opOf w = 0x42 → s.acclFaults c g w i = [] → d = i.desc' (fB w) →
      v = s.readView ⟨c.fn, g, ordMe⟩ d (acclLocs w d) → v.2 = [] →
      ∃ t j, exec (.accl g w) s = .next t
        ∧ t = (((s.cacheView ⟨c.fn, g, ordMe⟩ d (acclLocs w d)).modCl g fun k => k.setBank (meNo w) (bankNo w)
            ((loadBank i (meNo w) (bankNo w) ((s.cl g).bank c.fn (meNo w) (bankNo w)) (fld w 24 24 == 1)).setL
              (((regionIx w).zip v.1).map fun x => ((regRow w + x.1.1, regCol w + x.1.2),
                BitVec.ofNat 32 (if fld w 24 24 = 1 then toInt32 .nearest (elemVal d.fmt x.2.1 x.2.2)
                  else toFloat .nearest 0 0 (elemVal d.fmt x.2.1 x.2.2)).bits)))).pushMe g c (meNo w) (bankNo w) 2
            ((s.cl g).bank c.fn (meNo w) (bankNo w)) fun o => { o with feeds := feedOf (2 * meNo w) d (cutN 64 (acclLocs w d)) }).bump.goes g j
        ∧ j.pc = (i.advance 1).pc ∧ j.bankInit = (i.initBank (meNo w) (bankNo w)).bankInit ∧ j.sreg = i.sreg)

/-- OPA of two integer operands (spec/03 R72, spec/04 R78-R83): every element of the tile becomes the old element, or 0 with
ZS, plus the exact sum of the K products modulo 2³²; the bank is typed INT32 and marked initialised. -/
def Sys2Proof.Claims.OpaIntegerResult : Prop :=
  ∀ (s : State) (g : Cl) (w w2 : W64) (c : Cmd) (i : Inst) (ws : List W64) (col row : Desc) (cv rv : List El × List Byte)
      (cl : Nat),
    s.Issues2 g w w2 c i ws → s.Room g c (meOf w) → opOf w = 0x40 → s.opaFaults c g w w2 i = [] →
    col = i.desc' (fB w) → row = i.desc' (fC w) → pairClass col.fmt row.fmt = some (cl, true) →
    cv = s.readView ⟨c.fn, g, ordMe⟩ col (opaLocs col (opaK i w2) (tileRows cl)).flatten →
    rv = s.readView ⟨c.fn, g, ordMe⟩ row (opaLocs row (opaK i w2) (tileCols cl)).flatten → cv.2 = [] → rv.2 = [] →
    smWf 0 ((s.cl g).bank c.fn (meNo w) (bankNo w)).el = true →
    ∃ t j, exec (.opa g w w2) s = .next t ∧ s.KeepsSystem t ∧ s.KeepsClusters t g ∧ t.infl = s.infl
      ∧ (t.cl g).issuing = some j ∧ j.pc = (i.advance 2).pc ∧ j.sreg = i.sreg ∧ j.bankOn (meNo w) (bankNo w) = true
      ∧ ((t.cl g).bank c.fn (meNo w) (bankNo w)).int = true
      ∧ ∀ p q, p < tileRows cl → q < tileCols cl →
        ((t.cl g).bank c.fn (meNo w) (bankNo w)).get p q =
          (List.range (opaK i w2)).foldl (fun a z => a + BitVec.ofInt 32
              (sext (fmtWidth col.fmt) (cv.1.getD (z * tileRows cl + p) (0, 0)).1
                * sext (fmtWidth row.fmt) (rv.1.getD (z * tileCols cl + q) (0, 0)).1))
            (if fld w2 27 27 = 1 then 0 else ((s.cl g).bank c.fn (meNo w) (bankNo w)).get p q)

/-- OPA of two float operands completes: it enters its ME's queue with its accumulates, the duty that holds and the blocks its two
expanders are to take, the instance goes on by two words and counts its ME-cycles, and no memory changes; with ZS the bank's type
is FP32. The order of the sums and the cycles not ready are free (spec/03 R73, spec/04 R78-R83, R87, R88, spec/08 R205). -/
def Sys2Proof.Claims.OpaFloatCompletes : Prop :=
  ∀ (s : State) (g : Cl) (w w2 : W64) (c : Cmd) (i : Inst) (ws : List W64) (col row : Desc) (cl : Nat),
    s.Issues2 g w w2 c i ws → s.Room g c (meOf w) → opOf w = 0x40 → s.opaFaults c g w w2 i = [] →
    col = i.desc' (fB w) → row = i.desc' (fC w) → pairClass col.fmt row.fmt = some (cl, false) →
    (s.readView ⟨c.fn, g, ordMe⟩ col (opaLocs col (opaK i w2) (tileRows cl)).flatten).2 = [] →
    (s.readView ⟨c.fn, g, ordMe⟩ row (opaLocs row (opaK i w2) (tileCols cl)).flatten).2 = [] →
    smWf ({} : Bank) (s.cl g).banks = true →
    ∃ t j, exec (.opa g w w2) s = .next t ∧ s.KeepsSystem t ∧ s.KeepsClusters t g ∧ t.infl = s.infl
      ∧ (t.cl g).issuing = some j ∧ j.pc = (i.advance 2).pc ∧ j.sreg = i.sreg ∧ j.bankOn (meNo w) (bankNo w) = true
      ∧ (fld w2 27 27 = 1 → ((t.cl g).bank c.fn (meNo w) (bankNo w)).int = false)
      ∧ (∃ o n, (t.cl g).ops = (s.cl g).ops ++ [o] ∧ o.unit = meOf w ∧ o.cmd = c.id ∧ o.bank = bankNo w
        ∧ o.acc = (opaK i w2, n) ∧ o.duty = (s.pwr.duty, s.pwr.duty)
        ∧ j.meCycles = i.meCycles + BitVec.ofNat 64 (opaK i w2 + n)
        ∧ o.feeds = feedOf (2 * meNo w) col (opaLocs col (opaK i w2) (tileRows cl))
          ++ feedOf (2 * meNo w + 1) row (opaLocs row (opaK i w2) (tileCols cl)))

/-- OPA of integer and of float operands (spec/03 R72, R73, spec/04 R78-R83). -/
def Obligations.OpaResult : Prop := Claims.OpaIntegerResult ∧ Claims.OpaFloatCompletes

/-- ACCS stores the converted elements of its region, or the slots its assembler emits, at the addresses the view gives
(spec/04 R89-R94): those writes are accepted, and nothing else but its cluster, the operation numbers and the draws changes. -/
def Obligations.AccsResult : Prop :=
  ∀ (s : State) (g : Cl) (w : W64) (c : Cmd) (i : Inst) (ws : List W64), s.Issues g w c i ws → s.Room g c (meOf w) →
    opOf w = 0x43 → s.accsFaults c g w i = [] → (s.placeWrites c.fn g (s.accsWrites c g w i)).2 = [] →
    smWf none (s.cl g).asm = true →
    ∃ t j u, u = s.accept g (meNo w) s.cmds.nextOp c.id (s.placeWrites c.fn g (s.accsWrites c g w i)).1
      ∧ exec (.accs g w) s = .next t ∧ u.KeepsSystem t ∧ s.KeepsClusters t g ∧ t.infl = u.infl ∧ t.memc = u.memc
      ∧ (t.cl g).issuing = some j ∧ j.pc = (i.advance 1).pc ∧ j.sreg = i.sreg ∧ j.bankInit = i.bankInit
      ∧ (t.cl g).banks = (s.cl g).banks
      ∧ (fld w 26 26 = 1 → smGet none (t.cl g).asm (meNo w) = ((s.accsAsm c g w i).map (·.2)).getD none)
      ∧ j.gen = (if fld w 29 29 = 1 then genSteps i.gen (regH w * regW w) else i.gen)
/-- The state after the reads of a CE operation, at the addresses `as`, have entered their channel queues (spec/10 R235-R238). -/
def Sys2Proof.Claims.fetched (u : State) (c : Cmd) (g : Cl) (w : W64) (as : List Nat) : State :=
  u.fetches u.cmds.nextOp c.id (16 * g + wCe (stream w)) c.xrun (u.physAll c.fn g as)

/-- No inlet that the reads of a CE operation name is closed (spec/10 R248). -/
abbrev Sys2Proof.Claims.InletsOpen (u : State) (c : Cmd) (g : Cl) (as : List Nat) : Prop := u.shut (u.physAll c.fn g as) = false

/-- What a CE instruction that ran leaves: the given writes accepted from its stream in the state `r` that its reads left,
its operation in the CE queue, the instance past its words, the rest of the system and of the clusters as it was. -/
def Sys2Proof.Claims.CeRan (s r t : State) (g : Cl) (w : W64) (c : Cmd) (i : Inst) (n : Nat) (writes : List (Nat × Byte × Byte)) : Prop :=
  (∃ u, u = r.accept g (wCe (stream w)) r.cmds.nextOp c.id (r.placeWrites c.fn g writes).1
      ∧ u.KeepsSystem t ∧ t.infl = u.infl)
    ∧ s.KeepsClusters t g
    ∧ (∃ o, (t.cl g).ops = (s.cl g).ops ++ [o] ∧ o.unit = ceOf w ∧ o.cmd = c.id ∧ o.killed = false)
    ∧ (∃ j, (t.cl g).issuing = some j ∧ j.pc = (i.advance n).pc ∧ j.sreg = i.sreg ∧ j.desc = i.desc ∧ j.pred = i.pred
        ∧ j.vreg = i.vreg)

/-- CPY inside the package, FILL and PREF where their checks and accesses meet no fault (spec/06 R149-R152, spec/07 R175, R183,
spec/08 R204): the writes are those of the moved, converted or filled elements at the addresses of the destination view; PREF
writes nothing and holds its hints to commit. -/
def Sys2Proof.Claims.CopyResult : Prop :=
  ∀ (s u r : State) (g : Cl) (w : W64) (c : Cmd) (i : Inst) (ws : List W64), s.Room g c (ceOf w) → u = s.arrive →
    (∀ w2 m as, s.Issues2 g w w2 c i ws → opOf w = 0x30 → u.cpyFaults c g w w2 (i.desc' (fB w)) (i.desc' (fA w)) = [] →
      as = (i.desc' (fB w)).touched (i.desc' (fB w)).locs → Claims.InletsOpen u c g as → r = Claims.fetched u c g w as →
      m = r.cpyMove i ⟨c.fn, g, ordCe (stream w)⟩ w2 (i.desc' (fB w)) (i.desc' (fA w)) → m.2.1 = [] →
      (∀ x ∈ m.1, r.otherPkg g x.1 = false) → (r.placeWrites c.fn g m.1).2 = [] →
      ∃ t, exec (.cpy g w w2) s = .next t ∧ Claims.CeRan s r t g w c i 2 m.1)
    ∧ (s.Issues g w c i ws → opOf w = 0x32 → u.fillFaults c g w (i.desc' (fA w)) = [] →
      (u.placeWrites c.fn g (fillWrites (i.desc' (fA w)))).2 = [] →
      ∃ t, exec (.fill g w) s = .next t ∧ Claims.CeRan s u t g w c i 1 (fillWrites (i.desc' (fA w))))
    ∧ (∀ d, s.Issues g w c i ws → opOf w = 0x33 → fld w 46 4 = 0 → fld w 3 2 ≠ 3 → d = i.desc' (fA w) →
      u.descFaults c.fn false d = [] →
      ∃ t j, exec (.pref g w) s = .next t ∧ Claims.CeRan s u t g w c i 1 [] ∧ (t.cl g).issuing = some j
        ∧ j.hints = i.hints ++ (((d.touched d.locs).map fun a => a / 65536 * 65536).eraseDups.map
            fun v => { va := v, tier := fld w 3 2 }))

/-- CPY into the buffer of another package that can be reached and whose tenant space is paired (spec/07 R188, spec/16 R364, R369): the
moved bytes go there as one numbered message, which its origin keeps until it is acknowledged, and this package's memory takes none. -/
def Sys2Proof.Claims.RemoteCopyResult : Prop :=
  ∀ (s u r : State) (g : Cl) (w w2 : W64) (c : Cmd) (i : Inst) (ws : List W64) (p q : Nat) (as : List Nat)
      (m : List (Nat × Byte × Byte) × List Byte × Inst),
    s.Room g c (ceOf w) → u = s.arrive → s.Issues2 g w w2 c i ws → opOf w = 0x30 →
    u.cpyFaults c g w w2 (i.desc' (fB w)) (i.desc' (fA w)) = [] →
    as = (i.desc' (fB w)).touched (i.desc' (fB w)).locs → Claims.InletsOpen u c g as → r = Claims.fetched u c g w as →
    r.reachable p = true → (r.asOf c.dispSeq).pairOf c.fn p = some q →
    m = r.cpyMove i ⟨c.fn, g, ordCe (stream w)⟩ w2 (i.desc' (fB w)) (i.desc' (fA w)) → m.2.1 = [] → m.1 ≠ [] →
    (∀ x ∈ m.1, isWindow x.1 = true ∧ r.window g x.1 = .remote p ∧ Config.remoteFault p x.1 r.freeIx = false) →
    ∃ t j n k, exec (.cpy g w w2) s = .next t ∧ r.KeepsSystem t ∧ s.KeepsClusters t g ∧ t.infl = r.infl
      ∧ n = smGet 0 r.fab.seqOut (65536 * p + (16 * g + wCe (stream w)))
      ∧ k = Msg.remoteWrite p (16 * g + wCe (stream w)) n c.dispFrame q m.1
      ∧ t.fab.outbox = r.fab.outbox ++ [k]
      ∧ t.fab.unacked = r.fab.unacked ++
          [{ cmd := c.id, op := r.cmds.nextOp, pkg := p, src := 16 * g + wCe (stream w), msg := k }]
      ∧ (t.cl g).issuing = some j ∧ j.pc = (i.advance 2).pc

/-- CPYR resolves its source through the owner table of its command's dispatch and writes the elements it reads
(spec/06 R152, spec/07 R184-R188). What another package answers is free. -/
def Sys2Proof.Claims.CpyrResult : Prop :=
  ∀ (s u r : State) (g : Cl) (w : W64) (c : Cmd) (i : Inst) (ws : List W64) (a b : Desc) (v : OwnerVer) (as : List Nat)
      (m : List (Nat × Byte × Byte) × List (Byte × Nat) × Nat),
    s.Issues g w c i ws → s.Room g c (ceOf w) → u = s.arrive → opOf w = 0x31 → a = i.desc' (fB w) → b = i.desc' (fA w) →
    u.ownerFor c a.owner = some v → u.cpyrFaults c g w a b (some v) = [] →
    as = u.ownedLocal v (a.touched a.locs) → Claims.InletsOpen u c g as → r = Claims.fetched u c g w as →
    m = r.cpyrMove c ⟨c.fn, g, ordCe (stream w)⟩ v a b → m.2.1 = [] → (r.placeWrites c.fn g m.1).2 = [] →
    ∃ t, exec (.cpyr g w) s = .next t ∧ Claims.CeRan s r t g w c i 1 m.1

/-- The copies: CPY, FILL, PREF and CPYR (spec/06 R149-R152, spec/07 R175, R183-R188, spec/08 R204). -/
def Obligations.CopyEngineResult : Prop := Claims.CopyResult ∧ Claims.RemoteCopyResult ∧ Claims.CpyrResult

/-- CODE in its three modes where its checks and accesses meet no fault (spec/08 R199-R203): HIST writes the histogram record of
the source's symbols, TABLE holds a new record to commit and writes nothing, ENC writes the slots of its blocks. -/
def Obligations.CodeResult : Prop :=
  ∀ (s u r : State) (g : Cl) (w : W64) (c : Cmd) (i : Inst) (ws : List W64) (a b : Desc),
    s.Issues g w c i ws → s.Room g c (ceOf w) → u = s.arrive → opOf w = 0x37 → a = i.desc' (fB w) → b = i.desc' (fA w) →
    (∀ v wr ls, fld w 9 8 = 0 → u.histFaults c g w a b = [] → ls = a.locs.filter Option.isSome →
      Claims.InletsOpen u c g (a.touched ls) → r = Claims.fetched u c g w (a.touched ls) →
      v = r.readView ⟨c.fn, g, ordCe (stream w)⟩ a ls → v.2 = [] →
      wr = ((((List.range (16 + 4 * numSyms a.fmt)).map fun k => b.at 9 [Int.ofNat k, 0, 0, 0, 0]).zip
        (histBytes a.fmt ls.length (histCounts a.fmt (v.1.map (·.1))))).flatMap fun x =>
          match x.1 with | some l => [(b.base + l.byte, (0xFF : Byte), x.2)] | none => []) →
      (r.placeWrites c.fn g wr).2 = [] →
      ∃ t, exec (.codeHist g w) s = .next t ∧ Claims.CeRan s r t g w c i 1 wr)
    ∧ (∀ f q r1 ls, fld w 9 8 = 1 → u.tableFaults c g w a b = [] → Claims.InletsOpen u c g (a.touched (a.recordAt 4)) →
      r1 = Claims.fetched u c g w (a.touched (a.recordAt 4)) →
      f = fieldN (r1.recordBytes ⟨c.fn, g, ordCe (stream w)⟩ a 4).1 0 4 → fmtFloat f = true →
      ls = a.recordAt (16 + 4 * numSyms f) → Claims.InletsOpen r1 c g (a.touched (ls.drop (a.recordAt 4).length)) →
      r = Claims.fetched r1 c g w (a.touched (ls.drop (a.recordAt 4).length)) →
      q = r.recordBytes ⟨c.fn, g, ordCe (stream w)⟩ a (16 + 4 * numSyms f) → q.2 = [] →
      ∃ t j, exec (.codeTable g w) s = .next t ∧ Claims.CeRan s r t g w c i 1 [] ∧ (t.cl g).issuing = some j
        ∧ j.tables = i.tables ++ [{ tset := b.tset, idx := codeIdx w, bytes := mkRecord f (tableLens f
            (fun k => r.free (2 ^ 60 + k)) ((List.range (numSyms f)).map fun k => fieldN q.1 (16 + 4 * k) 4)) }])
    ∧ (∀ o v wr, fld w 9 8 = 2 → u.encFaults c g w a b = [] → encOrder a b = some o →
      Claims.InletsOpen u c g (a.touched a.locs) → r = Claims.fetched u c g w (a.touched a.locs) →
      v = r.readView ⟨c.fn, g, ordCe (stream w)⟩ a (o.map fun x => a.at 9 x.2) → v.2 = [] →
      wr = ((r.encBlocks c w b ((o.zip v.1).map fun x => (x.1.1, x.2.1))).flatMap fun x =>
        byteWrites (b.slot x.1) (r.lineBytes (b.slot x.1) x.2.1)) →
      (r.placeWrites c.fn g wr).2 = [] →
      ∃ t, exec (.codeEnc g w) s = .next t ∧ Claims.CeRan s r t g w c i 1 wr)

/-- KVA, KVG and KVF (spec/12 R276-R286): KVA writes its candidates' K and V to their places in the trough, KVG the slots of its
range and the token map; KVF of an instance that has issued no SETTLE takes a run of units and prepares a page of the own context
where that is at or above its mark, and ends at once and queues nothing where it is below. -/
def Obligations.KvInstructionResult : Prop :=
  ∀ (s u r : State) (g : Cl) (w : W64) (c : Cmd) (i : Inst) (ws : List W64), s.Issues g w c i ws → s.Room g c (ceOf w) → u = s.arrive →
    (∀ cx l a b as ra rb wr, opOf w = 0x34 → u.slotCtx c (bits (i.s (fC w)).toNat 53 48) = some (cx, l) →
      u.kvaFaults c g w i cx l = [] → a = i.desc' (fA w) → b = i.desc' (fB w) →
      as = a.touched a.locs ++ b.touched b.locs → Claims.InletsOpen u c g as → r = Claims.fetched u c g w as →
      ra = r.readView ⟨c.fn, g, ordCe (stream w)⟩ a a.locs → ra.2 = [] →
      rb = r.readView ⟨c.fn, g, ordCe (stream w)⟩ b b.locs → rb.2 = [] →
      wr = kvaWrites l cx (i.s (fC w)).toNat a.fmt b.fmt ra.1 rb.1 →
      (r.placeWrites c.fn g wr).2 = [] →
      ∃ t j, exec (.kva g w) s = .next t ∧ Claims.CeRan s r t g w c i 1 wr ∧ (t.cl g).issuing = some j
        ∧ j.settles = (if bitN (i.s (fC w)).toNat 12 = true then i.settles ++
            [{ slot := bits (i.s (fC w)).toNat 53 48, keep := BitVec.ofNat 16 (bits (i.s (fC w)).toNat 31 16) }] else i.settles))
    ∧ (∀ cx l plane slots as bs wr, opOf w = 0x35 → u.slotCtx c (bits (i.s (fB w)).toNat 53 48) = some (cx, l) →
      u.kvgFaults c g w i cx l = [] →
      plane = l.plane (bits (i.s (fB w)).toNat 41 32) (bits (i.s (fB w)).toNat 47 42) (fld w 4 4) →
      slots = kvgSlots l cx plane (bits (i.s (fB w)).toNat 20 0) (i.s (fC w)).toNat →
      as = u.kvgSrc l cx plane slots → Claims.InletsOpen u c g as → r = Claims.fetched u c g w as →
      bs = slots.map ((r.asOf c.dispSeq).kvgBytes ⟨c.fn, g, ordCe (stream w)⟩ l cx.trough plane) →
      (bs.flatMap (·.2)) = [] →
      wr = (bs.zipIdx.flatMap fun b => byteWrites ((i.desc' (fA w)).slot b.2) b.1.1)
        ++ byteWrites ((i.desc' (fA w)).slot ((i.desc' (fA w)).bnd.getD 1 1 / l.bt)) (kvgMap l.bt (i.s (fC w)).toNat slots) →
      (r.placeWrites c.fn g wr).2 = [] →
      ∃ t, exec (.kvg g w) s = .next t ∧ Claims.CeRan s r t g w c i 1 wr)
    ∧ (∀ cx l, opOf w = 0x36 → fld w 51 2 = 0 → i.settles = [] → u.kvfFaults c g i [0] = [] →
      Claims.InletsOpen u c g ((u.kvfReads c i [0]).flatMap (·.1)) → r = Claims.fetched u c g w ((u.kvfReads c i [0]).flatMap (·.1)) →
      r.slotCtx c 0 = some (cx, l) →
      ((flushPlaces cx 0).1.length < cx.mark → exec (.kvf g w) s = .next (r.bump.goes g (i.advance 1)))
      ∧ (∀ x o, cx.mark ≤ (flushPlaces cx 0).1.length → (r.ctx (c.batch.getD 0 0)).pages.length < 512 →
        r.takeRun l (l.u 0) = some x →
        o = r.flushPage ⟨c.fn, g, ordCe (stream w)⟩ l cx.trough x (flushPlaces cx 0).1 → o.faults = [] →
        (r.placeWrites c.fn g o.writes).2 = [] →
        ∃ t j f, exec (.kvf g w) s = .next t ∧ (t.cl g).issuing = some j ∧ j.pc = (i.advance 1).pc
          ∧ t.mem = r.mem ∧ t.infl = (r.accept g (wCe (stream w)) r.cmds.nextOp c.id (r.placeWrites c.fn g o.writes).1).infl
          ∧ t.layout c.fn cx.layout = some { l with units := l.units ++ [(x, l.u 0)] }
          ∧ j.flushes.getLast? = some f ∧ f.slot = 0 ∧ f.unit = x ∧ f.units = l.u 0 ∧ f.void = false
          ∧ f.tokens = (flushPlaces cx 0).1.length ∧ f.first = (flushPlaces cx 0).2 - f.tokens))

/-- The waits begin (spec/06 R162, R163, spec/05 R107, R126, R127, R130, R131): the instance is past its word and waits on what it
names. The last arrival of a command at a yard barrier
is told to the packages of the live set that its tenant space is paired with. A WAIT on an unassigned shared counter claims it at 0; a GATE holds its layer and fixes the command's epoch; a FENCE that
names no writer does not wait. -/
def Sys2Proof.Claims.WaitsBegin : Prop :=
  ∀ (s : State) (g : Cl) (w : W64) (c : Cmd) (i : Inst) (ws : List W64), s.Issues g w c i ws →
    (opOf w = 0x70 → fld w 44 32 = 0 → (s.cl g).mayUse c.fn (ctrNo w) = true →
      exec (.wait g w) s = .next ((s.modCl g fun k => k.claim c.fn (ctrNo w)).goes g (Inst.advance
        { i with wait := some (.counter (ctrNo w) (BitVec.ofNat 32 (low w)) (fld w 45 45 == 1)) } 1)))
    ∧ (∀ a, opOf w = 0x73 → fld w 41 0 = 0 → fld w 51 50 ≠ 3 → fB w = 0 →
      a = ({ cmd := c.id, scope := fld w 51 50, num := fld w 49 47, who := g, beat := s.beat,
             target := (i.s 0).setWidth 32 } : Arrival) →
      exec (.bar g w) s = .next ({ s with cmds := { s.cmds with arrivals := s.cmds.arrivals ++ [a] } }.goes g (Inst.advance
        { i with wait := some (.barrier (fld w 51 50) (fld w 49 47) a.target) } 1)))
    ∧ (∀ a u ps, opOf w = 0x73 → fld w 41 0 = 0 → fld w 51 50 = 3 → c.gangSize ≠ 0 →
      a = ({ cmd := c.id, scope := 3, num := fld w 49 47, who := g, beat := s.beat, target := (i.s (fB w)).setWidth 32 } : Arrival) →
      u = { s with cmds := { s.cmds with arrivals := s.cmds.arrivals ++ [a] } } → ps = (u.paired c).filter u.reachable →
      exec (.bar g w) s = .next ((if allArrived (u.arrivals c.id 3 (fld w 49 47)) c.place = true then
          (ps.foldl (fun x p => x.sendSure c.id 0 p (srcSeq g) fun k =>
            .barrier p (srcSeq g) k c.fn c.gang (fld w 49 47) u.beat) u).noteRoutes c.id (ps.filter (u.gangOn c)) else u).goes g (Inst.advance
        { i with wait := some (.barrier 3 (fld w 49 47) a.target) } 1)))
    ∧ (∀ r, opOf w = 0x74 → rsvFaults w [(46, 22), (15, 10)] = [] → (∀ h, i.holds.head? = some h → h.2 ≤ fld w 9 0) →
      s.gate c.fn (fld w 21 16) = some r → fld w 9 0 < r.man.layers.length →
      exec (.gate g w) s = .next ((s.setCmd { c with epoch := if c.epoch = 0 then r.fixes else c.epoch }).goes g (Inst.advance
        { i with holds := (fld w 21 16, fld w 9 0) :: i.holds.filter (fun h => h.1 != fld w 21 16), wait := some (.gate (fA w) (fld w 21 16) (fld w 9 0)) } 1)))
    ∧ (opOf w = 0x75 → fld w 46 0 = 0 → exec (.tickw g w) s = .next (s.goes g (Inst.advance
        { i with wait := some (.tick ((i.s (fA w)).setWidth 32)) } 1)))
    ∧ (opOf w = 0x76 → fld w 51 14 = 0 → exec (.fence g w) s = .next (s.goes g (Inst.advance
        (if fld w 13 0 = 0 then i else { i with wait := some (.fence (BitVec.ofNat 14 (fld w 13 0))) }) 1)))

/-- SIG and SIGR (spec/06 R162, R163, spec/05 R107, R112, R121): a signal to a local counter is in flight, one to a shared counter
is held to commit, one to a gang member's local counter on another package that can be reached is sent, and one to a shared
counter there is held to commit. -/
def Sys2Proof.Claims.SignalsBegin : Prop :=
  ∀ (s : State) (g : Cl) (w : W64) (c : Cmd) (i : Inst) (ws : List W64) (r : State × Inst), s.Issues g w c i ws →
    (∀ t, opOf w = 0x71 → fld w 38 16 = 0 → t = (if fld w 45 39 = 0x7F then g.val else fld w 45 39) →
      s.sigFaults c t (ctrNo w) (fld w 15 0) = [] → r = s.sigLocal c i t (ctrNo w) (fld w 15 0) →
      exec (.sig g w) s = .next (r.1.goes g (r.2.advance 1)))
    ∧ (opOf w = 0x72 → fld w 34 16 = 0 → fld w 45 42 = (if s.glb.valid then s.glb.index else 0) →
      s.sigFaults c (fld w 41 35) (ctrNo w) (fld w 15 0) = [] → r = s.sigLocal c i (fld w 41 35) (ctrNo w) (fld w 15 0) →
      exec (.sigr g w) s = .next (r.1.goes g (r.2.advance 1)))
    ∧ (opOf w = 0x72 → fld w 34 16 = 0 → fld w 45 42 ≠ (if s.glb.valid then s.glb.index else 0) → fld w 15 0 ≠ 0 →
      fld w 41 35 < 96 → ctrNo w < 32 → c.gangSize ≠ 0 → s.reachable (fld w 45 42) = true →
      exec (.sigr g w) s = .next (((s.sendSure c.id 0 (fld w 45 42) (srcSeq g) fun k =>
        .sigr (fld w 45 42) (srcSeq g) k c.dispFrame (fld w 41 35) (ctrNo w) (fld w 15 0) c.fn c.gang).noteRoutes c.id [fld w 45 42]).goes g (i.advance 1)))
    ∧ (opOf w = 0x72 → fld w 34 16 = 0 → fld w 45 42 ≠ (if s.glb.valid then s.glb.index else 0) → fld w 15 0 ≠ 0 →
      fld w 41 35 < 96 → 32 ≤ ctrNo w → ((s.asOf c.dispSeq).pairOf c.fn (fld w 45 42)).isSome = true →
      Config.farTag (fld w 45 42) (fld w 41 35) (ctrNo w) s.freeIx = false →
      exec (.sigr g w) s = .next (s.goes g (Inst.advance
        { i with sigs := i.sigs ++ [{ pkg := some (fld w 45 42), cl := fld w 41 35, ctr := ctrNo w, inc := fld w 15 0 }] } 1)))
    ∧ (ctrNo w < 32 → r = s.sigLocal c i (fld w 41 35) (ctrNo w) (fld w 15 0) → r.2 = i ∧ r.1.cmds.sigs = s.cmds.sigs ++
        [{ cmd := c.id, cl := fld w 41 35, ctr := ctrNo w, inc := fld w 15 0, tenant := c.fn }])

/-- The synchronisation instructions as they issue (spec/06 R162, R163, spec/05 R107, R112, R121, R126, R127, R130, R131). -/
def Obligations.WaitsAndSignalsBegin : Prop := Claims.WaitsBegin ∧ Claims.SignalsBegin
/-- The waits of an instance end (spec/06 R162, R164, spec/05 R126, R130, R131, spec/11 R260, spec/02 R45): a WAIT at or above its
threshold, with CONSUME subtracting it in the same step; a GATE whose layer holds the command's epoch writes the epoch; a TICKW
whose tick has come; a FENCE, which makes the writes its writers accepted visible, and which waits while a remote write that it
covers is not acknowledged (spec/16 R364) or one into the register range is not made (the model's choice, log entry 63). -/
def Obligations.WaitsEnd : Prop :=
  ∀ (s : State) (g : Cl) (c : Cmd) (i : Inst),
    (∀ n t consume x, s.waiting g = some (c, i, .counter n t consume) → x = (s.cl g).counter c.id n → t.toNat ≤ x.toNat →
      (s.cl g).mayUse c.fn n = true →
      ∃ u j, exec (.waitResolve g) s = .next u ∧ (u.cl g).issuing = some j ∧ j.wait = none ∧ j.pc = i.pc
        ∧ (smWf 0 (s.cl g).shared = true → smWf 0 i.ctr = true → (u.cl g).counter c.id n = if consume then x - t else x)
        ∧ s.KeepsSystem u ∧ s.KeepsClusters u g)
    ∧ (∀ d n l r, s.waiting g = some (c, i, .gate d n l) → s.gate c.fn n = some r → r.holdsEpoch l c.epoch = true →
      exec (.gatePass g) s = .next (s.goes g { i.setS d (c.epoch.setWidth 64) with wait := none }))
    ∧ (∀ t, s.waiting g = some (c, i, .tick t) → 0 ≤ diff32 (BitVec.ofNat 32 s.tick) t →
      exec (.tickwResolve g) s = .next (s.goes g { i with wait := none }))
    ∧ (∀ m, s.waiting g = some (c, i, .fence m) → s.unacks g m = false → s.memc.rateBusy = false →
      (∀ x ∈ s.infl, x.cl = g.val → m.getLsbD x.writer = true → isRegs x.addr = false) →
      ∃ u, exec (.fenceResolve g) s = .next u
        ∧ (∀ x ∈ u.infl, x.cl = g.val → m.getLsbD x.writer = false)
        ∧ (∀ x, s.infl.filter (fun y => y.addr == x.addr) = [x] → x.cl = g.val → m.getLsbD x.writer = true →
            Memory.wf s.mem → s.memc.poison = [] → s.memc.upset = [] → memGet u.mem x.addr = merge x.mask (s.raw x.addr) x.val)
        ∧ (∀ x ∈ u.fab.unacked, ¬ (x.src / 16 = g.val ∧ m.getLsbD (x.src % 16) = true))
        ∧ s.KeepsClusters u g ∧ u.cmds = s.cmds ∧ u.tens = s.tens ∧ u.serv = s.serv ∧ u.tim = s.tim
        ∧ (u.cl g).issuing = some { i with wait := none })
    ∧ (∀ m, s.waiting g = some (c, i, .fence m) → s.memc.loftGib ≤ 512 →
      (∃ x ∈ s.infl, x.cl = g.val ∧ m.getLsbD x.writer = true ∧ isRegs x.addr = true) → exec (.fenceResolve g) s = .next s)
    ∧ (∀ m, s.waiting g = some (c, i, .fence m) → (∃ x ∈ s.fab.unacked, x.src / 16 = g.val ∧ m.getLsbD (x.src % 16) = true) →
      exec (.fenceResolve g) s = .next s)

/-- A barrier of one region or of the command releases once each of its clusters has arrived, and a cluster barrier once the cluster
has arrived and its operations have ended (spec/05 R127): the instances that wait there go on. -/
def Sys2Proof.Claims.BarrierReleaseResult : Prop :=
  ∀ (s : State) (id : Nat) (num : Fin 8) (g : Cl) (c : Cmd), s.alive = true → s.cmd id = some c → c.st = .running →
    (((s.arrivals id 0 num).any fun a => a.who == g.val) = true → ((s.cl g).ops.any fun o => o.cmd == id) = false →
      exec (.barrierRelease id 0 num g) s =
        .next ({ (s.land fun x => x.cl == g.val && x.cmd == id) with cmds := { s.cmds with
          arrivals := dropArrivals s.cmds.arrivals id 0 num [g.val] } }.releaseAll id 0 num [g.val]))
    ∧ (∀ cls, cls = c.place.filter (fun h => regionOf h == g.val) → cls ≠ [] → allArrived (s.arrivals id 1 num) cls = true →
      exec (.barrierRelease id 1 num g) s = .next ({ s with cmds := { s.cmds with
        arrivals := dropArrivals s.cmds.arrivals id 1 num cls } }.releaseAll id 1 num cls))
    ∧ (c.place ≠ [] → allArrived (s.arrivals id 2 num) c.place = true →
      exec (.barrierRelease id 2 num g) s = .next ({ s with cmds := { s.cmds with
        arrivals := dropArrivals s.cmds.arrivals id 2 num c.place } }.releaseAll id 2 num c.place))

/-- Arrivals (spec/05 R107, R121, R128, spec/06 R164): a signal of this package adds to its counter and saturates; one of a gang
member on another package adds to the member's local counter; a yard barrier's arrival of another package is recorded. One of a pair
that has been applied is discarded (spec/16 R364). -/
def Sys2Proof.Claims.ArrivalsRecorded : Prop :=
  ∀ (s : State), s.alive = true →
    (∀ k x, s.cmds.sigs[k]? = some x → exec (.signalArrival (.inFlight k)) s =
      .next ({ s with cmds := { s.cmds with sigs := s.cmds.sigs.eraseIdx k } }.modCl x.cl fun q =>
        q.setCounter x.cmd x.ctr (satAdd (q.counter x.cmd x.ctr) x.inc)))
    ∧ (∀ (pkg : Pk) (src g : Cl) (pair seq : Nat) (frame : W32) (t : Fn) (gang inc : BitVec 16) (ctr : Fin 64) c, ctr.val < 32 →
      pair = 65536 * pkg.val + srcSeq src → seq = smGet 0 s.fab.seqIn pair → (s.fab.early.any fun e => e.1 == pair) = false →
      s.member gang.toNat = some c → (s.asOf c.dispSeq).pairFrom pkg t = some c.fn →
      exec (.signalArrival (.fabric pkg src seq frame t gang g ctr inc)) s = .next
        ((s.nowIn pair seq).modCl g fun q => q.signal c.id ctr inc.toNat))
    ∧ (∀ (pkg : Pk) (src : Cl) (pair seq b : Nat) (t : Fn) (gang : BitVec 16) (num : Fin 8) (beat : W32) c,
      b = ((s.beat : Int) + diff32 beat (BitVec.ofNat 32 s.beat)).toNat →
      pair = 65536 * pkg.val + srcSeq src → seq = smGet 0 s.fab.seqIn pair → (s.fab.early.any fun e => e.1 == pair) = false →
      s.member gang.toNat = some c → (s.asOf c.dispSeq).pairFrom pkg t = some c.fn →
      exec (.barArrivalMessage ⟨pkg, src, seq⟩ t gang num beat) s = .next { s.nowIn pair seq with cmds := { s.cmds with
        arrivals := s.cmds.arrivals ++ [{ cmd := c.id, scope := 3, num := num, who := 96 + pkg.val, beat := b, target := 0 }] } })
    ∧ (∀ (pkg : Pk) (src g : Cl) (seq : Nat) (frame : W32) (t : Fn) (gang inc : BitVec 16) (ctr : Fin 64) (num : Fin 8) (beat : W32),
      seq < smGet 0 s.fab.seqIn (65536 * pkg.val + srcSeq src) →
      exec (.signalArrival (.fabric pkg src seq frame t gang g ctr inc)) s = .next s
        ∧ exec (.barArrivalMessage ⟨pkg, src, seq⟩ t gang num beat) s = .next s)

/-- Barriers release, and what arrives from this package and from others is recorded (spec/05 R107, R121, R127, R128). -/
def Obligations.BarriersAndArrivals : Prop := Claims.BarrierReleaseResult ∧ Claims.ArrivalsRecorded

/-- Units and expanders (spec/05 R103, R109, spec/04 R84, spec/08 R205-R212): an operation of a unit that can end ends once its
requests are served, and its writes have been accepted; a parity or ECC error that it met inside its cluster is latched as its command's
fault and puts the cluster first in the farrier's order (spec/14 R333, spec/22 R460); the next block that an operation's expander
is to take enters its store at the front with the record its header names, and those that the operation needs no more leave it; a
block whose sizes and CRC are right keeps its elements there; a program image becomes resident. An OPA counts as it ends the cycles
that throttling withheld (spec/04 R88; how many within its bounds is free, log entry 45). -/
def Obligations.UnitEventsResult : Prop :=
  ∀ (s : State) (g : Cl), s.alive = true →
    (∀ u n o, ((s.cl g).ending u)[n]? = some o → s.stabled g = false → (o.remote.any fun p => (s.route p).ports == 0) = false →
      (s.fab.unacked.any fun x => x.op == o.id) = false → s.memc.late = [] →
      (∀ r ∈ s.memc.waiting, s.beat ≤ r.issued + s.memc.tierTimeout.toNat) →
      (∀ ch, ∀ r ∈ (s.chan ch).queue, s.beat ≤ r.issued + s.memc.tierTimeout.toNat) →
      s.memc.rateBusy = false → smWf ({} : Chan) s.memc.chans = true → smWf ({} : Cluster) s.clusters = true →
      (∃ t, exec (.unitOperationComplete g u ⟨n, none⟩) s = .next t ∧ t.cmds = s.cmds ∧ t.tens = s.tens ∧ t.serv = s.serv ∧ t.tim = s.tim
        ∧ (∀ r ∈ t.memc.waiting, r.op ≠ o.id) ∧ (∀ ch, ∀ r ∈ (t.chan ch).queue, r.op ≠ o.id)
        ∧ (∀ x ∈ t.infl, ∀ r ∈ s.memc.waiting, r.op = o.id → (s.chanOf (64 * r.burst)).isSome = true → x.of r = false)
        ∧ s.KeepsClusters t g ∧ (t.cl g).ops = (s.cl g).ops.filter (fun x => x.id != o.id)
        ∧ (∃ n, (o.acc.1 - 1) * (2 ^ o.duty.1 - 1) ≤ n
            ∧ n ≤ max ((o.acc.1 - 1) * (2 ^ o.duty.1 - 1)) ((o.acc.1 + o.acc.2) * (2 ^ o.duty.2 - 1))
            ∧ (t.cl g).issuing = (s.cl g).issuing.map fun i => if i.cmd = o.cmd ∧ o.acc.1 ≠ 0 then
                { i.count kThrottle n with meCycles := i.meCycles + BitVec.ofNat 64 n } else i)
        ∧ (t.cl g).banks = (s.cl g).banks)
      ∧ (∀ c x, s.cmd o.cmd = some c → c.st = .running → x = .registers ∨ x = .buffer →
        ∃ t, exec (.unitOperationComplete g u ⟨n, some x⟩) s = .next t ∧ t.far.front = g.val :: s.far.front.filter (· != g.val)
          ∧ t.cmd c.id = some { c with faults := c.faults ++ [{ cl := g, code := fEcc, slot := o.slot, loc := s.upsetLoc g u x }] }
          ∧ t.tim = s.tim ∧ t.pwr = s.pwr))
    ∧ (∀ u n c i, (s.cl g).issuing = some i → i.done = false → s.stabled g = false → s.cmd i.cmd = some c → c.st = .running →
      ∃ t, exec (.unitOperationComplete g u ⟨n, some .sequencer⟩) s = .next t
        ∧ t.far.front = g.val :: s.far.front.filter (· != g.val)
        ∧ t.cmd c.id = some { c with faults := c.faults ++ [{ cl := g, code := fEcc, slot := none, loc := s.loc g 3 0 }] })
    ∧ (∀ (x : Fin 17) (d : BitVec 256) (n first last : Nat) c o h, s.expCmd g x = some (c, o) → o.nextBlk x d = some (n, first, last) →
      h = s.readBs ⟨c.fn, g, if x.val < 16 then ordMe else ordVu⟩ (addrs ((descOf d []).slot n) 16) →
      h.2 = [] → hdrFaults (descOf d []).fmt (s.tset c.fn (descOf d []).tset) (hdrOf h.1) = [] →
      ∃ t b, exec (.expanderBlockCheck g x d n) s = .next t ∧ s.KeepsSystem t ∧ s.KeepsClusters t g ∧ t.cmds = s.cmds
        ∧ smGet [] (t.cl g).store x.val =
          b :: (smGet [] (s.cl g).store x.val).filter (fun y => y.op != o.id || decide (first ≤ y.last))
        ∧ b.desc = d ∧ b.no = n ∧ b.els = none ∧ b.op = o.id ∧ b.last = last
        ∧ (t.cl g).ops = (s.cl g).ops.map (fun y => if y.id = o.id then y.takeBlk x d else y)
        ∧ (∀ ts, (hdrOf h.1).kind = 0 → s.tset c.fn (descOf d []).tset = some ts → b.rcd = ts.record (hdrOf h.1).table))
    ∧ (∀ (x : Fin 17) (d : BitVec 256) (n m first last : Nat) c o, s.expCmd g x = some (c, o) → o.nextBlk x d = some (m, first, last) →
      m ≠ n → exec (.expanderBlockCheck g x d n) s = .next s)
    ∧ (∀ (x : Fin 17) (d : BitVec 256) (n : Nat) c o b r, s.expCmd g x = some (c, o) →
      (smGet [] (s.cl g).store x.val).find? (fun b => b.is d n && b.op == o.id) = some b →
      r = s.readHeld ⟨c.fn, g, if x.val < 16 then ordMe else ordVu⟩ (descOf d []) b → r.2 = [] →
      exec (.blockCrcCheck g x d n) s = .next (s.modCl g fun k => { k with
        store := smMod [] k.store x.val (·.map fun y => if y.is d n && y.op == o.id then { y with els := some r.1 } else y) }).bump)
    ∧ (∀ i c, (s.cl g).issuing = some i → s.cmd i.cmd = some c → i.loaded = false → c.st = .running → s.stabled g = false →
      ∃ t, exec (.programImageLoad g) s = .next t ∧ s.KeepsSystem t ∧ s.KeepsClusters t g ∧ t.cmds = s.cmds
        ∧ (t.cl g).issuing = some { i with loaded := true }
        ∧ (t.cl g).image c.fn c.program = smGet [] (s.ten c.fn).progs c.program)
/-- Doorbells (spec/15 R343, R345): a SQ_TAIL within the ring is taken with its place in the order of latching and one past the ring
is an overrun that leaves the tail; a CQ_HEAD up to the completions written is taken, which frees their places. Nothing but that
queue, the order of latching, the function's held low word (spec/00 R10) and, for CQ_HEAD, what held completions write changes. -/
def Sys2Proof.Claims.DoorbellResult : Prop :=
  ∀ (s u : State) (f : Fn) (q : Qn) (v : W32), s.alive = true → (s.queue f q).active = true → u = s.setLow f none →
    ((v - (s.queue f q).sqHead).toNat ≤ sqSize (s.queue f q) →
      exec (.sqTail f q v) s = .next (u.stamp.setQueue f q { s.queue f q with
        sqTail := v, marks := (s.queue f q).marks ++ [(v, s.cmds.nextSeq + 1)] }))
    ∧ (sqSize (s.queue f q) < (v - (s.queue f q).sqHead).toNat →
      exec (.sqTail f q v) s = .next (u.setQueue f q { s.queue f q with overrun := true }))
    ∧ ((v - (s.queue f q).cqHead).toNat ≤ ((s.queue f q).cqTail - (s.queue f q).cqHead).toNat → (s.queue f q).held = [] →
      exec (.cqHead f q v) s = .next (u.setQueue f q { s.queue f q with cqHead := v, cqFull := false }))

/-- A command entry (spec/15 R347-R349): one that parses and meets no fault enters the commands as the last of the order, not
dispatched, and the ring's head goes on by one. -/
def Sys2Proof.Claims.CommandFetched : Prop :=
  ∀ (s : State) (f : Fn) (q : Qn) (e exts batch args : List Byte) (c : Cmd),
    s.alive = true → (s.queue f q).active = true → (s.queue f q).sqTail ≠ (s.queue f q).sqHead → (s.fn f).busMaster = true →
    (s.queue f q).cqFull = false → q.val ≠ 0 → bitN (fieldN e 3 1) 2 = false → cfgPush (s.queue f q) = false → (s.queue f q).closing = false → cfgEnable (s.queue f q) = true →
    parseEntry (s.queue f q).take.1 f q s.cmds.nextId (s.queue f q).take.2 e exts batch args = some c →
    (s.cmds.list.any fun d => d.fn == f.val && d.q == q.val && d.cid == BitVec.ofNat 16 (fieldN e 0 2)) = false →
    fieldN e 2 1 = 0 → (s.fn f).atLeast 1 2 = true →
    s.submitFaults c = [] → c.notBefore = none →
    (∀ x ∈ c.batch, (s.ctx x).cancelSeq < (s.queue f q).take.2) →
    ∃ t, exec (.entryFetch f q (.entry e exts batch args)) s = .next t ∧ t.cmds.list = s.cmds.list ++ [c]
      ∧ t.cmds.nextId = s.cmds.nextId + 1 ∧ t.queue f q = (s.queue f q).take.1 ∧ t.mem = s.mem ∧ t.clusters = s.clusters
      ∧ t.tens = s.tens ∧ t.serv = s.serv

/-- The other fetches (spec/15 R344, R349, R351): a request entry on queue 0 joins the function's requests with its code, operand words
and parameters; a read that fails is logged and answered FAULT_TRANSLATION, under the entry's CID where the entry itself came; the
entry of a PUSH queue with INL is the record in the slot, whatever host memory holds. -/
def Sys2Proof.Claims.OtherFetches : Prop :=
  ∀ (s : State) (f : Fn) (q : Qn) (x : Queue), x = s.queue f q →
    s.alive = true → x.active = true → x.sqTail ≠ x.sqHead → (s.fn f).busMaster = true → x.cqFull = false →
    (∀ (e exts batch args : List Byte) (r : Nat × Nat × Nat), q.val = 0 → cfgPush x = false → x.closing = false →
      cfgEnable x = true → ((s.fn f).reqs.any fun r => r.cid == BitVec.ofNat 16 (fieldN e 0 2)) = false →
      fieldN e 2 1 = 1 → zerosN e 3 4 = true → zerosN e 6 8 = true → zerosN e 20 24 = true →
      (reqCodes.find? fun r => r.1 == fieldN e 4 2) = some r → (s.fn f).atLeast 1 r.2.1 = true →
      zerosN e (24 + 8 * r.2.2) 128 = true →
      exec (.entryFetch f q (.entry e exts batch args)) s =
        .next (((s.setQueue f 0 x.take.1).sawEntry x true e exts batch args).modFn f fun b => { b with reqs := b.reqs ++
          [{ cid := BitVec.ofNat 16 (fieldN e 0 2), code := r.1, addr := BitVec.ofNat 64 (fieldN e 8 8), len := fieldN e 16 4
             ops := reqOps e r.2.2 }] }))
    ∧ (∀ w, cfgPush x = false → ∃ t, exec (.entryFetch f q (.failed w)) s = .next t ∧ (t.queue f q).sqHead = x.sqHead + 1
        ∧ t.cmds = s.cmds ∧ t.mem = s.mem
        ∧ (t.fn f).aer.getLsbD (match w with | .unsupported => 0 | .completerAbort => 1 | .poisoned => 2) = true)
    ∧ (∀ w e, cfgPush x = false → x.closing = false → cfgEnable x = true →
        exec (.entryFetch f q (.listFailed w e)) s = .next (((s.setQueue f q x.take.1).logAer f w).complete f q
          (s.compl (BitVec.ofNat 16 (fieldN e 0 2)) fTranslation (if q.val = 0 then 1 else 0) 0 0)))
    ∧ (∀ d, cfgPush x = true → bitN (fieldN (x.record 0 128) 3 1) 2 = true →
        exec (.entryFetch f q d) s =
          exec (.entryFetch f q (.entry (x.record 0 128) (x.record 128 256) (x.record 384 128) (x.record 512 256))) s)

/-- Entries of commands and of requests (spec/15 R344, R347-R349, R351). -/
def Obligations.EntryFetchResult : Prop := Claims.CommandFetched ∧ Claims.OtherFetches

/-- ABORT of a command (spec/15 R346, spec/05 R122, spec/02 R44): one that is not dispatched or not ready, or whose commit is not latched
yet, is gone from the commands; one whose commit stands is answered ALREADY_DONE; a ready gang member holds the abort. -/
def Sys2Proof.Claims.AbortResult : Prop :=
  ∀ (s u : State) (f : Fn) (q : Qn) (v : W32) (c : Cmd),
    s.alive = true → (s.queue f q).active = true → v.toNat < 65536 → q.val ≠ 0 → u = s.setLow f none → u.resetComing f = false →
    (s.cmds.list.find? fun c => c.fn == f.val && c.q == q.val && c.cid == v.setWidth 16) = some c →
    (c.st = .queued ∨ c.st = .draining ∨ c.st = .running ∨ (c.st = .ready ∧ c.gangSize = 0 ∧ s.standing c = false) →
      ∃ t, exec (.abort f q v) s = .next t ∧ (∀ d ∈ t.cmds.list, d.id ≠ c.id) ∧ t.tim = s.tim ∧ t.pwr = s.pwr)
    ∧ (c.st = .ready → c.gangSize ≠ 0 →
      exec (.abort f q v) s = .next (u.setCmd { c with heldAborts := c.heldAborts + 1 }))
    ∧ (c.st = .ready → c.gangSize = 0 → s.standing c = true →
      exec (.abort f q v) s = .next (u.complete f q (u.compl (v.setWidth 16) stAlreadyDone 3 0 0)))

/-- What a host writes to a queue: its doorbells and ABORT (spec/15 R345-R349, spec/05 R122). -/
def Obligations.DoorbellAndAbortResult : Prop := Claims.DoorbellResult ∧ Claims.AbortResult

/-- Ticks of a command and of a queue (spec/02 R46, R47, R49, R50): a not-before tick that has come is over; a deadline that is past
ends, at its tick boundary, a command whose commit is not latched by then with FAULT_DEADLINE and leaves one whose commit is
(R44; a gang all of whose members are ready: the model's choice, log entry 67); completions whose beat has come leave the tick-release list. -/
def Obligations.TickEventsResult : Prop :=
  ∀ (s : State), s.alive = true →
    (∀ id c n, s.cmd id = some c → c.notBefore = some n → s.ticksTo n ≤ 0 →
      exec (.notBeforeRelease id) s = .next (s.setCmd { c with notBefore := none }))
    ∧ (∀ id c d, s.cmd id = some c → c.deadline = some d → s.ticksTo d < 0 → s.tickEdge = true → s.resetComing c.fn = false →
      (c.st ≠ .ready ∨ (c.gangSize = 0 ∧ c.late = true) ∨ (c.gangSize ≠ 0 ∧ c.gangReady = false) →
        exec (.deadlineExpiry id) s = .next (s.faultCmd c fDeadline none 0 true))
      ∧ (c.st = .ready → (c.gangSize = 0 ∧ c.late = false) ∨ (c.gangSize ≠ 0 ∧ c.gangReady = true) →
        exec (.deadlineExpiry id) s = .next s))
    ∧ (∀ (f : Fn) (q : Qn), (∀ e ∈ (s.queue f q).trel, s.beat < (e.1 + 1) * 125 + cfgK (s.queue f q)) →
      exec (.tickRelease f q) s = .next (s.setQueue f q (s.queue f q)))
    ∧ (∀ (f : Fn) (q : Qn) e, (s.queue f q).trel = [e] → (e.1 + 1) * 125 + cfgK (s.queue f q) ≤ s.beat →
      exec (.tickRelease f q) s = .next ((s.setQueue f q { s.queue f q with trel := [] }).deliver f q e.2))

/-- A dispatch (spec/14 R316-R319, R326, R327, R329, spec/05 R102, R106, R111, spec/13 R295): the only head that can go is placed on its
own clusters, runs once more, and each context of its batch is RUNNING; an express one that finds them taken kills the ordinary
commands there; on each cluster a fresh instance issues, with its rank,
at its first word, with all registers 0 and p0 alone set. -/
def Obligations.DispatchResult : Prop :=
  ∀ (s : State) (c : Cmd), s.alive = true → s.sched.paddock = false → s.heads = [c] → s.cmd c.id = some c → c.clusters ≠ [] →
    (c.express = false ∨ s.capped c.fn = true → s.verdict c false = some none → s.reservedBut c = [] →
      (∀ g ∈ c.clusters, (s.cl g).isFree = true) → exec .commandDispatch s = .next (s.dispatch c false c.clusters))
    ∧ (c.express = true → s.capped c.fn = false → s.verdict c true = some none →
      ((∀ g ∈ c.clusters, (s.cl g).isFree = true) → exec .expressDispatch s = .next (s.dispatch c true c.clusters))
      ∧ ((∃ g ∈ c.clusters, (s.cl g).isFree = false) → (∀ g ∈ c.clusters, s.expressOn g = false) →
        (∀ v ∈ s.victims c.clusters, s.stopComing v = false) →
        exec .expressDispatch s = .next (((s.victims c.clusters).foldl (fun u v => u.killRerun v 0 true) s).dispatch c true c.clusters)))
    ∧ (∀ x g k, c.clusters[k]? = some g → ∃ i, ((s.dispatch c x c.clusters).cl g).issuing = some i ∧ i.cmd = c.id ∧ i.rank = k
        ∧ i.size = c.clusters.length ∧ i.pc = 0 ∧ i.sreg = [] ∧ i.desc = [] ∧ i.pred = 1 ∧ i.ctr = [] ∧ i.vreg = []
        ∧ i.gen = 1 ∧ i.done = false ∧ i.wait = none ∧ i.bankInit = 0 ∧ i.args = c.args)
    ∧ (∀ x, ∀ n ∈ c.batch, ((s.dispatch c x c.clusters).ctx n).state = 2)
    ∧ (∀ x, ∃ d, (s.dispatch c x c.clusters).cmd c.id = some d ∧ d.st = .running ∧ d.place = c.clusters ∧ d.runs = c.runs + 1
        ∧ d.xrun = x)
/-- Readiness and commit (spec/05 R112, R113): an instance whose issue and operations have ended leaves its cluster, the last one
makes the command ready; from the next beat on a command of no gang commits, which takes it out of the commands, unless one of its queue
submitted before it commits in the same beat, and unless its deadline passed first (spec/02 R44, R47, spec/15 R345). -/
def Sys2Proof.Claims.InstanceReadiness : Prop :=
  ∀ (s : State) (id : Nat) (c : Cmd), s.alive = true → s.cmd id = some c →
    (∀ (g : Cl) i, (s.cl g).instOf id = some i → i.done = true → c.st = .running → s.stabled g = false →
      c.faults = [] → (s.fab.waiting.any fun w => w.1 == id) = false → ((s.cl g).ops.any fun o => o.cmd == id) = false →
      ∃ t, exec (.instanceReady id g) s = .next t ∧ t.clusters = (s.modCl g fun k => k.dropInst id).clusters
        ∧ (c.insts.length + 1 < c.place.length → t.cmd id = some { c with insts := c.insts ++ [(g.val, i)] })
        ∧ (c.place.length ≤ c.insts.length + 1 →
            t.cmd id = some { c with insts := c.insts ++ [(g.val, i)], st := .ready, readyBeat := s.beat }
            ∧ (c.gangSize ≠ 0 → t.fab.outbox = s.fab.outbox ++ [.ready s.glb.index c.fn c.gang (s.beat + 1) c.epoch])))
    ∧ (c.st = .ready → c.gangSize = 0 → c.readyBeat + 1 ≤ s.beat → s.resetComing c.fn = false →
      (c.late = false → s.commitsBefore c = false →
        exec (.commandCommit id) s = .next (s.commit c) ∧ (∀ d ∈ (s.commit c).cmds.list, d.id ≠ c.id))
      ∧ (c.late = true → exec (.commandCommit id) s = .next (s.faultCmd c fDeadline none 0 true)))

/-- What a commit does to the one context of its batch (spec/12 R278, spec/13 R294, R303): the kept candidates of its last settle are
appended, LEN, FILL and the charge grow by their number, the balance of its account falls by 16 for each, and it is OPEN. -/
def Sys2Proof.Claims.CommitSettlesContext : Prop :=
  ∀ (s : State) (c : Cmd) (x g : Nat) (i : Inst) (m : BitVec 16),
    c.batch = [x] → c.insts = [(g, i)] → i.settles = [{ slot := 0, keep := m }] → i.flushes = [] → c.report = none →
    (s.ctx x).state = 2 → (s.fn (s.ctx x).tenant).reqs = [] → smWf ({} : Ctx) s.serv.ctxs = true →
    smWf ({} : Account) s.serv.accts = true → smWf ({} : FnBlk) s.fns = true →
    ((s.commit c).ctx x).state = 1
    ∧ ((s.commit c).ctx x).len = (s.ctx x).len + (setBits m).length
    ∧ ((s.commit c).ctx x).fill = (s.ctx x).fill + (setBits m).length
    ∧ ((s.commit c).ctx x).charged = (s.ctx x).charged + BitVec.ofNat 64 (setBits m).length
    ∧ ((s.commit c).ctx x).steps = satAdd (s.ctx x).steps 1
    ∧ ((s.commit c).acct (s.ctx x).account).balance =
        max (-(2 ^ 31 : Int)) ((s.acct (s.ctx x).account).balance - 16 * (setBits m).length)

/-- Readiness, the commit of a command and of the one context of its batch (spec/05 R112, R113, spec/12 R278, spec/13 R294, R303). -/
def Obligations.ReadyAndCommitResult : Prop := Claims.InstanceReadiness ∧ Claims.CommitSettlesContext

/-- Gangs and drains (spec/05 R121-R124, spec/07 R181, spec/11 R263): a ready notice replaces the package's older one; a gang whose
members are all ready at one epoch commits two beats after the last; a kill notice makes the member run again, or ends it, and what
its sender told a member not yet dispatched is void;
gang traffic of another tenant ends it with FAULT_PERMISSION; a drained command may be dispatched again once nothing it sent waits. -/
def Obligations.GangResult : Prop :=
  ∀ (s : State), s.alive = true →
    (∀ (pkg : Pk) (u : Fn) (gang : BitVec 16) (beat : W64) (epoch : W32) c, s.gangCmd gang.toNat pkg u = some c →
      (if c.inFlight then s.asOf c.dispSeq else s).pairFrom pkg u = some c.fn →
      exec (.gangReadyNotice pkg u gang beat epoch) s = .next (s.setCmd { c with notices :=
        (c.notices.filter fun n => n.pkg != pkg.val) ++ [{ pkg := pkg, beat := beat.toNat, epoch := epoch, lat := s.beat }] }))
    ∧ (∀ id c b, s.cmd id = some c → c.st = .ready → c.gangSize ≠ 0 → c.gangSize ≤ c.notices.length + 1 →
      b = c.notices.foldl (fun m n => max m n.beat) (c.readyBeat + 1) → b + 2 ≤ s.beat → s.resetComing c.fn = false →
      s.commitsBefore c = false →
      (∀ n ∈ c.notices, n.epoch = c.epoch ∧ n.lat ≤ b + 2) → exec (.gangCommit id) s = .next (s.commit c))
    ∧ (∀ (pkg : Pk) (u : Fn) (gang : BitVec 16) (k : GangCause) c, s.member gang.toNat = some c →
      (s.asOf c.dispSeq).pairFrom pkg u ≠ some c.fn →
      exec (.gangKillNotice pkg u gang k) s = .next (s.faultCmd c fPermission none 0 true)
        ∧ ∀ d ∈ (s.faultCmd c fPermission none 0 true).cmds.list, d.id ≠ c.id)
    ∧ (∀ (pkg : Pk) (u : Fn) (gang : BitVec 16) c, s.member gang.toNat = some c → c.heldAborts = 0 → c.heldCancels = [] →
      (s.asOf c.dispSeq).pairFrom pkg u = some c.fn → s.cmd c.id = some c →
      (∃ t d, exec (.gangKillNotice pkg u gang .rerun) s = .next t ∧ t.cmd c.id = some d ∧ (d.st = .queued ∨ d.st = .draining)
        ∧ d.place = [] ∧ d.insts = [] ∧ d.notices = [])
      ∧ (∃ t, exec (.gangKillNotice pkg u gang .faulted) s = .next t ∧ ∀ d ∈ t.cmds.list, d.id ≠ c.id))
    ∧ (∀ (pkg : Pk) (u : Fn) (gang : BitVec 16) (k : GangCause) c, s.gangCmd gang.toNat pkg u = some c → c.inFlight = false →
      s.pairFrom pkg u = some c.fn → exec (.gangKillNotice pkg u gang k) s = .next (s.forget c pkg))
    ∧ (∀ id c, s.cmd id = some c → c.st = .draining → s.memc.rateBusy = false →
      (s.fab.unacked.any fun u => u.cmd == id && u.op != 0) = false →
      ∃ t, exec (.ceDrainComplete id) s = .next t ∧ t.cmd id = some { c with st := .queued } ∧ t.tim = s.tim
        ∧ (∀ r ∈ t.memc.waiting, r.cmd ≠ id) ∧ ∀ g, ∀ o ∈ (t.cl g).ops, ¬ (o.cmd = id ∧ o.killed = true))
/-- Starts of functions and queues (spec/15 R341, R354, R337, R345): ENABLE makes a STOPPED function that may start negotiate, is kept as it is written otherwise (what it does where the function may
not start is log entry 57), and resets a RUNNING one where it is cleared;
the overlap of the two ranges is taken at its highest version, none refuses with REFUSED_VERSION; a queue's ENABLE is a bit of its
CFG, and SCH's check makes it active or shows one reason against it. -/
def Obligations.FunctionStartResult : Prop :=
  ∀ (s u : State) (f : Fn) (q : Qn), s.alive = true → u = s.setLow f none →
    (s.present f = true → s.mayStart f = true → (s.fn f).state = 0 →
      exec (.fnCtrlEnable f true) s = .next (u.setFn f { s.fn f with enable := true, state := 1 }).toNormal)
    ∧ (s.present f = true → s.mayStart f = false ∨ (s.fn f).state ≠ 0 →
      exec (.fnCtrlEnable f true) s = .next (u.setFn f { s.fn f with enable := true }))
    ∧ (s.present f = true → (s.fn f).state = 2 → exec (.fnCtrlEnable f false) s = .next (u.functionReset f true))
    ∧ (s.schUp = true → (s.fn f).state = 1 →
      max (hiaLow (s.fn f).drv) (hiaLow s.hiaFw) ≤ min (hiaHigh (s.fn f).drv) (hiaHigh s.hiaFw) →
      exec (.negotiate f) s = .next ((s.setFn f ({ s.fn f with
          resetBeat := none
          state := 2
          code := 0
          major := BitVec.ofNat 8 (min (hiaHigh (s.fn f).drv) (hiaHigh s.hiaFw) / 256)
          minor := BitVec.ofNat 8 (min (hiaHigh (s.fn f).drv) (hiaHigh s.hiaFw)) } : FnBlk)).resumeBindings f))
    ∧ (s.schUp = true → (s.fn f).state = 1 →
      min (hiaHigh (s.fn f).drv) (hiaHigh s.hiaFw) < max (hiaLow (s.fn f).drv) (hiaLow s.hiaFw) →
      exec (.negotiate f) s = .next (s.setFn f { s.fn f with state := 3, code := rVersion }))
    ∧ (cfgEnable (s.queue f q) = false → (s.fn f).state ≠ 3 →
      exec (.queueEnable f q true) s = .next (u.setQueue f q { s.queue f q with
        cfg := putBit (s.queue f q).cfg 0 true, refusal := 0 }))
    ∧ (cfgEnable (s.queue f q) = true → ∃ t, exec (.queueEnable f q false) s = .next t
        ∧ ∀ d ∈ t.cmds.list, d.fn = f.val → d.q = q.val → d.inFlight = true)
    ∧ (s.schUp = true → (s.queue f q).active = false → cfgEnable (s.queue f q) = true → (s.fn f).state = 2 →
      (s.queue f q).refusal = 0 →
      (s.queueRefusals f q = [] → exec (.queueCheck f q) s = .next (s.setQueue f q { s.queue f q with active := true }))
      ∧ (s.queueRefusals f q ≠ [] → ∃ r ∈ s.queueRefusals f q,
          exec (.queueCheck f q) s = .next (s.setQueue f q { s.queue f q with refusal := r }).bump))
    ∧ (s.present f = true → (∀ e ∈ (s.fn f).queues, e.2.held = []) →
      exec (.busMasterEnable f true) s = .next (s.setFn f { s.fn f with busMaster := true }))

/-- Resets (spec/15 R356-R358, spec/19 R411): a function-level reset leaves the function STOPPED with none of its commands, requests or
mappings; a device reset leaves no command, context, instance or pending write and every function STOPPED; RECOVER arms a
recovery boot; VF Enable cleared resets every VF. A move to D3hot resets as an FLR does and is held (spec/15 R336); the move back to
D0 resets nothing (the model's reading, log entry 96). -/
def Obligations.ResetResult : Prop :=
  ∀ (s : State), s.alive = true → s.tablesWf →
    (∀ (f : Fn), s.present f = true → f ≠ 0 → exec (.flr ⟨f, .flr⟩) s = .next (s.functionReset f false)
        ∧ exec (.flr ⟨f, .d3hot⟩) s = .next ((s.functionReset f false).modFn f fun b => { b with d3hot := true })
        ∧ exec (.flr ⟨f, .d0⟩) s = .next (s.modFn f fun b => { b with d3hot := false }))
    ∧ (exec .fnReset s = .next ((s.setLow 0 none).functionReset 0 true))
    ∧ (∀ (f : Nat) (k : Bool), (∀ d ∈ (s.functionReset f k).cmds.list, d.fn ≠ f) ∧ ((s.functionReset f k).fn f).state = 0
        ∧ ((s.functionReset f k).fn f).enable = false ∧ ((s.functionReset f k).fn f).reqs = []
        ∧ ((s.functionReset f k).ten f).leaves = [] ∧ ((s.functionReset f k).ten f).weight = (s.ten f).weight)
    ∧ (∀ cause, exec (.devReset cause) s = .next (s.deviceReset (cause == .devReset)))
    ∧ exec (.flr ⟨0, .flr⟩) s = .next (s.deviceReset false)
    ∧ exec (.flr ⟨0, .d3hot⟩) s = .next ((s.deviceReset false).modFn 0 fun b => { b with d3hot := true })
    ∧ (∀ (k : Bool), (s.deviceReset k).cmds.list = [] ∧ (s.deviceReset k).clusters = [] ∧ (s.deviceReset k).infl = []
        ∧ (s.deviceReset k).serv.ctxs = [] ∧ (∀ f, ((s.deviceReset k).fn f).state = 0)
        ∧ (s.deviceReset k).board.bootPending = true ∧ (s.deviceReset k).sec.presence = 0
        ∧ (s.deviceReset k).hostMem = s.hostMem ∧ (s.deviceReset k).fls.arr = s.fls.arr)
    ∧ (s.sec.presence = 0 → ∃ t, exec .recover s = .next t ∧ t.sec.presence = 1 ∧ (t.fn 0).recoverArmed = true
        ∧ t.mem = s.mem ∧ t.cmds = s.cmds ∧ t.clusters = s.clusters)
    ∧ (s.sec.bootMode = 0 → exec (.vfEnable true) s = .next { s with board := { s.board with vfEnable := true } })
    ∧ (s.sec.bootMode = 0 → s.board.vfEnable = true → ∃ t, exec (.vfEnable false) s = .next t ∧ t.board.vfEnable = false
        ∧ ∀ f, 1 ≤ f → f < 64 → (t.fn f).state = 0)

/-- A host write of a 64-bit register (spec/00 R8-R10), shown on TIM_TOD_NEXT: 8 bytes write it whole; its low word alone changes
nothing until the high word is written, and then both are taken in one act; a write of another register between the two discards the
low word; a write of 1 or 2 bytes changes nothing. -/
def Sys2Proof.Claims.RegisterWriteResult : Prop :=
  ∀ (s : State), s.alive = true →
    (∀ v, ∃ t, exec (.registerWrite 0 ⟨.bar0, 0x10008⟩ 8 v) s = .next t ∧ t.tim = { s.tim with todNext := v } ∧ t.mem = s.mem
      ∧ t.pwr = s.pwr ∧ t.fns = s.fns ∧ t.clusters = s.clusters)
    ∧ (∀ lo hi : W64, ∃ s1 t, exec (.registerWrite 0 ⟨.bar0, 0x10008⟩ 4 lo) s = .next s1 ∧ s1.tim = s.tim
      ∧ exec (.registerWrite 0 ⟨.bar0, 0x1000C⟩ 4 hi) s1 = .next t
      ∧ t.tim = { s.tim with todNext := BitVec.ofNat 64 (lo.toNat % 2 ^ 32 + hi.toNat % 2 ^ 32 * 2 ^ 32) })
    ∧ (∀ (f : Fn) (off : W32) (v : W64),
      exec (.registerWrite f ⟨.bar0, off⟩ 1 v) s = .next s ∧ exec (.registerWrite f ⟨.bar0, off⟩ 2 v) s = .next s)
    ∧ (∀ lo hi : W64, ∃ s1 s2 t, exec (.registerWrite 0 ⟨.bar0, 0x10008⟩ 4 lo) s = .next s1
      ∧ exec (.registerWrite 0 ⟨.bar0, 0x10010⟩ 4 0) s1 = .next s2 ∧ exec (.registerWrite 0 ⟨.bar0, 0x1000C⟩ 4 hi) s2 = .next t
      ∧ t.tim.todNext = BitVec.ofNat 64 (s2.tim.todNext.toNat % 2 ^ 32 + hi.toNat % 2 ^ 32 * 2 ^ 32))

/-- Writes of the doorbell page (spec/15 R342, R344): bytes below 0xC00 are those of the PUSH records of a PUSH queue; offset 0xC00 is
SQ_TAIL, 0xC08 CQ_HEAD, 0xC10 ABORT. -/
def Sys2Proof.Claims.DoorbellPage : Prop :=
  ∀ (s : State) (f : Fn) (q : Qn) (v : W64), s.alive = true → s.present f = true →
    (∀ o n, n ≤ 8 → o + n ≤ 0xC00 → cfgPush (s.queue f q) = true →
      exec (.registerWrite f ⟨.bar2, BitVec.ofNat 32 (4096 * q.val + o)⟩ n v) s =
        .next ((s.setLow f none).setQueue f q { s.queue f q with push := memPuts (s.queue f q).push o (leBytes n v.toNat) }))
    ∧ exec (.registerWrite f ⟨.bar2, BitVec.ofNat 32 (4096 * q.val + 0xC00)⟩ 4 v) s = exec (.sqTail f q (v.setWidth 32)) s
    ∧ exec (.registerWrite f ⟨.bar2, BitVec.ofNat 32 (4096 * q.val + 0xC08)⟩ 4 v) s = exec (.cqHead f q (v.setWidth 32)) s
    ∧ exec (.registerWrite f ⟨.bar2, BitVec.ofNat 32 (4096 * q.val + 0xC10)⟩ 4 v) s = exec (.abort f q (v.setWidth 32)) s

/-- The recovery window (spec/15 R359): in recovery, after the clearing, a write through BAR4 at base 0 puts its bytes into HBM and
leaves every other byte; a read of HBM writes nothing. -/
def Sys2Proof.Claims.RecoveryWindowResult : Prop :=
  ∀ (s : State) (off : W32) (bs : List Byte), s.alive = true → s.windowOpen = true → (s.fn 0).recBase = 0 → bs ≠ [] →
    bs.length ≤ 64 → off.toNat + bs.length ≤ 2 ^ 32 → s.infl = [] → s.memc.waiting = [] → s.memc.poison = [] → s.memc.upset = [] →
    s.memc.migs = [] → Memory.wf s.mem →
    (∃ t, exec (.recoveryWindowAccess off (.inl bs)) s = .next t ∧ t.fns = s.fns ∧ t.clusters = s.clusters ∧ t.cmds = s.cmds
      ∧ (∀ k, k < bs.length → memGet t.mem (off.toNat + k) = bs.getD k 0)
      ∧ (∀ a, a < off.toNat ∨ off.toNat + bs.length ≤ a → memGet t.mem a = memGet s.mem a))
    ∧ (∃ t, exec (.recoveryWindowAccess off (.inr bs.length)) s = .next t ∧ t.mem = s.mem ∧ t.infl = s.infl ∧ t.fns = s.fns
      ∧ t.clusters = s.clusters ∧ t.cmds = s.cmds)

/-- A host write of a register, of the doorbell page and of the recovery window (spec/00 R8-R10, spec/15 R342, R344, R359). -/
def Obligations.HostAccessResult : Prop := Claims.RegisterWriteResult ∧ Claims.DoorbellPage ∧ Claims.RecoveryWindowResult
/-- SCH takes the request: the device runs in normal boot, it is the turn of this request, which the function fetched as it is, and the negotiated version has it
(spec/15 R351, R355, R359). -/
abbrev Sys2Proof.Claims.Taken (s : State) (f : Fn) (cid : BitVec 16) (minor : Nat) (i : Instr) : Prop :=
  s.alive = true ∧ s.canTake f cid i = true ∧ s.sec.bootMode = 0 ∧ (s.fn f).atLeast 1 minor = true

/-- MAP, UNMAP and TRANSFER (spec/09 R217-R226, spec/15 R351): MAP of whole pages in an unmapped range with room answers OK and adds
one leaf for each page; UNMAP removes every leaf of its range; a TRANSFER begins, and its end moves host bytes into the range, or bytes of the range to the host. -/
def Obligations.MappingResult : Prop :=
  ∀ (s : State) (f : Fn) (cid : BitVec 16),
    (∀ (va bytes p2 : W64) (t : State), Claims.Taken s f cid 0 (.map f cid va bytes p2) → bits p2.toNat 1 0 = 1 → bits p2.toNat 3 2 ≤ 1 → bits p2.toNat 7 6 ≠ 3 →
      p2.toNat < 256 → bytes.toNat ≠ 0 → va.toNat + bytes.toNat ≤ 2 ^ 48 → va.toNat % 0x200000 = 0 → bytes.toNat % 0x200000 = 0 →
      inWindows va.toNat bytes.toNat = false → ((s.ten f).leaves.any fun l => overlaps l.va l.size va.toNat bytes.toNat) = false →
      (s.ten f).over (bits p2.toNat 3 2 == 1) = false → s.mapMany f va.toNat 0x200000 (bits p2.toNat 3 2 == 1) (bitN p2.toNat 4) (bitN p2.toNat 5) (bits p2.toNat 7 6)
        (bytes.toNat / 0x200000) = some t →
      (t.ten f).useHbm ≤ (t.ten f).quotaHbm → (t.ten f).useLoft ≤ (t.ten f).quotaLoft →
      exec (.map f cid va bytes p2) s = .next (t.answer f cid stOk 0)
      ∧ ((t.ten f).leaves.map fun l => (l.va, l.size, l.w, l.pin)) = ((s.ten f).leaves.map fun l => (l.va, l.size, l.w, l.pin))
          ++ (List.range (bytes.toNat / 0x200000)).map fun k =>
            (va.toNat + 0x200000 * k, 0x200000, bitN p2.toNat 4, bitN p2.toNat 5))
    ∧ (∀ (va bytes : W64), Claims.Taken s f cid 0 (.unmap f cid va bytes) → bytes.toNat ≠ 0 → va.toNat + bytes.toNat ≤ 2 ^ 48 →
      s.inPools f va.toNat bytes.toNat = false → va.toNat % 65536 = 0 → bytes.toNat % 65536 = 0 →
      ((s.ten f).leaves.any fun l => overlaps l.va l.size va.toNat bytes.toNat
        && !(decide (va.toNat ≤ l.va) && decide (l.va + l.size ≤ va.toNat + bytes.toNat))) = false →
      ∃ t : State, exec (.unmap f cid va bytes) s = .next (t.answer f cid stOk 0)
        ∧ (smWf ({} : Tenant) s.tens = true → (t.ten f).leaves =
            (s.ten f).leaves.filter fun l => !overlaps l.va l.size va.toNat bytes.toNat))
    ∧ (∀ (va host bytes dir : W64) (data : List Byte), Claims.Taken s f cid 0 (.transfer f cid va host bytes dir data) → bytes ≠ 0 → bytes.toNat ≤ 2 ^ 32 → dir.toNat ≤ 1 →
      va.toNat + bytes.toNat ≤ 2 ^ 48 →
      exec (.transfer f cid va host bytes dir data) s =
        .next (s.keepReq f cid true (.transfer f cid va host bytes dir data)))
    ∧ (∀ (va host bytes dir : W64) (data : List Byte) q (u : State) as, s.alive = true → s.schUp = true → (s.fn f).busMaster = true →
      ((s.fn f).reqs.find? fun r => r.cid == cid && r.begun) = some q →
      q.what = some (.transfer f cid va host bytes dir data) → as = addrs va.toNat bytes.toNat → s.shutTen f as = false →
      u = (if dir = 0 then s.arrive else s.arrive.pull f as srcHost) →
      (as.flatMap fun a => u.hostFault f a (dir == 0)) = [] →
      (dir = 0 → exec (.transferDone f cid) s = .next ((u.wrVa f va.toNat (padTo bytes.toNat data) srcHost).answer f cid stOk 0).bump)
      ∧ (dir ≠ 0 → exec (.transferDone f cid) s = .next (({ u with hostMem := memPuts u.hostMem host.toNat (u.readBs ⟨f, 0, 0⟩ as).1 } : State).answer f cid stOk 0).bump))

/-- PROGRAM_LOAD, PROGRAM_DROP, TSET_INSTALL, OWNER_INSTALL with its switch, SHARE and EXPRESS_CAP (spec/05 R103, spec/08 R196-R198,
spec/07 R184-R186, spec/14 R319, R329): what each stores and what it answers. A share or a cap is a policy write: it is latched in a later beat than its own (spec/02 R41). -/
def Obligations.TenantRequestResult : Prop :=
  ∀ (s : State) (f : Fn) (cid : BitVec 16),
    (∀ (image : List Byte), Claims.Taken s f cid 0 (.programLoad f cid image) → image ≠ [] → image.length % 8 = 0 → image.length ≤ 65536 →
      (∃ p, p < 65536 ∧ smGet [] (s.ten f).progs p = []) →
      ∃ (t : State) (p : Nat), exec (.programLoad f cid image) s = .next (t.answer f cid stOk (BitVec.ofNat 64 p)) ∧ p < 65536
        ∧ smGet [] (s.ten f).progs p = [] ∧ smGet [] (t.ten f).progs p = wordsOf (image.length / 8) image)
    ∧ (∀ (prog : W64), Claims.Taken s f cid 0 (.programDrop f cid prog) → prog.toNat < 65536 → smGet [] (s.ten f).progs prog.toNat ≠ [] →
      (s.cmds.list.any fun c => c.inFlight && c.fn == f.val && c.program == prog.toNat) = false →
      ∃ t : State, exec (.programDrop f cid prog) s = .next (t.answer f cid stOk 0)
        ∧ t.tens = (s.modTen f fun n => { n with progs := smPut [] n.progs prog.toNat [] }).tens
        ∧ ∀ g r, r ∈ (t.cl g).progs → r.tenant = f.val → r.prog ≠ prog.toNat)
    ∧ (∀ (tset : W64) (param : List Byte), Claims.Taken s f cid 0 (.tsetInstall f cid tset param) → 1 ≤ tset.toNat → tset.toNat ≤ 63 → param.length = 2112 →
      fieldN param 0 1 < 64 → ((List.range 8).all fun i => recordOk ((param.drop (64 + 256 * i)).take 256)) = true →
      ∃ (t : State) (ts : TableSet), exec (.tsetInstall f cid tset param) s = .next (t.answer f cid stOk 0) ∧ t.tset f tset.toNat = some ts
        ∧ ts.minGain = fieldN param 0 1 ∧ ∀ i, i < 8 → smGet [] ts.records i = uploaded param i)
    ∧ (∀ (table frame : W64) (param : List Byte) es (os : List OwnerVer), Claims.Taken s f cid 2 (.ownerInstall f cid table frame param) → 1 ≤ table.toNat → table.toNat ≤ 1023 →
      frame.toNat < 2 ^ 32 → 16 ≤ fieldN param 0 1 → fieldN param 0 1 ≤ 30 → zerosN param 1 4 = true → zerosN param 8 64 = true →
      1 ≤ fieldN param 4 4 → fieldN param 4 4 ≤ 65536 → param.length = 64 + 8 * fieldN param 4 4 →
      ownerEntries (fieldN param 4 4) (param.drop 64) = some es → 0 < diff32 (frame.setWidth 32) (BitVec.ofNat 32 s.frame) →
      os = smGet [] (s.ten f).owners table.toNat ++
        [{ log2 := fieldN param 0 1, entries := es, frame := frame.setWidth 32, since := none, cid := some cid }] →
      exec (.ownerInstall f cid table frame param) s =
        .next ((s.modTen f fun x => { x with owners := smPut [] x.owners table.toNat os }).keepReq f cid true (.ownerInstall f cid table frame param)))
    ∧ (∀ (t : Fn) (table : Fin 1024) v w, s.alive = true → s.frameEdge = true → smGet [] (s.ten t).owners table = [v] →
      v.since = none → diff32 v.frame (BitVec.ofNat 32 s.frame) ≤ 0 →
      w = { v with since := some (s.cmds.nextSeq + 1) } →
      exec (.ownerTableSwitch t table) s =
        .next (s.stamp.modTen t fun n => { n with owners := smPut [] n.owners table [w] }).reap)
    ∧ (∀ (tenant weight : W64), Claims.Taken s 0 cid 0 (.share 0 cid tenant weight) → tenant.toNat ≤ 63 → weight.toNat ≤ 65535 →
      exec (.share 0 cid tenant weight) s = .next ((s.policy (.share tenant.toNat (weight.setWidth 16))).answer 0 cid stOk 0))
    ∧ (∀ (fn cap : W64), Claims.Taken s 0 cid 3 (.expressCap 0 cid fn cap) → fn.toNat ≤ 63 → cap.toNat ≤ 65535 →
      exec (.expressCap 0 cid fn cap) s = .next ((s.policy (.cap fn.toNat (cap.setWidth 16))).answer 0 cid stOk 0))
    ∧ (∀ b n w, s.sched.writes = [(b, .share n w)] → smWf ({} : Tenant) s.tens = true →
      (b < s.beat → (s.policyBeat.ten n).weight = w ∧ s.policyBeat.sched.writes = []) ∧ (s.beat ≤ b → s.policyBeat = s))
    ∧ (∀ b n w, s.sched.writes = [(b, .cap n w)] → smWf ({} : Express) s.sched.express = true →
      (b < s.beat → (smGet ({} : Express) s.policyBeat.sched.express n).cap = w) ∧ (s.beat ≤ b → s.policyBeat = s))

/-- Gates (spec/11 R252-R265): registration locks the leaves its layers cover; a swap is accepted and closes at a frame boundary, one
behind a held swap ends ABORTED; a layer's copy starts with a CE entry on some cluster (log entry 75), commits by writing the staging bytes over the live ones, or fails and may be tried again; the last commit
moves the gate to the next epoch and answers OK; RESUME and UNREGISTER end a stall and a registration. -/
def Obligations.GateResult : Prop :=
  ∀ (s : State) (f : Fn) (cid : BitVec 16) (n : Fin 64) (gt : W64) (r : GateRec), gt.toNat = n.val →
    (∀ (param : List Byte) m, Claims.Taken s f cid 0 (.gateRegister f cid gt param) → s.gate f n = none → parseManifest param = some m →
      s.manifestOk f m = true →
      ∃ t : State, exec (.gateRegister f cid gt param) s = .next (t.answer f cid stOk 0)
        ∧ (∃ g : GateRec, t.gate f n = some g ∧ g.man = m ∧ g.epoch = m.epoch ∧ g.state = 0)
        ∧ (∀ l ∈ (t.ten f).leaves, m.covers l = true → l.pin = true ∧ l.w = false))
    ∧ (∀ (param : List Byte) m, Claims.Taken s f cid 0 (.gateSwap f cid gt param) → s.gate f n = some r → r.state = 0 → r.closing = false → r.held = none →
      parseManifest param = some m → s.stagingOk f r r.epoch m = true →
      exec (.gateSwap f cid gt param) s = .next ((s.setGate f n
        (some { r with staging := some m, swapCid := cid, closing := true })).keepReq f cid true (.gateSwap f cid gt param)))
    ∧ (∀ (param : List Byte), Claims.Taken s f cid 0 (.gateSwap f cid gt param) → s.gate f n = some r → r.held.isSome = true →
      exec (.gateSwap f cid gt param) s = .next (s.answer f cid stAborted 0))
    ∧ (s.alive = true → s.gate f n = some r → r.closing = true → r.state = 0 → s.frameEdge = true →
      exec (.gateClose f n) s = .next (s.setGate f n (some ({ r with
        state := 1
        closing := false
        front := 0
        swapped := 0
        attempts := 0
        copying := false
        torn := false
        since := s.tick } : GateRec))))
    ∧ (s.alive = true → s.schUp = true → s.gate f n = some r → r.state = 1 → r.copying = false →
      s.oldOn f n r.epoch r.front = [] → (∃ g : Cl, s.serves g = true ∧ (s.cl g).full false (.ce 0) = false) →
      ∃ (t : State) (g : Cl), exec (.layerCopyStart f n) s = .next t
        ∧ t.gate f n = some { r with copying := true, attempts := r.attempts + 1 }
        ∧ s.serves g = true ∧ (t.cl g).maint = (s.cl g).maint ++ [.layer f n] ∧ t.mem = s.mem ∧ t.cmds = s.cmds)
    ∧ (∀ l x m bs u, s.alive = true → s.schUp = true → s.gate f n = some r → r.state = 1 → r.copying = true →
      r.man.layers[r.front]? = some l → r.staging = some m → m.layers[r.front]? = some x →
      s.shutTen f (addrs x.va l.bytes ++ addrs l.va l.bytes) = false → s.schRead f x.va l.bytes = (u, .inl bs) →
      (∀ a ∈ addrs l.va l.bytes, (s.access f 0 a false).isRight = false) →
      (r.swapped + 1 < r.man.layers.length → exec (.layerCopyCommit f n) s = .next (((u.wrVa f l.va bs).endMaint (.layer f n)).setGate f n (some ({ r with
        front := r.front + 1
        swapped := r.swapped + 1
        copying := false
        torn := false
        attempts := 0
        since := s.tick } : GateRec))))
      ∧ (r.man.layers.length ≤ r.swapped + 1 → r.held = none → ∃ g : GateRec, exec (.layerCopyCommit f n) s =
          .next ((((u.wrVa f l.va bs).endMaint (.layer f n)).setGate f n (some g)).answer f r.swapCid stOk 0)
          ∧ g.state = 0 ∧ g.epoch = nextEpoch r.epoch ∧ g.front = 0 ∧ g.swapped = 0 ∧ g.staging = none ∧ g.copying = false))
    ∧ (s.alive = true → s.schUp = true → s.gate f n = some r → r.state = 1 → r.copying = true →
      ∃ (t : State) (g : GateRec), exec (.layerCopyFail f n) s = .next t ∧ t.gate f n = some g ∧ g.copying = false ∧ g.torn = true
        ∧ g.epoch = r.epoch ∧ (r.attempts < 3 → g.state = 1) ∧ (3 ≤ r.attempts → g.state = 2))
    ∧ (∀ c, s.alive = true → s.schUp = true → s.gate f n = some r → r.state = 1 → r.copying = false →
      r.since + s.sched.holdLimit.toNat < s.tick → ((s.oldOn f n r.epoch r.front).find? fun c => c.st == .running) = some c →
      ∃ t : State, exec (.gateHoldKill f n) s = .next t ∧ t.sched.holdKills = s.sched.holdKills + 1)
    ∧ (Claims.Taken s f cid 0 (.gateResume f cid gt) → s.gate f n = some r → r.state = 2 → exec (.gateResume f cid gt) s =
        .next ((s.setGate f n (some { r with state := 1, attempts := 0 })).answer f cid stOk 0))
    ∧ (Claims.Taken s f cid 0 (.gateUnregister f cid gt) → s.gate f n = some r →
      (s.cmds.list.any fun c => c.inFlight && c.fn == f.val && s.usesGate c n) = false →
      exec (.gateUnregister f cid gt) s = .next ((s.dropGate f n r).answer f cid stOk 0))

/-- A request that SCH has begun and that is still open. -/
abbrev Sys2Proof.Claims.Begun (s : State) (f : Fn) (cid : BitVec 16) (i : Instr) : Prop :=
  s.alive = true ∧ s.schUp = true ∧ ((s.fn f).reqs.find? fun r => r.cid == cid && r.begun).bind (·.what) = some i

/-- Layouts (spec/12 R269-R271, R283, spec/15 R351): a registration stores the record and takes W from the pools' pages and pins
the troughs'; a mask waits for the next frame boundary; a re-coding begins where a page uses the record, and each page re-coded
moves to a new run once no channel of the two is shut for a rate change (spec/10 R248); a re-coding with no page left is answered. -/
def Obligations.LayoutResult : Prop :=
  ∀ (s : State) (f : Fn) (cid : BitVec 16),
    (∀ (layout : W64) (param : List Byte) l, Claims.Taken s f cid 0 (.layoutRegister f cid layout param) → parseLayout param = some l → layout.toNat ≤ 15 →
      (s.tset f l.tset).isNone = false → s.mappedAll f l.poolBase l.poolBytes = true →
      s.mappedAll f l.troughBase l.troughBytes = true →
      ((s.ten f).leaves.any fun x => x.on l.troughBase l.troughBytes && !isHbm x.pa) = false →
      s.layoutUsed f layout.toNat = false →
      ∃ t : State, exec (.layoutRegister f cid layout param) s = .next (t.answer f cid stOk 0)
        ∧ t.layout f layout.toNat = some l
        ∧ (∀ x ∈ (t.ten f).leaves, x.on l.troughBase l.troughBytes = true → x.w = false ∧ x.pin = true ∧ x.hint = 0)
        ∧ ∀ x ∈ (t.ten f).leaves, x.on l.poolBase l.poolBytes = true → x.w = false)
    ∧ (∀ (layout mask : W64) l, Claims.Taken s f cid 0 (.layoutMask f cid layout mask) → layout.toNat ≤ 15 → mask.toNat ≤ 255 →
      s.layout f layout.toNat = some l →
      exec (.layoutMask f cid layout mask) s = .next ((s.setLayout f layout.toNat
        (some { l with maskNext := some (s.frame + 1, mask.setWidth 8) })).answer f cid stOk 0))
    ∧ (∀ (layout record : W64) l, Claims.Taken s f cid 4 (.layoutRecode f cid layout record) → layout.toNat ≤ 15 → record.toNat ≤ 7 →
      s.layout f layout.toNat = some l →
      exec (.layoutRecode f cid layout record) s = .next (
        if (s.recodePage f layout.toNat record.toNat).isNone then s.answer f cid stOk 0
        else s.keepReq f cid true (.layoutRecode f cid layout record)))
    ∧ (∀ (layout record : W64) (l : LayoutRec) (p : Page) (u : Nat) (v : State) rd w,
      Claims.Begun s f cid (.layoutRecode f cid layout record) → s.layout f layout.toNat = some l →
      s.recodePage f layout.toNat record.toNat = some p → s.takeRun l (l.u p.size) = some u →
      s.shutTen f (s.pageBytes f l p ++ addrs (l.unitVa u) (l.u p.size * l.unitBytes)) = false →
      v = s.pull f (s.pageBytes f l p) →
      rd = (List.range l.planes).map (fun k => v.readPlane f l p k) →
      w = v.codePage f l (l.unitVa u) p.size (rd.map (·.1)) →
      rd.flatMap (·.2) = [] → (v.schWrites f w.1).2 = [] →
      ∃ t : State, exec (.pageRecodeEffect f cid) s = .next t ∧ t.mem = (v.schWrites f w.1).1.mem
        ∧ t.serv.ctxs = (s.replacePage f layout.toNat p (l.unitVa u) w.2).serv.ctxs
        ∧ (t.serv.pfxs.map (·.pages)) = (s.replacePage f layout.toNat p (l.unitVa u) w.2).serv.pfxs.map (·.pages))
    ∧ (∀ (layout record : W64), Claims.Begun s f cid (.layoutRecode f cid layout record) →
      s.recodePage f layout.toNat record.toNat = none → exec (.pageRecodeEffect f cid) s = .next (s.answer f cid stOk 0))

/-- OPEN and the requests about a context (spec/13 R294-R301, R313): what a context opens with and which context number answers;
CLOSE makes it CLOSING, PARK parks it as SCH's own parking does, both wait while it is RUNNING; CANCEL that meets no ready
gang member is answered at once, ALREADY_DONE where a commit stands; QUERY writes the 256 bytes of the descriptor to the host. -/
def Obligations.ContextResult : Prop :=
  ∀ (s : State) (f : Fn) (cid : BitVec 16),
    (∀ (acct lay maxLen variant client tag : W64) l pages n, Claims.Taken s f cid 0 (.openContext f cid acct lay maxLen variant client tag) → acct.toNat ≤ 4095 → lay.toNat < 2 ^ 13 →
      bits lay.toNat 7 4 = 0 → 1 ≤ bits lay.toNat 12 8 → bits lay.toNat 12 8 ≤ 16 → s.acctOk f acct.toNat = true →
      s.layout f (bits lay.toNat 3 0) = some l → s.openPages f (bits lay.toNat 3 0) variant client = .inl (pages, n) →
      n < maxLen.toNat → maxLen.toNat ≤ 1048576 → s.ctxCount f < (s.ten f).ctxQuota → s.cached.length < 2048 →
      (∃ x, x < 65536 ∧ (s.ctx x).state = 0) → (∃ i, i < l.troughSlots ∧ i ∉ l.slots) →
      ∃ (t : State) (x : Nat), exec (.openContext f cid acct lay maxLen variant client tag) s =
          .next (t.answer f cid stOk (BitVec.ofNat 64 x))
        ∧ x < 65536 ∧ (s.ctx x).state = 0 ∧ (t.ctx x).state = 1 ∧ (t.ctx x).tenant = f ∧ (t.ctx x).account = acct.toNat
        ∧ (t.ctx x).layout = bits lay.toNat 3 0 ∧ (t.ctx x).candMax = bits lay.toNat 12 8 ∧ (t.ctx x).len = n
        ∧ (t.ctx x).fill = 0 ∧ (t.ctx x).map = 0 ∧ (t.ctx x).maxLen = maxLen.toNat ∧ (t.ctx x).pfxLen = n
        ∧ (t.ctx x).variant = variant ∧ (t.ctx x).client = client ∧ (t.ctx x).tag = tag
        ∧ (t.ctx x).lastTick = BitVec.ofNat 32 s.tick ∧ (t.ctx x).trough < l.troughSlots ∧ (t.ctx x).trough ∉ l.slots
        ∧ ((t.ctx x).pages.map fun p => (p.addr, p.pkg, p.size, p.first, p.tokens)) =
            (pages.map fun p => (p.addr, p.pkg, p.size, p.first, p.tokens))
        ∧ ∀ p ∈ (t.ctx x).pages, p.ro = true)
    ∧ (∀ (ctx : W64) x, Claims.Taken s f cid 0 (.closeContext f cid ctx) → s.reqCtx f ctx = .inl x →
      exec (.closeContext f cid ctx) s = .next (
        if (s.ctx x).state = 2 then s.keepReq f cid false (.closeContext f cid ctx)
        else (s.modCtx x fun k => { k with state := 4 }).answer f cid stOk 0))
    ∧ (∀ (ctx : W64) x, Claims.Taken s f cid 0 (.parkContext f cid ctx) → s.reqCtx f ctx = .inl x →
      ((s.ctx x).state = 2 →
        exec (.parkContext f cid ctx) s = .next (s.keepReq f cid false (.parkContext f cid ctx)))
      ∧ ((s.ctx x).state = 3 → exec (.parkContext f cid ctx) s = .next (s.answer f cid stOk 0))
      ∧ (∀ t, (s.ctx x).state = 1 → s.parkCtx x = some t → exec (.parkContext f cid ctx) s = .next (t.answer f cid stOk 0))
      ∧ ((s.ctx x).state = 1 → (s.ctx x).fill = 0 → ∃ t, s.parkCtx x = some t ∧ (t.ctx x).state = 3 ∧ (t.ctx x).trough = 0xFFFF))
    ∧ (∀ (ctx flags : W64) x, Claims.Taken s f cid 0 (.cancelContext f cid ctx flags) → s.reqCtx f ctx = .inl x → flags.toNat ≤ 1 → (s.ctx x).state ≠ 3 →
      ((s.fn f).reqs.any fun r => r.cid == cid && r.latched) = false →
      (s.cmds.list.any fun c => c.batch.contains x && (c.st == .ready) && c.gangSize != 0) = false →
      ∃ t : State, exec (.cancelContext f cid ctx flags) s = .next (t.answer f cid
          (if s.cmds.list.any fun c => c.batch.contains x && (c.st == .ready) && s.standing c then stAlreadyDone else stOk) 0)
        ∧ ((∀ c ∈ s.cmds.list, c.batch.contains x = false) →
          t = s.stamp.modCtx x fun k => { k with cancelSeq := s.cmds.nextSeq + 1 }))
    ∧ (∀ (ctx host : W64) x, Claims.Taken s f cid 0 (.query f cid ctx host) → s.reqCtx f ctx = .inl x → (s.ctx x).state ≠ 3 →
      exec (.query f cid ctx host) s = .next ({ s with
        hostMem := memPuts s.hostMem host.toNat (s.ctx x).bytes }.answer f cid stOk 0)
      ∧ (s.ctx x).bytes.length = 256)

/-- Prompt pages and prefixes (spec/13 R302-R310): IMPORT and LOAD_VARIANT begin a copy job over runs they take, and an import makes
its context RUNNING; the effect of an import appends its pages, adds its tokens to the length and to what was charged, and answers;
a variant's effect registers a prefix and answers its handle; REGISTER_PREFIX registers the pages up to a page boundary and makes
them read-only in the context; MIRROR_PREFIX tells the owner, and is refused where the owner holds no such prefix; RETIRE_PREFIX leaves no usable prefix of that handle. -/
def Obligations.PromptResult : Prop :=
  ∀ (s : State) (f : Fn) (cid : BitVec 16),
    (∀ (ctx va count : W64) x l bs ps u s1 rs, Claims.Taken s f cid 0 (.importPages f cid ctx va count) → s.reqCtx f ctx = .inl x → (s.ctx x).state = 1 →
      (s.acct (s.ctx x).account).valid = true → 0 < (s.acct (s.ctx x).account).balance → (s.ctx x).fill = 0 →
      (s.ctx x).candMax ≤ 16 → s.reqHeld f cid = false → va.toNat % 4096 = 0 → va.toNat < 2 ^ 48 → 1 ≤ count.toNat → count.toNat ≤ 64 →
      s.layout f (s.ctx x).layout = some l → s.schRead f va.toNat (16 * count.toNat) = (u, .inl bs) →
      promptPages count.toNat bs = some ps → (s.ctx x).pages.length + count.toNat ≤ 512 →
      takeRuns u f (s.ctx x).layout ps = some (s1, rs) → s.jobOf f cid = none →
      (s.ctx x).len + sumN (ps.map (·.2)) ≤ (s.ctx x).maxLen →
      ∃ (t : State) (j : CopyJob), exec (.importPages f cid ctx va count) s =
          .next (t.keepReq f cid true (.importPages f cid ctx va count))
        ∧ (t.ctx x).state = 2 ∧ t.serv.jobs = s.serv.jobs ++ [j] ∧ j.fn = f ∧ j.cid = cid ∧ j.ctx = x ∧ j.runs = rs
        ∧ j.variantOf = none ∧ (j.pages.map fun p => (p.size, p.tokens)) = ps)
    ∧ (∀ (layout va count : W64) l bs ps u s1 rs, Claims.Taken s f cid 0 (.loadVariant f cid layout va count) → layout.toNat ≤ 15 → s.pfxFull = false →
      va.toNat % 4096 = 0 → va.toNat < 2 ^ 48 → 1 ≤ count.toNat → count.toNat ≤ 64 →
      s.layout f layout.toNat = some l → s.schRead f va.toNat (16 * count.toNat) = (u, .inl bs) →
      promptPages count.toNat bs = some ps → takeRuns u f layout.toNat ps = some (s1, rs) →
      ∃ (t : State) (j : CopyJob), exec (.loadVariant f cid layout va count) s =
          .next (t.keepReq f cid true (.loadVariant f cid layout va count))
        ∧ t.serv.jobs = s.serv.jobs ++ [j] ∧ j.fn = f ∧ j.cid = cid ∧ j.runs = rs ∧ j.variantOf = some layout.toNat
        ∧ (j.pages.map fun p => (p.size, p.tokens)) = ps)
    ∧ (∀ (ctx va count : W64) j l, Claims.Begun s f cid (.importPages f cid ctx va count) → s.jobOf f cid = some j →
      j.variantOf = none → (s.ctx j.ctx).state = 2 → s.layout f (s.ctx j.ctx).layout = some l →
      s.jobShut f l j va.toNat = false → (s.copyPages f l (va.toNat + 4096) j.pages).2.2 = [] →
      ∃ t : State, exec (.importEffect f cid) s = .next (((t.answer f cid stOk 0).ctxIdle j.ctx).bump)
        ∧ t.serv.jobs = s.serv.jobs.erase j
        ∧ (t.ctx j.ctx).pages = (s.ctx j.ctx).pages ++ (s.copyPages f l (va.toNat + 4096) j.pages).2.1
        ∧ (t.ctx j.ctx).len = (s.ctx j.ctx).len + sumN (j.pages.map (·.tokens))
        ∧ (t.ctx j.ctx).charged = (s.ctx j.ctx).charged + BitVec.ofNat 64 (sumN (j.pages.map (·.tokens))))
    ∧ (∀ (layout va count : W64) j n l, Claims.Begun s f cid (.loadVariant f cid layout va count) → s.jobOf f cid = some j →
      j.variantOf = some n → s.layout f n = some l → s.jobShut f l j va.toNat = false → (s.copyPages f l (va.toNat + 4096) j.pages).2.2 = [] →
      s.pfxFull = false →
      ∃ (t : State) (p : Pfx), exec (.variantLoadEffect f cid) s = .next ((t.answer f cid stOk (p.handle s.serv.gen)).bump)
        ∧ t.serv.pfxs = s.serv.pfxs ++ [p] ∧ p.tenant = f ∧ p.variantKind = true ∧ p.layout = n ∧ p.own = j.runs
        ∧ p.serial = s.serv.nextSerial ∧ p.retired = false ∧ p.tokens = sumN (j.pages.map (·.tokens)))
    ∧ (∀ (ctx len : W64) x l, Claims.Taken s f cid 0 (.registerPrefix f cid ctx len) → s.reqCtx f ctx = .inl x → (s.ctx x).state = 1 →
      len.toNat ≤ (s.ctx x).len - (s.ctx x).fill → (s.ctx x).pfxLen ≤ len.toNat →
      ((s.ctx x).pages.any fun p => p.first + p.tokens == len.toNat) = true → s.pfxFull = false →
      s.layout f (s.ctx x).layout = some l →
      ∃ (t : State) (p : Pfx), exec (.registerPrefix f cid ctx len) s = .next (t.answer f cid stOk (p.handle s.serv.gen))
        ∧ t.serv.pfxs = s.serv.pfxs ++ [p] ∧ p.tenant = f ∧ p.variantKind = false ∧ p.layout = (s.ctx x).layout
        ∧ p.tokens = len.toNat ∧ p.serial = s.serv.nextSerial ∧ p.onVariant = (s.ctx x).variant
        ∧ p.onClient = (s.ctx x).client ∧ (∀ q ∈ p.pages, q.ro = true)
        ∧ ∀ q ∈ (t.ctx x).pages, q.first + q.tokens ≤ len.toNat → q.ro = true)
    ∧ (∀ (pkg handle : W64) (pages : List Byte), Claims.Taken s f cid 2 (.mirrorPrefix f cid pkg handle (some pages)) → pkg.toNat ≤ 15 →
      pkg.toNat ≠ (if s.glb.valid then s.glb.index else 0) → handle.getLsbD 7 = false → s.reachable pkg.toNat = true →
      (s.layout f (bits handle.toNat 11 8)).isNone = false → s.pairOf f pkg.toNat = some (bits handle.toNat 5 0) →
      s.pfxFull = false →
      ∃ (t : State) (p : Pfx), exec (.mirrorPrefix f cid pkg handle (some pages)) s = .next (t.answer f cid stOk (p.handle s.serv.gen))
        ∧ t.fab.outbox = s.fab.outbox ++ [.mirror pkg.toNat handle true] ∧ t.serv.pfxs = s.serv.pfxs ++ [p]
        ∧ p.pages = mirrorPages pkg.toNat (pages.length / 16) pages ∧ p.tenant = f ∧ p.own = [])
    ∧ (∀ (pkg handle : W64), Claims.Taken s f cid 2 (.mirrorPrefix f cid pkg handle none) → pkg.toNat ≤ 15 →
      pkg.toNat ≠ (if s.glb.valid then s.glb.index else 0) → handle.getLsbD 7 = false → s.reachable pkg.toNat = true →
      (s.pairOf f pkg.toNat).isSome = true →
      exec (.mirrorPrefix f cid pkg handle none) s = .next (s.answer f cid fPermission 0))
    ∧ (∀ (handle : W64) p, Claims.Taken s f cid 0 (.retirePrefix f cid handle) → s.pfxOf f handle false = some p →
      ∃ t : State, exec (.retirePrefix f cid handle) s = .next (t.answer f cid stOk 0)
        ∧ ∀ q ∈ t.serv.pfxs, q.serial = p.serial → q.retired = true)

/-- What SCH does with contexts by itself, and accounts (spec/12 R280, R288, spec/13 R299-R303, spec/14 R320-R324): parking, loading
again, catch-up flushes, the release of a CLOSING context, merges, the accounts' refill, the deficits' grants and the change of a
slice at its tick; what an account that is set again has held goes on at the next tick boundary (spec/13 R304). -/
def Obligations.ServingEventsResult : Prop :=
  ∀ (s : State) (x : Fin 65536), s.alive = true →
    (∀ t, s.schUp = true → s.mayPark x = true → s.parkCtx x = some t → exec (.contextPark x) s = .next t
      ∧ (t.ctx x).state = 3 ∧ (t.ctx x).trough = 0xFFFF ∧ (t.ctx x).fill = 0 ∧ (t.ctx x).map = 0)
    ∧ (s.schUp = true → s.mayPark x = true → (s.ctx x).fill = 0 → ∃ t, exec (.contextPark x) s = .next t ∧ (t.ctx x).state = 3
      ∧ t.mem = s.mem ∧ t.cmds = s.cmds)
    ∧ (∀ l i, s.schUp = true → s.parkedNamed x = true → s.cached.length < 2048 →
      s.layout (s.ctx x).tenant (s.ctx x).layout = some l → s.freeSlot l = some i →
      exec (.contextUnpark x) s = .next ((s.setLayout (s.ctx x).tenant (s.ctx x).layout
        (some { l with slots := l.slots ++ [i] })).modCtx x fun k => { k with state := 1, trough := i }).bump)
    ∧ (∀ t, s.schUp = true → (s.ctx x).state = 1 → (s.ctx x).mark ≤ (s.ctx x).fill → s.flushCtx x = some t →
      exec (.catchupFlush x) s = .next t ∧ (t.ctx x).fill = 0 ∧ (t.ctx x).map = 0 ∧ (t.ctx x).len = (s.ctx x).len
      ∧ ∃ p : Page, (t.ctx x).pages = (s.ctx x).pages ++ [p] ∧ p.tokens = (s.ctx x).fill
        ∧ p.first = (s.ctx x).len - (s.ctx x).fill ∧ p.size = 0 ∧ p.ro = false)
    ∧ (∀ k, s.schUp = true → (s.ctx x).state = 1 → (s.ctx x).mark ≤ (s.ctx x).fill → s.flushCtx x = none →
      s.flushStop x = some rQuota → (s.heads.find? fun k => k.batch.contains x.val) = some k →
      exec (.catchupFlush x) s = .next (s.refuseCmd k rQuota))
    ∧ (s.schUp = true → smWf ({} : Ctx) s.serv.ctxs = true → (s.ctx x).state = 4 →
      (s.cmds.list.any fun k => k.inFlight && k.batch.contains x.val) = false →
      (s.serv.merges.any fun m => m.ctx == x.val) = false → (s.serv.jobs.any fun j => j.ctx == x.val) = false →
      ∃ t : State, exec (.contextRelease x) s = .next t ∧ t.ctx x = {})
    ∧ (∀ i p q l r, s.schUp = true → (s.ctx x).state ≠ 0 → (s.ctx x).state ≠ 4 → s.serv.compactEnable = true →
      s.serv.merges.length < s.serv.compactStreams → s.flushesCtx x = false →
      (s.serv.merges.any fun m => m.ctx == x.val && (m.idx == i || m.idx + 1 == i || m.idx == i + 1)) = false →
      s.mergePair x i = some (p, q) → s.layout (s.ctx x).tenant (s.ctx x).layout = some l →
      s.takeRun l (l.u (p.size + 1)) = some r → (∃ g : Cl, s.serves g = true ∧ (s.cl g).full false (.ce 0) = false) →
      ∃ (t : State) (g : Cl), exec (.mergeStart x i) s = .next t ∧ (t.cl g).maint = (s.cl g).maint ++ [.merge x r] ∧ t.serv.merges = s.serv.merges ++
        [{ ctx := x, idx := i, unit := r, units := l.u (p.size + 1), seq := s.cmds.nextSeq }])
    ∧ (∀ m p q l v pl w, s.schUp = true → (s.serv.merges.find? fun m => m.ctx == x.val) = some m →
      s.mergePair x m.idx = some (p, q) → s.layout (s.ctx x).tenant (s.ctx x).layout = some l →
      s.shutTen (s.ctx x).tenant (s.pageBytes (s.ctx x).tenant l p ++ s.pageBytes (s.ctx x).tenant l q
        ++ addrs (l.unitVa m.unit) (m.units * l.unitBytes)) = false →
      v = s.pull (s.ctx x).tenant (s.pageBytes (s.ctx x).tenant l p ++ s.pageBytes (s.ctx x).tenant l q) →
      pl = (List.range l.planes).map (fun k => (v.readPlane (s.ctx x).tenant l p k, v.readPlane (s.ctx x).tenant l q k)) →
      w = v.codePage (s.ctx x).tenant l (l.unitVa m.unit) (p.size + 1) (pl.map fun x => x.1.1 ++ x.2.1) →
      pl.flatMap (fun x => x.1.2 ++ x.2.2) = [] → ((v.endMerge m).schWrites (s.ctx x).tenant w.1).2 = [] →
      ∃ (t : State) (n : Page), exec (.mergeEffect x) s = .next t ∧ t.mem = ((v.endMerge m).schWrites (s.ctx x).tenant w.1).1.mem
        ∧ (t.ctx x).pages = (s.ctx x).pages.take m.idx ++ n :: (s.ctx x).pages.drop (m.idx + 2)
        ∧ n.addr = l.unitVa m.unit ∧ n.size = p.size + 1 ∧ n.tokens = p.tokens + q.tokens ∧ n.first = p.first
        ∧ (t.ctx x).len = (s.ctx x).len ∧ t.serv.kvMerges = s.serv.kvMerges + 1)
    ∧ (s.tickEdge = true → ∃ t : State, exec .accountRefill s = .next t ∧ (smWf ({} : Account) s.serv.accts = true →
      ∀ a, (s.acct a).valid = true →
        (t.acct a).balance = min ((s.acct a).cap : Int) ((s.acct a).balance + (s.acct a).rate)))
    ∧ (s.tickEdge = true → exec .deficitUpdate s = .next s.grantDeficits)
    ∧ (∀ (n : Fin 8), s.tickEdge = true → s.sched.paddock = true → (s.paddockN n).next = none → (s.paddockN n).ends ≤ s.tick →
      ∃ t : State, exec (.sliceChange n) s = .next t
        ∧ t.sched.paddocks = smPut {} s.sched.paddocks n { s.paddockN n with
            current := if (s.paddockN n).entries ≤ (s.paddockN n).current then 0 else (s.paddockN n).current + 1
            ends := (s.paddockN n).ends + (smGet ({} : Slice) (s.paddockN n).slices
              (if (s.paddockN n).entries ≤ (s.paddockN n).current then 0 else (s.paddockN n).current + 1)).ticks + 1 }
        ∧ ((smGet ({} : Slice) (s.paddockN n).slices (s.paddockN n).current).idle = true → t.cmds = s.cmds))
    ∧ (∀ (f : Fn) (cid : BitVec 16) (acct rate cap weight clear : W64), Claims.Taken s f cid 0 (.account f cid acct rate cap weight clear) → acct.toNat ≤ 4095 →
      rate.toNat ≤ 65535 → cap.toNat < 2 ^ 24 → 1 ≤ weight.toNat → weight.toNat ≤ 255 →
      (s.acctsAhead.acctOwner acct.toNat = none ∨ s.acctsAhead.acctOwner acct.toNat = some f.val) → clear.toNat ≤ 1 →
      ∃ w : Policy, w = .account f acct.toNat rate.toNat cap.toNat weight.toNat (clear == 1)
        ∧ exec (.account f cid acct rate cap weight clear) s = .next ((s.policy w).answer f cid stOk 0)
        ∧ (s.policy w).acct acct.toNat = s.acct acct.toNat
        ∧ (s.sched.writes = [] → (s.policy w).sched.writes = [(s.beat, w)]))
    ∧ (∀ (u : State) b w, u.sched.writes = [(b, w)] → b < u.beat →
      u.policyBeat = ({ u with sched := { u.sched with writes := [] } }).applyPolicy w)
    ∧ (∀ (f : Fn) a rate cap weight, (s.applyPolicy (.account f a rate cap weight true)).acct a = { s.acct a with valid := false }
      ∧ ((s.applyPolicy (.account f a rate cap weight false)).acct a = { s.acct a with
          valid := true, owner := some f.val, rate := rate, cap := cap, weight := weight
          balance := if s.acctOwner a = none then (cap : Int) else min (s.acct a).balance cap }))
    ∧ (∀ a, ∀ c ∈ (s.holdOver a).cmds.list, c.inFlight = false →
      (c.batch.any fun y => (s.ctx y).account == a) = true → c.hold = s.tick + 1)

/-- Site time and the yard's frame (spec/02 R35-R37, R50, R51, spec/01 R29-R32): arming, loading and disciplining at the edge that
marks the second, the entry of holdover, the reference's presence, presence words, and the live set, lead and partition that a
frame boundary makes. A repeated edge while a holdover's bound excludes it sets the fault. -/
def Obligations.TimeAndYardResult : Prop :=
  ∀ (s : State),
    (∀ u : State, u = s.setLow 0 none → s.alive = true →
      (s.tim.todNext.toNat % 1000000000 = 0 → exec .arm s = .next { u with tim := { s.tim with arm := true } })
      ∧ (s.tim.todNext.toNat % 1000000000 ≠ 0 →
        exec .arm s = .next { u with tim := { s.tim with arm := false, todRejected := true } }))
    ∧ (∀ (rising : Bool) (off : Fin 1000), s.board.pwrok = true → s.board.tripped = false → rising ≠ s.tim.ppsFalling →
      s.tim.locked = false → s.tim.arm = true →
      (s.tim.ns + off ≤ s.tim.todNext.toNat → ∃ t : State, exec (.ppsEdge rising off) s = .next t
        ∧ t.tim.ns = s.tim.todNext.toNat ∧ t.tim.slew = 0 ∧ t.tim.locked = true ∧ t.tim.arm = false
        ∧ t.tim.edgeAge = some 0)
      ∧ (s.tim.todNext.toNat < s.tim.ns + off → s.tim.ns + off ≤ s.tim.todNext.toNat + 1000000 →
        ∃ t : State, exec (.ppsEdge rising off) s = .next t ∧ t.tim.ns = s.tim.ns ∧ t.tim.locked = true ∧ t.tim.arm = false
          ∧ t.tim.slew = -10 * ((s.tim.ns + off - s.tim.todNext.toNat : Nat) : Int) ∧ t.tim.edgeAge = some (-(off : Int)))
      ∧ (s.tim.todNext.toNat + 1000000 < s.tim.ns + off → ∃ t : State, exec (.ppsEdge rising off) s = .next t
        ∧ t.tim = { s.tim with arm := false, todRejected := true }))
    ∧ (∀ (rising : Bool) (off : Fin 1000), s.board.pwrok = true → s.board.tripped = false → rising ≠ s.tim.ppsFalling →
      s.tim.locked = true → ∃ t : State, exec (.ppsEdge rising off) s = .next t ∧ t.tim.arm = false ∧ t.tim.ns = s.tim.ns
        ∧ t.tim.ppsError = BitVec.ofInt 32 (secError (s.tim.ns + off))
        ∧ ((s.tim.holdover = false ∨ ((secError (s.tim.ns + off)).natAbs : Int) ≤ edgeBound s.tim.holdoverBeats) →
          t.tim.holdover = false ∧ t.tim.slew = -10 * secError (s.tim.ns + off) ∧ t.tim.edgeAge = some (-(off : Int))
            ∧ -100000 ≤ t.tim.rate ∧ t.tim.rate ≤ 100000 ∧ t.tim.locked = true)
        ∧ (s.tim.holdover = true → edgeBound s.tim.holdoverBeats < ((secError (s.tim.ns + off)).natAbs : Int) →
          t.tim.ppsFault = true ∧ t.tim.ignored = s.tim.ignored + 1 ∧ t.tim.locked = decide (s.tim.ignored + 1 < 3)))
    ∧ (∀ a, s.board.pwrok = true → s.board.tripped = false → s.tim.edgeAge = some a → 1000002000 ≤ a → s.tim.holdover = false →
      exec .holdoverEntry s = .next { s with tim := { s.tim with holdover := true, holdoverBeats := 0, slew := 0 } })
    ∧ (∀ (present inRange : Bool), s.board.pwrok = true → s.board.tripped = false →
      ∃ t : State, exec (.syncRef10Change present inRange) s = .next t ∧ t.tim.ref10Ok = (present && inRange)
        ∧ t.board.refPresent = present ∧ t.tim.ns = s.tim.ns)
    ∧ (∀ (pkg : Pk) (lo hi : BitVec 16), s.alive = true → s.glb.valid = true → pkg.val < s.glb.count →
      ∃ t : State, exec (.presenceWord pkg lo hi) s = .next t ∧ (pkg.val, lo.toNat, hi.toNat) ∈ t.glb.heard
        ∧ ∀ h ∈ t.glb.heard, h.1 = pkg.val → h = (pkg.val, lo.toNat, hi.toNat))
    ∧ (∀ heard v, s.alive = true → s.glb.valid = true → s.frameEdge = true →
      heard = (s.glb.heard.filter fun h => h.1 != s.glb.index) ++ [(s.glb.index, s.yardRange.1, s.yardRange.2)] →
      yardVersion heard (if s.grm.protoSet then some s.grm.protoInUse.toNat else none) = some v →
      ∃ t : State, exec .liveSetUpdate s = .next t ∧ t.glb.heard = []
        ∧ (∀ p, p < 16 → (t.glb.live.getLsbD p = true ↔ p ∈ groupOf heard v))
        ∧ t.glb.isLead = (!(groupOf heard v).isEmpty && (groupOf heard v).foldl min 16 % 16 == s.glb.index)
        ∧ t.glb.partitioned = decide (countBits t.glb.live < countBits s.glb.whole)
        ∧ t.grm.protoInUse = BitVec.ofNat 16 v ∧ t.grm.excluded = !(groupOf heard v).contains s.glb.index)

/-- Links (spec/16 R361-R363, R368, R371, spec/01 R27): training, the identity exchange, training again, route computation for the
next boundary, a link's failure and its routes, replays, failing lanes, the loop-back test, and a wait for a route that ends. -/
def Sys2Proof.Claims.LinkResult : Prop :=
  ∀ (s : State) (p : Pt), s.alive = true →
    ((s.port p).state = 1 → halfGood (s.port p).good = true → exec (.portTrainingDone p true) s =
      .next ((s.setPort p { s.port p with state := 2 }).send (.ident p s.glb.yardId s.glb.index s.sec.idHash)))
    ∧ (∀ (ok : Bool), (s.port p).state = 1 → (ok = true → halfGood (s.port p).good = false) →
      exec (.portTrainingDone p ok) s = .next (s.setPort p { s.port p with state := 6, since := s.tim.ns }))
    ∧ (∀ (yard : W32) (pkg : Pk) (port : Pt) (hash : BitVec 512), (s.port p).state = 2 →
      ∃ x : Port, exec (.ident p yard pkg port hash) s = .next (s.setPort p x) ∧ x.nbrPkg = pkg ∧ x.nbrPort = port
        ∧ x.state = (if halfGood (s.port p).good = false then 6 else if s.identOk p yard pkg port hash = false then 5
          else if (s.port p).good = 0xFF then 3 else 4))
    ∧ ((s.port p).state = 5 ∨ (s.port p).state = 6 →
      ((s.port p).since + 1000000000 ≤ s.tim.ns → exec (.portRetrain p) s = .next (s.setPort p { s.port p with
        state := 1, good := 0xFF, narrow := false }))
      ∧ (s.tim.ns < (s.port p).since + 1000000000 → exec (.portRetrain p) s = .next s))
    ∧ (∀ (down : List (Pk × Pt)) (y : YardRec) (off : Nat → Nat → Bool), s.glb.yard = some y → s.glb.valid = true → s.pwrUp = true →
      (∀ q, off s.glb.index q = !s.carries q) →
      (∀ a q, a ≠ s.glb.index → (off a q = true ↔ ∃ x ∈ down, x.1.val = a ∧ x.2.val = q)) →
      ∃ (t : State) (m : SMap Route), exec (.routeUpdate down) s = .next t ∧ t.fab = { s.fab with nextRoutes := some m }
        ∧ ∀ d, d < 16 → smGet {} m d =
          routeTo (y.links.filter fun l => !off l.1 l.2.1 && !off l.2.2.1 l.2.2.2) s.glb.index d)
    ∧ (∀ (cause : LinkCause), (s.port p).inService = true → ∃ t : State, exec (.linkFail p cause) s = .next t
      ∧ (t.port p).state = 6 ∧ (t.port p).downs = (s.port p).downs + 1
      ∧ (smWf ({} : Route) s.fab.routes = true → ∀ d, (t.route d).ports.getLsbD p = false))
    ∧ (∀ (cause : LinkCause), (s.port p).state = 2 → exec (.linkFail p cause) s = .next (s.setPort p { s.port p with
      state := 6, downs := (s.port p).downs + 1, since := s.tim.ns }))
    ∧ ((s.port p).inService = true → ∃ t : State, exec (.flitReplay p) s = .next t
      ∧ (t.port p).replays = (s.port p).replays + 1
      ∧ (t.port p).state = if 1000 < (s.port p).frameReplays + 1 then 6 else (s.port p).state)
    ∧ (∀ (good : BitVec 8), (s.port p).inService = true → (s.port p).good &&& good ≠ 0xFF →
      ∃ t : State, exec (.laneFailure p good) s = .next t ∧ (t.port p).good = (s.port p).good &&& good
        ∧ (t.port p).state = if halfGood ((s.port p).good &&& good) then 4 else 6)
    ∧ (∀ (good : BitVec 8), (s.port p).state = 2 → ∃ t : State, exec (.laneFailure p good) s = .next t
        ∧ (t.port p).good = (s.port p).good &&& good
        ∧ (t.port p).state = if halfGood ((s.port p).good &&& good) then 2 else 6)
    ∧ (s.frameEdge = true → s.mayTest p = true → ∃ t : State, exec (.fabricLoopback p .start) s = .next t
      ∧ (t.port p).test = true ∧ (t.port p).state = (s.port p).state
      ∧ (s.loopPort = some p.val → t.far.nextPort = (p.val + 1) % 8)
      ∧ (s.loopPort = none → t.far = s.far)
      ∧ (smWf ({} : Route) s.fab.routes = true → ∀ d, (t.route d).ports.getLsbD p = false))
    ∧ ((s.port p).test = true → (s.port p).inService = true →
      exec (.fabricLoopback p .drained) s = .next (s.setPort p { s.port p with state := 7 }))
    ∧ (∀ (ok : Bool), (s.port p).state = 7 → ∃ t : State, exec (.fabricLoopback p (.ended ok)) s = .next t
      ∧ (t.port p).test = false ∧ (t.port p).state = if ok then 1 else 6)
    ∧ (∀ id c w, s.cmd id = some c → c.st = .running → s.fab.waiting.find? (s.overdue id) = some w →
      exec (.routeWaitTimeout id) s =
        .next (s.faultCmd c fRemote ((s.readsTo [w.pkg] id).head?.bind (·.1)) (locPkg w.pkg) true))

/-- Requests of other packages (spec/16 R364, R369, spec/07 R185, R188): in its turn a read is answered with the bytes this owner
reads for the paired tenant space; one already applied changes nothing; a request of a package without a pairing is answered
FAULT_REMOTE. -/
def Sys2Proof.Claims.RemoteRequestResult : Prop :=
  ∀ (s : State) (pkg : Pk) (src seq : Nat) (frame : W32) (tenant : Fn), s.alive = true →
    (∀ (req : RemoteReq), seq < smGet 0 s.fab.seqIn (65536 * pkg.val + src % 65536) →
      exec (.remoteRequestArrival pkg src seq ⟨tenant, frame⟩ req) s = .next s)
    ∧ (∀ (va : BitVec 48) (len t0 : Nat), s.fab.early = [] → seq = smGet 0 s.fab.seqIn (65536 * pkg.val + src % 65536) →
      (s.asOfFrame frame).pairFrom pkg tenant = some t0 →
      ∃ t : State, exec (.remoteRequestArrival pkg src seq ⟨tenant, frame⟩ (.read va len)) s = .next t
        ∧ t.fab.outbox = s.fab.outbox ++
          [.reply pkg src seq ((s.pull t0 (addrs va.toNat len) srcFab).arrive.remoteRead t0 va.toNat len)]
        ∧ smGet 0 t.fab.seqIn (65536 * pkg.val + src % 65536) = seq + 1
        ∧ t.mem = (s.pull t0 (addrs va.toNat len) srcFab).arrive.mem ∧ t.fab.early = [])
    ∧ (∀ (h : W64) (t0 : Nat), s.fab.early = [] → seq = smGet 0 s.fab.seqIn (65536 * pkg.val + src % 65536) →
      (s.asOfFrame frame).pairFrom pkg tenant = some t0 → (∀ x ∈ s.serv.pfxs, x.retired = false) →
      ∃ t : State, exec (.remoteRequestArrival pkg src seq ⟨tenant, frame⟩ (.mirror h true)) s = .next t
        ∧ t.serv.pfxs = s.serv.pfxs.map fun x =>
          if x.tenant = t0 ∧ x.handle s.serv.gen = h then { x with mirrors := x.mirrors + 1 } else x)
    ∧ (∀ (ws : List (BitVec 48 × Byte × Byte)) (t0 : Nat), s.fab.early = [] →
      seq = smGet 0 s.fab.seqIn (65536 * pkg.val + src % 65536) → (s.asOfFrame frame).pairFrom pkg tenant = some t0 →
      ∃ t : State, exec (.remoteRequestArrival pkg src seq ⟨tenant, frame⟩ (.write ws)) s = .next t
        ∧ t.mem = (s.remoteWrite t0 ws).1.mem ∧ smGet 0 t.fab.seqIn (65536 * pkg.val + src % 65536) = seq + 1
        ∧ t.fab.outbox = s.fab.outbox ++
          [.reply pkg src seq (match (s.remoteWrite t0 ws).2 with | some f => .inr f | none => .inl [])])
    ∧ (∀ (req : RemoteReq), s.fab.early = [] → seq = smGet 0 s.fab.seqIn (65536 * pkg.val + src % 65536) →
      (s.asOfFrame frame).pairFrom pkg tenant = none →
      ∃ t : State, exec (.remoteRequestArrival pkg src seq ⟨tenant, frame⟩ req) s = .next t ∧ t.mem = s.mem
        ∧ t.fab.outbox = s.fab.outbox ++ [.reply pkg src seq (.inr fRemote)])

/-- Links, routes and the requests of other packages (spec/16). -/
def Obligations.FabricResult : Prop := Claims.LinkResult ∧ Claims.RemoteRequestResult

/-- Power (spec/17 R373-R381, R388): the limiter's ceiling and duty, energy within 3 % of the tick's average, grants, operating
points and their clock switch, budgets, demand reports, the cabinet's division and caps. -/
def Obligations.PowerResult : Prop :=
  ∀ (s : State), s.alive = true →
    (∀ (avg : BitVec 16), s.tickEdge = true → ∃ (t : State) (e : Nat), exec (.limiterTick avg) s = .next t
      ∧ t.pwr.avg = avg ∧ t.pwr.energy = s.pwr.energy + BitVec.ofNat 64 e
      ∧ 97 * (avg.toNat * 125 / 8) ≤ 100 * e ∧ 100 * e ≤ 103 * (avg.toNat * 125 / 8)
      ∧ (s.tick % 80 ≠ 0 ∨ s.pwrUp = false → t.pwr.est = s.pwr.est)
      ∧ (avg.toNat < 8 * s.pwr.cap → t.pwr.capUnreachable = false)
      ∧ (8 * s.pwr.cap < avg.toNat → 0 < s.topPoint → t.pwr.ceiling = s.topPoint - 1 ∧ t.pwr.duty = s.pwr.duty)
      ∧ (8 * s.pwr.cap < avg.toNat → s.topPoint = 0 → 0 < s.pwr.ceiling → t.pwr.ceiling = 0 ∧ t.pwr.duty = s.pwr.duty)
      ∧ (8 * s.pwr.cap < avg.toNat → s.topPoint = 0 → s.pwr.ceiling = 0 → t.pwr.ceiling = 0
          ∧ (s.pwr.duty < 3 → t.pwr.duty = s.pwr.duty + 1)
          ∧ (3 ≤ s.pwr.duty → t.pwr.duty = s.pwr.duty ∧ t.pwr.capUnreachable = true))
      ∧ (95 * (8 * s.pwr.cap) ≤ 100 * avg.toNat → avg.toNat ≤ 8 * s.pwr.cap →
          t.pwr.ceiling = s.pwr.ceiling ∧ t.pwr.duty = s.pwr.duty)
      ∧ (100 * avg.toNat < 95 * (8 * s.pwr.cap) → 0 < s.pwr.duty →
          t.pwr.duty = s.pwr.duty - 1 ∧ t.pwr.ceiling = s.pwr.ceiling)
      ∧ (100 * avg.toNat < 95 * (8 * s.pwr.cap) → s.pwr.duty = 0 → t.pwr.duty = 0
          ∧ t.pwr.ceiling = if s.pwr.ceiling < 7 ∧ smGet 0 t.pwr.est (s.pwr.ceiling + 1) < s.pwr.cap
            then s.pwr.ceiling + 1 else s.pwr.ceiling))
    ∧ (∀ (r : Rg), smWf ({} : Region) s.pwr.regions = true → smWf 750 s.pwr.rail = true → s.tickEdge = true →
      (s.region r).state = 0 → ∃ t : State, exec (.opChange r) s = .next t
      ∧ (s.pointOf r ≤ (s.region r).current →
          t.region r = { s.region r with current := s.pointOf r, rising := none })
      ∧ ((s.region r).current < s.pointOf r → t.region r = { s.region r with rising := some (s.pointOf r) })
      ∧ smGet 750 t.pwr.rail (r.val / 4) = (if s.pwr.silent.getLsbD (r.val / 4) then smGet 750 s.pwr.rail (r.val / 4)
          else Config.railTarget (t.dieMv (r.val / 4))))
    ∧ (∀ (r : Rg) n, (s.region r).state = 0 → (s.region r).rising = some n →
      exec (.opClockSwitch r) s = .next (s.setRegion r { s.region r with current := n, rising := none }))
    ∧ (∀ (t0 t1 tio : BitVec 16), s.tickEdge = true → smWf 0 s.pwr.cool = true → ∃ t : State,
      exec (.grantUpdate t0 t1 tio) s = .next t
      ∧ (∀ x ∈ [(0, t0), (1, t1), (2, tio)],
          smGet 0 t.pwr.cool x.1 = if x.2.toInt < 1600 then smGet 0 s.pwr.cool x.1 + 1 else 0)
      ∧ (s.pwrUp = false → t.pwr.phaseOp = s.pwr.phaseOp ∧ (smWf ({} : Region) s.pwr.regions = true → ∀ r : Rg,
          (t.region r).grant = (s.region r).grant ∧ (t.region r).seen = s.phasesIn r))
      ∧ (s.pwrUp = true → smWf (0 : BitVec 16) s.pwr.tempMax = true → smWf ({} : Region) s.pwr.regions = true →
          smWf 0 s.pwr.drop = true →
          (∀ x ∈ [(0, t0), (1, t1), (2, tio)], smGet 0 t.pwr.tempMax x.1 = x.2)
          ∧ (∀ k v, s.pwr.phaseNext = some (k, v) → t.pwr.phaseOp = if k < s.tick then v else s.pwr.phaseOp)
          ∧ (s.pwr.phaseNext = none → t.pwr.phaseOp = s.pwr.phaseOp)
          ∧ (∀ d, d < 2 → (t.pwr.vtripDie.getLsbD d = true → s.pwr.vtripDie.getLsbD d = true)
              ∧ (s.tim.ns < smGet 0 s.pwr.vtripAt d + 10000000 → t.pwr.vtripDie.getLsbD d = s.pwr.vtripDie.getLsbD d))
          ∧ (∀ x ∈ [(0, t0), (1, t1)], smGet 0 t.pwr.drop x.1 =
              if (16 * s.pwr.policyC : Int) ≤ x.2.toInt then min 7 (smGet 0 s.pwr.drop x.1 + 1) else 0)
          ∧ ∀ r : Rg, t.region r = { s.region r with
              grant := ({ s with pwr := { s.pwr with phaseOp := t.pwr.phaseOp, drop := t.pwr.drop } }).grantOf r
              seen := s.phasesIn r
              idleTicks := if (s.region r).seen ||| s.phasesIn r = 0 then (s.region r).idleTicks + 1 else 0 }))
    ∧ (∀ (v : W32), (s.glb.valid = true → s.glb.isLead = true) → 160 ≤ bits v.toNat 13 0 → bits v.toNat 13 0 ≤ 10400 →
      exec (.pwrCabBudget v) s = .next { s.setLow 0 none with pwr := { s.pwr with budget := bits v.toNat 13 0 } })
    ∧ (∀ (v : W32), s.glb.valid = true → s.glb.isLead = false →
      exec (.pwrCabBudget v) s = .next { s.setLow 0 none with pwr := { s.pwr with notLead := true } })
    ∧ (∀ (pkg : Pk) (demand floor largest : Nat), s.glb.isLead = true →
      ∃ t : State, exec (.demandReport pkg demand floor largest) s = .next t
        ∧ (t.pwr.reports.find? fun r => r.1 == pkg.val) = some (pkg.val, demand, floor, largest))
    ∧ (s.pwrUp = true → s.frameEdge = true → s.glb.valid = false →
      exec .cabinetDivision s = .next { s with pwr := s.pwr.schedule s.frame s.pwr.budget })
    ∧ (∀ B d, s.pwrUp = true → s.frameEdge = true → s.glb.valid = true → s.glb.isLead = true →
      B = (if s.glb.partitioned then min s.pwr.budget s.islandSum else s.pwr.budget) →
      d = divide B ((setBits s.glb.live).map fun p => (s.pwr.reports.find? fun r => r.1 == p).getD (p, 0, 0, 650)) →
      ∃ t : State, exec .cabinetDivision s = .next t ∧ t.fab.outbox = s.fab.outbox ++ [.division s.pwr.budget d.1]
        ∧ t.pwr.underBudget = d.2 ∧ t.pwr.reports = s.pwr.reports)
    ∧ (∀ (b : BitVec 14) (caps : List (Pk × BitVec 10)) (i : Pk) c, s.glb.valid = true → s.glb.isLead = false → s.pwrUp = true →
      s.glb.index = i.val → ((caps.map fun x => (x.1.val, x.2.toNat)).find? fun x => x.1 == s.glb.index) = some (i.val, c) →
      ∃ t : State, exec (.capApply (some (b, caps))) s = .next t ∧ t.pwr.lastB = b.toNat ∧ t.pwr.cap = s.pwr.cap
        ∧ t.pwr.next = (if s.pwr.inRange c = s.pwr.cap then 0 else s.pwr.inRange c))
    ∧ (s.pwr.next ≠ 0 → s.tickEdge = true → s.pwr.nextAt ≤ s.tick → ∃ t : State, exec (.capApply none) s = .next t
      ∧ t.pwr.cap = s.pwr.next ∧ t.pwr.next = 0
      ∧ t.pwr.ceiling = if s.pwr.next < s.pwr.cap then s.pwr.ceilingFor s.pwr.next else s.pwr.ceiling)

/-- Stabling, droop, heat and voltage (spec/17 R382-R387, spec/23 R477): a stabled region stops and a waking one runs at the end of
its ramp; a droop halves the region's clock and is counted; a force takes a die's regions to OP0 and is released at a tick boundary
after a whole cool tick; a voltage trip forces a die; THERMTRIP stops the device, one in reset too. -/
def Obligations.RegionResult : Prop :=
  ∀ (s : State) (r : Rg),
    (∀ (d : Fin 3) (reading : BitVec 16), s.board.pwrok = true → s.board.tripped = false → 1840 ≤ reading.toInt →
      ∃ t : State, exec (.thermtrip d reading) s = .next t
        ∧ t.pwr.thermtripSeen = true ∧ t.board.tripped = true ∧ t.alive = false)
    ∧ (s.alive = true →
    (s.pwrUp = true → s.mayStable r = true → (s.region r).state = 0 → max 1 s.pwr.stableLeast ≤ (s.runningRegions.filter (· != r.val)).length →
      (s.far.state ≠ 0 → regionOf s.far.cluster ≠ r.val) →
      ∃ t : State, exec (.stableRegion r) s = .next t ∧ (t.region r).state = 1 ∧ (t.region r).rising = none)
    ∧ (s.pwrUp = true → (s.region r).state = 1 →
      exec (.wakeRegion r) s = .next (s.setRegion r { s.region r with state := 2, wokenAt := s.beat }))
    ∧ ((s.region r).state = 2 → s.beat < (s.region r).wokenAt + 50 → exec (.wakeDone r) s = .next s)
    ∧ ((s.region r).state = 2 → (s.region r).wokenAt + 50 ≤ s.beat → (s.region r).stableNext = false →
      exec (.wakeDone r) s = .next (s.setRegion r { s.region r with state := 0, stableNext := false }))
    ∧ ((s.region r).state = 2 → (s.region r).wokenAt + 50 ≤ s.beat → (s.region r).stableNext = true → exec (.wakeDone r) s =
      .next ((s.setRegion r { s.region r with state := 0, stableNext := false }).stable r))
    ∧ ((s.region r).state = 2 → s.pwrUp = true → s.mayStable r = true →
      exec (.stableRegion r) s = .next (s.setRegion r { s.region r with stableNext := true }))
    ∧ ((s.region r).state = 0 → (s.region r).halved = false → smWf (0 : W64) s.pwr.droopEvents = true → ∃ t : State, exec (.droopDetect r) s = .next t
      ∧ (t.region r).halved = true ∧ smGet 0 t.pwr.droopEvents r = smGet 0 s.pwr.droopEvents r + 1)
    ∧ (smWf ({} : Region) s.pwr.regions = true → ∃ t : State, exec (.droopEnd r) s = .next t ∧ (t.region r).halved = false
      ∧ t.pwr.droopEvents = s.pwr.droopEvents)
    ∧ (∀ (d : Fin 3) (reading : BitVec 16), 1680 ≤ reading.toInt → smWf ({} : Region) s.pwr.regions = true →
      ∃ t : State, exec (.thermalForce d reading) s = .next t ∧ t.pwr.force.getLsbD d = true
        ∧ ∀ q, q < 8 → (d.val = 2 ∨ q / 4 = d.val) → (t.region q).current = 0 ∧ (t.region q).rising = none)
    ∧ (∀ (d : Fin 3), s.tickEdge = true → 2 ≤ smGet 0 s.pwr.cool d →
      exec (.thermalRelease d) s = .next { s with pwr := { s.pwr with force := putBit s.pwr.force d false } })
    ∧ (∀ (d : Fin 2), smWf ({} : Region) s.pwr.regions = true →
      ∃ t : State, exec (.voltageTrip d) s = .next t ∧ t.pwr.vtrip = true ∧ t.pwr.vtripDie.getLsbD d = true
        ∧ ∀ q, q < 8 → q / 4 = d.val → (t.region q).current = 0 ∧ (t.region q).rising = none)
    ∧ (∀ (d : Fin 3) (reading : BitVec 16), 1600 ≤ reading.toInt → reading.toInt < 1680 →
      exec (.thermalForce d reading) s = .next { s with pwr := { s.pwr with cool := smPut 0 s.pwr.cool d 0 } })
    ∧ (∀ (rail : Fin 12) (answers : Bool), ∃ t : State, exec (.regulatorNotAnswering rail answers) s = .next t
      ∧ t.pwr.silent.getLsbD rail = !answers))

/-- Memory events (spec/09 R220-R233, spec/10 R241-R249, spec/04 R97): refreshes, a scrub's verdicts, the loft's rate and
retraining, a loft request that misses its deadline, frames zeroed and counted, a migration's start, chunks and end, and a segment
that changes hands after its bytes are zero. -/
def Obligations.MemoryEventsResult : Prop :=
  ∀ (s : State), s.alive = true →
    (∀ (ch : Fin 128) (bank : Fin 32) (act : RefreshAct) (n : Nat) (again : Bool), smWf (0 : Nat) s.memc.postponed = true →
      n = smGet 0 s.memc.postponed (32 * ch.val + bank.val) →
      again = ((s.chan ch).queue.dropWhile fun r => (s.bankRow r).1 != bank.val).any (·.delayed) →
      ∃ t : State, exec (.hbmRefresh ch bank act) s = .next t ∧ t.mem = s.mem
        ∧ smGet 0 t.memc.postponed (32 * ch.val + bank.val) = (match act with
          | .issue => if again = true ∧ n < 8 then n + 1 else n
          | .postpone => if n < 8 then n + 1 else n
          | .makeUp => if n = 0 ∨ again = true then n else n - 1))
    ∧ (∀ (ch : Fin 32) (rank : Fin 2), exec (.loftRefresh ch rank) s = .next s)
    ∧ (∀ (pa : BitVec 48) (r : EccResult), pa.toNat ≠ 32 * s.memc.scrubHbm → exec (.patrolScrubRead false pa r) s = .next s)
    ∧ (∀ (loft : Bool) (pa : BitVec 48) (r : EccResult), s.shut [pa.toNat] = true → exec (.patrolScrubRead loft pa r) s = .next s)
    ∧ (∀ (pa : BitVec 48) (v : State), pa.toNat = 32 * s.memc.scrubHbm → s.memc.scrubHbm < hbmEnd / 32 → isHbm pa.toNat = true →
      s.isLoft pa.toNat = false → v = s.fetches 0 0 srcScrub false (List.replicate 32 pa.toNat) →
      smWf ({} : Frame) v.memc.frames = true → v.memc.poison.contains (pa.toNat / 32) = false →
      smGet 0 v.memc.upset (pa.toNat / 32) = 0 →
      (∃ t : State, exec (.patrolScrubRead false pa .good) s = .next t ∧ t.memc.eccCorr = v.memc.eccCorr
        ∧ t.memc.scrubHbm = (s.memc.scrubHbm + 1) % (hbmEnd / 32))
      ∧ (∃ t : State, exec (.patrolScrubRead false pa .corrected) s = .next t ∧ t.memc.eccCorr = v.memc.eccCorr + 1
        ∧ t.memc.scrubHbm = (s.memc.scrubHbm + 1) % (hbmEnd / 32)
        ∧ (t.frameAt (pa.toNat / frameBytes)).corrections =
          (if s.memc.scrubHbm = 0 then 1 else (v.frameAt (pa.toNat / frameBytes)).corrections + 1)
        ∧ (s.memc.retireAt.toNat ≤ (t.frameAt (pa.toNat / frameBytes)).corrections →
          (t.frameAt (pa.toNat / frameBytes)).retired = true))
      ∧ (∃ t : State, exec (.patrolScrubRead false pa .uncorrectable) s = .next t
        ∧ t.memc.eccUncorr = v.memc.eccUncorr + 1 ∧ pa.toNat / 32 ∈ t.memc.poison ∧ t.memc.eccValid = true
        ∧ t.memc.eccAddr = BitVec.ofNat 48 (pa.toNat / 32 * 32) ∧ t.memc.eccTier = false))
    ∧ (s.memc.rateAsked = true → s.memc.rateBusy = false → s.tickEdge = true → exec .loftRateChange s = .next { s with
        memc := { s.memc with rateBusy := true, rateAsked := false, rateNext := s.memc.rateTarget } })
    ∧ (s.memc.rateBusy = true → smWf (0 : Nat) s.memc.chRate = true → ∃ t : State, exec .loftRateChangeEnd s = .next t
      ∧ t.memc.rateBusy = false ∧ t.memc.rateCurrent = s.memc.rateNext ∧ t.memc.rateChanges = s.memc.rateChanges + 1
      ∧ t.memc.chans = s.memc.chans.filter (fun e => decide (e.1 < 128))
      ∧ ∀ ch, ch < 32 → smGet 0 t.memc.chRate ch =
        if s.memc.chFail.getLsbD ch then smGet 0 s.memc.chRate ch else s.memc.rateNext)
    ∧ (∀ (mask : W32), ∃ t : State, exec (.memChRetrain mask) s = .next t ∧ t.memc.chFail = s.memc.chFail
      ∧ ∀ i, i < 32 → t.memc.retrain.getLsbD i = (s.memc.retrain.getLsbD i || (mask.getLsbD i && s.memc.chFail.getLsbD i)))
    ∧ (∀ (ch : Fin 32) (ok : Bool), s.memc.retrain.getLsbD ch = true →
      ∃ t : State, exec (.loftRetrainDone ch ok) s = .next t ∧ t.memc.retrain.getLsbD ch = false
        ∧ t.memc.chFail.getLsbD ch = (s.memc.chFail.getLsbD ch && !ok))
    ∧ (∀ (ch : Fin 32), ∃ t : State, exec (.loftTrainingLost ch) s = .next t ∧ t.memc.chFail.getLsbD ch = true)
    ∧ (∀ id (ch : Fin 32) c g o r, s.cmd id = some c → c.st = .running →
      ((List.range 96).filterMap fun g => ((s.cl g).ops.find? fun o => o.cmd == id && !o.killed && (s.lateOn ch o).isSome).bind
        fun o => (s.lateOn ch o).map fun r => (g, o, r)).head? = some (g, o, r) →
      r.op = o.id ∧ r.missed = false ∧ r.issued + s.memc.tierTimeout.toNat ≤ s.beat
      ∧ ∃ (t : State) (k u : Nat), exec (.loftRequestTimeout id ch) s = .next t
        ∧ t = ((s.raise c g k u fTier o.slot none).missed ch r).loftMiss ch ∧ t.memc.loftTimeouts = s.memc.loftTimeouts + 1
        ∧ (2 ≤ smGet 0 s.memc.missRow ch → t.memc.chFail.getLsbD ch = true))
    ∧ (∀ (ch : Nat), smGet 0 s.memc.missRow ch < 2 → smWf (0 : Nat) s.memc.missRow = true →
      (s.loftMiss ch).memc.chFail = s.memc.chFail ∧ smGet 0 (s.loftMiss ch).memc.missRow ch = smGet 0 s.memc.missRow ch + 1)
    ∧ (∀ (frame : BitVec 48), frame.toNat % frameBytes = 0 → s.frameFree (frame.toNat / frameBytes) = true →
      frame.toNat / frameBytes < hbmReserve / frameBytes → Memory.wf s.mem →
      ∃ t : State, exec (.frameZero frame) s = .next t ∧ (t.frameAt (frame.toNat / frameBytes)).zeroed = true
        ∧ ∀ a, memGet t.mem a = if frame.toNat ≤ a ∧ a < frame.toNat + frameBytes then 0 else memGet s.mem a)
    ∧ (s.frameEdge = true → smWf ({} : Frame) s.memc.frames = true → ∃ t : State, exec .accessCountHalve s = .next t
      ∧ t.mem = s.mem ∧ ∀ n, t.frameAt n = { s.frameAt n with count := (s.frameAt n).count / 2 })
    ∧ (∀ (ch : Nat) (r : ChReq), s.closed ch = false → (s.chan ch).pick (s.inlet ch) = some r → (s.chan ch).queue.length < 32 →
      (s.infl.filter (·.of r)) = [] → s.memc.upset = [] → s.memc.poison = [] → s.memc.loftBad = [] → smWf ({} : Frame) s.memc.frames = true →
      (s.enter ch).mem = s.mem ∧ (s.enter ch).memc.waiting = s.memc.waiting.erase r ∧
      (s.enter ch).frameAt (64 * r.burst / frameBytes) = { s.frameAt (64 * r.burst / frameBytes) with
          count := min 0xFFFF ((s.frameAt (64 * r.burst / frameBytes)).count + ((s.frameAt (64 * r.burst / frameBytes)).part + r.bytes) / 4096)
          part := ((s.frameAt (64 * r.burst / frameBytes)).part + r.bytes) % 4096 })
    ∧ (∀ (src dst : BitVec 48) t0, s.schUp = true → src.toNat % frameBytes = 0 → dst.toNat % frameBytes = 0 →
      (s.frameAt (src.toNat / frameBytes)).holder = some t0 → s.leavesIn t0 (src.toNat / frameBytes) ≠ [] →
      ((s.leavesIn t0 (src.toNat / frameBytes)).any (·.pin)) = false → s.memc.migs.length < 4 →
      s.frameFree (dst.toNat / frameBytes) = true →
      (dst.toNat / frameBytes < hbmReserve / frameBytes ∨ s.isLoft dst.toNat = true) →
      isLoftFrame (dst.toNat / frameBytes) ≠ isLoftFrame (src.toNat / frameBytes) →
      (s.memc.migs.any fun x => x.src == src.toNat) = false →
      (isLoftFrame (dst.toNat / frameBytes) = true → s.memc.chFail = 0) →
      (s.ten t0).use (isLoftFrame (dst.toNat / frameBytes)) + 1 ≤ (s.ten t0).quota (isLoftFrame (dst.toNat / frameBytes)) →
      (s.ten t0).over (isLoftFrame (dst.toNat / frameBytes)) = false →
      majorityTier (s.leavesIn t0 (src.toNat / frameBytes)) ≠ some (isLoftFrame (src.toNat / frameBytes)) →
      (s.memc.lost.any fun e => e.1 == src.toNat / frameBytes) = false →
      ∃ t : State, exec (.migrationStart src dst) s = .next t
        ∧ t.memc.migs = s.memc.migs ++ [{ tenant := t0, src := src.toNat, dst := dst.toNat }]
        ∧ (t.frameAt (dst.toNat / frameBytes)).holder = some t0 ∧ (t.ten t0).leaves = (s.ten t0).leaves)
    ∧ (∀ (src : BitVec 48) (r : ChunkResult) m, s.schUp = true → (s.memc.migs.find? fun m => m.src == src.toNat) = some m →
      s.shut [m.src, m.dst] = true → exec (.migrationChunk src r) s = .next s)
    ∧ (∀ (src : BitVec 48) (m : Migration) (v : State), s.schUp = true → (s.memc.migs.find? fun m => m.src == src.toNat) = some m → m.chunk < 512 →
      s.shut [m.src, m.dst] = false → v = s.fetches 0 0 srcMig false
        (((List.range 64).map fun k => m.src + 4096 * m.chunk + 64 * k).flatMap fun p => List.replicate 64 p) →
      s.pinned m = false → (∀ ch ∈ s.chunkChans m, s.memc.chFail.getLsbD ch = false) →
      ((v.memc.poison ++ v.memc.loftBad ++ (v.memc.upset.filter fun e => decide (2 ≤ e.2)).map (·.1)).filter fun w =>
        decide (m.src + 4096 * m.chunk ≤ 32 * w) && decide (32 * w < m.src + 4096 * m.chunk + 4096)) = [] →
      ∃ t : State, exec (.migrationChunk src .landed) s = .next t
        ∧ (v.memc.waiting = [] → t.mem = memMove v.mem (m.src + 4096 * m.chunk) (m.dst + 4096 * m.chunk) 4096)
        ∧ (t.memc.migs.find? fun m => m.src == src.toNat) = some { m with chunk := m.chunk + 1 })
    ∧ (∀ (src : BitVec 48) m, s.schUp = true → (s.memc.migs.find? fun m => m.src == src.toNat) = some m → 512 ≤ m.chunk → s.pinned m = false →
      smWf ({} : Tenant) s.tens = true →
      ∃ t : State, exec (.migrationComplete src) s = .next t ∧ t.memc.migDone = s.memc.migDone + 1
        ∧ (t.memc.migs.find? fun m => m.src == src.toNat) = none ∧ t.mem = s.mem
        ∧ (t.ten m.tenant).leaves = (s.ten m.tenant).leaves.map fun l =>
          if l.pa / frameBytes = m.src / frameBytes ∧ l.size ≤ frameBytes then { l with pa := m.dst + l.pa % frameBytes } else l)
    ∧ (∀ (g : Cl) (seg : Fin 96) (tag : Option Fn), s.schUp = true → Memory.wf s.mem → s.tablesWf →
      smWf (none : Option Nat) (s.cl g).segs = true → smGet none (s.cl g).segs seg ≠ tag.map (·.val) →
      ∃ t : State, exec (.segmentRetag g seg tag) s = .next t ∧ smGet none (t.cl g).segs seg = tag.map (·.val)
        ∧ (∀ a, memGet t.mem a = if cbAddr g (65536 * seg) ≤ a ∧ a < cbAddr g (65536 * seg) + 65536 then 0 else memGet s.mem a)
        ∧ (∀ w ∈ t.infl, ¬ (cbAddr g (65536 * seg) ≤ w.addr ∧ w.addr < cbAddr g (65536 * seg) + 65536)))

/-- Images, activation and trial, configuration and overlays (spec/18 R390-R404): a checked image is staged into the inactive slot;
a set of staged, compatible images is activated and starts at a frame boundary; readiness starts probation, whose end commits; a
trial that is late or whose groom expires is reverted; a loaded record, an overlay switch and a configuration take effect as a whole
at a frame boundary. -/
def Obligations.GroomResult : Prop :=
  ∀ (s : State), s.alive = true →
    (∀ (u v : State) bs i b, u = s.setLow 0 none → s.secUp = true → s.grm.staging = none → s.grm.trialSet.getLsbD s.grm.updClass = false →
      s.grm.updSrc.toNat % 64 = 0 → u.imageAt s.grm.updSrc.toNat = (v, some bs) → v.checkImage s.grm.updClass bs = .inl i →
      b = v.inactiveSlot s.grm.updClass → v.fls.slotUsable (imageSlot s.grm.updClass b) = true →
      ∃ t : State, exec .stage s = .next t ∧ t.grm.staging = some (s.grm.updClass, b)
        ∧ t.grm.updState = 1 ∧ t.grm.stagedBits.getLsbD s.grm.updClass = false
        ∧ t.fls = { v.fls with jobs := v.fls.jobs ++ [⟨.stage s.grm.updClass b, slotSteps (imageSlot s.grm.updClass b) bs⟩] })
    ∧ (∀ (j : FlsJob) (js : List FlsJob), s.secUp = true → s.fls.busy = false → s.fls.seq = .read → s.fls.jobs = j :: js → j.steps = [] →
      (∀ c b, j.what = .stage c b → s.secStep = ({ s with fls := { s.fls with jobs := js } }).stageEnds c
        ∧ s.secStep.grm.staging = none ∧ (c < 4 → s.secStep.grm.stagedBits.getLsbD c = true))
      ∧ (∀ bs, j.what = .load bs → s.secStep = ({ s with fls := { s.fls with jobs := js } }).loadEnds bs ∧ s.secStep.grm.cfgBusy = false)
      ∧ (j.what = .trial → s.secStep.grm.probEnd = none ∧ s.secStep.grm.trialSet = 0
        ∧ s.secStep.grm.stagedBits = s.grm.stagedBits &&& ~~~ s.grm.trialSet
        ∧ ∀ c, c ∈ setBits s.grm.trialSet → (s.groom c).state = 3 → (s.secStep.groom c).state = 1))
    ∧ (∀ u : State, u = s.setLow 0 none → s.secUp = true → s.grm.updState = 0 → s.grm.updSet ≠ 0 → s.grm.updSet &&& ~~~ s.grm.stagedBits = 0 →
      peersAgree (u.resultingSet s.grm.updSet) = true → (∀ i ∈ u.resultingSet s.grm.updSet, u.holdsVersions i = true) →
      u.holdsYard (u.resultingSet s.grm.updSet) = true → ∃ t : State, exec .activate s = .next t
        ∧ t.grm.activating = true ∧ t.grm.trialSet = s.grm.updSet ∧ t.grm.updState = 1 ∧ t.grm.grooms = s.grm.grooms)
    ∧ (s.secUp = true → s.frameEdge = true → s.grm.activating = true → s.grm.ovlSwitch = none →
      s.grm.ovlAt ≠ some s.frame → ∃ t : State, exec .trialStart s = .next t ∧ t.grm.activating = false
        ∧ t.grm.trialStartNs = s.tim.ns ∧ t.grm.probEnd = none
        ∧ ∀ c i, c ∈ setBits s.grm.trialSet → s.slotManifest c (s.inactiveSlot c) = some i →
          (t.groom c).state = 3 ∧ (t.groom c).running = some i ∧ (t.groom c).ready = false)
    ∧ (∀ (c : Gc), s.grm.inTrial = true → (s.groom c).state = 3 → (s.groom c).ready = false → s.sec.pressed = false →
      ∃ t : State, exec (.trialReady c) s = .next t ∧ (t.groom c).ready = true ∧ (t.groom c).state = 3
        ∧ (((setBits s.grm.trialSet).all fun d => (t.groom d).ready) = true →
          t.grm.probEnd = some (s.tim.ns + s.grm.probation.toNat * 1000000000))
        ∧ (((setBits s.grm.trialSet).all fun d => (t.groom d).ready) = false → t.grm.probEnd = s.grm.probEnd))
    ∧ (s.grm.inTrial = true → s.grm.probEnd = none → s.grm.trialStartNs + 1000000000 ≤ s.tim.ns →
      exec .trialTimeout s = .next s.revert ∧ s.revert.grm.trialSet = 0 ∧ s.revert.grm.updCode = 10
      ∧ s.revert.grm.probEnd = none)
    ∧ (∀ n, s.grm.probEnd = some n → n ≤ s.tim.ns → s.secUp = true → s.committing = false → exec .probationEnd s = .next { s with
      fls := { s.fls with jobs := s.fls.jobs ++ [⟨.trial, (setBits s.grm.trialSet).flatMap s.commitImage⟩] } })
    ∧ (∀ (c : Gc), s.groomUp c = true → s.grm.trialSet.getLsbD c = false → ∃ t : State, exec (.watchdogExpiry c) s = .next t
      ∧ (t.groom c).restarts = (s.groom c).restarts + 1 ∧ (t.groom c).down = true
      ∧ (((s.groom c).expiries.filter fun t => decide (s.tim.ns < t + hourNs)).length < 2 → (t.groom c).state = 2))
    ∧ (∀ (c : Gc), s.groomUp c = true → s.grm.inTrial = true → s.committing = false → s.grm.trialSet.getLsbD c = true →
      ∃ t : State, exec (.watchdogExpiry c) s = .next t ∧ t.grm.trialSet = 0 ∧ t.grm.updCode = 10)
    ∧ (∀ (u v : State) bs r b, u = s.setLow 0 none → s.secUp = true → s.sec.owners ≠ [] → s.grm.cfgBusy = false →
      u.recordAt s.grm.cfgSrc.toNat = (v, some bs) →
      ownerSigned v.sec.owner bs = true → v.readRecord (some v.glb.yardId) bs = .inl r →
      (∀ q, v.grm.replacedSeq bs = some q → q < r.seq.toNat) →
      b = (match v.fls.activeSlot (recordPlace bs) with | some x => !x | none => false) →
      v.fls.slotUsable (recordPlace bs b) = true → exec .load s = .next { v with
        grm := { v.grm with cfgBusy := true }
        fls := { v.fls with jobs := v.fls.jobs ++
          [⟨.load bs, slotSteps (recordPlace bs b) bs ++ [commitStep (recordPlace bs) b bs.length (sha512 bs)]⟩] } })
    ∧ (∀ r, s.frameEdge = true → s.camEvents = false → s.grm.baseNext = some r → exec .configApply s = .next (s.reconfigure
        { s.grm with base := some r, baseNext := none, baseSeq := r.seq, ovlRenew := false } false false))
    ∧ (s.frameEdge = true → s.camEvents = false → s.grm.baseNext = none → s.grm.ovlRenew = true →
      exec .configApply s = .next (s.reconfigure { s.grm with ovlRenew := false } false true))
    ∧ (∀ (v : W64), s.secUp = true → (bits v.toNat 3 0 < 8 ∨ bits v.toNat 3 0 = 15) → s.grm.base.isNone = false →
      (bits v.toNat 3 0 < 8 → (smGet none s.grm.overlays (bits v.toNat 3 0)).isNone = false) →
      0 < diff32 (BitVec.ofNat 32 (bits v.toNat 63 32)) (BitVec.ofNat 32 s.frame) →
      ∃ t : State, exec (.grmOvlNext v) s = .next t
        ∧ t.grm.ovlSwitch = some (bits v.toNat 3 0, BitVec.ofNat 32 (bits v.toNat 63 32))
        ∧ t.grm.ovlNext = BitVec.ofNat 4 (bits v.toNat 3 0) ∧ t.grm.ovlLate = s.grm.ovlLate)
    ∧ (∀ n fr, s.grm.ovlSwitch = some (n, fr) → s.frameEdge = true → s.camEvents = false →
      diff32 fr (BitVec.ofNat 32 s.frame) ≤ 0 →
      exec .overlaySwitch s = .next (s.reconfigure
        { s.grm with ovlSwitch := none, ovlAt := some s.frame, ovlCurrent := n } false false))
    ∧ (∀ (c : Gc), (s.groom c).down = true → (s.groom c).state = 2 → s.sec.pressed = false →
      s.reloads c = true → (c.val = 0 ∨ s.secUp = true) →
      ∃ t : State, exec (.groomBackInService c) s = .next t ∧ (t.groom c).state = 1 ∧ (t.groom c).down = false)

/-- The boot and the tack room (spec/19 R405-R421, spec/18 R400): a release of reset boots once; recovery clears the memory; a ROM
load is refused or runs in recovery mode; the end of a clearing leaves zeros; an owner change or a debug unlock is armed by a valid
record, acts by a press, and ends after 30 s; an attestation request is begun with the device's state and written at its address. -/
def Obligations.TackRoomResult : Prop :=
  ∀ (s : State), s.alive = true →
    (s.board.bootPending = true → s.fls.busy = false → ∃ t : State, exec .boot s = .next t ∧ t.board.bootPending = false ∧ t.board.booted = true
      ∧ t.sec.idHash = idHashOf s.sec.seed ∧ t.sec.recNext = false
      ∧ (s.sec.recNext = true → t.sec.bootMode ≠ 0 ∧ t.sec.clearing = true)
      ∧ ((∀ b, s.readHealth.repairErases.slotImage 0 b = none) → t.sec.bootMode = 2 ∧ t.grm = s.grm))
    ∧ (∀ (res : SelfTest), s.board.booted = true → s.far.startupDone = false → s.sec.bootMode ≠ 2 → s.sec.clearing = false →
      ∃ t : State, exec (.startupSelfTest res) s = .next t ∧ t.far.startupDone = true
        ∧ t.memc.separate = (s.memc.separate && (s.sec.bootMode != 0 || t.anyFlight))
        ∧ ∀ g, g < 96 → s.disabled g = false → res.clusters.getLsbD g = true → t.disabled g = true)
    ∧ (∀ (len : BitVec 23) (u : State), u = s.setLow 0 none → s.sec.bootMode = 2 → s.sec.clearing = false →
      (∀ i, u.checkImage 0 (s.rds 0 len.toNat) = .inl i →
        ∃ t : State, exec (.secRomLoad len) s = .next t ∧ t.sec.bootMode = 1 ∧ t.sec.romImage = true
          ∧ t = ({ u with sec := { s.sec with romImage := true } }).secBoot false i true)
      ∧ (∀ c, u.checkImage 0 (s.rds 0 len.toNat) = .inr c →
        exec (.secRomLoad len) s = .next { u with sec := { s.sec with romReject := true } }))
    ∧ (s.sec.clearing = true → ∃ t : State, exec .memoryClearDone s = .next t ∧ t.mem = [] ∧ t.infl = []
      ∧ t.sec.clearing = false ∧ (s.sec.debugNext = true → t.sec.debug = true ∧ t.sec.debugNext = false)
      ∧ (s.sec.debugNext = false → t.sec.debug = s.sec.debug))
    ∧ (∀ (u w : State) bs es v, u = s.setLow 0 none → s.secUp = true → s.sec.presence = 0 → u.ownerRecord = (w, some bs) → w.ownerEntries 2 256 bs = some es →
      lastEntry es 0xF0 = some v → attestedTarget es = some s.sec.idHash → v.length = 68 → zerosN v 67 68 = true →
      (p521Unpack (v.take 67)).isNone = false → es.length = 2 →
      ownerSigned (some (s.sec.owner.getD (hash512 (v.take 67)))) bs = true → s.sec.owners.length < 4 →
      exec .secOwnerArm s = .next (w.armPresence 2 (hash512 (v.take 67))))
    ∧ (∀ (u w : State) bs es, u = s.setLow 0 none → s.secUp = true → s.sec.presence = 0 → s.sec.jtagOff = false →
      u.ownerRecord = (w, some bs) → w.ownerEntries 3 512 bs = some es → attestedTarget es = some s.sec.idHash →
      blockValid ((bs.drop (bs.length - 512)).take 256) (bs.take (bs.length - 512)) 0 s.sec.vendorHash = true →
      ownerSigned s.sec.owner bs = true → exec .secOwnerDebug s = .next (w.armPresence 3 0))
    ∧ (s.sec.presence = 2 → s.beat ≤ s.sec.armBeat + presenceBeats → s.secUp = true →
      ∃ t : State, exec .recoverNPress s = .next t ∧ t.sec.owners = s.sec.owners ++ [s.sec.armHash]
        ∧ t.sec.presence = 0 ∧ t.sec.ownerDone = true)
    ∧ (s.sec.presence = 1 → s.beat ≤ s.sec.armBeat + presenceBeats → s.secUp = true →
      exec .recoverNPress s = .next ({ s with sec := { s.sec with recNext := true } }.deviceReset true))
    ∧ (s.sec.presence ≠ 0 → s.sec.armBeat + presenceBeats ≤ s.beat → ∃ t : State, exec .presenceTimeout s = .next t
      ∧ t.sec.presence = 0 ∧ t.sec.owners = s.sec.owners)
    ∧ (∀ (f : Fn), (s.fn f).attBusy = false →
      exec (.fnAttReq f) s = .next ((s.setLow f none).modFn f fun b => { b with attBusy := true }))
    ∧ (∀ f, s.secUp = true → s.sec.attRun = none → ((List.range 64).find? fun f => (s.fn f).attBusy) = some f →
      ∃ t : State, exec .attestationReport s = .next t ∧ t.fns = s.fns
        ∧ t.sec.attRun = some (f, s.reportBody f ++ signBlock (idScalar s.sec.seed) (s.reportBody f)))
    ∧ (∀ f bs, s.secUp = true → s.sec.attRun = some (f, bs) → smWf ({} : FnBlk) s.fns = true →
      ∃ t : State, exec .attestationReport s = .next t ∧ t.sec.attRun = none ∧ (t.fn f).attBusy = false
        ∧ (t.fn f).attCode = BitVec.ofNat 4 (s.attFault f (s.fn f).attDst.toNat)
        ∧ (s.attFault f (s.fn f).attDst.toNat = 0 → (t.fn f).attDone = true
          ∧ t.mem = (s.wrVa f (s.fn f).attDst.toNat bs).mem)
        ∧ (s.attFault f (s.fn f).attDst.toNat ≠ 0 → t.mem = s.mem))

/-- The flash (spec/20 R425-R431, R436): SEC's sequences start a program, a buffer program or an erase on the die, and the status
sequence makes the next read the status word; RESET ends a sequence; a sequence left open for 1 ms is broken; a program can only
clear bits and an erase makes a sector all ones, or fails after 64 pulses and loses it; SEC's erase stands in the journal before it
starts, and where the journal turns first it follows as SEC's work; a read meets BUSY and the execute-only regions; another groom's writes are counted and
change nothing; the health record's writing begins when it is due. -/
def Obligations.FlashResult : Prop :=
  ∀ (s : State), s.board.pwrok = true → s.board.tripped = false →
    (∀ (a d : W32), s.fls.seq = .read → s.fls.busy = false → windowBase ≤ a.toNat → a.toNat < windowBase + arrayBytes →
      a.toNat % 4 = 0 →
      exec (.wordProgram 0 [(0x2000AAA8, 0xAA), (0x20005554, 0x55), (0x2000AAA8, 0xA0), (a, d)]) s = .next { s with
        fls := s.fls.start (.word (a.toNat - windowBase) d) 1 (sectorOf (a.toNat - windowBase)) })
    ∧ (∀ (n : Fin 543) (a b d : W32), s.fls.seq = .read → s.fls.busy = false → b.toNat = windowBase + sectorBase n →
      windowBase + sectorBase n ≤ a.toNat → a.toNat < windowBase + sectorBase n + sectorSize n → a.toNat % 4 = 0 →
      exec (.bufferProgram 0 [(0x2000AAA8, 0xAA), (0x20005554, 0x55), (b, 0x25), (b, 0), (a, d), (b, 0x29)]) s = .next { s with
        fls := s.fls.start (.buffer [(a.toNat - windowBase, d)]) 2 n })
    ∧ (∀ (n : Fin 543) (b : W32) (ws : List (W32 × W32)), s.fls.seq = .read → s.fls.busy = false → s.fls.run = none →
      b.toNat = windowBase + sectorBase n → ws = [(0x2000AAA8, 0xAA), (0x20005554, 0x55), (0x2000AAA8, 0x80), (0x2000AAA8, 0xAA),
        (0x20005554, 0x55), (b, 0x30)] →
      (∀ m q, s.fls.journalSteps n = [.entry m q] → exec (.sectorErase 0 ws) s = .next { s with
        fls := (s.fls.prog s.fls.journalNext (journalBytes q n)).start (.erase n) 3 n })
      ∧ ((∀ m q, s.fls.journalSteps n ≠ [.entry m q]) → ∃ t : State, exec (.sectorErase 0 ws) s = .next t ∧ t.fls.arr = s.fls.arr
        ∧ t.fls.jobs = s.fls.jobs ++ [⟨.other, eraseSteps n⟩] ∧ t.fls.run = none ∧ t.fls.busy = false))
    ∧ (s.fls.seq = .read → exec (.flashStatus 0 [(0x2000AAA8, 0xAA), (0x20005554, 0x55), (0x2000AAA8, 0x70)]) s =
      .next { s with fls := { s.fls with statusNext := true } })
    ∧ (∀ (a : W32), windowBase ≤ a.toNat → a.toNat < windowBase + arrayBytes → s.fls.busy = false →
      (s.fls.seq = .read ∨ s.fls.seq = .unlock1 ∨ s.fls.seq = .unlocked ∨ s.fls.seq = .erase ∨ s.fls.seq = .erase1
        ∨ s.fls.seq = .erase2) → exec (.flashReset 0 a) s = .next { s with fls := { s.fls with seq := .read } })
    ∧ (∀ (c : Gc) (a : W32), c ≠ 0 → windowBase ≤ a.toNat → a.toNat < windowBase + arrayBytes →
      exec (.flashReset c a) s = .next { s with
        fls := { (if s.fls.seq = .read then s.fls else { s.fls with seq := .read, seqErr := true }) with denied := s.fls.denied + 1 } })
    ∧ (s.fls.seq ≠ .read → exec .seqTimeout s = .next { s with fls := { s.fls with seq := .read, seqErr := true } })
    ∧ (∀ x w ok, s.fls.run = some (.word x w) → ∃ t : State, exec (.flashOpDone 0 ok) s = .next t ∧ t.fls.busy = false
      ∧ t.fls.run = none ∧ t.fls.done = true
      ∧ (smWf (0xFF : Byte) s.fls.arr = true → (∀ a, t.fls.rd a &&& s.fls.rd a = t.fls.rd a)
        ∧ (ok = true → t.fls.rds x 4 = (leBytes 4 w.toNat).zipIdx.map fun b => s.fls.rd (x + b.2) &&& b.1)))
    ∧ (∀ n pulses, s.fls.run = some (.erase n) → smWf (0xFF : Byte) s.fls.arr = true →
      ∃ t : State, exec (.flashOpDone pulses true) s = .next t ∧ t.fls.busy = false ∧ t.fls.run = none
        ∧ (∀ a, t.fls.rd a = if sectorBase n ≤ a ∧ a < sectorBase n + sectorSize n then 0xFF else s.fls.rd a)
        ∧ t.fls.erases = s.fls.erases + 1 ∧ t.fls.lastPulses = BitVec.ofNat 7 (max 1 (min 64 pulses)))
    ∧ (∀ n pulses, s.fls.run = some (.erase n) → ∃ t : State, exec (.flashOpDone pulses false) s = .next t ∧ t.fls.eraseFail = true
      ∧ t.fls.lastPulses = 64 ∧ t.fls.lastResult = true ∧ n ∈ t.fls.unusable)
    ∧ (∀ (c : Gc) (a : W32) (fetch : Bool) x, windowBase ≤ a.toNat → a.toNat < windowBase + arrayBytes → s.fls.seq = .read →
      x = a.toNat - windowBase → s.fls.statusNext = false →
      (s.fls.refused c (sectorOf x) fetch = false → s.fls.busyIn (sectorOf x) = false →
        exec (.flashWindowRead c a fetch) s = .next s)
      ∧ (s.fls.busyIn (sectorOf x) = true →
        exec (.flashWindowRead c a true) s = .next { s with fls := { s.fls with fetches := s.fls.fetches ++ [(c.val, x)] } })
      ∧ (s.fls.refused c (sectorOf x) true = true → s.fls.busyIn (sectorOf x) = false →
        exec (.flashWindowRead c a true) s = .next (s.setGroom c { s.groom c with faulted := true }))
      ∧ (s.fls.refused c (sectorOf x) false = true → exec (.flashWindowRead c a false) s =
        .next { s with fls := { s.fls with
          xoHit := true, xoAddr := BitVec.ofNat 27 x, busyHit := s.fls.busyHit || s.fls.busyIn (sectorOf x) } })
      ∧ (s.fls.refused c (sectorOf x) false = false → s.fls.busyIn (sectorOf x) = true →
        exec (.flashWindowRead c a false) s = .next { s with fls := { s.fls with busyHit := true } }))
    ∧ (s.alive = true → s.secUp = true → s.healthDue = true → (s.fls.jobs.any fun j => j.what == .health) = false →
      ∃ (t : State) (steps : List FlsStep), exec .healthRecordWrite s = .next t ∧ t.fls.jobs = s.fls.jobs ++ [⟨.health, steps⟩]
      ∧ t.fls.arr = s.fls.arr ∧ t.fls.healthDirty = false ∧ t.fls.healthUrgent = false ∧ t.fls.healthNs = some s.tim.ns)

/-- Cameras (spec/21 R440-R458): a frame starts with its number and buffer; a line of the right type and length is stored as the next
line, one that fails its CRC is filled and counted; a frame's end counts it and hands it on; silence ends a frame and takes a sensor
out; hot-plug; the settings tag; a stripe or a frame goes through the pipeline; a delivery counts the binding's SEQ up. -/
def Obligations.CameraResult : Prop :=
  ∀ (s : State), s.alive = true →
    (∀ (p : Fin 2) (vc : Fin 32), (s.camPort p).hpd = true → s.runningAt p vc = none → s.sensorAt p vc = none →
      ((∀ i, i < 8 → (s.sensor (8 * p.val + i)).vc ≠ some vc.val) →
        exec (.camFrameStart p vc) s = .next (s.setCamPort p { s.camPort p with stray := true }))
      ∧ (∀ i, i < 8 → (s.sensor (8 * p.val + i)).vc = some vc.val → exec (.camFrameStart p vc) s = .next s))
    ∧ (∀ (p : Fin 2) (vc : Fin 32) n r, (s.camPort p).hpd = true → s.runningAt p vc = none → s.sensorAt p vc = some (n, r) →
      (s.sensor n).state = 1 → (s.sensor n).cur = none → (s.sensor n).waiting = [] → s.areaFault r = none →
      ∃ (t : State) (f : CamFrame), exec (.camFrameStart p vc) s = .next t ∧ (t.sensor n).cur = some f
        ∧ f.count = (s.sensor n).frameNo ∧ f.buf = (s.sensor n).frameNo % 2 ∧ f.start = s.beat * 1000 ∧ f.lines = 0 ∧ f.sens = r
        ∧ (t.sensor n).cfg = some r ∧ (t.sensor n).frameNo = (s.sensor n).frameNo + 1 ∧ t.mem = s.mem)
    ∧ (∀ (p : Fin 2) (vc : Fin 32) (dt : Byte) (px : List (BitVec 16)) n r f, (s.camPort p).hpd = true →
      s.runningAt p vc = some (n, f) → r = f.sens → dt ≠ 0x12 → dt.toNat = r.dt → f.lines < r.height → px.length = r.width →
      s.lineFault r f.buf f.lines = none → ∃ t : State, exec (.camLine p vc dt px true true) s = .next t ∧ t.mem = (s.putLine r f.buf f.lines px).mem
        ∧ (∃ g, (t.sensor n).cur = some g ∧ g.lines = f.lines + 1 ∧ g.received = f.received + 1 ∧ g.flags = f.flags)
        ∧ (t.sensor n).lineErrors = (s.sensor n).lineErrors)
    ∧ (∀ (p : Fin 2) (vc : Fin 32) (dt : Byte) (px : List (BitVec 16)) n r f, (s.camPort p).hpd = true →
      s.runningAt p vc = some (n, f) → r = f.sens → dt ≠ 0x12 → dt.toNat = r.dt → f.lines < r.height →
      s.lineFault r f.buf f.lines = none → ∃ t : State, exec (.camLine p vc dt px true false) s = .next t
        ∧ t.mem = (s.putLine r f.buf f.lines (List.replicate r.width (BitVec.ofNat 16 r.fill))).mem
        ∧ (t.sensor n).lineErrors = (s.sensor n).lineErrors + 1 ∧ (t.sensor n).crcErrors = (s.sensor n).crcErrors + 1)
    ∧ (∀ (p : Fin 2) (vc : Fin 32) (dt : Byte) (px : List (BitVec 16)) (crcOk : Bool) n f, (s.camPort p).hpd = true →
      s.runningAt p vc = some (n, f) → dt ≠ 0x12 → dt.toNat ≠ f.sens.dt → exec (.camLine p vc dt px true crcOk) s =
        .next (s.setSensor n { s.sensor n with lastNs := s.tim.ns, crcErrors := (s.sensor n).crcErrors + 1 }))
    ∧ (∀ (p : Fin 2) (vc : Fin 32) (dt : Byte) (px : List (BitVec 16)) (crcOk : Bool) n r, (s.camPort p).hpd = true →
      s.runningAt p vc = none → s.sensorAt p vc = some (n, r) → dt ≠ 0x12 → dt.toNat ≠ r.dt → exec (.camLine p vc dt px true crcOk) s =
        .next (s.setSensor n { s.sensor n with lastNs := s.tim.ns, crcErrors := (s.sensor n).crcErrors + 1 }))
    ∧ (∀ (p : Fin 2) (vc : Fin 32) n r f, (s.camPort p).hpd = true → s.runningAt p vc = some (n, f) → r = f.sens →
      ∃ (t : State) (g : CamFrame), exec (.camFrameEnd p vc) s = .next t ∧ (t.sensor n).cur = none
        ∧ (t.sensor n).waiting = (s.sensor n).waiting ++ [g] ∧ g.count = f.count ∧ g.endNs = s.beat * 1000
        ∧ (f.lines < r.height → (t.sensor n).truncated = (s.sensor n).truncated + 1
          ∧ g.flags.getLsbD 0 = true ∧ g.flags.getLsbD 3 = true))
    ∧ (∀ (n : Fin 16) f, (s.sensor n).cur = some f → s.silent n 2 f.sens = true →
      exec (.camSilenceTimeout n) s = .next (s.endFrame n true) ∧ ((s.endFrame n true).sensor n).cur = none
      ∧ ((s.endFrame n true).sensor n).truncated = (s.sensor n).truncated + 1)
    ∧ (∀ (n : Fin 16) r, (s.sensor n).cfg = some r → (s.sensor n).state = 1 → s.silent n 3 r = true →
      ∃ t : State, exec (.camPresenceTimeout n) s = .next t ∧ (t.sensor n).state ≠ 1 ∧ (t.sensor n).cur = none)
    ∧ (∀ (p : Fin 2), exec (.camHpd p true) s = .next (s.setCamPort p { s.camPort p with hpd := true, link := true }))
    ∧ (∀ (p : Fin 2), smWf ({} : Sensor) s.cam.sensors = true → smWf ({} : CamPort) s.cam.ports = true →
      ∃ t : State, exec (.camHpd p false) s = .next t ∧ (t.camPort p).hpd = false ∧ (t.camPort p).link = false
        ∧ ∀ i : Nat, i < 8 → (t.sensor (8 * p.val + i)).state ≠ 1)
    ∧ (∀ (n : Fin 16), s.groomUp 3 = true → (s.sensor n).record.isNone = false →
      ∃ t : State, exec (.camSettingsWrite n) s = .next t
        ∧ (t.sensor n).tag = (if (s.sensor n).tag + 1 = 0 then 1 else (s.sensor n).tag + 1) ∧ (t.sensor n).tag ≠ 0
        ∧ ((if s.startComing n then ((s.sensor n).frameNo : Int) else ((s.sensor n).frameNo : Int) - 1), (t.sensor n).tag) ∈ (t.sensor n).writes)
    ∧ (∀ b n f, s.camWork = [(b, n, true)] → (s.sensor n).cur = some f →
      exec .camPipelineRun s = .next (s.setSensor n { s.sensor n with cur := some { f with stripes := f.stripes + 1 } }))
    ∧ (∀ b n f fs, s.camWork = [(b, n, false)] → (s.sensor n).waiting = f :: fs →
      f.sens.stripes = false → exec .camPipelineRun s = .next (s.runFrame n f fs))
    ∧ (∀ (n : Fin 64) k i f d, s.dueTo n = some (k, i, f, d) → (s.binding n).cfg = some d.rcd →
      ∃ t : State, exec (.camDeliver n) s = .next t ∧ (t.binding n).seq = d.seq + 1
        ∧ ((s.binding n).state = 3 → t.mem = s.mem))

/-- The farrier (spec/22 R459-R469): a slice starts on the next cluster when its conditions hold, is deferred where one fails, and is
judged: a pass ends it, a first failure repeats it, a second one disables the cluster; an abandoned slice comes again; a tick after its
last clear the cluster serves again; a reference check that passes changes nothing, and one that fails marks a sensor, a monitor
or a detector suspect or a lane low. -/
def Obligations.FarrierResult : Prop :=
  ∀ (s : State), s.alive = true →
    (s.tickEdge = true → s.far.state = 0 → s.far.startupDone = true → s.memc.separate = false → s.disabled s.far.nextCluster = false →
      diff32 s.far.nextTick (BitVec.ofNat 32 s.tick) ≤ 0 →
      (s.sliceBar s.far.nextCluster = none → ∃ t : State, exec .farSliceStart s = .next t
        ∧ t.far.cluster = s.far.nextCluster ∧ t.far.slices = s.far.slices + 1 ∧ t.far.state = 1
        ∧ t.far.repeating = false)
      ∧ (∀ k, s.sliceBar s.far.nextCluster = some k → ∃ t : State, exec .farSliceStart s = .next t
        ∧ t.far.nextTick = BitVec.ofNat 32 (s.tick + 1) ∧ t.far.state = 0 ∧ t.far.slices = s.far.slices ∧ t.mem = s.mem))
    ∧ (∀ (logic memory stored : Bool), s.far.state = 2 → s.far.stepAt + 657 ≤ s.tick → ∃ t : State, exec (.farSliceJudge logic memory stored) s = .next t
      ∧ ((memory && (logic || !stored)) = true → t.far.state = 3 ∧ t.far.cluster = s.far.cluster
          ∧ t.far.verdict = (if s.far.repeating then 1 else 0) ∧ t.glb.disable = s.glb.disable)
      ∧ ((memory && (logic || !stored)) = false → s.far.repeating = false → t.far.state = 2 ∧ t.far.repeating = true
          ∧ t.glb.disable = s.glb.disable)
      ∧ ((memory && (logic || !stored)) = false → s.far.repeating = true → s.far.cluster < 96 → t.far.state = 3
          ∧ t.far.verdict = 2 ∧ t.disabled s.far.cluster = true)
      ∧ t.far.nosig = if stored then s.far.nosig else s.far.nosig + 1)
    ∧ (s.far.state = 2 → ((s.region (regionOf s.far.cluster)).current < 3 ∨ 5 < (s.region (regionOf s.far.cluster)).current
        ∨ s.forced (dieOf s.far.cluster) = true) →
      ∃ t : State, exec .farSliceAbandon s = .next t ∧ t.far.state = 3 ∧ t.far.verdict = 3
        ∧ t.far.abandoned = s.far.abandoned + 1 ∧ t.far.nextCluster = s.far.cluster)
    ∧ (s.far.state = 3 → s.far.stepAt < s.tick → s.farReturn.far.state = 0 ∧ s.farReturn.far.lastCluster = s.far.cluster
      ∧ s.farReturn.far.lastResult = s.far.verdict ∧ (s.farReturn.cl s.far.cluster).drained = false)
    ∧ (∀ (part : AnalogPart), exec (.farReferenceCheck part true) s = .next s)
    ∧ (∀ (r : Rg), ∃ t : State, exec (.farReferenceCheck (.monitor r) false) s = .next t
      ∧ t.far.suspect.getLsbD (36 + r.val) = true ∧ t.glb = s.glb ∧ t.mem = s.mem)
    ∧ (∀ (r : Rg), ∃ t : State, exec (.farReferenceCheck (.droop r) false) s = .next t
      ∧ t.far.suspect.getLsbD (44 + r.val) = true ∧ t.glb = s.glb ∧ t.mem = s.mem)
    ∧ (∀ (i : Fin 36), ∃ t : State, exec (.farReferenceCheck (.sensor i) false) s = .next t
      ∧ t.far.suspect.getLsbD i = true ∧ t.glb = s.glb ∧ t.mem = s.mem)
    ∧ (∀ (i : Fin 16), ∃ t : State, exec (.farReferenceCheck (.lane i) false) s = .next t
      ∧ t.far.pcieLow.getLsbD i = true ∧ t.far.suspect = s.far.suspect)

/-- Board events (spec/23 R475-R477, spec/17 R387): power that comes and goes, rails that recover, PERST_N and VDD_AON. Flash and fuses
outlast every one of them but an operation on the die that a loss of power cuts short. -/
def Obligations.BoardResult : Prop :=
  ∀ (s : State),
    (∀ (railsOk : Bool) (hottest : BitVec 16), s.board.pwrok = false → ∃ t : State, exec (.sysPwrokRise railsOk hottest) s = .next t
      ∧ t.board.pwrok = true ∧ t.board.supplyFault = !railsOk ∧ t.board.bootPending = true ∧ t.mem = [] ∧ t.fns = []
      ∧ t.tim.ns = 0 ∧ t.board.tripped = (s.board.tripped && decide (1680 ≤ hottest.toInt)) ∧ t.pending = s.pending
      ∧ t.sec.owners = s.sec.owners ∧ t.sec.arb = s.sec.arb ∧ (s.fls.run = none → t.fls.arr = s.fls.arr))
    ∧ (∀ (railsOk : Bool), exec (.railRecheck railsOk) s = .next { s with board := { s.board with
        supplyFault := if s.board.pwrok && s.board.supplyFault && railsOk then false else s.board.supplyFault } })
    ∧ (s.board.pwrok = true → ∃ t : State, exec .sysPwrokFall s = .next t ∧ t.board.pwrok = false ∧ t.alive = false
      ∧ t.mem = [] ∧ t.sec.owners = s.sec.owners ∧ (s.fls.run = none → t.fls.arr = s.fls.arr))
    ∧ (s.alive = true → ∃ t : State, exec (.perstN false) s = .next t ∧ t.alive = false ∧ t.fls.arr = s.fls.arr
      ∧ t.sec.owners = s.sec.owners ∧ t.clusters = [] ∧ t.cmds.list = [] ∧ t.board.bootPending = true ∧ t.tim = s.tim)
    ∧ (s.board.perst = false → exec (.perstN true) s = .next { s with board := { s.board with perst := true } })
    ∧ (∃ t : State, exec .vddAonRemoved s = .next t ∧ t.board.aon = false ∧ t.board.tripped = false
      ∧ t.pwr.thermtripSeen = false ∧ t.board.pwrok = false ∧ t.sec.owners = s.sec.owners)

/-! ### Machine-wide rules -/

/-- One step takes the command at the front of the queue and answers what exec answers on the state with the queue's rest; an empty
queue lets one beat of site time pass, which is the model's choice (log entry 1). -/
def Obligations.StepRunsFront : Prop :=
  (∀ (s : State) (c : Instr), Machine.step { s with pending := c :: s.pending } = exec c s)
  ∧ (∀ (s : State), s.pending = [] → Machine.step s = .next (idleBeat s))
  ∧ (∀ (s : State) (n w : Nat), s.withFetchWord n w = match decodeTableWord n w with
      | some c => { s with pending := c :: s.pending }
      | none => s)

/-- Every command completes on every state: exec answers a next state, and neither faults nor refuses. A command that cannot come
from the hardware (a word of another row's opcode, a host write of a width that R8 drops, a recovery access of no byte or of more than
64) changes nothing. -/
def Sys2Proof.Claims.ExecTotal : Prop :=
  ∀ (i : Instr) (s : State), (∃ t, exec i s = .next t) ∧ (i.wf = false → exec i s = .next s)

/-- A command changes everything but the queue of those that wait. -/
def Sys2Proof.Claims.ExecKeepsQueue : Prop :=
  ∀ (i : Instr) (s t : State), exec i s = .next t → t.pending = s.pending

/-- Exec answers a next state for every command on every state, never faults or refuses, leaves the state alone on an ill-formed
command, and leaves the queue alone. -/
def Obligations.ExecTotalAndKeepsQueue : Prop := Claims.ExecTotal ∧ Claims.ExecKeepsQueue

/-- The invariant of a safe run holds at reset: no command waits and every memory and table is empty. -/
def Obligations.ResetIsSafe : Prop := State.reset.safe ∧ State.reset.mem = [] ∧ State.reset.pending = []

/-- Every step of a safe state that answers a next state leaves a safe state: the commands that wait stay well formed, the device
memory and the host memory keep their canonical form, and so do the tables of clusters, functions, tenant spaces, contexts and
accounts; and a safe state's step never stops. -/
def Obligations.StepKeepsSafe : Prop :=
  ∀ (s : State), s.safe → ∃ t, Machine.step s = .next t ∧ t.safe

/-- The word that the instance of a cluster issues next names a command that can come from the hardware, and running that command at
the front of the queue completes (spec/05 R103, R109, R136). -/
def Obligations.IssuedCommandsComplete : Prop :=
  ∀ (s : State) (g : Cl) (c : Instr), s.nextIssue g = some c → c.wf = true
    ∧ ∃ t, Machine.step { s with pending := c :: s.pending } = .next t

/-- The opcode map of spec/05 R136: an opcode and the command of its word, the second word for those that take one. -/
def Sys2Proof.Claims.opcodes : List (Nat × (Cl → W64 → W64 → Instr)) :=
  [(0x00, fun g w _ => .nop g w), (0x01, fun g w _ => .halt g w), (0x02, fun g w _ => .commit g w),
   (0x03, fun g w _ => .br g w), (0x04, fun g w _ => .brp g w), (0x05, fun g w _ => .loop g w),
   (0x06, fun g w _ => .call g w), (0x07, fun g w _ => .ret g w)]
  ++ [(0x10, fun g w _ => .add g w), (0x11, fun g w _ => .sub g w), (0x12, fun g w _ => .mul g w),
   (0x13, fun g w _ => .and g w), (0x14, fun g w _ => .or g w), (0x15, fun g w _ => .xor g w),
   (0x16, fun g w _ => .shl g w), (0x17, fun g w _ => .shr g w), (0x18, fun g w _ => .ldi g w),
   (0x19, fun g w _ => .cmp g w), (0x1A, fun g w _ => .lds g w), (0x1B, fun g w _ => .sts g w),
   (0x1C, fun g w _ => .csrr g w), (0x1D, fun g w _ => .csrw g w)]
  ++ [(0x20, fun g w _ => .tdl g w), (0x21, fun g w _ => .tds g w), (0x22, fun g w _ => .tdset g w),
   (0x23, fun g w _ => .tdoff g w), (0x30, fun g w w2 => .cpy g w w2), (0x31, fun g w _ => .cpyr g w),
   (0x32, fun g w _ => .fill g w), (0x33, fun g w _ => .pref g w), (0x34, fun g w _ => .kva g w),
   (0x35, fun g w _ => .kvg g w), (0x36, fun g w _ => .kvf g w)]
  ++ [(0x40, fun g w w2 => .opa g w w2), (0x41, fun g w _ => .opz g w), (0x42, fun g w _ => .accl g w),
   (0x43, fun g w _ => .accs g w), (0x44, fun g w _ => .accw g w), (0x50, fun g w _ => .vld g w),
   (0x51, fun g w _ => .vst g w), (0x52, fun g w _ => .vadd g w), (0x53, fun g w _ => .vsub g w),
   (0x54, fun g w _ => .vmul g w), (0x55, fun g w _ => .vmax g w), (0x56, fun g w _ => .vmin g w),
   (0x57, fun g w _ => .vand g w), (0x58, fun g w _ => .vor g w), (0x59, fun g w _ => .vxor g w),
   (0x5A, fun g w _ => .vshl g w), (0x5B, fun g w _ => .vshr g w), (0x5C, fun g w _ => .vcmp g w),
   (0x5D, fun g w _ => .vsel g w), (0x5E, fun g w _ => .vfma g w), (0x5F, fun g w _ => .vsf g w)]
  ++ [(0x60, fun g w _ => .vred g w), (0x61, fun g w _ => .vmrg g w), (0x62, fun g w _ => .vsamp g w),
   (0x63, fun g w _ => .vcvt g w), (0x64, fun g w _ => .vperm g w), (0x65, fun g w _ => .vmask g w),
   (0x66, fun g w _ => .vbcast g w), (0x70, fun g w _ => .wait g w), (0x71, fun g w _ => .sig g w),
   (0x72, fun g w _ => .sigr g w), (0x73, fun g w _ => .bar g w), (0x74, fun g w _ => .gate g w),
   (0x75, fun g w _ => .tickw g w), (0x76, fun g w _ => .fence g w)]

/-- The opcode map (spec/05 R136): every opcode of the table names its command, 0x37 one of the CODE commands by its mode; a word of
any other opcode, 0x08 and 0xF0 to 0xFF among them, issues as an unassigned opcode, which raises FAULT_INSTRUCTION. -/
def Obligations.OpcodeMap : Prop :=
  (∀ e ∈ Claims.opcodes, ∀ (g : Cl) (w w2 : W64), opOf w = e.1 → issueCommand g w w2 = e.2 g w w2)
  ∧ (∀ (g : Cl) (w w2 : W64), opOf w = 0x37 → issueCommand g w w2 = match fld w 9 8 with
      | 0 => .codeHist g w | 1 => .codeTable g w | 2 => .codeEnc g w | _ => .unassignedOpcode g w)
  ∧ (∀ (s : State) (g : Cl) (w w2 : W64) (c : Cmd) (i : Inst) (ws : List W64), s.NextWord g w c i ws →
      (∀ e ∈ Claims.opcodes, opOf w ≠ e.1) → opOf w ≠ 0x37 → issueCommand g w w2 = .unassignedOpcode g w
      ∧ exec (.unassignedOpcode g w) s = .next (s.raise c g 3 0 fInstruction none none).bump)
  ∧ (∀ o : Nat, o = 0x08 ∨ (0xF0 ≤ o ∧ o ≤ 0xFF) → o ≠ 0x37 ∧ ∀ e ∈ Claims.opcodes, o ≠ e.1)

/-- Second words (spec/05 R135): OPA and CPY issue with the word after them and go on past it; where that word's opcode is not 0xFE
they do nothing but raise a fault, FAULT_INSTRUCTION where the instruction meets no other fault at issue; an instance whose next word
is a second word executes 0xFE as an opcode and raises FAULT_INSTRUCTION. A fault that its accesses meet is latched instead. -/
def Obligations.SecondWord : Prop :=
  ∀ (s : State) (g : Cl) (w w2 : W64) (c : Cmd) (i : Inst) (ws : List W64), s.NextWord g w c i ws →
    (ws[i.pc + 1]? = some w2 →
      (opOf w = 0x40 → s.nextIssue g = some (.opa g w w2)) ∧ (opOf w = 0x30 → s.nextIssue g = some (.cpy g w w2)))
    ∧ (ws[i.pc + 1]? = some w2 → i.guard w = true → opOf w2 = 0xFE →
      (opOf w = 0x40 → s.Room g c (meOf w) → s.opaFaults c g w w2 i = [] →
        ∃ t : State, exec (.opa g w w2) s = .next t ∧ ((∃ j, (t.cl g).issuing = some j ∧ j.pc = (i.advance 2).pc)
          ∨ ∃ r, t.cmd c.id = some { c with faults := c.faults ++ [r] } ∧ r.cl = g))
      ∧ (opOf w = 0x30 → s.Room g c (ceOf w) → s.arrive.cpyFaults c g w w2 (i.desc' (fB w)) (i.desc' (fA w)) = [] →
        Claims.InletsOpen s.arrive c g ((i.desc' (fB w)).touched (i.desc' (fB w)).locs) →
        ∃ t : State, exec (.cpy g w w2) s = .next t ∧ ((∃ j, (t.cl g).issuing = some j ∧ j.pc = (i.advance 2).pc)
          ∨ ∃ r, t.cmd c.id = some { c with faults := c.faults ++ [r] } ∧ r.cl = g)))
    ∧ (ws[i.pc + 1]? = some w2 → i.guard w = true → opOf w2 ≠ 0xFE →
      (opOf w = 0x40 → s.Room g c (meOf w) →
        ∃ (k u : Nat) (f : Byte) (sl ow : Option Nat) (rd : List Nat), exec (.opa g w w2) s = .next (s.raise c g k u f sl ow rd).bump
          ∧ lateFaults.contains f = false
          ∧ (s.opaFaults c g w w2 i = [] → (∀ cl int, pairClass (i.desc' (fB w)).fmt (i.desc' (fC w)).fmt = some (cl, int) →
              (s.readView ⟨c.fn, g, ordMe⟩ (i.desc' (fB w)) (opaLocs (i.desc' (fB w)) (opaK i w2) (tileRows cl)).flatten).2 = []
              ∧ (s.readView ⟨c.fn, g, ordMe⟩ (i.desc' (fC w)) (opaLocs (i.desc' (fC w)) (opaK i w2) (tileCols cl)).flatten).2 = [])
            → f = fInstruction))
      ∧ (∀ v r m, opOf w = 0x30 → s.Room g c (ceOf w) → v = s.arrive →
        r = Claims.fetched v c g w ((i.desc' (fB w)).touched (i.desc' (fB w)).locs) →
        m = r.cpyMove i ⟨c.fn, g, ordCe (stream w)⟩ w2 (i.desc' (fB w)) (i.desc' (fA w)) →
        ∃ (k u : Nat) (f : Byte) (sl ow : Option Nat) (rd : List Nat), exec (.cpy g w w2) s = .next (s.raise c g k u f sl ow rd).bump
          ∧ lateFaults.contains f = false
          ∧ (v.cpyFaults c g w w2 (i.desc' (fB w)) (i.desc' (fA w)) = [] → m.2.1 = [] → (r.placeWrites c.fn g m.1).2 = [] →
              f = fInstruction)))
    ∧ (opOf w = 0xFE → s.nextIssue g = some (.unassignedOpcode g w)
      ∧ exec (.unassignedOpcode g w) s = .next (s.raise c g 3 0 fInstruction none none).bump)

/-- HALT (spec/05 R116): the command is killed as a host abort kills it, it completes ABORTED and is no longer known, and no context
ends but one whose CLOSE was held for the command. -/
def Obligations.HaltAborts : Prop :=
  ∀ (s : State) (g : Cl) (w : W64) (c : Cmd) (i : Inst) (ws : List W64), s.NextWord g w c i ws → opOf w = 0x01 →
    fld w 55 52 = 0 → fld w 51 0 = 0 →
    exec (.halt g w) s = .next ((s.killEnd c stAborted true).goes g i)
    ∧ (∀ d ∈ (s.killEnd c stAborted true).cmds.list, d.id ≠ c.id)
    ∧ (∃ (u : State) (n : W64), s.killEnd c stAborted true =
        (((u.dropCmd c.id).complete c.fn c.q (u.compl c.cid stAborted 0 n 0)).answerHeld c stAborted).tellGang c .aborted)
    ∧ (∀ (f : Fn) (q : Qn), f.val = c.fn → (s.queue f q).active = true → q.val ≠ 0 →
      (s.cmds.list.find? fun d => d.fn == f.val && d.q == q.val && d.cid == c.cid) = some c →
      exec (.abort f q (c.cid.setWidth 32)) s = .next ((((s.setLow f none).killEnd c stAborted true)).complete f q
        (((s.setLow f none).killEnd c stAborted true).compl c.cid stOk 3 0 0)))
    ∧ (∀ x, ((s.killEnd c stAborted true).ctx x).state = 4 → (s.ctx x).state = 4 ∨ (s.ctx x).state = 2)
    ∧ (∀ x, (∀ f, ∀ r ∈ (s.fn f).reqs, ∀ h k n, r.what ≠ some (.closeContext h k n)) →
      ((s.killEnd c stAborted true).ctx x).state = 4 → (s.ctx x).state = 4)

/-- A cap (spec/17 R378) is 160 to 650 W in whole watts: every step keeps the cap in effect and the one that waits in that range; a
division, a broadcast or a budget that would give more than 400 W to a package without a cold plate gives it 400 W. -/
def Obligations.CapStaysInRange : Prop :=
  (160 ≤ State.reset.pwr.cap ∧ State.reset.pwr.cap ≤ 650 ∧ State.reset.pwr.next = 0)
  ∧ (∀ (s t : State), 160 ≤ s.pwr.cap → s.pwr.cap ≤ 650 → (s.pwr.next = 0 ∨ 160 ≤ s.pwr.next ∧ s.pwr.next ≤ 650) →
      Machine.step s = .next t →
      160 ≤ t.pwr.cap ∧ t.pwr.cap ≤ 650 ∧ (t.pwr.next = 0 ∨ 160 ≤ t.pwr.next ∧ t.pwr.next ≤ 650))
  ∧ (∀ (p : Pwr) (frame c : Nat), p.cooled = false → 400 < c →
      ((p.schedule frame c).next = 400 ∧ p.cap ≠ 400) ∨ ((p.schedule frame c).next = 0 ∧ p.cap = 400))

/-- A device reset and the tack room (spec/19 R422): presence actions are disarmed and pending attestation requests abandoned with
CODE 3, while fuses, DEBUG and the identity are kept; a function-level reset clears that function's attestation registers and abandons
only its own request. -/
def Sys2Proof.Claims.ResetAndTackRoom : Prop :=
  ∀ (s : State), s.tablesWf →
    (∀ (k : Bool), (s.deviceReset k).sec.presence = 0 ∧ (s.deviceReset k).sec.pressed = false
      ∧ (s.deviceReset k).sec.attRun = none
      ∧ (∀ f, (s.fn f).attBusy = true → ((s.deviceReset k).fn f).attBusy = false ∧ ((s.deviceReset k).fn f).attCode = 3)
      ∧ (s.deviceReset k).sec.seed = s.sec.seed ∧ (s.deviceReset k).sec.vendorHash = s.sec.vendorHash
      ∧ (s.deviceReset k).sec.owners = s.sec.owners ∧ (s.deviceReset k).sec.arb = s.sec.arb
      ∧ (s.deviceReset k).sec.jtagOff = s.sec.jtagOff ∧ (s.deviceReset k).sec.debug = s.sec.debug
      ∧ (s.deviceReset k).sec.idHash = s.sec.idHash)
    ∧ (∀ (f : Nat) (k : Bool), ((s.functionReset f k).fn f).attBusy = false ∧ ((s.functionReset f k).fn f).attDone = false
      ∧ ((s.functionReset f k).fn f).attCode = 0 ∧ ((s.functionReset f k).fn f).attNonce = []
      ∧ ((s.functionReset f k).fn f).attDst = 0
      ∧ (∀ b, s.sec.attRun = some (f, b) → (s.functionReset f k).sec.attRun = none)
      ∧ (∀ g b, s.sec.attRun = some (g, b) → g ≠ f → (s.functionReset f k).sec.attRun = some (g, b))
      ∧ (∀ g, g ≠ f → ((s.functionReset f k).fn g).attBusy = (s.fn g).attBusy
          ∧ ((s.functionReset f k).fn g).attCode = (s.fn g).attCode ∧ ((s.functionReset f k).fn g).attNonce = (s.fn g).attNonce
          ∧ ((s.functionReset f k).fn g).attDst = (s.fn g).attDst ∧ ((s.functionReset f k).fn g).attDone = (s.fn g).attDone))

/-- Resets and the cameras (spec/21 R458): a device reset leaves every counter and every binding's SEQ at 0; a function-level reset
changes nothing in the block but the STATE of bindings into that tenant space. -/
def Sys2Proof.Claims.ResetAndCameras : Prop :=
  ∀ (s : State),
    (∀ (k : Bool) (n : Nat), ((s.deviceReset k).binding n).seq = 0 ∧ ((s.deviceReset k).binding n).faults = 0
      ∧ ((s.deviceReset k).sensor n).frames = 0 ∧ ((s.deviceReset k).sensor n).truncated = 0
      ∧ ((s.deviceReset k).sensor n).overlong = 0 ∧ ((s.deviceReset k).sensor n).lineErrors = 0
      ∧ ((s.deviceReset k).sensor n).crcErrors = 0 ∧ ((s.deviceReset k).sensor n).skipped = 0)
    ∧ (∀ (f : Nat) (k : Bool), (s.functionReset f k).cam.sensors = s.cam.sensors ∧ (s.functionReset f k).cam.ports = s.cam.ports
      ∧ (s.functionReset f k).cam.rawMask = s.cam.rawMask
      ∧ (smWf ({} : Binding) s.cam.binds = true → ∀ n, ∃ x,
          (s.functionReset f k).binding n = { s.binding n with state := x }
          ∧ (x ≠ (s.binding n).state → ∃ r, (s.binding n).cfg = some r ∧ r.tenant = f)))

/-- What resets leave in the tack room and in the camera block (spec/19 R422, spec/21 R458). -/
def Obligations.ResetsKeepTheirPromises : Prop := Claims.ResetAndTackRoom ∧ Claims.ResetAndCameras

/-- Site time (spec/02 R34): no command takes the counter back, none moves it while it is locked, and a beat with power and clocks
takes it on by 1,000 ns. Loss of power is the one exception: the counter starts again from 0 (spec/02 R52). -/
def Obligations.SiteTimeMonotone : Prop :=
  (∀ (i : Instr) (s t : State), exec i s = .next t → (∀ ok h, i ≠ .sysPwrokRise ok h) → i ≠ .sysPwrokFall → i ≠ .vddAonRemoved →
    s.tim.ns ≤ t.tim.ns ∧ (s.tim.locked = true → t.tim.ns = s.tim.ns))
  ∧ (∀ (s : State), s.board.pwrok = true → s.board.tripped = false → (idleBeat s).tim.ns = s.tim.ns + 1000)

/-- Fuses (spec/19 R405, R413): no step takes an owner slot away or clears a bit of an anti-rollback bank, JTAG_OFF, the seed and the
vendor's hash stay as they are; and an owner slot is programmed only by a press of RECOVER_N, or when SEC, back in service or
ready in its trial, takes the press that was latched. -/
def Obligations.FusesOnlyBlow : Prop :=
  ∀ (i : Instr) (s t : State), smWf (0 : Nat) s.sec.arb = true → exec i s = .next t →
    (∃ l, t.sec.owners = s.sec.owners ++ l) ∧ (∀ c, s.arb c ≤ t.arb c) ∧ t.sec.jtagOff = s.sec.jtagOff
    ∧ t.sec.seed = s.sec.seed ∧ t.sec.vendorHash = s.sec.vendorHash ∧ smWf (0 : Nat) t.sec.arb = true
    ∧ (t.sec.owners ≠ s.sec.owners → i = .recoverNPress ∨ ∃ c, i = .groomBackInService c ∨ i = .trialReady c)

/-- The forms of the ring fetch, of a tenant space's programs, table sets, owner tables, shares and caps, of its layouts and of the
farrier's slices complete (spec/15 R343, R348, R351, spec/05 R103, spec/08 R196-R198, spec/07 R186, spec/14 R319, R329, spec/12
R269-R271, R283, spec/22 R462-R466): under what each needs of the state and of its operands, each answers a next state with its effect. -/
def Obligations.RequestAndSliceFormsComplete : Prop :=
  ∀ (s : State) (f : Fn) (cid : BitVec 16), s.alive = true →
    (∀ (q : Qn) (e exts batch args : List Byte) (c : Cmd), (s.queue f q).active = true → (s.queue f q).sqTail ≠ (s.queue f q).sqHead →
      (s.fn f).busMaster = true → (s.queue f q).cqFull = false → q.val ≠ 0 → fieldN e 2 1 = 0 → bitN (fieldN e 3 1) 2 = false →
      cfgPush (s.queue f q) = false → (s.queue f q).closing = false → cfgEnable (s.queue f q) = true → (s.fn f).atLeast 1 2 = true →
      (∀ d ∈ s.cmds.list, d.fn ≠ f.val ∨ d.q ≠ q.val ∨ d.cid ≠ BitVec.ofNat 16 (fieldN e 0 2)) →
      parseEntry (s.queue f q).take.1 f q s.cmds.nextId (s.queue f q).take.2 e exts batch args = some c →
      s.submitFaults c = [] → (∀ x ∈ c.batch, (s.ctx x).state = 0 ∨ (s.ctx x).cancelSeq < (s.queue f q).take.2) →
      ∃ t d, exec (.entryFetch f q (.entry e exts batch args)) s = .next t ∧ d ∈ t.cmds.list ∧ d.cid = c.cid ∧ d.program = c.program
        ∧ d.batch = c.batch ∧ (t.queue f q).sqHead = (s.queue f q).sqHead + 1)
    ∧ (∀ (image : List Byte), Claims.Taken s f cid 0 (.programLoad f cid image) → image ≠ [] → image.length % 8 = 0 →
      image.length ≤ 65536 → smGet [] (s.ten f).progs 0 = [] →
      ∃ (t : State) (p : Nat), exec (.programLoad f cid image) s = .next (t.answer f cid stOk (BitVec.ofNat 64 p))
        ∧ smGet [] (t.ten f).progs p = wordsOf (image.length / 8) image)
    ∧ (∀ (prog : W64), Claims.Taken s f cid 0 (.programDrop f cid prog) → prog.toNat < 65536 → smGet [] (s.ten f).progs prog.toNat ≠ [] →
      (∀ c ∈ s.cmds.list, c.fn = f.val → c.program ≠ prog.toNat) →
      ∃ t : State, exec (.programDrop f cid prog) s = .next (t.answer f cid stOk 0) ∧ smGet [] (t.ten f).progs prog.toNat = [])
    ∧ (∀ (tset : W64) (param : List Byte), Claims.Taken s f cid 0 (.tsetInstall f cid tset param) → 1 ≤ tset.toNat → tset.toNat ≤ 63 →
      param.length = 2112 → fieldN param 0 1 < 64 → (∀ i, i < 8 → recordOk ((param.drop (64 + 256 * i)).take 256) = true) →
      ∃ (t : State) (ts : TableSet), exec (.tsetInstall f cid tset param) s = .next (t.answer f cid stOk 0)
        ∧ t.tset f tset.toNat = some ts ∧ ts.minGain = fieldN param 0 1)
    ∧ (∀ (table frame : W64) (param : List Byte) es, Claims.Taken s f cid 2 (.ownerInstall f cid table frame param) → 1 ≤ table.toNat →
      table.toNat ≤ 1023 → frame.toNat < 2 ^ 32 → 16 ≤ fieldN param 0 1 → fieldN param 0 1 ≤ 30 → zerosN param 1 4 = true →
      zerosN param 8 64 = true → 1 ≤ fieldN param 4 4 → fieldN param 4 4 ≤ 65536 → param.length = 64 + 8 * fieldN param 4 4 →
      ownerEntries (fieldN param 4 4) (param.drop 64) = some es → 0 < diff32 (frame.setWidth 32) (BitVec.ofNat 32 s.frame) →
      ∃ (t : State) (v : OwnerVer), exec (.ownerInstall f cid table frame param) s =
          .next (t.keepReq f cid true (.ownerInstall f cid table frame param))
        ∧ v ∈ smGet [] (t.ten f).owners table.toNat ∧ v.entries = es ∧ v.frame = frame.setWidth 32 ∧ v.since = none)
    ∧ (∀ (table : Fin 1024) v, s.frameEdge = true → smGet [] (s.ten f).owners table = [v] → v.since = none →
      diff32 v.frame (BitVec.ofNat 32 s.frame) ≤ 0 → ∃ t w : State, exec (.ownerTableSwitch f table) s = .next t ∧ t = w.reap
        ∧ smGet [] (w.ten f).owners table = [{ v with since := some (s.cmds.nextSeq + 1) }])
    ∧ (∀ (tenant weight : W64), f.val = 0 → Claims.Taken s f cid 0 (.share f cid tenant weight) → tenant.toNat ≤ 63 → weight.toNat ≤ 65535 →
      ∃ t : State, exec (.share f cid tenant weight) s = .next (t.answer f cid stOk 0)
        ∧ t.sched.writes = s.sched.writes ++ [(s.beat, .share tenant.toNat (weight.setWidth 16))])
    ∧ (∀ (fn cap : W64), f.val = 0 → Claims.Taken s f cid 3 (.expressCap f cid fn cap) → fn.toNat ≤ 63 → cap.toNat ≤ 65535 →
      ∃ t : State, exec (.expressCap f cid fn cap) s = .next (t.answer f cid stOk 0)
        ∧ t.sched.writes = s.sched.writes ++ [(s.beat, .cap fn.toNat (cap.setWidth 16))])
    ∧ (∀ (layout : W64) (param : List Byte) l, Claims.Taken s f cid 0 (.layoutRegister f cid layout param) → parseLayout param = some l →
      layout.toNat ≤ 15 → (s.tset f l.tset).isNone = false → s.mappedAll f l.poolBase l.poolBytes = true →
      s.mappedAll f l.troughBase l.troughBytes = true → (∀ x ∈ (s.ten f).leaves, x.on l.troughBase l.troughBytes = true → isHbm x.pa = true) →
      s.layoutUsed f layout.toNat = false →
      ∃ t : State, exec (.layoutRegister f cid layout param) s = .next (t.answer f cid stOk 0) ∧ t.layout f layout.toNat = some l)
    ∧ (∀ (layout mask : W64) l, Claims.Taken s f cid 0 (.layoutMask f cid layout mask) → layout.toNat ≤ 15 → mask.toNat ≤ 255 →
      s.layout f layout.toNat = some l → ∃ (t : State) (k : LayoutRec), exec (.layoutMask f cid layout mask) s = .next (t.answer f cid stOk 0)
        ∧ t.layout f layout.toNat = some k ∧ k.maskNext = some (s.frame + 1, mask.setWidth 8) ∧ k.mask = l.mask)
    ∧ (∀ (layout record : W64) l, Claims.Taken s f cid 4 (.layoutRecode f cid layout record) → layout.toNat ≤ 15 → record.toNat ≤ 7 →
      s.layout f layout.toNat = some l → (s.recodePage f layout.toNat record.toNat).isSome = true → ∃ t : State,
        exec (.layoutRecode f cid layout record) s = .next t ∧ (∀ r ∈ (t.fn f).reqs, r.cid = cid → r.begun = true))
    ∧ (∀ (layout record : W64) (l : LayoutRec) (p : Page) (u : Nat) (v : State) rd w,
      Claims.Begun s f cid (.layoutRecode f cid layout record) → s.layout f layout.toNat = some l →
      s.recodePage f layout.toNat record.toNat = some p → s.takeRun l (l.u p.size) = some u → s.memc.rateBusy = false →
      v = s.pull f (s.pageBytes f l p) → rd = (List.range l.planes).map (fun k => v.readPlane f l p k) →
      w = v.codePage f l (l.unitVa u) p.size (rd.map (·.1)) → rd.flatMap (·.2) = [] → (v.schWrites f w.1).2 = [] →
      ∃ t : State, exec (.pageRecodeEffect f cid) s = .next t ∧ t.mem = (v.schWrites f w.1).1.mem)
    ∧ (s.tickEdge = true → s.far.state = 0 → s.far.startupDone = true → s.memc.separate = false →
      s.disabled s.far.nextCluster = false → diff32 s.far.nextTick (BitVec.ofNat 32 s.tick) ≤ 0 → s.sliceBar s.far.nextCluster = none →
      ∃ t : State, exec .farSliceStart s = .next t ∧ t.far.state = 1 ∧ t.far.cluster = s.far.nextCluster
        ∧ t.far.slices = s.far.slices + 1 ∧ (t.cl s.far.nextCluster).drained = true)
    ∧ (∀ (stored : Bool), s.far.state = 2 → s.far.stepAt + 657 ≤ s.tick → s.far.repeating = false →
      ∃ t : State, exec (.farSliceJudge true true stored) s = .next t ∧ t.far.state = 3 ∧ t.far.verdict = 0
        ∧ t.far.cluster = s.far.cluster ∧ t.glb.disable = s.glb.disable)
    ∧ (s.far.state = 2 → s.forced (dieOf s.far.cluster) = true →
      ∃ t : State, exec .farSliceAbandon s = .next t ∧ t.far.state = 3 ∧ t.far.verdict = 3 ∧ t.far.abandoned = s.far.abandoned + 1)
    ∧ (∀ (r : Rg), ∃ t : State, exec (.farReferenceCheck (.monitor r) false) s = .next t ∧ t.far.suspect.getLsbD (36 + r.val) = true)
    ∧ (∀ (i : Fin 36), ∃ t : State, exec (.farReferenceCheck (.sensor i) false) s = .next t ∧ t.far.suspect.getLsbD i = true)
end

