-- ==== Sys2Proof/Laws/Table.lean ====
section
/-! SUPPORT. Laws of the sparse tables: what a lookup answers after a change, and that every change keeps the canonical form. -/

namespace Sys2Proof.Machine

variable {v : Type}

/-! ### Keys above a bound -/

/-- Every key of the table is above `k`. -/
def smAbove (k : Nat) (m : SMap v) : Prop := ∀ e ∈ m, k < e.1

/-- The canonical form, as a proposition about head and tail. -/
theorem smWf_cons [DecidableEq v] (d : v) (j : Nat) (x : v) (m : SMap v) :
    smWf d ((j, x) :: m) = true ↔ x ≠ d ∧ smAbove j m ∧ smWf d m = true := by
  induction m generalizing j x with
  | nil => simp [smWf, smAbove]
  | cons e m ih =>
    obtain ⟨k, y⟩ := e
    have h := ih k y
    simp only [smWf, Bool.and_eq_true, Bool.not_eq_true', decide_eq_false_iff_not, decide_eq_true_eq]
    constructor
    · rintro ⟨⟨hx, hk⟩, hm⟩
      refine ⟨hx, ?_, hm⟩
      intro e he
      rcases List.mem_cons.1 he with rfl | he
      · exact hk
      · exact Nat.lt_trans hk ((h.1 hm).2.1 e he)
    · rintro ⟨hx, ha, hm⟩
      exact ⟨⟨hx, ha (k, y) (by simp)⟩, hm⟩

theorem smWf_nil [DecidableEq v] (d : v) : smWf d ([] : SMap v) = true := rfl

/-- A key below every key of the table holds the default. -/
theorem smGet_above (d : v) (m : SMap v) (k : Nat) (h : smAbove k m) : smGet d m k = d := by
  cases m with
  | nil => rfl
  | cons e m =>
    have := h e (by simp)
    simp only [smGet]
    rw [if_neg (by omega), if_pos this]

theorem smAbove_le {k l : Nat} {m : SMap v} (hkl : k ≤ l) (h : smAbove l m) : smAbove k m :=
  fun e he => Nat.lt_of_le_of_lt hkl (h e he)

/-! ### Lookups after a change -/

@[simp] theorem smGet_smIns_same (d : v) (m : SMap v) (k : Nat) (x : v) : smGet d (smIns m k x) k = x := by
  induction m with
  | nil => simp [smIns, smGet]
  | cons e m ih =>
    simp only [smIns]
    split
    · simp [smGet]
    · split
      · simp [smGet]
      · simp only [smGet]
        rw [if_neg ‹_›, if_neg ‹_›, ih]

theorem smGet_smIns_other (d : v) (m : SMap v) (j k : Nat) (x : v) (h : j ≠ k) :
    smGet d (smIns m k x) j = smGet d m j := by
  induction m with
  | nil => simp only [smIns, smGet]; split <;> simp_all
  | cons e m ih =>
    simp only [smIns]
    split
    · simp only [smGet]
      split <;> rename_i h1 h2
      · omega
      · rw [if_neg (by omega : ¬ e.1 = j)]
        split <;> rename_i h3
        · rw [if_pos (by omega)]
        · rw [if_neg (by omega)]
    · split
      · simp only [smGet]
        by_cases hk : k = j
        · omega
        · rw [if_neg hk]
          by_cases hjk : j < k
          · rw [if_pos hjk, if_neg (by omega), if_pos (by omega)]
          · rw [if_neg hjk]
      · simp only [smGet]
        split
        · rfl
        · split
          · rfl
          · exact ih

theorem smAbove_smDel {k : Nat} {m : SMap v} (j : Nat) (h : smAbove k m) : smAbove k (smDel m j) := by
  induction m with
  | nil => exact h
  | cons e m ih =>
    have hm : smAbove k m := fun x hx => h x (List.mem_cons_of_mem _ hx)
    simp only [smDel]
    split
    · exact hm
    · split
      · exact h
      · intro x hx
        rcases List.mem_cons.1 hx with rfl | hx
        · exact h _ (by simp)
        · exact ih hm x hx

theorem smAbove_smIns {k : Nat} {m : SMap v} (j : Nat) (x : v) (hj : k < j) (h : smAbove k m) :
    smAbove k (smIns m j x) := by
  induction m with
  | nil => intro e he; simp [smIns] at he; subst he; exact hj
  | cons e m ih =>
    have hm : smAbove k m := fun x hx => h x (List.mem_cons_of_mem _ hx)
    simp only [smIns]
    split
    · intro y hy
      rcases List.mem_cons.1 hy with rfl | hy
      · exact hj
      · exact hm y hy
    · split
      · intro y hy
        rcases List.mem_cons.1 hy with rfl | hy
        · exact hj
        · exact h y hy
      · intro y hy
        rcases List.mem_cons.1 hy with rfl | hy
        · exact h _ (by simp)
        · exact ih hm y hy

theorem smGet_smDel_same [DecidableEq v] (d : v) (m : SMap v) (k : Nat) (h : smWf d m = true) :
    smGet d (smDel m k) k = d := by
  induction m with
  | nil => rfl
  | cons e m ih =>
    obtain ⟨j, y⟩ := e
    have hw := (smWf_cons d j y m).1 h
    simp only [smDel]
    split
    · rename_i hj; subst hj; exact smGet_above d m j hw.2.1
    · split
      · simp only [smGet]; rw [if_neg ‹_›, if_pos ‹_›]
      · simp only [smGet]; rw [if_neg ‹_›, if_neg ‹_›]; exact ih hw.2.2

theorem smGet_smDel_other [DecidableEq v] (d : v) (m : SMap v) (j k : Nat) (hjk : j ≠ k) (h : smWf d m = true) :
    smGet d (smDel m k) j = smGet d m j := by
  induction m with
  | nil => rfl
  | cons e m ih =>
    obtain ⟨i, y⟩ := e
    have hw := (smWf_cons d i y m).1 h
    simp only [smDel]
    split
    · rename_i hi
      subst hi
      simp only [smGet]
      rw [if_neg (Ne.symm hjk)]
      split
      · exact smGet_above d m j (smAbove_le (Nat.le_of_lt ‹_›) hw.2.1)
      · rfl
    · split
      · rfl
      · simp only [smGet]
        split
        · rfl
        · split
          · rfl
          · exact ih hw.2.2

/-- A table read where it was written. -/
theorem smGet_smPut_same [DecidableEq v] (d : v) (m : SMap v) (k : Nat) (x : v) (h : smWf d m = true) :
    smGet d (smPut d m k x) k = x := by
  unfold smPut
  split
  · rename_i hx; rw [hx]; exact smGet_smDel_same d m k h
  · simp

/-- A table read where a value that is not the default was written, canonical or not. -/
theorem smGet_smPut_ne_default [DecidableEq v] (d : v) (m : SMap v) (k : Nat) (x : v) (hx : x ≠ d) :
    smGet d (smPut d m k x) k = x := by
  unfold smPut
  rw [if_neg hx]; simp

/-- A table read at another key than the one written. -/
theorem smGet_smPut_other [DecidableEq v] (d : v) (m : SMap v) (j k : Nat) (x : v) (hjk : j ≠ k) (h : smWf d m = true) :
    smGet d (smPut d m k x) j = smGet d m j := by
  unfold smPut
  split
  · exact smGet_smDel_other d m j k hjk h
  · exact smGet_smIns_other d m j k x hjk

/-- The same for a value that is not the default, canonical or not. -/
theorem smGet_smPut_other_ne_default [DecidableEq v] (d : v) (m : SMap v) (j k : Nat) (x : v) (hjk : j ≠ k) (hx : x ≠ d) :
    smGet d (smPut d m k x) j = smGet d m j := by
  unfold smPut
  rw [if_neg hx]; exact smGet_smIns_other d m j k x hjk

/-! ### The canonical form is kept -/

theorem smWf_smDel [DecidableEq v] (d : v) (m : SMap v) (k : Nat) (h : smWf d m = true) : smWf d (smDel m k) = true := by
  induction m with
  | nil => rfl
  | cons e m ih =>
    obtain ⟨j, y⟩ := e
    have hw := (smWf_cons d j y m).1 h
    simp only [smDel]
    split
    · exact hw.2.2
    · split
      · exact h
      · exact (smWf_cons d j y _).2 ⟨hw.1, smAbove_smDel k hw.2.1, ih hw.2.2⟩

theorem smWf_smIns [DecidableEq v] (d : v) (m : SMap v) (k : Nat) (x : v) (hx : x ≠ d) (h : smWf d m = true) :
    smWf d (smIns m k x) = true := by
  induction m with
  | nil => simp [smIns, smWf, hx]
  | cons e m ih =>
    obtain ⟨j, y⟩ := e
    have hw := (smWf_cons d j y m).1 h
    simp only [smIns]
    split
    · rename_i hj; subst hj; exact (smWf_cons d _ x m).2 ⟨hx, hw.2.1, hw.2.2⟩
    · split
      · refine (smWf_cons d k x _).2 ⟨hx, ?_, h⟩
        intro e he
        rcases List.mem_cons.1 he with rfl | he
        · assumption
        · exact Nat.lt_trans ‹_› (hw.2.1 e he)
      · exact (smWf_cons d j y _).2 ⟨hw.1, smAbove_smIns k x (by omega) hw.2.1, ih hw.2.2⟩

/-- A write keeps the canonical form. -/
theorem smWf_smPut [DecidableEq v] (d : v) (m : SMap v) (k : Nat) (x : v) (h : smWf d m = true) :
    smWf d (smPut d m k x) = true := by
  unfold smPut
  split
  · exact smWf_smDel d m k h
  · exact smWf_smIns d m k x ‹_› h

theorem smWf_smMod [DecidableEq v] (d : v) (m : SMap v) (k : Nat) (f : v → v) (h : smWf d m = true) :
    smWf d (smMod d m k f) = true := smWf_smPut d m k _ h

theorem smAbove_filter {k : Nat} {m : SMap v} (p : Nat × v → Bool) (h : smAbove k m) : smAbove k (m.filter p) :=
  fun e he => h e (List.mem_filter.1 he).1

theorem smWf_filter [DecidableEq v] (d : v) (m : SMap v) (p : Nat × v → Bool) (h : smWf d m = true) :
    smWf d (m.filter p) = true := by
  induction m with
  | nil => rfl
  | cons e m ih =>
    obtain ⟨j, y⟩ := e
    have hw := (smWf_cons d j y m).1 h
    rw [List.filter_cons]
    split
    · exact (smWf_cons d j y _).2 ⟨hw.1, smAbove_filter p hw.2.1, ih hw.2.2⟩
    · exact ih hw.2.2

theorem smWf_smCut [DecidableEq v] (d : v) (m : SMap v) (lo hi : Nat) (h : smWf d m = true) :
    smWf d (smCut m lo hi) = true := smWf_filter d m _ h

theorem smWf_smKeep [DecidableEq v] (d : v) (m : SMap v) (lo hi : Nat) (h : smWf d m = true) :
    smWf d (smKeep m lo hi) = true := smWf_filter d m _ h

theorem smWf_smMap [DecidableEq v] (d : v) (m : SMap v) (f : Nat → v → v) (h : smWf d m = true) :
    smWf d (smMap d m f) = true := by
  unfold smMap
  induction m with
  | nil => rfl
  | cons e m ih =>
    obtain ⟨j, y⟩ := e
    have hw := (smWf_cons d j y m).1 h
    rw [List.map_cons, List.filter_cons]
    split
    · rename_i hx
      refine (smWf_cons d j _ _).2 ⟨by simpa using hx, ?_, ih hw.2.2⟩
      intro e he
      obtain ⟨q, hq, rfl⟩ := List.mem_map.1 (List.mem_filter.1 he).1
      exact hw.2.1 q hq
    · exact ih hw.2.2

/-- A lookup after a range is cut out: the default inside it, what stood before outside it. -/
theorem smGet_filter_keys [DecidableEq v] (d : v) (m : SMap v) (p : Nat → Bool) (k : Nat) (h : smWf d m = true) :
    smGet d (m.filter fun e => p e.1) k = if p k then smGet d m k else d := by
  induction m with
  | nil => simp [smGet]
  | cons e m ih =>
    obtain ⟨j, y⟩ := e
    have hw := (smWf_cons d j y m).1 h
    rw [List.filter_cons]
    by_cases hj : p j
    · rw [if_pos hj]
      simp only [smGet]
      split
      · rename_i hjk; subst hjk; simp [hj]
      · split
        · simp
        · exact ih hw.2.2
    · rw [if_neg hj]
      simp only [smGet]
      rw [ih hw.2.2]
      split
      · split
        · rename_i hk hjk; subst hjk; exact absurd hk hj
        · split
          · exact smGet_above d m k (smAbove_le (Nat.le_of_lt ‹_›) hw.2.1)
          · rfl
      · rfl

/-! ### Memory -/

theorem memWf_memPut (m : SMap Byte) (a : Nat) (b : Byte) (h : Memory.wf m) : Memory.wf (memPut m a b) := smWf_smPut 0 m a b h

theorem memWf_memPuts (bs : List Byte) : ∀ (m : SMap Byte) (a : Nat), Memory.wf m → Memory.wf (memPuts m a bs) := by
  induction bs with
  | nil => exact fun _ _ h => h
  | cons b bs ih => exact fun m a h => ih _ _ (memWf_memPut m a b h)

theorem memWf_memZero (m : SMap Byte) (a n : Nat) (h : Memory.wf m) : Memory.wf (memZero m a n) := smWf_smCut 0 m _ _ h

theorem memWf_foldl_memPut {α : Type} (l : List α) (f : SMap Byte → α → Nat × Byte) :
    ∀ m : SMap Byte, Memory.wf m → Memory.wf (l.foldl (fun a e => memPut a (f a e).1 (f a e).2) m) := by
  induction l with
  | nil => exact fun _ h => h
  | cons e l ih => exact fun m h => ih _ (memWf_memPut m _ _ h)

theorem memWf_memMove (m : SMap Byte) (src dst n : Nat) (h : Memory.wf m) : Memory.wf (memMove m src dst n) :=
  memWf_foldl_memPut _ (fun _ (e : Nat × Byte) => (dst + (e.1 - src), e.2)) _ (memWf_memZero m dst n h)

/-- A byte read where it was written. -/
theorem memGet_memPut_same (m : SMap Byte) (a : Nat) (b : Byte) (h : Memory.wf m) : memGet (memPut m a b) a = b :=
  smGet_smPut_same 0 m a b h

/-- A byte read elsewhere than it was written. -/
theorem memGet_memPut_other (m : SMap Byte) (a c : Nat) (b : Byte) (hac : c ≠ a) (h : Memory.wf m) :
    memGet (memPut m a b) c = memGet m c := smGet_smPut_other 0 m c a b hac h

/-- Zeroed bytes read 0, the others as before. -/
theorem memGet_memZero (m : SMap Byte) (a n c : Nat) (h : Memory.wf m) :
    memGet (memZero m a n) c = if a ≤ c ∧ c < a + n then 0 else memGet m c := by
  have := smGet_filter_keys (0 : Byte) m (fun k => !(decide (a ≤ k) && decide (k < a + n))) c h
  unfold memGet memZero smCut
  rw [this]
  by_cases hc : a ≤ c ∧ c < a + n
  · simp [hc.1, hc.2]
  · rw [if_neg hc]
    rw [if_pos]
    simp only [Bool.not_eq_true', Bool.and_eq_false_iff, decide_eq_false_iff_not]
    omega

/-- Bytes written from `a` upward change nothing outside [a, a + length). -/
theorem memGet_memPuts_outside (bs : List Byte) : ∀ (m : SMap Byte) (a c : Nat), Memory.wf m →
    (c < a ∨ a + bs.length ≤ c) → memGet (memPuts m a bs) c = memGet m c := by
  induction bs with
  | nil => exact fun _ _ _ _ _ => rfl
  | cons b bs ih =>
    intro m a c h hc
    simp only [List.length_cons] at hc
    rw [memPuts, ih _ _ _ (memWf_memPut m a b h) (by omega), memGet_memPut_other m a c b (by omega) h]

end Sys2Proof.Machine
end

