-- ==== Sys2Proof/Laws/Issue.lean ====
section
/-! SUPPORT. Laws of issue: what an issuing word does when its checks pass, when its guard is false and when a check fails; and
what the replacement of an instance leaves. -/

namespace Sys2Proof.Machine

/-- Reserved bits that are 0 raise nothing. -/
theorem rsvFaults_nil {w : W64} {rs : List (Nat × Nat)} (h : ∀ r ∈ rs, fld w r.1 r.2 = 0) : rsvFaults w rs = [] := by
  unfold rsvFaults
  rw [if_pos]
  simp only [List.all_eq_true, rsv, beq_iff_eq]
  exact h

@[simp] theorem earlyFaults_nil : earlyFaults [] = [] := rfl
@[simp] theorem earlyFaults_one (f : Byte) : earlyFaults [f] = [f] := by
  unfold earlyFaults
  by_cases h : lateFaults.contains f = true <;> simp_all

@[simp] theorem State.meets_none (s : State) : s.meets none = s := rfl
@[simp] theorem State.meets_me (s : State) (m : Fin 8) : s.meets (some (.me m)) = s := rfl
@[simp] theorem State.meets_vu (s : State) : s.meets (some .vu) = s := rfl
@[simp] theorem State.meets_ce (s : State) (x : Fin 4) : s.meets (some (.ce x)) = s.arrive := rfl

@[simp] theorem onFault_false (f : Byte) : onFault false f = [] := rfl
@[simp] theorem onFault_true (f : Byte) : onFault true f = [f] := rfl

/-- A result without faults goes on. -/
theorem State.finish_nil (s : State) (c : Cmd) (g : Nat) (r : Res) (h : r.faults = []) :
    s.finish c g r = r.st.modCl g fun k => k.setInst r.inst := by
  unfold State.finish
  rw [h]; simp; rfl

/-- A result whose one fault is `f` latches it. -/
theorem State.finish_one (s : State) (c : Cmd) (g : Nat) (r : Res) (f : Byte) (h : r.faults = [f]) :
    s.finish c g r = (r.st.raise c g r.kind r.unit f r.slot r.owner r.read).bump := by
  unfold State.finish
  rw [h, earlyFaults_one, ite_self]; rfl

/-- A guarded instruction that issues, with its second word in place, is its own effect, moved past its words. -/
theorem State.issue_runs {s : State} {op n : Nat} {g : Cl} {w w2 : W64} {unit : Option UnitId}
    {k : State → Cmd → Inst → Res} {c : Cmd} {i : Inst} {ws : List W64} (hop : opOf w = op) (h : s.Issues g w c i ws)
    (h2 : n = 2 → ws[i.pc + 1]? = some w2 ∧ opOf w2 = 0xFE) (hu : ∀ u, unit = some u → (s.cl g).full c.xrun u = false)
    (hs : (k (s.meets unit) c i).stall = false) :
    s.issue op n g w w2 unit k = .next (s.finish c g { k (s.meets unit) c i with inst := (k (s.meets unit) c i).inst.advance n }) := by
  obtain ⟨⟨ha, hw⟩, hg⟩ := h
  have hf : (if n = 2 then secondFaults ws i.pc else []) = [] := by
    by_cases hn : n = 2
    · obtain ⟨h3, h4⟩ := h2 hn; simp [hn, secondFaults, h3, h4]
    · simp [hn]
  unfold State.issue
  rw [if_neg (by simp [hop])]
  simp only [ha, hw]
  rw [if_neg (by by_cases hn : n = 2 <;> simp [hn, h2]), if_neg (by simp [hg])]
  cases unit with
  | none => simp only [State.meets_none] at hs ⊢; simp [hs, hf]
  | some u => simp [hs, hf, hu u rfl]

/-- A word that is no second word makes a two-word instruction raise FAULT_INSTRUCTION and do nothing, where its own checks pass. -/
theorem State.issue_second {s : State} {op : Nat} {g : Cl} {w w2 : W64} {unit : Option UnitId}
    {k : State → Cmd → Inst → Res} {c : Cmd} {i : Inst} {ws : List W64} (hop : opOf w = op) (h : s.Issues g w c i ws)
    (h2 : ws[i.pc + 1]? = some w2) (h3 : opOf w2 ≠ 0xFE) (hu : ∀ u, unit = some u → (s.cl g).full c.xrun u = false)
    (hf : (k (s.meets unit) c i).faults = []) :
    s.issue op 2 g w w2 unit k =
      .next (s.raise c g (k (s.meets unit) c i).kind (k (s.meets unit) c i).unit fInstruction (k (s.meets unit) c i).slot
        none (k (s.meets unit) c i).read).bump := by
  obtain ⟨⟨ha, hw⟩, hg⟩ := h
  have hn : secondFaults ws i.pc = [fInstruction] := by simp [secondFaults, h2, h3]
  unfold State.issue
  rw [if_neg (by simp [hop])]
  simp only [ha, hw]
  rw [if_neg (by simp [h2]), if_neg (by simp [hg])]
  cases unit with
  | none => simp only [hn, hf, ite_self]; rfl
  | some u => simp only [hn, hf, hu u rfl, ite_self]; rfl

/-- A guarded instruction of one word without faults. -/
theorem State.issue_one {s : State} {op : Nat} {g : Cl} {w : W64} {unit : Option UnitId}
    {k : State → Cmd → Inst → Res} {c : Cmd} {i : Inst} {ws : List W64} (hop : opOf w = op) (h : s.Issues g w c i ws)
    (hu : ∀ u, unit = some u → (s.cl g).full c.xrun u = false) (hs : (k (s.meets unit) c i).stall = false) (hf : (k (s.meets unit) c i).faults = []) :
    s.issue op 1 g w 0 unit k = .next ((k (s.meets unit) c i).st.goes g ((k (s.meets unit) c i).inst.advance 1)) := by
  rw [State.issue_runs hop h (by simp) hu hs, State.finish_nil _ _ _ _ (by exact hf)]; rfl

/-- A guarded instruction of two words without faults. -/
theorem State.issue_two {s : State} {op : Nat} {g : Cl} {w w2 : W64} {unit : Option UnitId}
    {k : State → Cmd → Inst → Res} {c : Cmd} {i : Inst} {ws : List W64} (hop : opOf w = op) (h : s.Issues2 g w w2 c i ws)
    (hu : ∀ u, unit = some u → (s.cl g).full c.xrun u = false) (hs : (k (s.meets unit) c i).stall = false) (hf : (k (s.meets unit) c i).faults = []) :
    s.issue op 2 g w w2 unit k = .next ((k (s.meets unit) c i).st.goes g ((k (s.meets unit) c i).inst.advance 2)) := by
  obtain ⟨h1, h2, h3⟩ := h
  rw [State.issue_runs hop h1 (fun _ => ⟨h2, h3⟩) hu hs, State.finish_nil _ _ _ _ (by exact hf)]; rfl

/-- A guarded instruction whose guard is false only advances the instance. -/
theorem State.issue_skips {s : State} {op n : Nat} {g : Cl} {w w2 : W64} {unit : Option UnitId}
    {k : State → Cmd → Inst → Res} {c : Cmd} {i : Inst} {ws : List W64} (hop : opOf w = op) (h : s.NextWord g w c i ws)
    (h2 : n = 2 → ∀ y, ws[i.pc + 1]? = some y → y = w2) (hg : i.guard w = false) :
    s.issue op n g w w2 unit k = .next (s.goes g (i.advance n)) := by
  obtain ⟨ha, hw⟩ := h
  unfold State.issue
  rw [if_neg (by simp [hop])]
  simp only [ha, hw]
  rw [if_neg, if_pos (by simp [hg])]
  · simp [State.finish, State.pickFault, State.goes]
  · by_cases hn : n = 2
    · cases hy : ws[i.pc + 1]? with
      | none => simp
      | some y => simp [h2 hn y hy]
    · simp [hn]

/-- A control instruction without a guard is its own effect. -/
theorem State.issueControl_runs {s : State} {op : Nat} {g : Cl} {w : W64} {k : Cmd → List W64 → Inst → Res}
    {c : Cmd} {i : Inst} {ws : List W64} (hop : opOf w = op) (h : s.NextWord g w c i ws) (hg : fld w 55 52 = 0)
    (hf : (k c ws i).faults = []) :
    s.issueControl op g w k = .next ((k c ws i).st.goes g (k c ws i).inst) := by
  obtain ⟨ha, hw⟩ := h
  unfold State.issueControl
  rw [if_neg (by simp [hop])]
  simp only [ha, hw]
  simp only [bne_self_eq_false, hg, ne_eq, not_true_eq_false, if_false, Bool.false_eq_true, List.nil_append]
  rw [State.finish_nil _ _ _ _ (by exact hf)]; rfl

/-- An instruction on VU registers without faults is queued and goes on. -/
theorem State.vuOp_runs {s : State} {op cy : Nat} {g : Cl} {w : W64} {k : Cmd → Inst → List Byte × Inst}
    {c : Cmd} {i : Inst} {ws : List W64} (hop : opOf w = op) (h : s.Issues g w c i ws) (hr : s.Room g c .vu)
    (hf : (k c i).1 = []) : s.vuOp op g w cy k = .next (s.vuGoes g c cy (k c i).2) := by
  unfold State.vuOp
  rw [State.issue_one hop h (by rintro u ⟨⟩; exact hr)]
  · simp [hf, State.vuGoes]
  · simp [hf]
  · simp [hf]

/-! ### The issuing instance -/

theorem State.cmd_id {s : State} {id : Nat} {c : Cmd} (h : s.cmd id = some c) : c.id = id := by
  have := List.find?_some h
  simpa using this

/-- What `atIssue` says of its cluster and command. -/
theorem State.atIssue_spec {s : State} {g : Nat} {c : Cmd} {i : Inst} {ws : List W64} (h : s.atIssue g = some (c, i, ws)) :
    (s.cl g).issuing = some i ∧ i.cmd = c.id ∧ c.st = .running ∧ s.alive = true ∧ s.stabled g = false ∧ i.loaded = true
      ∧ i.done = false ∧ i.wait = none ∧ s.cmd i.cmd = some c ∧ ws = (s.cl g).image c.fn c.program := by
  unfold State.atIssue at h
  split at h
  · cases h
  · rename_i j hj
    split at h
    · cases h
    · rename_i hn
      split at h
      · cases h
      · rename_i d hd
        split at h
        · rename_i hs
          simp only [Option.some.injEq, Prod.mk.injEq] at h
          obtain ⟨rfl, rfl, rfl⟩ := h
          simp only [Bool.or_eq_true, Bool.not_eq_true', not_or, Bool.not_eq_true, Bool.not_eq_false] at hn
          obtain ⟨⟨⟨⟨h1, h2⟩, h3⟩, h4⟩, h5⟩ := hn
          refine ⟨hj, (State.cmd_id hd).symm, (by simpa using hs : _ ∧ _).1, by simpa using h1, h2, by simpa using h3, h4, ?_, hd, rfl⟩
          cases hw : j.wait with
          | none => rfl
          | some _ => simp [hw] at h5
        · cases h

/-- The issuing instance of a cluster replaced. -/
theorem Cluster.setInst_issuing {k : Cluster} {i j : Inst} (h : k.issuing = some j) (hc : j.cmd = i.cmd) :
    k.setInst i = { k with issuing := some i } := by
  unfold Cluster.setInst
  simp [h, hc]

/-- A cluster with an instance is not the default. -/
theorem Cluster.ne_default {k : Cluster} {i : Inst} (h : k.issuing = some i) : k ≠ {} := by
  intro he; rw [he] at h; cases h

/-- A cluster read after it was changed to one with an instance. -/
theorem State.cl_setCl_of_issuing {s : State} {g : Nat} {k : Cluster} {i : Inst} (h : k.issuing = some i) :
    (s.setCl g k).cl g = k := smGet_smPut_ne_default ({} : Cluster) s.clusters g k (Cluster.ne_default h)

theorem State.cl_setCl_other_of_issuing {s : State} {g h : Nat} {k : Cluster} {i : Inst} (hi : k.issuing = some i) (hg : h ≠ g) :
    (s.setCl g k).cl h = s.cl h :=
  smGet_smPut_other_ne_default ({} : Cluster) s.clusters h g k hg (Cluster.ne_default hi)

end Sys2Proof.Machine
end

