-- ==== Sys2Proof/Laws/State.lean ====
section
/-! SUPPORT. What each named update of the state leaves alone, one lemma per field, and what the updated block reads as. -/

namespace Sys2Proof.Machine

/-! ### setCl -/

@[simp] theorem State.setCl_pending (s : State) (g : Nat) (k : Cluster) : (s.setCl g k).pending = s.pending := rfl
@[simp] theorem State.setCl_freeIx (s : State) (g : Nat) (k : Cluster) : (s.setCl g k).freeIx = s.freeIx := rfl
@[simp] theorem State.setCl_mem (s : State) (g : Nat) (k : Cluster) : (s.setCl g k).mem = s.mem := rfl
@[simp] theorem State.setCl_hostMem (s : State) (g : Nat) (k : Cluster) : (s.setCl g k).hostMem = s.hostMem := rfl
@[simp] theorem State.setCl_infl (s : State) (g : Nat) (k : Cluster) : (s.setCl g k).infl = s.infl := rfl
@[simp] theorem State.setCl_cmds (s : State) (g : Nat) (k : Cluster) : (s.setCl g k).cmds = s.cmds := rfl
@[simp] theorem State.setCl_fns (s : State) (g : Nat) (k : Cluster) : (s.setCl g k).fns = s.fns := rfl
@[simp] theorem State.setCl_tens (s : State) (g : Nat) (k : Cluster) : (s.setCl g k).tens = s.tens := rfl
@[simp] theorem State.setCl_serv (s : State) (g : Nat) (k : Cluster) : (s.setCl g k).serv = s.serv := rfl
@[simp] theorem State.setCl_sched (s : State) (g : Nat) (k : Cluster) : (s.setCl g k).sched = s.sched := rfl
@[simp] theorem State.setCl_tim (s : State) (g : Nat) (k : Cluster) : (s.setCl g k).tim = s.tim := rfl
@[simp] theorem State.setCl_glb (s : State) (g : Nat) (k : Cluster) : (s.setCl g k).glb = s.glb := rfl
@[simp] theorem State.setCl_pwr (s : State) (g : Nat) (k : Cluster) : (s.setCl g k).pwr = s.pwr := rfl
@[simp] theorem State.setCl_memc (s : State) (g : Nat) (k : Cluster) : (s.setCl g k).memc = s.memc := rfl
@[simp] theorem State.setCl_fab (s : State) (g : Nat) (k : Cluster) : (s.setCl g k).fab = s.fab := rfl
@[simp] theorem State.setCl_grm (s : State) (g : Nat) (k : Cluster) : (s.setCl g k).grm = s.grm := rfl
@[simp] theorem State.setCl_sec (s : State) (g : Nat) (k : Cluster) : (s.setCl g k).sec = s.sec := rfl
@[simp] theorem State.setCl_fls (s : State) (g : Nat) (k : Cluster) : (s.setCl g k).fls = s.fls := rfl
@[simp] theorem State.setCl_cam (s : State) (g : Nat) (k : Cluster) : (s.setCl g k).cam = s.cam := rfl
@[simp] theorem State.setCl_far (s : State) (g : Nat) (k : Cluster) : (s.setCl g k).far = s.far := rfl
@[simp] theorem State.setCl_board (s : State) (g : Nat) (k : Cluster) : (s.setCl g k).board = s.board := rfl
@[simp] theorem State.setCl_latch (s : State) (g : Nat) (k : Cluster) : (s.setCl g k).latch = s.latch := rfl

/-! ### modCl -/

@[simp] theorem State.modCl_pending (s : State) (g : Nat) (u : Cluster → Cluster) : (s.modCl g u).pending = s.pending := rfl
@[simp] theorem State.modCl_freeIx (s : State) (g : Nat) (u : Cluster → Cluster) : (s.modCl g u).freeIx = s.freeIx := rfl
@[simp] theorem State.modCl_mem (s : State) (g : Nat) (u : Cluster → Cluster) : (s.modCl g u).mem = s.mem := rfl
@[simp] theorem State.modCl_hostMem (s : State) (g : Nat) (u : Cluster → Cluster) : (s.modCl g u).hostMem = s.hostMem := rfl
@[simp] theorem State.modCl_infl (s : State) (g : Nat) (u : Cluster → Cluster) : (s.modCl g u).infl = s.infl := rfl
@[simp] theorem State.modCl_cmds (s : State) (g : Nat) (u : Cluster → Cluster) : (s.modCl g u).cmds = s.cmds := rfl
@[simp] theorem State.modCl_fns (s : State) (g : Nat) (u : Cluster → Cluster) : (s.modCl g u).fns = s.fns := rfl
@[simp] theorem State.modCl_tens (s : State) (g : Nat) (u : Cluster → Cluster) : (s.modCl g u).tens = s.tens := rfl
@[simp] theorem State.modCl_serv (s : State) (g : Nat) (u : Cluster → Cluster) : (s.modCl g u).serv = s.serv := rfl
@[simp] theorem State.modCl_sched (s : State) (g : Nat) (u : Cluster → Cluster) : (s.modCl g u).sched = s.sched := rfl
@[simp] theorem State.modCl_tim (s : State) (g : Nat) (u : Cluster → Cluster) : (s.modCl g u).tim = s.tim := rfl
@[simp] theorem State.modCl_glb (s : State) (g : Nat) (u : Cluster → Cluster) : (s.modCl g u).glb = s.glb := rfl
@[simp] theorem State.modCl_pwr (s : State) (g : Nat) (u : Cluster → Cluster) : (s.modCl g u).pwr = s.pwr := rfl
@[simp] theorem State.modCl_memc (s : State) (g : Nat) (u : Cluster → Cluster) : (s.modCl g u).memc = s.memc := rfl
@[simp] theorem State.modCl_fab (s : State) (g : Nat) (u : Cluster → Cluster) : (s.modCl g u).fab = s.fab := rfl
@[simp] theorem State.modCl_grm (s : State) (g : Nat) (u : Cluster → Cluster) : (s.modCl g u).grm = s.grm := rfl
@[simp] theorem State.modCl_sec (s : State) (g : Nat) (u : Cluster → Cluster) : (s.modCl g u).sec = s.sec := rfl
@[simp] theorem State.modCl_fls (s : State) (g : Nat) (u : Cluster → Cluster) : (s.modCl g u).fls = s.fls := rfl
@[simp] theorem State.modCl_cam (s : State) (g : Nat) (u : Cluster → Cluster) : (s.modCl g u).cam = s.cam := rfl
@[simp] theorem State.modCl_far (s : State) (g : Nat) (u : Cluster → Cluster) : (s.modCl g u).far = s.far := rfl
@[simp] theorem State.modCl_board (s : State) (g : Nat) (u : Cluster → Cluster) : (s.modCl g u).board = s.board := rfl
@[simp] theorem State.modCl_latch (s : State) (g : Nat) (u : Cluster → Cluster) : (s.modCl g u).latch = s.latch := rfl

/-! ### setFn -/

@[simp] theorem State.setFn_pending (s : State) (f : Nat) (b : FnBlk) : (s.setFn f b).pending = s.pending := rfl
@[simp] theorem State.setFn_freeIx (s : State) (f : Nat) (b : FnBlk) : (s.setFn f b).freeIx = s.freeIx := rfl
@[simp] theorem State.setFn_mem (s : State) (f : Nat) (b : FnBlk) : (s.setFn f b).mem = s.mem := rfl
@[simp] theorem State.setFn_hostMem (s : State) (f : Nat) (b : FnBlk) : (s.setFn f b).hostMem = s.hostMem := rfl
@[simp] theorem State.setFn_infl (s : State) (f : Nat) (b : FnBlk) : (s.setFn f b).infl = s.infl := rfl
@[simp] theorem State.setFn_clusters (s : State) (f : Nat) (b : FnBlk) : (s.setFn f b).clusters = s.clusters := rfl
@[simp] theorem State.setFn_cmds (s : State) (f : Nat) (b : FnBlk) : (s.setFn f b).cmds = s.cmds := rfl
@[simp] theorem State.setFn_tens (s : State) (f : Nat) (b : FnBlk) : (s.setFn f b).tens = s.tens := rfl
@[simp] theorem State.setFn_serv (s : State) (f : Nat) (b : FnBlk) : (s.setFn f b).serv = s.serv := rfl
@[simp] theorem State.setFn_sched (s : State) (f : Nat) (b : FnBlk) : (s.setFn f b).sched = s.sched := rfl
@[simp] theorem State.setFn_tim (s : State) (f : Nat) (b : FnBlk) : (s.setFn f b).tim = s.tim := rfl
@[simp] theorem State.setFn_glb (s : State) (f : Nat) (b : FnBlk) : (s.setFn f b).glb = s.glb := rfl
@[simp] theorem State.setFn_pwr (s : State) (f : Nat) (b : FnBlk) : (s.setFn f b).pwr = s.pwr := rfl
@[simp] theorem State.setFn_memc (s : State) (f : Nat) (b : FnBlk) : (s.setFn f b).memc = s.memc := rfl
@[simp] theorem State.setFn_fab (s : State) (f : Nat) (b : FnBlk) : (s.setFn f b).fab = s.fab := rfl
@[simp] theorem State.setFn_grm (s : State) (f : Nat) (b : FnBlk) : (s.setFn f b).grm = s.grm := rfl
@[simp] theorem State.setFn_sec (s : State) (f : Nat) (b : FnBlk) : (s.setFn f b).sec = s.sec := rfl
@[simp] theorem State.setFn_fls (s : State) (f : Nat) (b : FnBlk) : (s.setFn f b).fls = s.fls := rfl
@[simp] theorem State.setFn_cam (s : State) (f : Nat) (b : FnBlk) : (s.setFn f b).cam = s.cam := rfl
@[simp] theorem State.setFn_far (s : State) (f : Nat) (b : FnBlk) : (s.setFn f b).far = s.far := rfl
@[simp] theorem State.setFn_board (s : State) (f : Nat) (b : FnBlk) : (s.setFn f b).board = s.board := rfl
@[simp] theorem State.setFn_latch (s : State) (f : Nat) (b : FnBlk) : (s.setFn f b).latch = s.latch := rfl

/-! ### modFn -/

@[simp] theorem State.modFn_pending (s : State) (f : Nat) (u : FnBlk → FnBlk) : (s.modFn f u).pending = s.pending := rfl
@[simp] theorem State.modFn_freeIx (s : State) (f : Nat) (u : FnBlk → FnBlk) : (s.modFn f u).freeIx = s.freeIx := rfl
@[simp] theorem State.modFn_mem (s : State) (f : Nat) (u : FnBlk → FnBlk) : (s.modFn f u).mem = s.mem := rfl
@[simp] theorem State.modFn_hostMem (s : State) (f : Nat) (u : FnBlk → FnBlk) : (s.modFn f u).hostMem = s.hostMem := rfl
@[simp] theorem State.modFn_infl (s : State) (f : Nat) (u : FnBlk → FnBlk) : (s.modFn f u).infl = s.infl := rfl
@[simp] theorem State.modFn_clusters (s : State) (f : Nat) (u : FnBlk → FnBlk) : (s.modFn f u).clusters = s.clusters := rfl
@[simp] theorem State.modFn_cmds (s : State) (f : Nat) (u : FnBlk → FnBlk) : (s.modFn f u).cmds = s.cmds := rfl
@[simp] theorem State.modFn_tens (s : State) (f : Nat) (u : FnBlk → FnBlk) : (s.modFn f u).tens = s.tens := rfl
@[simp] theorem State.modFn_serv (s : State) (f : Nat) (u : FnBlk → FnBlk) : (s.modFn f u).serv = s.serv := rfl
@[simp] theorem State.modFn_sched (s : State) (f : Nat) (u : FnBlk → FnBlk) : (s.modFn f u).sched = s.sched := rfl
@[simp] theorem State.modFn_tim (s : State) (f : Nat) (u : FnBlk → FnBlk) : (s.modFn f u).tim = s.tim := rfl
@[simp] theorem State.modFn_glb (s : State) (f : Nat) (u : FnBlk → FnBlk) : (s.modFn f u).glb = s.glb := rfl
@[simp] theorem State.modFn_pwr (s : State) (f : Nat) (u : FnBlk → FnBlk) : (s.modFn f u).pwr = s.pwr := rfl
@[simp] theorem State.modFn_memc (s : State) (f : Nat) (u : FnBlk → FnBlk) : (s.modFn f u).memc = s.memc := rfl
@[simp] theorem State.modFn_fab (s : State) (f : Nat) (u : FnBlk → FnBlk) : (s.modFn f u).fab = s.fab := rfl
@[simp] theorem State.modFn_grm (s : State) (f : Nat) (u : FnBlk → FnBlk) : (s.modFn f u).grm = s.grm := rfl
@[simp] theorem State.modFn_sec (s : State) (f : Nat) (u : FnBlk → FnBlk) : (s.modFn f u).sec = s.sec := rfl
@[simp] theorem State.modFn_fls (s : State) (f : Nat) (u : FnBlk → FnBlk) : (s.modFn f u).fls = s.fls := rfl
@[simp] theorem State.modFn_cam (s : State) (f : Nat) (u : FnBlk → FnBlk) : (s.modFn f u).cam = s.cam := rfl
@[simp] theorem State.modFn_far (s : State) (f : Nat) (u : FnBlk → FnBlk) : (s.modFn f u).far = s.far := rfl
@[simp] theorem State.modFn_board (s : State) (f : Nat) (u : FnBlk → FnBlk) : (s.modFn f u).board = s.board := rfl
@[simp] theorem State.modFn_latch (s : State) (f : Nat) (u : FnBlk → FnBlk) : (s.modFn f u).latch = s.latch := rfl

/-! ### setQueue -/

@[simp] theorem State.setQueue_pending (s : State) (f q : Nat) (x : Queue) : (s.setQueue f q x).pending = s.pending := rfl
@[simp] theorem State.setQueue_freeIx (s : State) (f q : Nat) (x : Queue) : (s.setQueue f q x).freeIx = s.freeIx := rfl
@[simp] theorem State.setQueue_mem (s : State) (f q : Nat) (x : Queue) : (s.setQueue f q x).mem = s.mem := rfl
@[simp] theorem State.setQueue_hostMem (s : State) (f q : Nat) (x : Queue) : (s.setQueue f q x).hostMem = s.hostMem := rfl
@[simp] theorem State.setQueue_infl (s : State) (f q : Nat) (x : Queue) : (s.setQueue f q x).infl = s.infl := rfl
@[simp] theorem State.setQueue_clusters (s : State) (f q : Nat) (x : Queue) : (s.setQueue f q x).clusters = s.clusters := rfl
@[simp] theorem State.setQueue_cmds (s : State) (f q : Nat) (x : Queue) : (s.setQueue f q x).cmds = s.cmds := rfl
@[simp] theorem State.setQueue_tens (s : State) (f q : Nat) (x : Queue) : (s.setQueue f q x).tens = s.tens := rfl
@[simp] theorem State.setQueue_serv (s : State) (f q : Nat) (x : Queue) : (s.setQueue f q x).serv = s.serv := rfl
@[simp] theorem State.setQueue_sched (s : State) (f q : Nat) (x : Queue) : (s.setQueue f q x).sched = s.sched := rfl
@[simp] theorem State.setQueue_tim (s : State) (f q : Nat) (x : Queue) : (s.setQueue f q x).tim = s.tim := rfl
@[simp] theorem State.setQueue_glb (s : State) (f q : Nat) (x : Queue) : (s.setQueue f q x).glb = s.glb := rfl
@[simp] theorem State.setQueue_pwr (s : State) (f q : Nat) (x : Queue) : (s.setQueue f q x).pwr = s.pwr := rfl
@[simp] theorem State.setQueue_memc (s : State) (f q : Nat) (x : Queue) : (s.setQueue f q x).memc = s.memc := rfl
@[simp] theorem State.setQueue_fab (s : State) (f q : Nat) (x : Queue) : (s.setQueue f q x).fab = s.fab := rfl
@[simp] theorem State.setQueue_grm (s : State) (f q : Nat) (x : Queue) : (s.setQueue f q x).grm = s.grm := rfl
@[simp] theorem State.setQueue_sec (s : State) (f q : Nat) (x : Queue) : (s.setQueue f q x).sec = s.sec := rfl
@[simp] theorem State.setQueue_fls (s : State) (f q : Nat) (x : Queue) : (s.setQueue f q x).fls = s.fls := rfl
@[simp] theorem State.setQueue_cam (s : State) (f q : Nat) (x : Queue) : (s.setQueue f q x).cam = s.cam := rfl
@[simp] theorem State.setQueue_far (s : State) (f q : Nat) (x : Queue) : (s.setQueue f q x).far = s.far := rfl
@[simp] theorem State.setQueue_board (s : State) (f q : Nat) (x : Queue) : (s.setQueue f q x).board = s.board := rfl
@[simp] theorem State.setQueue_latch (s : State) (f q : Nat) (x : Queue) : (s.setQueue f q x).latch = s.latch := rfl

/-! ### modQueue -/

@[simp] theorem State.modQueue_pending (s : State) (f q : Nat) (u : Queue → Queue) : (s.modQueue f q u).pending = s.pending := rfl
@[simp] theorem State.modQueue_freeIx (s : State) (f q : Nat) (u : Queue → Queue) : (s.modQueue f q u).freeIx = s.freeIx := rfl
@[simp] theorem State.modQueue_mem (s : State) (f q : Nat) (u : Queue → Queue) : (s.modQueue f q u).mem = s.mem := rfl
@[simp] theorem State.modQueue_hostMem (s : State) (f q : Nat) (u : Queue → Queue) : (s.modQueue f q u).hostMem = s.hostMem := rfl
@[simp] theorem State.modQueue_infl (s : State) (f q : Nat) (u : Queue → Queue) : (s.modQueue f q u).infl = s.infl := rfl
@[simp] theorem State.modQueue_clusters (s : State) (f q : Nat) (u : Queue → Queue) : (s.modQueue f q u).clusters = s.clusters := rfl
@[simp] theorem State.modQueue_cmds (s : State) (f q : Nat) (u : Queue → Queue) : (s.modQueue f q u).cmds = s.cmds := rfl
@[simp] theorem State.modQueue_tens (s : State) (f q : Nat) (u : Queue → Queue) : (s.modQueue f q u).tens = s.tens := rfl
@[simp] theorem State.modQueue_serv (s : State) (f q : Nat) (u : Queue → Queue) : (s.modQueue f q u).serv = s.serv := rfl
@[simp] theorem State.modQueue_sched (s : State) (f q : Nat) (u : Queue → Queue) : (s.modQueue f q u).sched = s.sched := rfl
@[simp] theorem State.modQueue_tim (s : State) (f q : Nat) (u : Queue → Queue) : (s.modQueue f q u).tim = s.tim := rfl
@[simp] theorem State.modQueue_glb (s : State) (f q : Nat) (u : Queue → Queue) : (s.modQueue f q u).glb = s.glb := rfl
@[simp] theorem State.modQueue_pwr (s : State) (f q : Nat) (u : Queue → Queue) : (s.modQueue f q u).pwr = s.pwr := rfl
@[simp] theorem State.modQueue_memc (s : State) (f q : Nat) (u : Queue → Queue) : (s.modQueue f q u).memc = s.memc := rfl
@[simp] theorem State.modQueue_fab (s : State) (f q : Nat) (u : Queue → Queue) : (s.modQueue f q u).fab = s.fab := rfl
@[simp] theorem State.modQueue_grm (s : State) (f q : Nat) (u : Queue → Queue) : (s.modQueue f q u).grm = s.grm := rfl
@[simp] theorem State.modQueue_sec (s : State) (f q : Nat) (u : Queue → Queue) : (s.modQueue f q u).sec = s.sec := rfl
@[simp] theorem State.modQueue_fls (s : State) (f q : Nat) (u : Queue → Queue) : (s.modQueue f q u).fls = s.fls := rfl
@[simp] theorem State.modQueue_cam (s : State) (f q : Nat) (u : Queue → Queue) : (s.modQueue f q u).cam = s.cam := rfl
@[simp] theorem State.modQueue_far (s : State) (f q : Nat) (u : Queue → Queue) : (s.modQueue f q u).far = s.far := rfl
@[simp] theorem State.modQueue_board (s : State) (f q : Nat) (u : Queue → Queue) : (s.modQueue f q u).board = s.board := rfl
@[simp] theorem State.modQueue_latch (s : State) (f q : Nat) (u : Queue → Queue) : (s.modQueue f q u).latch = s.latch := rfl

/-! ### setTen -/

@[simp] theorem State.setTen_pending (s : State) (t : Nat) (x : Tenant) : (s.setTen t x).pending = s.pending := rfl
@[simp] theorem State.setTen_freeIx (s : State) (t : Nat) (x : Tenant) : (s.setTen t x).freeIx = s.freeIx := rfl
@[simp] theorem State.setTen_mem (s : State) (t : Nat) (x : Tenant) : (s.setTen t x).mem = s.mem := rfl
@[simp] theorem State.setTen_hostMem (s : State) (t : Nat) (x : Tenant) : (s.setTen t x).hostMem = s.hostMem := rfl
@[simp] theorem State.setTen_infl (s : State) (t : Nat) (x : Tenant) : (s.setTen t x).infl = s.infl := rfl
@[simp] theorem State.setTen_clusters (s : State) (t : Nat) (x : Tenant) : (s.setTen t x).clusters = s.clusters := rfl
@[simp] theorem State.setTen_cmds (s : State) (t : Nat) (x : Tenant) : (s.setTen t x).cmds = s.cmds := rfl
@[simp] theorem State.setTen_fns (s : State) (t : Nat) (x : Tenant) : (s.setTen t x).fns = s.fns := rfl
@[simp] theorem State.setTen_serv (s : State) (t : Nat) (x : Tenant) : (s.setTen t x).serv = s.serv := rfl
@[simp] theorem State.setTen_sched (s : State) (t : Nat) (x : Tenant) : (s.setTen t x).sched = s.sched := rfl
@[simp] theorem State.setTen_tim (s : State) (t : Nat) (x : Tenant) : (s.setTen t x).tim = s.tim := rfl
@[simp] theorem State.setTen_glb (s : State) (t : Nat) (x : Tenant) : (s.setTen t x).glb = s.glb := rfl
@[simp] theorem State.setTen_pwr (s : State) (t : Nat) (x : Tenant) : (s.setTen t x).pwr = s.pwr := rfl
@[simp] theorem State.setTen_memc (s : State) (t : Nat) (x : Tenant) : (s.setTen t x).memc = s.memc := rfl
@[simp] theorem State.setTen_fab (s : State) (t : Nat) (x : Tenant) : (s.setTen t x).fab = s.fab := rfl
@[simp] theorem State.setTen_grm (s : State) (t : Nat) (x : Tenant) : (s.setTen t x).grm = s.grm := rfl
@[simp] theorem State.setTen_sec (s : State) (t : Nat) (x : Tenant) : (s.setTen t x).sec = s.sec := rfl
@[simp] theorem State.setTen_fls (s : State) (t : Nat) (x : Tenant) : (s.setTen t x).fls = s.fls := rfl
@[simp] theorem State.setTen_cam (s : State) (t : Nat) (x : Tenant) : (s.setTen t x).cam = s.cam := rfl
@[simp] theorem State.setTen_far (s : State) (t : Nat) (x : Tenant) : (s.setTen t x).far = s.far := rfl
@[simp] theorem State.setTen_board (s : State) (t : Nat) (x : Tenant) : (s.setTen t x).board = s.board := rfl
@[simp] theorem State.setTen_latch (s : State) (t : Nat) (x : Tenant) : (s.setTen t x).latch = s.latch := rfl

/-! ### modTen -/

@[simp] theorem State.modTen_pending (s : State) (t : Nat) (u : Tenant → Tenant) : (s.modTen t u).pending = s.pending := rfl
@[simp] theorem State.modTen_freeIx (s : State) (t : Nat) (u : Tenant → Tenant) : (s.modTen t u).freeIx = s.freeIx := rfl
@[simp] theorem State.modTen_mem (s : State) (t : Nat) (u : Tenant → Tenant) : (s.modTen t u).mem = s.mem := rfl
@[simp] theorem State.modTen_hostMem (s : State) (t : Nat) (u : Tenant → Tenant) : (s.modTen t u).hostMem = s.hostMem := rfl
@[simp] theorem State.modTen_infl (s : State) (t : Nat) (u : Tenant → Tenant) : (s.modTen t u).infl = s.infl := rfl
@[simp] theorem State.modTen_clusters (s : State) (t : Nat) (u : Tenant → Tenant) : (s.modTen t u).clusters = s.clusters := rfl
@[simp] theorem State.modTen_cmds (s : State) (t : Nat) (u : Tenant → Tenant) : (s.modTen t u).cmds = s.cmds := rfl
@[simp] theorem State.modTen_fns (s : State) (t : Nat) (u : Tenant → Tenant) : (s.modTen t u).fns = s.fns := rfl
@[simp] theorem State.modTen_serv (s : State) (t : Nat) (u : Tenant → Tenant) : (s.modTen t u).serv = s.serv := rfl
@[simp] theorem State.modTen_sched (s : State) (t : Nat) (u : Tenant → Tenant) : (s.modTen t u).sched = s.sched := rfl
@[simp] theorem State.modTen_tim (s : State) (t : Nat) (u : Tenant → Tenant) : (s.modTen t u).tim = s.tim := rfl
@[simp] theorem State.modTen_glb (s : State) (t : Nat) (u : Tenant → Tenant) : (s.modTen t u).glb = s.glb := rfl
@[simp] theorem State.modTen_pwr (s : State) (t : Nat) (u : Tenant → Tenant) : (s.modTen t u).pwr = s.pwr := rfl
@[simp] theorem State.modTen_memc (s : State) (t : Nat) (u : Tenant → Tenant) : (s.modTen t u).memc = s.memc := rfl
@[simp] theorem State.modTen_fab (s : State) (t : Nat) (u : Tenant → Tenant) : (s.modTen t u).fab = s.fab := rfl
@[simp] theorem State.modTen_grm (s : State) (t : Nat) (u : Tenant → Tenant) : (s.modTen t u).grm = s.grm := rfl
@[simp] theorem State.modTen_sec (s : State) (t : Nat) (u : Tenant → Tenant) : (s.modTen t u).sec = s.sec := rfl
@[simp] theorem State.modTen_fls (s : State) (t : Nat) (u : Tenant → Tenant) : (s.modTen t u).fls = s.fls := rfl
@[simp] theorem State.modTen_cam (s : State) (t : Nat) (u : Tenant → Tenant) : (s.modTen t u).cam = s.cam := rfl
@[simp] theorem State.modTen_far (s : State) (t : Nat) (u : Tenant → Tenant) : (s.modTen t u).far = s.far := rfl
@[simp] theorem State.modTen_board (s : State) (t : Nat) (u : Tenant → Tenant) : (s.modTen t u).board = s.board := rfl
@[simp] theorem State.modTen_latch (s : State) (t : Nat) (u : Tenant → Tenant) : (s.modTen t u).latch = s.latch := rfl

/-! ### setLayout -/

@[simp] theorem State.setLayout_pending (s : State) (t l : Nat) (x : Option LayoutRec) : (s.setLayout t l x).pending = s.pending := rfl
@[simp] theorem State.setLayout_freeIx (s : State) (t l : Nat) (x : Option LayoutRec) : (s.setLayout t l x).freeIx = s.freeIx := rfl
@[simp] theorem State.setLayout_mem (s : State) (t l : Nat) (x : Option LayoutRec) : (s.setLayout t l x).mem = s.mem := rfl
@[simp] theorem State.setLayout_hostMem (s : State) (t l : Nat) (x : Option LayoutRec) : (s.setLayout t l x).hostMem = s.hostMem := rfl
@[simp] theorem State.setLayout_infl (s : State) (t l : Nat) (x : Option LayoutRec) : (s.setLayout t l x).infl = s.infl := rfl
@[simp] theorem State.setLayout_clusters (s : State) (t l : Nat) (x : Option LayoutRec) : (s.setLayout t l x).clusters = s.clusters := rfl
@[simp] theorem State.setLayout_cmds (s : State) (t l : Nat) (x : Option LayoutRec) : (s.setLayout t l x).cmds = s.cmds := rfl
@[simp] theorem State.setLayout_fns (s : State) (t l : Nat) (x : Option LayoutRec) : (s.setLayout t l x).fns = s.fns := rfl
@[simp] theorem State.setLayout_serv (s : State) (t l : Nat) (x : Option LayoutRec) : (s.setLayout t l x).serv = s.serv := rfl
@[simp] theorem State.setLayout_sched (s : State) (t l : Nat) (x : Option LayoutRec) : (s.setLayout t l x).sched = s.sched := rfl
@[simp] theorem State.setLayout_tim (s : State) (t l : Nat) (x : Option LayoutRec) : (s.setLayout t l x).tim = s.tim := rfl
@[simp] theorem State.setLayout_glb (s : State) (t l : Nat) (x : Option LayoutRec) : (s.setLayout t l x).glb = s.glb := rfl
@[simp] theorem State.setLayout_pwr (s : State) (t l : Nat) (x : Option LayoutRec) : (s.setLayout t l x).pwr = s.pwr := rfl
@[simp] theorem State.setLayout_memc (s : State) (t l : Nat) (x : Option LayoutRec) : (s.setLayout t l x).memc = s.memc := rfl
@[simp] theorem State.setLayout_fab (s : State) (t l : Nat) (x : Option LayoutRec) : (s.setLayout t l x).fab = s.fab := rfl
@[simp] theorem State.setLayout_grm (s : State) (t l : Nat) (x : Option LayoutRec) : (s.setLayout t l x).grm = s.grm := rfl
@[simp] theorem State.setLayout_sec (s : State) (t l : Nat) (x : Option LayoutRec) : (s.setLayout t l x).sec = s.sec := rfl
@[simp] theorem State.setLayout_fls (s : State) (t l : Nat) (x : Option LayoutRec) : (s.setLayout t l x).fls = s.fls := rfl
@[simp] theorem State.setLayout_cam (s : State) (t l : Nat) (x : Option LayoutRec) : (s.setLayout t l x).cam = s.cam := rfl
@[simp] theorem State.setLayout_far (s : State) (t l : Nat) (x : Option LayoutRec) : (s.setLayout t l x).far = s.far := rfl
@[simp] theorem State.setLayout_board (s : State) (t l : Nat) (x : Option LayoutRec) : (s.setLayout t l x).board = s.board := rfl
@[simp] theorem State.setLayout_latch (s : State) (t l : Nat) (x : Option LayoutRec) : (s.setLayout t l x).latch = s.latch := rfl

/-! ### setGate -/

@[simp] theorem State.setGate_pending (s : State) (t g : Nat) (x : Option GateRec) : (s.setGate t g x).pending = s.pending := rfl
@[simp] theorem State.setGate_freeIx (s : State) (t g : Nat) (x : Option GateRec) : (s.setGate t g x).freeIx = s.freeIx := rfl
@[simp] theorem State.setGate_mem (s : State) (t g : Nat) (x : Option GateRec) : (s.setGate t g x).mem = s.mem := rfl
@[simp] theorem State.setGate_hostMem (s : State) (t g : Nat) (x : Option GateRec) : (s.setGate t g x).hostMem = s.hostMem := rfl
@[simp] theorem State.setGate_infl (s : State) (t g : Nat) (x : Option GateRec) : (s.setGate t g x).infl = s.infl := rfl
@[simp] theorem State.setGate_clusters (s : State) (t g : Nat) (x : Option GateRec) : (s.setGate t g x).clusters = s.clusters := rfl
@[simp] theorem State.setGate_cmds (s : State) (t g : Nat) (x : Option GateRec) : (s.setGate t g x).cmds = s.cmds := rfl
@[simp] theorem State.setGate_fns (s : State) (t g : Nat) (x : Option GateRec) : (s.setGate t g x).fns = s.fns := rfl
@[simp] theorem State.setGate_serv (s : State) (t g : Nat) (x : Option GateRec) : (s.setGate t g x).serv = s.serv := rfl
@[simp] theorem State.setGate_sched (s : State) (t g : Nat) (x : Option GateRec) : (s.setGate t g x).sched = s.sched := rfl
@[simp] theorem State.setGate_tim (s : State) (t g : Nat) (x : Option GateRec) : (s.setGate t g x).tim = s.tim := rfl
@[simp] theorem State.setGate_glb (s : State) (t g : Nat) (x : Option GateRec) : (s.setGate t g x).glb = s.glb := rfl
@[simp] theorem State.setGate_pwr (s : State) (t g : Nat) (x : Option GateRec) : (s.setGate t g x).pwr = s.pwr := rfl
@[simp] theorem State.setGate_memc (s : State) (t g : Nat) (x : Option GateRec) : (s.setGate t g x).memc = s.memc := rfl
@[simp] theorem State.setGate_fab (s : State) (t g : Nat) (x : Option GateRec) : (s.setGate t g x).fab = s.fab := rfl
@[simp] theorem State.setGate_grm (s : State) (t g : Nat) (x : Option GateRec) : (s.setGate t g x).grm = s.grm := rfl
@[simp] theorem State.setGate_sec (s : State) (t g : Nat) (x : Option GateRec) : (s.setGate t g x).sec = s.sec := rfl
@[simp] theorem State.setGate_fls (s : State) (t g : Nat) (x : Option GateRec) : (s.setGate t g x).fls = s.fls := rfl
@[simp] theorem State.setGate_cam (s : State) (t g : Nat) (x : Option GateRec) : (s.setGate t g x).cam = s.cam := rfl
@[simp] theorem State.setGate_far (s : State) (t g : Nat) (x : Option GateRec) : (s.setGate t g x).far = s.far := rfl
@[simp] theorem State.setGate_board (s : State) (t g : Nat) (x : Option GateRec) : (s.setGate t g x).board = s.board := rfl
@[simp] theorem State.setGate_latch (s : State) (t g : Nat) (x : Option GateRec) : (s.setGate t g x).latch = s.latch := rfl

/-! ### setCtx -/

@[simp] theorem State.setCtx_pending (s : State) (x : Nat) (c : Ctx) : (s.setCtx x c).pending = s.pending := rfl
@[simp] theorem State.setCtx_freeIx (s : State) (x : Nat) (c : Ctx) : (s.setCtx x c).freeIx = s.freeIx := rfl
@[simp] theorem State.setCtx_mem (s : State) (x : Nat) (c : Ctx) : (s.setCtx x c).mem = s.mem := rfl
@[simp] theorem State.setCtx_hostMem (s : State) (x : Nat) (c : Ctx) : (s.setCtx x c).hostMem = s.hostMem := rfl
@[simp] theorem State.setCtx_infl (s : State) (x : Nat) (c : Ctx) : (s.setCtx x c).infl = s.infl := rfl
@[simp] theorem State.setCtx_clusters (s : State) (x : Nat) (c : Ctx) : (s.setCtx x c).clusters = s.clusters := rfl
@[simp] theorem State.setCtx_cmds (s : State) (x : Nat) (c : Ctx) : (s.setCtx x c).cmds = s.cmds := rfl
@[simp] theorem State.setCtx_fns (s : State) (x : Nat) (c : Ctx) : (s.setCtx x c).fns = s.fns := rfl
@[simp] theorem State.setCtx_tens (s : State) (x : Nat) (c : Ctx) : (s.setCtx x c).tens = s.tens := rfl
@[simp] theorem State.setCtx_sched (s : State) (x : Nat) (c : Ctx) : (s.setCtx x c).sched = s.sched := rfl
@[simp] theorem State.setCtx_tim (s : State) (x : Nat) (c : Ctx) : (s.setCtx x c).tim = s.tim := rfl
@[simp] theorem State.setCtx_glb (s : State) (x : Nat) (c : Ctx) : (s.setCtx x c).glb = s.glb := rfl
@[simp] theorem State.setCtx_pwr (s : State) (x : Nat) (c : Ctx) : (s.setCtx x c).pwr = s.pwr := rfl
@[simp] theorem State.setCtx_memc (s : State) (x : Nat) (c : Ctx) : (s.setCtx x c).memc = s.memc := rfl
@[simp] theorem State.setCtx_fab (s : State) (x : Nat) (c : Ctx) : (s.setCtx x c).fab = s.fab := rfl
@[simp] theorem State.setCtx_grm (s : State) (x : Nat) (c : Ctx) : (s.setCtx x c).grm = s.grm := rfl
@[simp] theorem State.setCtx_sec (s : State) (x : Nat) (c : Ctx) : (s.setCtx x c).sec = s.sec := rfl
@[simp] theorem State.setCtx_fls (s : State) (x : Nat) (c : Ctx) : (s.setCtx x c).fls = s.fls := rfl
@[simp] theorem State.setCtx_cam (s : State) (x : Nat) (c : Ctx) : (s.setCtx x c).cam = s.cam := rfl
@[simp] theorem State.setCtx_far (s : State) (x : Nat) (c : Ctx) : (s.setCtx x c).far = s.far := rfl
@[simp] theorem State.setCtx_board (s : State) (x : Nat) (c : Ctx) : (s.setCtx x c).board = s.board := rfl
@[simp] theorem State.setCtx_latch (s : State) (x : Nat) (c : Ctx) : (s.setCtx x c).latch = s.latch := rfl

/-! ### modCtx -/

@[simp] theorem State.modCtx_pending (s : State) (x : Nat) (u : Ctx → Ctx) : (s.modCtx x u).pending = s.pending := rfl
@[simp] theorem State.modCtx_freeIx (s : State) (x : Nat) (u : Ctx → Ctx) : (s.modCtx x u).freeIx = s.freeIx := rfl
@[simp] theorem State.modCtx_mem (s : State) (x : Nat) (u : Ctx → Ctx) : (s.modCtx x u).mem = s.mem := rfl
@[simp] theorem State.modCtx_hostMem (s : State) (x : Nat) (u : Ctx → Ctx) : (s.modCtx x u).hostMem = s.hostMem := rfl
@[simp] theorem State.modCtx_infl (s : State) (x : Nat) (u : Ctx → Ctx) : (s.modCtx x u).infl = s.infl := rfl
@[simp] theorem State.modCtx_clusters (s : State) (x : Nat) (u : Ctx → Ctx) : (s.modCtx x u).clusters = s.clusters := rfl
@[simp] theorem State.modCtx_cmds (s : State) (x : Nat) (u : Ctx → Ctx) : (s.modCtx x u).cmds = s.cmds := rfl
@[simp] theorem State.modCtx_fns (s : State) (x : Nat) (u : Ctx → Ctx) : (s.modCtx x u).fns = s.fns := rfl
@[simp] theorem State.modCtx_tens (s : State) (x : Nat) (u : Ctx → Ctx) : (s.modCtx x u).tens = s.tens := rfl
@[simp] theorem State.modCtx_sched (s : State) (x : Nat) (u : Ctx → Ctx) : (s.modCtx x u).sched = s.sched := rfl
@[simp] theorem State.modCtx_tim (s : State) (x : Nat) (u : Ctx → Ctx) : (s.modCtx x u).tim = s.tim := rfl
@[simp] theorem State.modCtx_glb (s : State) (x : Nat) (u : Ctx → Ctx) : (s.modCtx x u).glb = s.glb := rfl
@[simp] theorem State.modCtx_pwr (s : State) (x : Nat) (u : Ctx → Ctx) : (s.modCtx x u).pwr = s.pwr := rfl
@[simp] theorem State.modCtx_memc (s : State) (x : Nat) (u : Ctx → Ctx) : (s.modCtx x u).memc = s.memc := rfl
@[simp] theorem State.modCtx_fab (s : State) (x : Nat) (u : Ctx → Ctx) : (s.modCtx x u).fab = s.fab := rfl
@[simp] theorem State.modCtx_grm (s : State) (x : Nat) (u : Ctx → Ctx) : (s.modCtx x u).grm = s.grm := rfl
@[simp] theorem State.modCtx_sec (s : State) (x : Nat) (u : Ctx → Ctx) : (s.modCtx x u).sec = s.sec := rfl
@[simp] theorem State.modCtx_fls (s : State) (x : Nat) (u : Ctx → Ctx) : (s.modCtx x u).fls = s.fls := rfl
@[simp] theorem State.modCtx_cam (s : State) (x : Nat) (u : Ctx → Ctx) : (s.modCtx x u).cam = s.cam := rfl
@[simp] theorem State.modCtx_far (s : State) (x : Nat) (u : Ctx → Ctx) : (s.modCtx x u).far = s.far := rfl
@[simp] theorem State.modCtx_board (s : State) (x : Nat) (u : Ctx → Ctx) : (s.modCtx x u).board = s.board := rfl
@[simp] theorem State.modCtx_latch (s : State) (x : Nat) (u : Ctx → Ctx) : (s.modCtx x u).latch = s.latch := rfl

/-! ### setAcct -/

@[simp] theorem State.setAcct_pending (s : State) (a : Nat) (x : Account) : (s.setAcct a x).pending = s.pending := rfl
@[simp] theorem State.setAcct_freeIx (s : State) (a : Nat) (x : Account) : (s.setAcct a x).freeIx = s.freeIx := rfl
@[simp] theorem State.setAcct_mem (s : State) (a : Nat) (x : Account) : (s.setAcct a x).mem = s.mem := rfl
@[simp] theorem State.setAcct_hostMem (s : State) (a : Nat) (x : Account) : (s.setAcct a x).hostMem = s.hostMem := rfl
@[simp] theorem State.setAcct_infl (s : State) (a : Nat) (x : Account) : (s.setAcct a x).infl = s.infl := rfl
@[simp] theorem State.setAcct_clusters (s : State) (a : Nat) (x : Account) : (s.setAcct a x).clusters = s.clusters := rfl
@[simp] theorem State.setAcct_cmds (s : State) (a : Nat) (x : Account) : (s.setAcct a x).cmds = s.cmds := rfl
@[simp] theorem State.setAcct_fns (s : State) (a : Nat) (x : Account) : (s.setAcct a x).fns = s.fns := rfl
@[simp] theorem State.setAcct_tens (s : State) (a : Nat) (x : Account) : (s.setAcct a x).tens = s.tens := rfl
@[simp] theorem State.setAcct_sched (s : State) (a : Nat) (x : Account) : (s.setAcct a x).sched = s.sched := rfl
@[simp] theorem State.setAcct_tim (s : State) (a : Nat) (x : Account) : (s.setAcct a x).tim = s.tim := rfl
@[simp] theorem State.setAcct_glb (s : State) (a : Nat) (x : Account) : (s.setAcct a x).glb = s.glb := rfl
@[simp] theorem State.setAcct_pwr (s : State) (a : Nat) (x : Account) : (s.setAcct a x).pwr = s.pwr := rfl
@[simp] theorem State.setAcct_memc (s : State) (a : Nat) (x : Account) : (s.setAcct a x).memc = s.memc := rfl
@[simp] theorem State.setAcct_fab (s : State) (a : Nat) (x : Account) : (s.setAcct a x).fab = s.fab := rfl
@[simp] theorem State.setAcct_grm (s : State) (a : Nat) (x : Account) : (s.setAcct a x).grm = s.grm := rfl
@[simp] theorem State.setAcct_sec (s : State) (a : Nat) (x : Account) : (s.setAcct a x).sec = s.sec := rfl
@[simp] theorem State.setAcct_fls (s : State) (a : Nat) (x : Account) : (s.setAcct a x).fls = s.fls := rfl
@[simp] theorem State.setAcct_cam (s : State) (a : Nat) (x : Account) : (s.setAcct a x).cam = s.cam := rfl
@[simp] theorem State.setAcct_far (s : State) (a : Nat) (x : Account) : (s.setAcct a x).far = s.far := rfl
@[simp] theorem State.setAcct_board (s : State) (a : Nat) (x : Account) : (s.setAcct a x).board = s.board := rfl
@[simp] theorem State.setAcct_latch (s : State) (a : Nat) (x : Account) : (s.setAcct a x).latch = s.latch := rfl

/-! ### setRegion -/

@[simp] theorem State.setRegion_pending (s : State) (r : Nat) (x : Region) : (s.setRegion r x).pending = s.pending := rfl
@[simp] theorem State.setRegion_freeIx (s : State) (r : Nat) (x : Region) : (s.setRegion r x).freeIx = s.freeIx := rfl
@[simp] theorem State.setRegion_mem (s : State) (r : Nat) (x : Region) : (s.setRegion r x).mem = s.mem := rfl
@[simp] theorem State.setRegion_hostMem (s : State) (r : Nat) (x : Region) : (s.setRegion r x).hostMem = s.hostMem := rfl
@[simp] theorem State.setRegion_infl (s : State) (r : Nat) (x : Region) : (s.setRegion r x).infl = s.infl := rfl
@[simp] theorem State.setRegion_clusters (s : State) (r : Nat) (x : Region) : (s.setRegion r x).clusters = s.clusters := rfl
@[simp] theorem State.setRegion_cmds (s : State) (r : Nat) (x : Region) : (s.setRegion r x).cmds = s.cmds := rfl
@[simp] theorem State.setRegion_fns (s : State) (r : Nat) (x : Region) : (s.setRegion r x).fns = s.fns := rfl
@[simp] theorem State.setRegion_tens (s : State) (r : Nat) (x : Region) : (s.setRegion r x).tens = s.tens := rfl
@[simp] theorem State.setRegion_serv (s : State) (r : Nat) (x : Region) : (s.setRegion r x).serv = s.serv := rfl
@[simp] theorem State.setRegion_sched (s : State) (r : Nat) (x : Region) : (s.setRegion r x).sched = s.sched := rfl
@[simp] theorem State.setRegion_tim (s : State) (r : Nat) (x : Region) : (s.setRegion r x).tim = s.tim := rfl
@[simp] theorem State.setRegion_glb (s : State) (r : Nat) (x : Region) : (s.setRegion r x).glb = s.glb := rfl
@[simp] theorem State.setRegion_memc (s : State) (r : Nat) (x : Region) : (s.setRegion r x).memc = s.memc := rfl
@[simp] theorem State.setRegion_fab (s : State) (r : Nat) (x : Region) : (s.setRegion r x).fab = s.fab := rfl
@[simp] theorem State.setRegion_grm (s : State) (r : Nat) (x : Region) : (s.setRegion r x).grm = s.grm := rfl
@[simp] theorem State.setRegion_sec (s : State) (r : Nat) (x : Region) : (s.setRegion r x).sec = s.sec := rfl
@[simp] theorem State.setRegion_fls (s : State) (r : Nat) (x : Region) : (s.setRegion r x).fls = s.fls := rfl
@[simp] theorem State.setRegion_cam (s : State) (r : Nat) (x : Region) : (s.setRegion r x).cam = s.cam := rfl
@[simp] theorem State.setRegion_far (s : State) (r : Nat) (x : Region) : (s.setRegion r x).far = s.far := rfl
@[simp] theorem State.setRegion_board (s : State) (r : Nat) (x : Region) : (s.setRegion r x).board = s.board := rfl
@[simp] theorem State.setRegion_latch (s : State) (r : Nat) (x : Region) : (s.setRegion r x).latch = s.latch := rfl

/-! ### setPort -/

@[simp] theorem State.setPort_pending (s : State) (p : Nat) (x : Port) : (s.setPort p x).pending = s.pending := rfl
@[simp] theorem State.setPort_freeIx (s : State) (p : Nat) (x : Port) : (s.setPort p x).freeIx = s.freeIx := rfl
@[simp] theorem State.setPort_mem (s : State) (p : Nat) (x : Port) : (s.setPort p x).mem = s.mem := rfl
@[simp] theorem State.setPort_hostMem (s : State) (p : Nat) (x : Port) : (s.setPort p x).hostMem = s.hostMem := rfl
@[simp] theorem State.setPort_infl (s : State) (p : Nat) (x : Port) : (s.setPort p x).infl = s.infl := rfl
@[simp] theorem State.setPort_clusters (s : State) (p : Nat) (x : Port) : (s.setPort p x).clusters = s.clusters := rfl
@[simp] theorem State.setPort_cmds (s : State) (p : Nat) (x : Port) : (s.setPort p x).cmds = s.cmds := rfl
@[simp] theorem State.setPort_fns (s : State) (p : Nat) (x : Port) : (s.setPort p x).fns = s.fns := rfl
@[simp] theorem State.setPort_tens (s : State) (p : Nat) (x : Port) : (s.setPort p x).tens = s.tens := rfl
@[simp] theorem State.setPort_serv (s : State) (p : Nat) (x : Port) : (s.setPort p x).serv = s.serv := rfl
@[simp] theorem State.setPort_sched (s : State) (p : Nat) (x : Port) : (s.setPort p x).sched = s.sched := rfl
@[simp] theorem State.setPort_tim (s : State) (p : Nat) (x : Port) : (s.setPort p x).tim = s.tim := rfl
@[simp] theorem State.setPort_glb (s : State) (p : Nat) (x : Port) : (s.setPort p x).glb = s.glb := rfl
@[simp] theorem State.setPort_pwr (s : State) (p : Nat) (x : Port) : (s.setPort p x).pwr = s.pwr := rfl
@[simp] theorem State.setPort_memc (s : State) (p : Nat) (x : Port) : (s.setPort p x).memc = s.memc := rfl
@[simp] theorem State.setPort_grm (s : State) (p : Nat) (x : Port) : (s.setPort p x).grm = s.grm := rfl
@[simp] theorem State.setPort_sec (s : State) (p : Nat) (x : Port) : (s.setPort p x).sec = s.sec := rfl
@[simp] theorem State.setPort_fls (s : State) (p : Nat) (x : Port) : (s.setPort p x).fls = s.fls := rfl
@[simp] theorem State.setPort_cam (s : State) (p : Nat) (x : Port) : (s.setPort p x).cam = s.cam := rfl
@[simp] theorem State.setPort_far (s : State) (p : Nat) (x : Port) : (s.setPort p x).far = s.far := rfl
@[simp] theorem State.setPort_board (s : State) (p : Nat) (x : Port) : (s.setPort p x).board = s.board := rfl
@[simp] theorem State.setPort_latch (s : State) (p : Nat) (x : Port) : (s.setPort p x).latch = s.latch := rfl

/-! ### send -/

@[simp] theorem State.send_pending (s : State) (m : Msg) : (s.send m).pending = s.pending := rfl
@[simp] theorem State.send_freeIx (s : State) (m : Msg) : (s.send m).freeIx = s.freeIx := rfl
@[simp] theorem State.send_mem (s : State) (m : Msg) : (s.send m).mem = s.mem := rfl
@[simp] theorem State.send_hostMem (s : State) (m : Msg) : (s.send m).hostMem = s.hostMem := rfl
@[simp] theorem State.send_infl (s : State) (m : Msg) : (s.send m).infl = s.infl := rfl
@[simp] theorem State.send_clusters (s : State) (m : Msg) : (s.send m).clusters = s.clusters := rfl
@[simp] theorem State.send_cmds (s : State) (m : Msg) : (s.send m).cmds = s.cmds := rfl
@[simp] theorem State.send_fns (s : State) (m : Msg) : (s.send m).fns = s.fns := rfl
@[simp] theorem State.send_tens (s : State) (m : Msg) : (s.send m).tens = s.tens := rfl
@[simp] theorem State.send_serv (s : State) (m : Msg) : (s.send m).serv = s.serv := rfl
@[simp] theorem State.send_sched (s : State) (m : Msg) : (s.send m).sched = s.sched := rfl
@[simp] theorem State.send_tim (s : State) (m : Msg) : (s.send m).tim = s.tim := rfl
@[simp] theorem State.send_glb (s : State) (m : Msg) : (s.send m).glb = s.glb := rfl
@[simp] theorem State.send_pwr (s : State) (m : Msg) : (s.send m).pwr = s.pwr := rfl
@[simp] theorem State.send_memc (s : State) (m : Msg) : (s.send m).memc = s.memc := rfl
@[simp] theorem State.send_grm (s : State) (m : Msg) : (s.send m).grm = s.grm := rfl
@[simp] theorem State.send_sec (s : State) (m : Msg) : (s.send m).sec = s.sec := rfl
@[simp] theorem State.send_fls (s : State) (m : Msg) : (s.send m).fls = s.fls := rfl
@[simp] theorem State.send_cam (s : State) (m : Msg) : (s.send m).cam = s.cam := rfl
@[simp] theorem State.send_far (s : State) (m : Msg) : (s.send m).far = s.far := rfl
@[simp] theorem State.send_board (s : State) (m : Msg) : (s.send m).board = s.board := rfl
@[simp] theorem State.send_latch (s : State) (m : Msg) : (s.send m).latch = s.latch := rfl

/-! ### setGroom -/

@[simp] theorem State.setGroom_pending (s : State) (c : Nat) (x : Groom) : (s.setGroom c x).pending = s.pending := rfl
@[simp] theorem State.setGroom_freeIx (s : State) (c : Nat) (x : Groom) : (s.setGroom c x).freeIx = s.freeIx := rfl
@[simp] theorem State.setGroom_mem (s : State) (c : Nat) (x : Groom) : (s.setGroom c x).mem = s.mem := rfl
@[simp] theorem State.setGroom_hostMem (s : State) (c : Nat) (x : Groom) : (s.setGroom c x).hostMem = s.hostMem := rfl
@[simp] theorem State.setGroom_infl (s : State) (c : Nat) (x : Groom) : (s.setGroom c x).infl = s.infl := rfl
@[simp] theorem State.setGroom_clusters (s : State) (c : Nat) (x : Groom) : (s.setGroom c x).clusters = s.clusters := rfl
@[simp] theorem State.setGroom_cmds (s : State) (c : Nat) (x : Groom) : (s.setGroom c x).cmds = s.cmds := rfl
@[simp] theorem State.setGroom_fns (s : State) (c : Nat) (x : Groom) : (s.setGroom c x).fns = s.fns := rfl
@[simp] theorem State.setGroom_tens (s : State) (c : Nat) (x : Groom) : (s.setGroom c x).tens = s.tens := rfl
@[simp] theorem State.setGroom_serv (s : State) (c : Nat) (x : Groom) : (s.setGroom c x).serv = s.serv := rfl
@[simp] theorem State.setGroom_sched (s : State) (c : Nat) (x : Groom) : (s.setGroom c x).sched = s.sched := rfl
@[simp] theorem State.setGroom_tim (s : State) (c : Nat) (x : Groom) : (s.setGroom c x).tim = s.tim := rfl
@[simp] theorem State.setGroom_glb (s : State) (c : Nat) (x : Groom) : (s.setGroom c x).glb = s.glb := rfl
@[simp] theorem State.setGroom_pwr (s : State) (c : Nat) (x : Groom) : (s.setGroom c x).pwr = s.pwr := rfl
@[simp] theorem State.setGroom_memc (s : State) (c : Nat) (x : Groom) : (s.setGroom c x).memc = s.memc := rfl
@[simp] theorem State.setGroom_fab (s : State) (c : Nat) (x : Groom) : (s.setGroom c x).fab = s.fab := rfl
@[simp] theorem State.setGroom_sec (s : State) (c : Nat) (x : Groom) : (s.setGroom c x).sec = s.sec := rfl
@[simp] theorem State.setGroom_fls (s : State) (c : Nat) (x : Groom) : (s.setGroom c x).fls = s.fls := rfl
@[simp] theorem State.setGroom_cam (s : State) (c : Nat) (x : Groom) : (s.setGroom c x).cam = s.cam := rfl
@[simp] theorem State.setGroom_far (s : State) (c : Nat) (x : Groom) : (s.setGroom c x).far = s.far := rfl
@[simp] theorem State.setGroom_board (s : State) (c : Nat) (x : Groom) : (s.setGroom c x).board = s.board := rfl
@[simp] theorem State.setGroom_latch (s : State) (c : Nat) (x : Groom) : (s.setGroom c x).latch = s.latch := rfl

/-! ### setCmd -/

@[simp] theorem State.setCmd_pending (s : State) (c : Cmd) : (s.setCmd c).pending = s.pending := rfl
@[simp] theorem State.setCmd_freeIx (s : State) (c : Cmd) : (s.setCmd c).freeIx = s.freeIx := rfl
@[simp] theorem State.setCmd_mem (s : State) (c : Cmd) : (s.setCmd c).mem = s.mem := rfl
@[simp] theorem State.setCmd_hostMem (s : State) (c : Cmd) : (s.setCmd c).hostMem = s.hostMem := rfl
@[simp] theorem State.setCmd_infl (s : State) (c : Cmd) : (s.setCmd c).infl = s.infl := rfl
@[simp] theorem State.setCmd_clusters (s : State) (c : Cmd) : (s.setCmd c).clusters = s.clusters := rfl
@[simp] theorem State.setCmd_fns (s : State) (c : Cmd) : (s.setCmd c).fns = s.fns := rfl
@[simp] theorem State.setCmd_tens (s : State) (c : Cmd) : (s.setCmd c).tens = s.tens := rfl
@[simp] theorem State.setCmd_serv (s : State) (c : Cmd) : (s.setCmd c).serv = s.serv := rfl
@[simp] theorem State.setCmd_sched (s : State) (c : Cmd) : (s.setCmd c).sched = s.sched := rfl
@[simp] theorem State.setCmd_tim (s : State) (c : Cmd) : (s.setCmd c).tim = s.tim := rfl
@[simp] theorem State.setCmd_glb (s : State) (c : Cmd) : (s.setCmd c).glb = s.glb := rfl
@[simp] theorem State.setCmd_pwr (s : State) (c : Cmd) : (s.setCmd c).pwr = s.pwr := rfl
@[simp] theorem State.setCmd_memc (s : State) (c : Cmd) : (s.setCmd c).memc = s.memc := rfl
@[simp] theorem State.setCmd_fab (s : State) (c : Cmd) : (s.setCmd c).fab = s.fab := rfl
@[simp] theorem State.setCmd_grm (s : State) (c : Cmd) : (s.setCmd c).grm = s.grm := rfl
@[simp] theorem State.setCmd_sec (s : State) (c : Cmd) : (s.setCmd c).sec = s.sec := rfl
@[simp] theorem State.setCmd_fls (s : State) (c : Cmd) : (s.setCmd c).fls = s.fls := rfl
@[simp] theorem State.setCmd_cam (s : State) (c : Cmd) : (s.setCmd c).cam = s.cam := rfl
@[simp] theorem State.setCmd_far (s : State) (c : Cmd) : (s.setCmd c).far = s.far := rfl
@[simp] theorem State.setCmd_board (s : State) (c : Cmd) : (s.setCmd c).board = s.board := rfl
@[simp] theorem State.setCmd_latch (s : State) (c : Cmd) : (s.setCmd c).latch = s.latch := rfl

/-! ### dropCmd -/

@[simp] theorem State.dropCmd_pending (s : State) (id : Nat) : (s.dropCmd id).pending = s.pending := rfl
@[simp] theorem State.dropCmd_freeIx (s : State) (id : Nat) : (s.dropCmd id).freeIx = s.freeIx := rfl
@[simp] theorem State.dropCmd_mem (s : State) (id : Nat) : (s.dropCmd id).mem = s.mem := rfl
@[simp] theorem State.dropCmd_hostMem (s : State) (id : Nat) : (s.dropCmd id).hostMem = s.hostMem := rfl
@[simp] theorem State.dropCmd_infl (s : State) (id : Nat) : (s.dropCmd id).infl = s.infl := rfl
@[simp] theorem State.dropCmd_clusters (s : State) (id : Nat) : (s.dropCmd id).clusters = s.clusters := rfl
@[simp] theorem State.dropCmd_fns (s : State) (id : Nat) : (s.dropCmd id).fns = s.fns := rfl
@[simp] theorem State.dropCmd_tens (s : State) (id : Nat) : (s.dropCmd id).tens = s.tens := rfl
@[simp] theorem State.dropCmd_serv (s : State) (id : Nat) : (s.dropCmd id).serv = s.serv := rfl
@[simp] theorem State.dropCmd_sched (s : State) (id : Nat) : (s.dropCmd id).sched = s.sched := rfl
@[simp] theorem State.dropCmd_tim (s : State) (id : Nat) : (s.dropCmd id).tim = s.tim := rfl
@[simp] theorem State.dropCmd_glb (s : State) (id : Nat) : (s.dropCmd id).glb = s.glb := rfl
@[simp] theorem State.dropCmd_pwr (s : State) (id : Nat) : (s.dropCmd id).pwr = s.pwr := rfl
@[simp] theorem State.dropCmd_memc (s : State) (id : Nat) : (s.dropCmd id).memc = s.memc := rfl
@[simp] theorem State.dropCmd_fab (s : State) (id : Nat) : (s.dropCmd id).fab = s.fab := rfl
@[simp] theorem State.dropCmd_grm (s : State) (id : Nat) : (s.dropCmd id).grm = s.grm := rfl
@[simp] theorem State.dropCmd_sec (s : State) (id : Nat) : (s.dropCmd id).sec = s.sec := rfl
@[simp] theorem State.dropCmd_fls (s : State) (id : Nat) : (s.dropCmd id).fls = s.fls := rfl
@[simp] theorem State.dropCmd_cam (s : State) (id : Nat) : (s.dropCmd id).cam = s.cam := rfl
@[simp] theorem State.dropCmd_far (s : State) (id : Nat) : (s.dropCmd id).far = s.far := rfl
@[simp] theorem State.dropCmd_board (s : State) (id : Nat) : (s.dropCmd id).board = s.board := rfl
@[simp] theorem State.dropCmd_latch (s : State) (id : Nat) : (s.dropCmd id).latch = s.latch := rfl

/-! ### stamp -/

@[simp] theorem State.stamp_pending (s : State) : (s.stamp).pending = s.pending := rfl
@[simp] theorem State.stamp_freeIx (s : State) : (s.stamp).freeIx = s.freeIx := rfl
@[simp] theorem State.stamp_mem (s : State) : (s.stamp).mem = s.mem := rfl
@[simp] theorem State.stamp_hostMem (s : State) : (s.stamp).hostMem = s.hostMem := rfl
@[simp] theorem State.stamp_infl (s : State) : (s.stamp).infl = s.infl := rfl
@[simp] theorem State.stamp_clusters (s : State) : (s.stamp).clusters = s.clusters := rfl
@[simp] theorem State.stamp_fns (s : State) : (s.stamp).fns = s.fns := rfl
@[simp] theorem State.stamp_tens (s : State) : (s.stamp).tens = s.tens := rfl
@[simp] theorem State.stamp_serv (s : State) : (s.stamp).serv = s.serv := rfl
@[simp] theorem State.stamp_sched (s : State) : (s.stamp).sched = s.sched := rfl
@[simp] theorem State.stamp_tim (s : State) : (s.stamp).tim = s.tim := rfl
@[simp] theorem State.stamp_glb (s : State) : (s.stamp).glb = s.glb := rfl
@[simp] theorem State.stamp_pwr (s : State) : (s.stamp).pwr = s.pwr := rfl
@[simp] theorem State.stamp_memc (s : State) : (s.stamp).memc = s.memc := rfl
@[simp] theorem State.stamp_fab (s : State) : (s.stamp).fab = s.fab := rfl
@[simp] theorem State.stamp_grm (s : State) : (s.stamp).grm = s.grm := rfl
@[simp] theorem State.stamp_sec (s : State) : (s.stamp).sec = s.sec := rfl
@[simp] theorem State.stamp_fls (s : State) : (s.stamp).fls = s.fls := rfl
@[simp] theorem State.stamp_cam (s : State) : (s.stamp).cam = s.cam := rfl
@[simp] theorem State.stamp_far (s : State) : (s.stamp).far = s.far := rfl
@[simp] theorem State.stamp_board (s : State) : (s.stamp).board = s.board := rfl
@[simp] theorem State.stamp_latch (s : State) : (s.stamp).latch = s.latch := rfl

/-! ### bump -/

@[simp] theorem State.bump_pending (s : State) : (s.bump).pending = s.pending := rfl
@[simp] theorem State.bump_mem (s : State) : (s.bump).mem = s.mem := rfl
@[simp] theorem State.bump_hostMem (s : State) : (s.bump).hostMem = s.hostMem := rfl
@[simp] theorem State.bump_infl (s : State) : (s.bump).infl = s.infl := rfl
@[simp] theorem State.bump_clusters (s : State) : (s.bump).clusters = s.clusters := rfl
@[simp] theorem State.bump_cmds (s : State) : (s.bump).cmds = s.cmds := rfl
@[simp] theorem State.bump_fns (s : State) : (s.bump).fns = s.fns := rfl
@[simp] theorem State.bump_tens (s : State) : (s.bump).tens = s.tens := rfl
@[simp] theorem State.bump_serv (s : State) : (s.bump).serv = s.serv := rfl
@[simp] theorem State.bump_sched (s : State) : (s.bump).sched = s.sched := rfl
@[simp] theorem State.bump_tim (s : State) : (s.bump).tim = s.tim := rfl
@[simp] theorem State.bump_glb (s : State) : (s.bump).glb = s.glb := rfl
@[simp] theorem State.bump_pwr (s : State) : (s.bump).pwr = s.pwr := rfl
@[simp] theorem State.bump_memc (s : State) : (s.bump).memc = s.memc := rfl
@[simp] theorem State.bump_fab (s : State) : (s.bump).fab = s.fab := rfl
@[simp] theorem State.bump_grm (s : State) : (s.bump).grm = s.grm := rfl
@[simp] theorem State.bump_sec (s : State) : (s.bump).sec = s.sec := rfl
@[simp] theorem State.bump_fls (s : State) : (s.bump).fls = s.fls := rfl
@[simp] theorem State.bump_cam (s : State) : (s.bump).cam = s.cam := rfl
@[simp] theorem State.bump_far (s : State) : (s.bump).far = s.far := rfl
@[simp] theorem State.bump_board (s : State) : (s.bump).board = s.board := rfl
@[simp] theorem State.bump_latch (s : State) : (s.bump).latch = s.latch := rfl

/-! ### The updated block -/

@[simp] theorem State.setCl_clusters (s : State) (g : Nat) (k : Cluster) :
    (s.setCl g k).clusters = smPut {} s.clusters g k := rfl
@[simp] theorem State.setFn_fns (s : State) (f : Nat) (b : FnBlk) :
    (s.setFn f b).fns = smPut {} s.fns f b := rfl
@[simp] theorem State.setTen_tens (s : State) (t : Nat) (x : Tenant) :
    (s.setTen t x).tens = smPut {} s.tens t x := rfl
@[simp] theorem State.bump_freeIx (s : State) :
    (s.bump).freeIx = s.freeIx + 1 := rfl
@[simp] theorem State.setCtx_serv_ctxs (s : State) (x : Nat) (c : Ctx) :
    (s.setCtx x c).serv.ctxs = smPut {} s.serv.ctxs x c := rfl
@[simp] theorem State.setAcct_serv_accts (s : State) (a : Nat) (x : Account) :
    (s.setAcct a x).serv.accts = smPut {} s.serv.accts a x := rfl
@[simp] theorem State.setRegion_pwr_regions (s : State) (r : Nat) (x : Region) :
    (s.setRegion r x).pwr.regions = smPut {} s.pwr.regions r x := rfl
@[simp] theorem State.setPort_fab_ports (s : State) (p : Nat) (x : Port) :
    (s.setPort p x).fab.ports = smPut {} s.fab.ports p x := rfl
@[simp] theorem State.send_fab_outbox (s : State) (m : Msg) :
    (s.send m).fab.outbox = s.fab.outbox ++ [m] := rfl
@[simp] theorem State.setGroom_grm_grooms (s : State) (c : Nat) (x : Groom) :
    (s.setGroom c x).grm.grooms = smPut {} s.grm.grooms c x := rfl
@[simp] theorem State.setCmd_cmds_list (s : State) (c : Cmd) :
    (s.setCmd c).cmds.list = s.cmds.list.map fun d => if d.id == c.id then c else d := rfl
@[simp] theorem State.dropCmd_cmds_list (s : State) (id : Nat) :
    (s.dropCmd id).cmds.list = s.cmds.list.filter fun d => d.id != id := rfl
@[simp] theorem State.stamp_cmds_nextSeq (s : State) :
    (s.stamp).cmds.nextSeq = s.cmds.nextSeq + 1 := rfl
@[simp] theorem State.setCtx_serv_accts (s : State) (x : Nat) (c : Ctx) : (s.setCtx x c).serv.accts = s.serv.accts := rfl
@[simp] theorem State.setAcct_serv_ctxs (s : State) (a : Nat) (x : Account) : (s.setAcct a x).serv.ctxs = s.serv.ctxs := rfl
@[simp] theorem State.setAcct_serv_pfxs (s : State) (a : Nat) (x : Account) : (s.setAcct a x).serv.pfxs = s.serv.pfxs := rfl
@[simp] theorem State.setAcct_serv_merges (s : State) (a : Nat) (x : Account) : (s.setAcct a x).serv.merges = s.serv.merges := rfl
@[simp] theorem State.setAcct_serv_jobs (s : State) (a : Nat) (x : Account) : (s.setAcct a x).serv.jobs = s.serv.jobs := rfl
@[simp] theorem State.setCtx_serv_pfxs (s : State) (x : Nat) (c : Ctx) : (s.setCtx x c).serv.pfxs = s.serv.pfxs := rfl
@[simp] theorem State.setCtx_serv_merges (s : State) (x : Nat) (c : Ctx) : (s.setCtx x c).serv.merges = s.serv.merges := rfl
@[simp] theorem State.setCtx_serv_jobs (s : State) (x : Nat) (c : Ctx) : (s.setCtx x c).serv.jobs = s.serv.jobs := rfl
@[simp] theorem State.setRegion_pwr_cap (s : State) (r : Nat) (x : Region) : (s.setRegion r x).pwr.cap = s.pwr.cap := rfl
@[simp] theorem State.setRegion_pwr_next (s : State) (r : Nat) (x : Region) : (s.setRegion r x).pwr.next = s.pwr.next := rfl
@[simp] theorem State.setRegion_pwr_nextAt (s : State) (r : Nat) (x : Region) : (s.setRegion r x).pwr.nextAt = s.pwr.nextAt := rfl
@[simp] theorem State.setRegion_pwr_cooled (s : State) (r : Nat) (x : Region) : (s.setRegion r x).pwr.cooled = s.pwr.cooled := rfl
@[simp] theorem State.setPort_fab_routes (s : State) (p : Nat) (x : Port) : (s.setPort p x).fab.routes = s.fab.routes := rfl
@[simp] theorem State.setPort_fab_nextRoutes (s : State) (p : Nat) (x : Port) : (s.setPort p x).fab.nextRoutes = s.fab.nextRoutes := rfl
@[simp] theorem State.setPort_fab_outbox (s : State) (p : Nat) (x : Port) : (s.setPort p x).fab.outbox = s.fab.outbox := rfl
@[simp] theorem State.setPort_fab_seqIn (s : State) (p : Nat) (x : Port) : (s.setPort p x).fab.seqIn = s.fab.seqIn := rfl
@[simp] theorem State.setPort_fab_waiting (s : State) (p : Nat) (x : Port) : (s.setPort p x).fab.waiting = s.fab.waiting := rfl
@[simp] theorem State.setPort_fab_early (s : State) (p : Nat) (x : Port) : (s.setPort p x).fab.early = s.fab.early := rfl
@[simp] theorem State.setPort_fab_unacked (s : State) (p : Nat) (x : Port) : (s.setPort p x).fab.unacked = s.fab.unacked := rfl
@[simp] theorem State.send_fab_ports (s : State) (m : Msg) : (s.send m).fab.ports = s.fab.ports := rfl
@[simp] theorem State.send_fab_routes (s : State) (m : Msg) : (s.send m).fab.routes = s.fab.routes := rfl
@[simp] theorem State.send_fab_nextRoutes (s : State) (m : Msg) : (s.send m).fab.nextRoutes = s.fab.nextRoutes := rfl
@[simp] theorem State.send_fab_seqIn (s : State) (m : Msg) : (s.send m).fab.seqIn = s.fab.seqIn := rfl
@[simp] theorem State.send_fab_waiting (s : State) (m : Msg) : (s.send m).fab.waiting = s.fab.waiting := rfl
@[simp] theorem State.send_fab_early (s : State) (m : Msg) : (s.send m).fab.early = s.fab.early := rfl
@[simp] theorem State.send_fab_unacked (s : State) (m : Msg) : (s.send m).fab.unacked = s.fab.unacked := rfl
@[simp] theorem State.setGroom_grm_base (s : State) (c : Nat) (x : Groom) : (s.setGroom c x).grm.base = s.grm.base := rfl
@[simp] theorem State.setGroom_grm_overlays (s : State) (c : Nat) (x : Groom) : (s.setGroom c x).grm.overlays = s.grm.overlays := rfl
@[simp] theorem State.setGroom_grm_ovlCurrent (s : State) (c : Nat) (x : Groom) : (s.setGroom c x).grm.ovlCurrent = s.grm.ovlCurrent := rfl
@[simp] theorem State.setGroom_grm_updState (s : State) (c : Nat) (x : Groom) : (s.setGroom c x).grm.updState = s.grm.updState := rfl
@[simp] theorem State.setGroom_grm_staging (s : State) (c : Nat) (x : Groom) : (s.setGroom c x).grm.staging = s.grm.staging := rfl
@[simp] theorem State.setGroom_grm_cfgBusy (s : State) (c : Nat) (x : Groom) : (s.setGroom c x).grm.cfgBusy = s.grm.cfgBusy := rfl
@[simp] theorem State.setCmd_cmds_nextId (s : State) (c : Cmd) : (s.setCmd c).cmds.nextId = s.cmds.nextId := rfl
@[simp] theorem State.setCmd_cmds_nextSeq (s : State) (c : Cmd) : (s.setCmd c).cmds.nextSeq = s.cmds.nextSeq := rfl
@[simp] theorem State.setCmd_cmds_nextOp (s : State) (c : Cmd) : (s.setCmd c).cmds.nextOp = s.cmds.nextOp := rfl
@[simp] theorem State.setCmd_cmds_sigs (s : State) (c : Cmd) : (s.setCmd c).cmds.sigs = s.cmds.sigs := rfl
@[simp] theorem State.setCmd_cmds_arrivals (s : State) (c : Cmd) : (s.setCmd c).cmds.arrivals = s.cmds.arrivals := rfl
@[simp] theorem State.dropCmd_cmds_nextId (s : State) (id : Nat) : (s.dropCmd id).cmds.nextId = s.cmds.nextId := rfl
@[simp] theorem State.dropCmd_cmds_nextSeq (s : State) (id : Nat) : (s.dropCmd id).cmds.nextSeq = s.cmds.nextSeq := rfl
@[simp] theorem State.dropCmd_cmds_nextOp (s : State) (id : Nat) : (s.dropCmd id).cmds.nextOp = s.cmds.nextOp := rfl
@[simp] theorem State.dropCmd_cmds_sigs (s : State) (id : Nat) : (s.dropCmd id).cmds.sigs = s.cmds.sigs := rfl
@[simp] theorem State.dropCmd_cmds_arrivals (s : State) (id : Nat) : (s.dropCmd id).cmds.arrivals = s.cmds.arrivals := rfl
@[simp] theorem State.stamp_cmds_list (s : State) : (s.stamp).cmds.list = s.cmds.list := rfl
@[simp] theorem State.stamp_cmds_nextId (s : State) : (s.stamp).cmds.nextId = s.cmds.nextId := rfl
@[simp] theorem State.stamp_cmds_nextOp (s : State) : (s.stamp).cmds.nextOp = s.cmds.nextOp := rfl
@[simp] theorem State.stamp_cmds_sigs (s : State) : (s.stamp).cmds.sigs = s.cmds.sigs := rfl
@[simp] theorem State.stamp_cmds_arrivals (s : State) : (s.stamp).cmds.arrivals = s.cmds.arrivals := rfl

/-! ### Reading back -/

theorem State.cl_setCl_same (s : State) (k : Nat) (x : Cluster) (h : smWf ({} : Cluster) s.clusters = true) :
    (s.setCl k x).cl k = x := smGet_smPut_same _ _ _ _ h
theorem State.cl_setCl_other (s : State) (j k : Nat) (x : Cluster) (hjk : j ≠ k) (h : smWf ({} : Cluster) s.clusters = true) :
    (s.setCl k x).cl j = s.cl j := smGet_smPut_other _ _ _ _ _ hjk h
theorem State.fn_setFn_same (s : State) (k : Nat) (x : FnBlk) (h : smWf ({} : FnBlk) s.fns = true) :
    (s.setFn k x).fn k = x := smGet_smPut_same _ _ _ _ h
theorem State.fn_setFn_other (s : State) (j k : Nat) (x : FnBlk) (hjk : j ≠ k) (h : smWf ({} : FnBlk) s.fns = true) :
    (s.setFn k x).fn j = s.fn j := smGet_smPut_other _ _ _ _ _ hjk h
theorem State.ten_setTen_same (s : State) (k : Nat) (x : Tenant) (h : smWf ({} : Tenant) s.tens = true) :
    (s.setTen k x).ten k = x := smGet_smPut_same _ _ _ _ h
theorem State.ten_setTen_other (s : State) (j k : Nat) (x : Tenant) (hjk : j ≠ k) (h : smWf ({} : Tenant) s.tens = true) :
    (s.setTen k x).ten j = s.ten j := smGet_smPut_other _ _ _ _ _ hjk h
theorem State.ctx_setCtx_same (s : State) (k : Nat) (x : Ctx) (h : smWf ({} : Ctx) s.serv.ctxs = true) :
    (s.setCtx k x).ctx k = x := smGet_smPut_same _ _ _ _ h
theorem State.ctx_setCtx_other (s : State) (j k : Nat) (x : Ctx) (hjk : j ≠ k) (h : smWf ({} : Ctx) s.serv.ctxs = true) :
    (s.setCtx k x).ctx j = s.ctx j := smGet_smPut_other _ _ _ _ _ hjk h
theorem State.acct_setAcct_same (s : State) (k : Nat) (x : Account) (h : smWf ({} : Account) s.serv.accts = true) :
    (s.setAcct k x).acct k = x := smGet_smPut_same _ _ _ _ h
theorem State.acct_setAcct_other (s : State) (j k : Nat) (x : Account) (hjk : j ≠ k) (h : smWf ({} : Account) s.serv.accts = true) :
    (s.setAcct k x).acct j = s.acct j := smGet_smPut_other _ _ _ _ _ hjk h
theorem State.region_setRegion_same (s : State) (k : Nat) (x : Region) (h : smWf ({} : Region) s.pwr.regions = true) :
    (s.setRegion k x).region k = x := smGet_smPut_same _ _ _ _ h
theorem State.region_setRegion_other (s : State) (j k : Nat) (x : Region) (hjk : j ≠ k) (h : smWf ({} : Region) s.pwr.regions = true) :
    (s.setRegion k x).region j = s.region j := smGet_smPut_other _ _ _ _ _ hjk h
theorem State.port_setPort_same (s : State) (k : Nat) (x : Port) (h : smWf ({} : Port) s.fab.ports = true) :
    (s.setPort k x).port k = x := smGet_smPut_same _ _ _ _ h
theorem State.port_setPort_other (s : State) (j k : Nat) (x : Port) (hjk : j ≠ k) (h : smWf ({} : Port) s.fab.ports = true) :
    (s.setPort k x).port j = s.port j := smGet_smPut_other _ _ _ _ _ hjk h
theorem State.groom_setGroom_same (s : State) (k : Nat) (x : Groom) (h : smWf ({} : Groom) s.grm.grooms = true) :
    (s.setGroom k x).groom k = x := smGet_smPut_same _ _ _ _ h
theorem State.groom_setGroom_other (s : State) (j k : Nat) (x : Groom) (hjk : j ≠ k) (h : smWf ({} : Groom) s.grm.grooms = true) :
    (s.setGroom k x).groom j = s.groom j := smGet_smPut_other _ _ _ _ _ hjk h

end Sys2Proof.Machine
end

