-- ==== Sys2Proof/Laws/Kept.lean ====
section
/-! SUPPORT. Every shared operation leaves the queue of commands alone and keeps the memories and the main tables in their canonical
form: one lemma each, composed by transitivity. -/

namespace Sys2Proof.Machine

/-- The queue is as it was, and the canonical form of memories and tables is kept. -/
def State.Kept (s t : State) : Prop :=
  t.pending = s.pending ∧ (s.memWf → t.memWf) ∧ (s.tablesWf → t.tablesWf)

theorem State.Kept.refl (s : State) : s.Kept s := ⟨rfl, id, id⟩

theorem State.Kept.trans {s t u : State} (h : s.Kept t) (k : t.Kept u) : s.Kept u :=
  ⟨k.1.trans h.1, k.2.1 ∘ h.2.1, k.2.2 ∘ h.2.2⟩

/-- A state that differs in no memory and no main table. -/
theorem State.Kept.of_same {s t : State} (h : (t.pending, t.mem, t.hostMem) = (s.pending, s.mem, s.hostMem))
    (k : (t.clusters, t.fns, t.tens, t.serv.ctxs, t.serv.accts) =
      (s.clusters, s.fns, s.tens, s.serv.ctxs, s.serv.accts)) : s.Kept t := by
  simp only [Prod.mk.injEq] at h k
  obtain ⟨h1, h2, h3⟩ := h
  obtain ⟨k1, k2, k3, k4, k5⟩ := k
  refine ⟨h1, ?_, ?_⟩
  · unfold State.memWf; rw [h2, h3]; exact id
  · unfold State.tablesWf; rw [k1, k2, k3, k4, k5]; exact id

/-- A fold of operations that each keep. -/
theorem State.Kept.foldl {α : Type} (f : State → α → State) (hf : ∀ (s : State) a, s.Kept (f s a)) :
    ∀ (l : List α) (s : State), s.Kept (l.foldl f s)
  | [], s => State.Kept.refl s
  | a :: l, s => (hf s a).trans (State.Kept.foldl f hf l (f s a))

/-! ### Updates -/

theorem State.setCl_kept (s : State) (g : Nat) (k : Cluster) : s.Kept (s.setCl g k) :=
  ⟨rfl, id, fun h => ⟨smWf_smPut _ _ _ _ h.1, h.2⟩⟩
theorem State.modCl_kept (s : State) (g : Nat) (u : Cluster → Cluster) : s.Kept (s.modCl g u) := s.setCl_kept g _
theorem State.setFn_kept (s : State) (f : Nat) (b : FnBlk) : s.Kept (s.setFn f b) :=
  ⟨rfl, id, fun h => ⟨h.1, smWf_smPut _ _ _ _ h.2.1, h.2.2⟩⟩
theorem State.modFn_kept (s : State) (f : Nat) (u : FnBlk → FnBlk) : s.Kept (s.modFn f u) := s.setFn_kept f _
theorem State.setQueue_kept (s : State) (f q : Nat) (x : Queue) : s.Kept (s.setQueue f q x) := s.modFn_kept f _
theorem State.modQueue_kept (s : State) (f q : Nat) (u : Queue → Queue) : s.Kept (s.modQueue f q u) := s.setQueue_kept f q _
theorem State.setTen_kept (s : State) (t : Nat) (x : Tenant) : s.Kept (s.setTen t x) :=
  ⟨rfl, id, fun h => ⟨h.1, h.2.1, smWf_smPut _ _ _ _ h.2.2.1, h.2.2.2⟩⟩
theorem State.modTen_kept (s : State) (t : Nat) (u : Tenant → Tenant) : s.Kept (s.modTen t u) := s.setTen_kept t _
theorem State.setLayout_kept (s : State) (t l : Nat) (x : Option LayoutRec) : s.Kept (s.setLayout t l x) := s.modTen_kept t _
theorem State.setGate_kept (s : State) (t g : Nat) (x : Option GateRec) : s.Kept (s.setGate t g x) := s.modTen_kept t _
theorem State.setCtx_kept (s : State) (x : Nat) (c : Ctx) : s.Kept (s.setCtx x c) :=
  ⟨rfl, id, fun h => ⟨h.1, h.2.1, h.2.2.1, smWf_smPut _ _ _ _ h.2.2.2.1, h.2.2.2.2⟩⟩
theorem State.modCtx_kept (s : State) (x : Nat) (u : Ctx → Ctx) : s.Kept (s.modCtx x u) := s.setCtx_kept x _
theorem State.setAcct_kept (s : State) (a : Nat) (x : Account) : s.Kept (s.setAcct a x) :=
  ⟨rfl, id, fun h => ⟨h.1, h.2.1, h.2.2.1, h.2.2.2.1, smWf_smPut _ _ _ _ h.2.2.2.2⟩⟩
theorem State.setRegion_kept (s : State) (r : Nat) (x : Region) : s.Kept (s.setRegion r x) := .of_same rfl rfl
theorem State.setPort_kept (s : State) (p : Nat) (x : Port) : s.Kept (s.setPort p x) := .of_same rfl rfl
theorem State.setGroom_kept (s : State) (c : Nat) (x : Groom) : s.Kept (s.setGroom c x) := .of_same rfl rfl
theorem State.setCmd_kept (s : State) (c : Cmd) : s.Kept (s.setCmd c) := .of_same rfl rfl
theorem State.dropCmd_kept (s : State) (id : Nat) : s.Kept (s.dropCmd id) := .of_same rfl rfl
theorem State.send_kept (s : State) (m : Msg) : s.Kept (s.send m) := .of_same rfl rfl
theorem State.stamp_kept (s : State) : s.Kept s.stamp := .of_same rfl rfl
theorem State.bump_kept (s : State) : s.Kept s.bump := .of_same rfl rfl
theorem State.logEvent_kept (s : State) (code arg : Nat) : s.Kept (s.logEvent code arg) := .of_same rfl rfl

/-! ### Memory -/

theorem State.memWf_keeps {s t : State} (hp : t.pending = s.pending) (hm : Memory.wf s.mem → Memory.wf t.mem)
    (hh : Memory.wf s.hostMem → Memory.wf t.hostMem)
    (k : (t.clusters, t.fns, t.tens, t.serv.ctxs, t.serv.accts) =
      (s.clusters, s.fns, s.tens, s.serv.ctxs, s.serv.accts)) : s.Kept t := by
  simp only [Prod.mk.injEq] at k
  obtain ⟨k1, k2, k3, k4, k5⟩ := k
  refine ⟨hp, fun h => ⟨hm h.1, hh h.2⟩, ?_⟩
  unfold State.tablesWf; rw [k1, k2, k3, k4, k5]; exact id

theorem State.put_kept (s : State) (pa : Nat) (m b : Byte) : s.Kept (s.put pa m b) :=
  State.memWf_keeps rfl (memWf_memPut _ _ _) id rfl
theorem State.zero_kept (s : State) (pa n : Nat) : s.Kept (s.zero pa n) := State.memWf_keeps rfl (memWf_memZero _ _ _) id rfl
theorem State.sendTo_kept (s : State) (pkg src : Nat) (m : Nat → Msg) : s.Kept (s.sendTo pkg src m) := .of_same rfl rfl

/-! ### Completions -/

theorem State.fnCount_kept (s : State) (f k n : Nat) : s.Kept (s.fnCount f k n) := s.modFn_kept f _

theorem State.msix_kept (s : State) (f v : Nat) : s.Kept (s.msix f v) := by
  unfold State.msix
  dsimp only
  split
  · exact s.setFn_kept f _
  · exact State.memWf_keeps rfl id (memWf_memPuts _ _ _) rfl

theorem State.writeCq_kept (s : State) (f qn : Nat) (c : Compl) : s.Kept (s.writeCq f qn c) := by
  unfold State.writeCq
  dsimp only
  refine State.Kept.trans ?_ (State.msix_kept _ _ _)
  refine State.Kept.trans ?_ (State.setQueue_kept _ _ _ _)
  exact State.memWf_keeps rfl id (memWf_memPuts _ _ _) rfl

theorem State.deliver_kept (s : State) (f qn : Nat) (c : Compl) : s.Kept (s.deliver f qn c) := by
  unfold State.deliver
  dsimp only
  split
  · split
    · exact s.fnCount_kept _ _ _
    · exact (s.setQueue_kept _ _ _).trans (State.fnCount_kept _ _ _ _)
  · exact s.writeCq_kept _ _ _

theorem State.complete_kept (s : State) (f qn : Nat) (c : Compl) : s.Kept (s.complete f qn c) := by
  unfold State.complete
  dsimp only
  split
  · exact s.setQueue_kept _ _ _
  · exact s.deliver_kept _ _ _

theorem State.drainHeld_kept (f qn : Nat) : ∀ (n : Nat) (s : State), s.Kept (s.drainHeld f qn n)
  | 0, s => State.Kept.refl s
  | n + 1, s => by
    unfold State.drainHeld
    dsimp only
    split
    · exact s.setQueue_kept _ _ _
    · split
      · exact State.Kept.refl s
      · exact ((s.setQueue_kept _ _ _).trans (State.writeCq_kept _ _ _ _)).trans (State.drainHeld_kept f qn n _)

theorem State.answer_kept (s : State) (f : Nat) (cid : BitVec 16) (status : Byte) (result : W64) :
    s.Kept (s.answer f cid status result) := (s.modFn_kept f _).trans (State.complete_kept _ _ _ _)

theorem State.notice_kept (s : State) (t code : Nat) (arg : W64) : s.Kept (s.notice t code arg) := by
  unfold State.notice
  split
  · exact State.Kept.refl s
  · split
    · exact s.complete_kept _ _ _
    · exact s.fnCount_kept _ _ _

/-! ### Uncorrectable words -/

theorem State.noticeFrame_kept (s : State) (code pa : Nat) : s.Kept (s.noticeFrame code pa) := by
  unfold State.noticeFrame
  refine State.Kept.foldl _ (fun s t => ?_) _ s
  split
  · exact s.notice_kept _ _ _
  · exact State.Kept.refl s

theorem State.eccError_kept (s : State) (pa source : Nat) : s.Kept (s.eccError pa source) := by
  unfold State.eccError
  dsimp only
  split
  · refine State.Kept.trans ?_ (State.noticeFrame_kept _ _ _)
    exact .of_same rfl rfl
  · exact .of_same rfl rfl

/-! ### The channels (spec/10 R235-R238) -/

theorem State.setChan_kept (s : State) (ch : Nat) (c : Chan) : s.Kept (s.setChan ch c) := .of_same rfl rfl
theorem State.judge_kept (s : State) (ch : Nat) (r : ChReq) : s.Kept (s.judge ch r) := by
  unfold State.judge
  dsimp only
  repeat' split
  all_goals exact State.Kept.refl s
theorem State.serveChan_kept (s : State) (ch n : Nat) : s.Kept (s.serveChan ch n) :=
  (State.Kept.foldl _ (fun t r => t.judge_kept ch r) _ s).trans (State.setChan_kept _ _ _)

theorem State.taken_kept (s : State) (source : Nat) (ws : List (Nat × Byte × Byte)) : s.Kept (s.taken source ws).1 := by
  unfold State.taken
  dsimp only
  split
  · exact State.Kept.refl s
  · exact State.Kept.trans (.of_same rfl rfl) (State.Kept.foldl _ (fun s _ => s.eccError_kept _ _) _ _)

theorem State.corrects_kept (s : State) (r : ChReq) : s.Kept (s.corrects r) := by
  unfold State.corrects
  dsimp only
  repeat' split
  all_goals exact State.Kept.refl s

/-- Bytes put one after another. -/
theorem State.puts_kept {α : Type} (a : α → Nat) (m v : α → Byte) (l : List α) (s : State) :
    s.Kept (l.foldl (fun s x => s.put (a x) (m x) (v x)) s) := State.Kept.foldl _ (fun s _ => s.put_kept _ _ _) l s

theorem State.apply_kept (s : State) (source : Nat) (ws : List (Nat × Byte × Byte)) : s.Kept (s.apply source ws) :=
  (s.taken_kept source ws).trans (State.puts_kept (fun x : Nat × Byte × Byte => x.1) (fun x => x.2.1) (fun x => x.2.2) _ _)

theorem State.enter_kept (s : State) (ch : Nat) : s.Kept (s.enter ch) := by
  unfold State.enter
  split
  · exact State.Kept.refl s
  · split
    · exact State.Kept.refl s
    · dsimp only
      refine State.Kept.trans ?_ (.of_same rfl rfl)
      refine State.Kept.trans ?_ (State.corrects_kept _ _)
      refine State.Kept.trans ?_ (State.apply_kept _ _ _)
      split
      · exact State.Kept.refl s
      · exact s.serveChan_kept _ _

theorem State.enterN_kept (ch : Nat) : ∀ (n : Nat) (s : State), s.Kept (s.enterN ch n)
  | 0, s => State.Kept.refl s
  | n + 1, s => (s.enter_kept ch).trans (State.enterN_kept ch n _)

theorem State.enterAll_kept (p : ChReq → Bool) : ∀ (n : Nat) (s : State), s.Kept (s.enterAll p n)
  | 0, s => State.Kept.refl s
  | n + 1, s => by
    unfold State.enterAll
    split
    · exact State.Kept.refl s
    · split
      · exact (s.enter_kept _).trans (State.enterAll_kept p n _)
      · exact State.Kept.trans (.of_same rfl rfl) (State.enterAll_kept p n _)

/-- A fold over a state beside other data keeps. -/
theorem State.Kept.foldl_fst {α β : Type} (f : State × β → α → State × β) (hf : ∀ (x : State × β) a, x.1.Kept (f x a).1) :
    ∀ (l : List α) (x : State × β), x.1.Kept (l.foldl f x).1
  | [], x => State.Kept.refl x.1
  | a :: l, x => (hf x a).trans (State.Kept.foldl_fst f hf l (f x a))

theorem State.arriveCb_kept (s : State) : s.Kept s.arriveCb := by
  unfold State.arriveCb
  dsimp only
  refine State.Kept.trans ?_ (.of_same rfl rfl)
  refine State.Kept.foldl_fst _ (fun x a => ?_) _ (s, _)
  split
  · exact x.1.put_kept _ _ _
  · exact State.Kept.refl x.1

theorem State.arrive_kept (s : State) : s.Kept s.arrive := by
  unfold State.arrive
  split
  · exact State.Kept.refl s
  · dsimp only
    refine State.Kept.trans ?_ (State.bump_kept _)
    refine State.Kept.trans ?_ (State.arriveCb_kept _)
    exact State.Kept.foldl _ (fun t ch => State.enterN_kept ch _ t) _ s

/-! ### Writes -/

theorem State.accept_kept (s : State) (g wr op cmd : Nat) (ws : List (Nat × Byte × Byte)) :
    s.Kept (s.accept g wr op cmd ws) := .of_same rfl rfl

theorem State.request'_kept (s : State) (op cmd src : Nat) (x r : Bool) (ps : List Nat) :
    s.Kept (s.request' op cmd src x r ps) := .of_same rfl rfl

theorem State.fetches_kept (s : State) (op cmd src : Nat) (x : Bool) (ps : List Nat) : s.Kept (s.fetches op cmd src x ps) :=
  (s.request'_kept op cmd src x true ps).trans (State.enterAll_kept _ _ _)

theorem State.wrNow_kept (s : State) (ws : List (Nat × Byte × Byte)) (src : Nat) : s.Kept (s.wrNow ws src) :=
  (((State.puts_kept (fun x : Nat × Byte × Byte => x.1) (fun x => x.2.1) (fun x => x.2.2) _ s).trans
    (State.accept_kept _ _ _ _ _ _)).trans (State.request'_kept _ _ _ _ _ _ _)).trans (State.enterAll_kept _ _ _)

theorem State.wrVa_kept (s : State) (t va : Nat) (bs : List Byte) (src : Nat) : s.Kept (s.wrVa t va bs src) := s.wrNow_kept _ _
theorem State.wrVaW_kept (s : State) (t va : Nat) (bs : List Byte) : s.Kept (s.wrVaW t va bs) := s.wrNow_kept _ _

theorem State.land_kept (s : State) (p : PWrite → Bool) : s.Kept (s.land p) := by
  unfold State.land
  split
  · exact State.Kept.refl s
  · dsimp only
    refine State.Kept.trans ?_ (.of_same rfl rfl)
    refine State.Kept.trans ?_ (State.puts_kept _ _ _ _ _)
    exact (s.arrive_kept).trans (State.enterAll_kept _ _ _)

theorem State.landKilled_kept (s : State) (cmd : Nat) : s.Kept (s.landKilled cmd) := by
  unfold State.landKilled
  split
  · exact State.Kept.refl s
  · dsimp only
    refine State.Kept.trans ?_ (State.bump_kept _)
    refine State.Kept.trans ?_ (.of_same rfl rfl)
    exact State.puts_kept (fun x : PWrite × Nat => x.1.addr) (fun x => x.1.mask) (fun x => x.1.val) _ _

/-! ### Commands and contexts -/

theorem State.ctxIdle_kept (s : State) (x : Nat) : s.Kept (s.ctxIdle x) := by
  unfold State.ctxIdle
  dsimp only
  split
  · split
    · exact (s.setCtx_kept _ _).trans (State.answer_kept _ _ _ _ _)
    · exact s.setCtx_kept _ _
  · exact State.Kept.refl s

theorem State.answerHeld_kept (s : State) (c : Cmd) (status : Byte) : s.Kept (s.answerHeld c status) :=
  (State.Kept.foldl _ (fun _ _ => State.complete_kept _ _ _ _) _ s).trans (State.Kept.foldl _ (fun _ _ => State.answer_kept _ _ _ _ _) _ _)

theorem State.completeCmd_kept (s : State) (c : Cmd) (status : Byte) (loc : W32) : s.Kept (s.completeCmd c status loc) :=
  ((s.dropCmd_kept _).trans (State.complete_kept _ _ _ _)).trans (State.answerHeld_kept _ _ _)

theorem State.writeReport_kept (s : State) (c : Cmd) (es : List (Nat × Byte × Nat × Nat)) : s.Kept (s.writeReport c es) := by
  unfold State.writeReport
  split
  · exact State.Kept.refl s
  · exact s.wrVaW_kept _ _ _

theorem State.abortQueued_kept (s : State) (p : Cmd → Bool) : s.Kept (s.abortQueued p) :=
  State.Kept.foldl _ (fun s _ => (s.writeReport_kept _ _).trans (State.completeCmd_kept _ _ _ _)) _ s

theorem State.endCtx_kept (s : State) (x : Nat) : s.Kept (s.endCtx x) := by
  unfold State.endCtx
  dsimp only
  split
  · exact State.Kept.refl s
  · exact (s.setCtx_kept _ _).trans (State.abortQueued_kept _ _)

theorem State.returnRuns_kept (s : State) (c : Cmd) (i : Inst) : s.Kept (s.returnRuns c i) := by
  unfold State.returnRuns
  refine State.Kept.foldl _ (fun s f => ?_) _ s
  dsimp only
  split
  · exact s.setLayout_kept _ _ _
  · exact State.Kept.refl s

theorem State.killRun_kept (s : State) (c : Cmd) : s.Kept (s.killRun c) := by
  unfold State.killRun
  split
  · exact State.Kept.refl s
  · refine State.Kept.trans ?_ (State.Kept.foldl _ (fun s x => s.ctxIdle_kept x) _ _)
    refine State.Kept.trans ?_ (.of_same rfl rfl)
    refine State.Kept.trans ?_ (State.landKilled_kept _ _)
    refine State.Kept.trans ?_ (State.Kept.foldl _ (fun s g => s.modCl_kept g _) _ _)
    refine State.Kept.trans ?_ (State.Kept.foldl _ (fun s (x : Nat × Inst) => s.returnRuns_kept c x.2) _ _)
    refine State.Kept.foldl _ (fun s g => ?_) _ s
    split
    · exact s.returnRuns_kept _ _
    · exact State.Kept.refl s

theorem State.tellGang_kept (s : State) (c : Cmd) (k : GangCause) : s.Kept (s.tellGang c k) := by
  unfold State.tellGang
  split
  · exact State.Kept.refl s
  · exact s.send_kept _

theorem State.killAgain_kept (s : State) (c : Cmd) (cause : Nat) (tell : Bool) : s.Kept (s.killAgain c cause tell) := by
  unfold State.killAgain
  dsimp only
  split
  all_goals first
    | refine State.Kept.trans ?_ (State.tellGang_kept _ _ _)
      exact (s.killRun_kept c).trans (.of_same rfl rfl)
    | exact (s.killRun_kept c).trans (.of_same rfl rfl)

theorem State.killRerun_kept (s : State) (c : Cmd) (cause : Nat) (tell : Bool) : s.Kept (s.killRerun c cause tell) := by
  unfold State.killRerun
  split
  · exact s.killAgain_kept _ _ _
  · exact State.Kept.refl s

theorem State.killEnd_kept (s : State) (c : Cmd) (status : Byte) (tell : Bool) : s.Kept (s.killEnd c status tell) := by
  have h : s.Kept ((((s.killRun c).writeReport c ((s.killRun c).plainReport c (slotStatus status)))).completeCmd c status 0) :=
    ((s.killRun_kept c).trans (State.writeReport_kept _ _ _)).trans (State.completeCmd_kept _ _ _ _)
  unfold State.killEnd
  dsimp only
  split
  · exact h.trans (State.tellGang_kept _ _ _)
  · exact h

theorem State.endCtxs_kept (s : State) (p : Nat × Nat → Prop) [DecidablePred p] (l : List (Nat × Nat)) :
    s.Kept (l.foldl (fun s x => if p x then s.endCtx x.1 else s) s) := by
  refine State.Kept.foldl _ (fun s x => ?_) l s
  split
  · exact s.endCtx_kept _
  · exact State.Kept.refl s

theorem State.faultCmd_kept (s : State) (c : Cmd) (code : Byte) (slot : Option Nat) (loc : W32) (tell : Bool) :
    s.Kept (s.faultCmd c code slot loc tell) := by
  unfold State.faultCmd
  dsimp only
  split
  · refine State.Kept.trans ?_ (State.tellGang_kept _ _ _)
    refine State.Kept.trans ?_ (State.endCtxs_kept _ _ _)
    refine State.Kept.trans ?_ (State.completeCmd_kept _ _ _ _)
    exact (s.killRun_kept c).trans (State.writeReport_kept _ _ _)
  · refine State.Kept.trans ?_ (State.endCtxs_kept _ _ _)
    refine State.Kept.trans ?_ (State.completeCmd_kept _ _ _ _)
    exact (s.killRun_kept c).trans (State.writeReport_kept _ _ _)

theorem State.eccMet_kept (s : State) (ps : List Nat) (source : Nat) : s.Kept (s.eccMet ps source) := by
  unfold State.eccMet
  split
  · exact State.Kept.refl s
  · exact s.eccError_kept _ _

theorem State.latchFault_kept (s : State) (id : Nat) (r : FaultRec) : s.Kept (s.latchFault id r) := by
  unfold State.latchFault
  split
  · exact s.setCmd_kept _
  · exact State.Kept.refl s

theorem State.raise_kept (s : State) (c : Cmd) (g kind unit : Nat) (code : Byte) (slot owner : Option Nat) (read : List Nat) :
    s.Kept (s.raise c g kind unit code slot owner read) := by
  unfold State.raise
  dsimp only
  refine State.Kept.trans ?_ (State.latchFault_kept _ _ _)
  split
  · exact s.eccMet_kept _ _
  · exact State.Kept.refl s

theorem State.endFaulted_kept (s : State) : s.Kept s.endFaulted := by
  unfold State.endFaulted
  refine State.Kept.foldl _ (fun s c => ?_) _ s
  repeat' split
  all_goals first
    | exact State.Kept.refl s
    | exact s.faultCmd_kept _ _ _ _ _

theorem State.refuseCmd_kept (s : State) (c : Cmd) (status : Byte) : s.Kept (s.refuseCmd c status) :=
  (s.writeReport_kept _ _).trans (State.completeCmd_kept _ _ _ _)

/-! ### Issue -/

theorem State.goes_kept (s : State) (g : Nat) (i : Inst) : s.Kept (s.goes g i) := s.modCl_kept g _

/-- The outcome of an instruction whose own effect keeps. -/
theorem State.finish_kept (s : State) (c : Cmd) (g : Nat) (r : Res) (h : s.Kept r.st) : s.Kept (s.finish c g r) := by
  unfold State.finish
  split
  · exact h.trans ((State.raise_kept _ _ _ _ _ _ _ _ _).trans (State.bump_kept _))
  · exact h.trans (State.modCl_kept _ _ _)

theorem State.meets_kept (s : State) (u : Option UnitId) : s.Kept (s.meets u) := by
  unfold State.meets
  split
  · exact s.arrive_kept
  · exact State.Kept.refl s

/-- An instruction answers a next state that keeps, or changes nothing where the word is not its own. -/
theorem State.issue_kept (s : State) (op n g : Nat) (w w2 : W64) (unit : Option UnitId) (k : State → Cmd → Inst → Res)
    (hk : ∀ (u : State) c i, u.Kept (k u c i).st) : ∃ t, s.issue op n g w w2 unit k = .next t ∧ s.Kept t := by
  have hk' : ∀ c i, s.Kept (k (s.meets unit) c i).st := fun c i => (s.meets_kept unit).trans (hk _ c i)
  unfold State.issue
  dsimp only
  repeat' split
  all_goals first
    | exact ⟨_, rfl, State.Kept.refl s⟩
    | exact ⟨_, rfl, s.finish_kept _ _ _ (State.Kept.refl s)⟩
    | exact ⟨_, rfl, s.finish_kept _ _ _ (hk' _ _)⟩

/-- A control instruction answers a next state that keeps. -/
theorem State.issueControl_kept (s : State) (op g : Nat) (w : W64) (k : Cmd → List W64 → Inst → Res)
    (hk : ∀ c ws i, s.Kept (k c ws i).st) : ∃ t, s.issueControl op g w k = .next t ∧ s.Kept t := by
  unfold State.issueControl
  dsimp only
  repeat' split
  all_goals first
    | exact ⟨_, rfl, State.Kept.refl s⟩
    | exact ⟨_, rfl, s.finish_kept _ _ _ (State.Kept.refl s)⟩
    | exact ⟨_, rfl, s.finish_kept _ _ _ (hk _ _ _)⟩

end Sys2Proof.Machine
end

