-- ==== Sys2Proof/Laws/Quiet.lean ====
section
/-! SUPPORT. What requests do to a memory at rest: where no write is pending and no word is damaged, a read's way through the
channels changes the channels and the counts that hang on them, and nothing that a read of any byte depends on (spec/10 R235-R238). -/

namespace Sys2Proof.Machine

/-- What decides where an address lies and whether it can be read. -/
def Memc.plan (m : Memc) : Bool × List Migration × List Nat × List Nat × SMap Nat × Nat × List (Nat × Nat × Nat) :=
  (m.separate, m.migs, m.poison, m.loftBad, m.upset, m.loftGib, m.lost)

/-- `t` is `s` but for the channels and what is counted at them. -/
def State.Quiet (s t : State) : Prop := ∃ m, t = { s with memc := m } ∧ m.plan = s.memc.plan

/-- No write is pending and no word is damaged. -/
structure State.AtRest (s : State) : Prop where
  infl : s.infl = []
  poison : s.memc.poison = []
  bad : s.memc.loftBad = []
  upset : s.memc.upset = []

theorem State.Quiet.refl (s : State) : s.Quiet s := ⟨s.memc, rfl, rfl⟩
theorem State.Quiet.trans {s t u : State} (h : s.Quiet t) (k : t.Quiet u) : s.Quiet u := by
  obtain ⟨m, rfl, hm⟩ := h
  obtain ⟨n, rfl, hn⟩ := k
  exact ⟨n, rfl, hn.trans hm⟩
theorem State.Quiet.atRest {s t : State} (h : s.Quiet t) (r : s.AtRest) : t.AtRest := by
  obtain ⟨m, rfl, hm⟩ := h
  simp only [Memc.plan, Prod.mk.injEq] at hm
  exact ⟨r.infl, hm.2.2.1.trans r.poison, hm.2.2.2.1.trans r.bad, hm.2.2.2.2.1.trans r.upset⟩
theorem State.Quiet.foldl {α : Type} {f : State → α → State} (h : ∀ (s : State) (x : α), s.Quiet (f s x)) :
    ∀ (l : List α) (s : State), s.Quiet (l.foldl f s)
  | [], s => .refl s
  | x :: l, s => (h s x).trans (State.Quiet.foldl h l _)

theorem State.judge_quiet (s : State) (ch : Nat) (r : ChReq) : s.Quiet (s.judge ch r) := by
  unfold State.judge
  dsimp only
  repeat' split
  all_goals first
    | exact .refl s
    | exact ⟨_, rfl, rfl⟩

theorem State.serveChan_quiet (s : State) (ch n : Nat) : s.Quiet (s.serveChan ch n) :=
  (State.Quiet.foldl (fun t r => t.judge_quiet ch r) _ s).trans ⟨_, rfl, rfl⟩

theorem State.apply_none (s : State) (h : s.AtRest) (src : Nat) : s.apply src [] = s := by
  simp [State.apply, State.taken, h.poison, h.bad, h.upset]

theorem State.corrects_none (s : State) (h : s.AtRest) (r : ChReq) : s.corrects r = s := by
  simp [State.corrects, h.upset]

theorem State.enter_quiet (s : State) (h : s.AtRest) (ch : Nat) : s.Quiet (s.enter ch) := by
  unfold State.enter
  split
  · exact .refl s
  · split
    · exact .refl s
    · rename_i r _
      dsimp only
      have q : s.Quiet (if (s.chan ch).queue.length < 32 then s else s.serveChan ch 1) := by
        split
        · exact .refl s
        · exact s.serveChan_quiet _ _
      generalize (if (s.chan ch).queue.length < 32 then s else s.serveChan ch 1) = u at q
      have ru := q.atRest h
      refine q.trans ?_
      have e : ((u.infl.filter (·.of r)).map fun w => (w.addr, w.mask, w.val)) = [] := by simp [ru.infl]
      rw [e, u.apply_none ru, u.corrects_none ru]
      have i : (u.infl.filter fun w => !w.of r) = u.infl := by simp [ru.infl]
      rw [i]
      exact ⟨_, rfl, rfl⟩

theorem State.enterAll_quiet (p : ChReq → Bool) : ∀ (n : Nat) (s : State), s.AtRest → s.Quiet (s.enterAll p n)
  | 0, s, _ => .refl s
  | n + 1, s, h => by
    unfold State.enterAll
    split
    · exact .refl s
    · split
      · exact (s.enter_quiet h _).trans (State.enterAll_quiet p n _ ((s.enter_quiet h _).atRest h))
      · exact State.Quiet.trans (s := s) ⟨_, rfl, rfl⟩ (State.enterAll_quiet p n _ ⟨h.infl, h.poison, h.bad, h.upset⟩)

theorem State.fetches_quiet (s : State) (h : s.AtRest) (op cmd src : Nat) (x : Bool) (ps : List Nat) :
    s.Quiet (s.fetches op cmd src x ps) :=
  have q : s.Quiet (s.request' op cmd src x true ps) := ⟨_, rfl, rfl⟩
  q.trans (State.enterAll_quiet _ _ _ (q.atRest h))

theorem State.schRead_quiet (s : State) (h : s.AtRest) (t va n src : Nat) (bs : List Byte)
    (e : (s.schRead t va n src).2 = .inl bs) : s.Quiet (s.schRead t va n src).1 := by
  have q : s.Quiet (s.pull t ((List.range n).map (va + ·)) src) := s.fetches_quiet h _ _ _ _ _
  have e' : (s.pull t ((List.range n).map (va + ·)) src).rdVa t va n = .inl bs := e
  simp only [State.schRead, e']
  exact q

end Sys2Proof.Machine
end

