-- ==== Sys2Proof/Laws/Requests.lean ====
section
/-! SUPPORT. What a request does, once for all requests: carried out when SCH takes it, refused by mode or by version, or not yet
its turn (spec/15 R351, R355, R359). -/

namespace Sys2Proof.Machine

theorem whenAlive_next (s t : State) : ∃ u, whenAlive s t = .next u ∧ (u = s ∨ u = t) := by
  unfold whenAlive; split
  · exact ⟨t, rfl, .inr rfl⟩
  · exact ⟨s, rfl, .inl rfl⟩

theorem whenHost_next (f : Nat) (s : State) (k : State → State) :
    ∃ u, whenHost f s k = .next u ∧ (u = s ∨ u = k (s.setLow f none)) := by
  unfold whenHost; split
  · exact ⟨_, rfl, .inr rfl⟩
  · exact ⟨s, rfl, .inl rfl⟩

theorem whenHost_alive {s : State} (f : Nat) (k : State → State) (h : s.alive = true) :
    whenHost f s k = .next (k (s.setLow f none)) := by
  unfold whenHost; rw [if_pos h]

theorem whenAlive_alive {s : State} (t : State) (h : s.alive = true) : whenAlive s t = .next t := by
  unfold whenAlive; rw [if_pos h]

theorem whenSch_next (s t : State) : ∃ u, whenSch s t = .next u ∧ (u = s ∨ u = t) := by
  unfold whenSch; split
  · exact ⟨t, rfl, .inr rfl⟩
  · exact ⟨s, rfl, .inl rfl⟩

theorem whenSch_up {s : State} (t : State) (h : s.alive = true) (k : s.schUp = true) : whenSch s t = .next t := by
  unfold whenSch; rw [if_pos (by simp [h, k])]

/-- What a request leaves, whatever it asks. -/
def ReqOut.left (s : State) (f : Nat) (cid : BitVec 16) (i : Instr) : ReqOut → State
  | .done t st r => t.answer f cid st r
  | .wait => s.keepReq f cid false i
  | .held t => t.keepReq f cid false i
  | .begun t => t.keepReq f cid true i

/-- A request that SCH takes in normal boot at its version does what it asks. -/
theorem State.request_taken {s : State} {f : Nat} {cid : BitVec 16} {minor : Nat} {inRec : Bool} {i : Instr} {k : ReqOut}
    (h1 : s.alive = true) (h2 : s.canTake f cid i = true) (h3 : s.sec.bootMode = 0) (h4 : (s.fn f).atLeast 1 minor = true) :
    s.request f cid minor inRec i k = .next (k.left s f cid i) := by
  unfold State.request
  rw [whenAlive_alive _ h1]
  simp only [h2, h3, h4, bne_self_eq_false, Bool.false_and, Bool.not_true, Bool.false_eq_true, if_false]
  cases k <;> rfl

/-- A request whose turn it is not changes nothing. -/
theorem State.request_early {s : State} {f : Nat} {cid : BitVec 16} {minor : Nat} {inRec : Bool} {i : Instr} {k : ReqOut}
    (h : s.canTake f cid i = false) : s.request f cid minor inRec i k = .next s := by
  unfold State.request whenAlive
  simp [h]

/-- In recovery mode a request that is not one of those carried out there is refused. -/
theorem State.request_recovery {s : State} {f : Nat} {cid : BitVec 16} {minor : Nat} {i : Instr} {k : ReqOut}
    (h1 : s.alive = true) (h2 : s.canTake f cid i = true) (h3 : s.sec.bootMode ≠ 0) :
    s.request f cid minor false i k = .next (s.answer f cid rOffline 0) := by
  unfold State.request
  rw [whenAlive_alive _ h1]
  simp [h2, h3]

/-- A request of a later version than the negotiated one is refused. -/
theorem State.request_version {s : State} {f : Nat} {cid : BitVec 16} {minor : Nat} {inRec : Bool} {i : Instr} {k : ReqOut}
    (h1 : s.alive = true) (h2 : s.canTake f cid i = true) (h3 : s.sec.bootMode = 0) (h4 : (s.fn f).atLeast 1 minor = false) :
    s.request f cid minor inRec i k = .next (s.answer f cid rVersion 0) := by
  unfold State.request
  rw [whenAlive_alive _ h1]
  simp [h2, h3, h4]

theorem State.keepReq_kept (s : State) (f : Nat) (cid : BitVec 16) (begun : Bool) (i : Instr) :
    s.Kept (s.keepReq f cid begun i) := s.modFn_kept f _

/-- A request answers a next state that keeps, if what it asks does. -/
theorem State.request_kept (s : State) (f : Nat) (cid : BitVec 16) (minor : Nat) (inRec : Bool) (i : Instr) (k : ReqOut)
    (hd : ∀ t st r, k = .done t st r → s.Kept t) (hh : ∀ t, k = .held t → s.Kept t) (hb : ∀ t, k = .begun t → s.Kept t) :
    ∃ t, s.request f cid minor inRec i k = .next t ∧ s.Kept t := by
  unfold State.request
  obtain ⟨u, hu, h⟩ := whenAlive_next s _
  refine ⟨u, hu, ?_⟩
  rcases h with h | h
  · rw [h]; exact State.Kept.refl s
  · rw [h]
    split
    · exact State.Kept.refl s
    · split
      · exact s.answer_kept _ _ _ _
      · split
        · exact s.answer_kept _ _ _ _
        · split
          · exact (hd _ _ _ rfl).trans (State.answer_kept _ _ _ _ _)
          · exact s.keepReq_kept _ _ _ _
          · exact (hh _ rfl).trans (State.keepReq_kept _ _ _ _ _)
          · exact (hb _ rfl).trans (State.keepReq_kept _ _ _ _ _)

end Sys2Proof.Machine
end

