-- ==== Sys2Proof/Tests/Slice0.lean ====
section
/-! SUPPORT. Tests of one step each: for each obligation, a state and operands that meet the hypotheses of each of its clauses
(mostly at a boundary of its range), with one or two fields of what follows; values worked out in the spec; and the commands that
are ill-formed. Expected results come from the spec's rules and worked examples. -/

open Sys2Proof Sys2Proof.Machine

/-! The tests are checked one after another: each waits for the kernel, and a thread for each of them would be too many. -/

set_option Elab.async false

/-! ### Words, instances and states of the tests -/

namespace Sys2Proof.Tests

/-- A word from its opcode and fields A-D and LOW (spec/06 R137); p0 guards it. -/
def word (op a b c d low : Nat) : W64 :=
  BitVec.ofNat 64 (op * 2 ^ 56 + a * 2 ^ 47 + b * 2 ^ 42 + c * 2 ^ 37 + d * 2 ^ 32 + low)

/-- A command of function 0 that runs on cluster 0. -/
def cmd0 : Cmd :=
  { id := 1, fn := 0, q := 1, cid := 7, seq := 0, express := false, phase := 0, program := 0
    batch := [], report := none, gang := 0, gangSize := 0, notBefore := none, deadline := none
    args := [], outs := [], scr := [], ins := [], mask := 1, place := [0], st := .running }

/-- Its instance, with s registers. -/
def inst0 (regs : SMap W64) : Inst := { cmd := 1, rank := 0, size := 1, loaded := true, sreg := regs }

/-- A state in which a command's instance issues the words from cluster 0, whose other parts are those of `k`. -/
def runsOn (k : Cluster) (c : Cmd) (ws : List W64) (i : Inst) : State :=
  { State.reset with
    clusters := [(0, { k with issuing := some i, progs := [{ tenant := 0, prog := 0, words := ws }] })]
    cmds := { list := [c], nextId := 2 } }
def runs (c : Cmd) (ws : List W64) (i : Inst) : State := runsOn {} c ws i

/-- A cluster whose first buffer segment is function 0's. -/
def own0 : Cluster := { segs := [(0, some 0)] }

/-- A test of the next state of an outcome. -/
def then' (o : Out) (p : State → Bool) : Bool := match o with | .next t => p t | _ => false

/-- The instance that issues on cluster 0. -/
def on0 (t : State) (p : Inst → Bool) : Bool := match (t.cl 0).issuing with | some i => p i | none => false

/-- A test of the state once a beat has passed after it: its latched faults have ended their commands. -/
def thenEnd (o : Out) (p : State → Bool) : Bool := match o with | .next t => p t.endFaulted | _ => false

/-- Nothing is on its way to a memory: an access begins at once. -/
abbrev Idle (s : State) : Prop := s.memc.waiting = [] ∧ s.infl = []
theorem arrive_idle (s : State) (h : s.memc.waiting = [] ∧ s.infl = []) : s.arrive = s := by
  simp [State.arrive, h.1, h.2]

/-! ### Program instructions -/

/-- One arithmetic word on s6 = a and s7 = b meets the hypotheses of its result and leaves it in s5. -/
def alu (op d : Nat) (mk : Cl → W64 → Instr) (w a b r : W64) : Bool :=
  let i := inst0 [(6, a), (7, b)]
  let s := runs cmd0 [w] i
  decide (s.Issues 0 w cmd0 i [w] ∧ opOf w = op ∧ aluFaults w d = [])
    && then' (exec (mk 0 w) s) fun t => on0 t fun j => j.s 5 == r && j.pc == 1

theorem test_scalarArithmetic : alu 0x10 0 .add (word 0x10 5 6 7 0 0) 0xFFFFFFFFFFFFFFFF 2 1 = true
    ∧ alu 0x11 0 .sub (word 0x11 5 6 0 0 (2 ^ 31 + 5)) 3 0 (0 - 2) = true
    ∧ alu 0x12 0 .mul (word 0x12 5 6 7 0 0) 0x8000000000000000 3 0x8000000000000000 = true
    ∧ alu 0x13 0 .and (word 0x13 5 6 0 0 (2 ^ 32 - 16)) 0xFFFF 0 0xFFF0 = true
    ∧ alu 0x14 0 .or (word 0x14 5 6 7 0 0) 0xF0 0x0F 0xFF = true
    ∧ alu 0x15 0 .xor (word 0x15 5 6 7 0 0) 0xFF 0x0F 0xF0 = true
    ∧ alu 0x16 0 .shl (word 0x16 5 6 7 0 0) 1 67 8 = true
    ∧ alu 0x17 1 .shr (word 0x17 5 6 7 0 0) 0x8000000000000000 63 1 = true
    ∧ alu 0x17 1 .shr (word 0x17 5 6 7 1 0) 0x8000000000000000 63 0xFFFFFFFFFFFFFFFF = true := by decide +kernel

/-- The worked encoding of spec/06: (p2) add s5, s6, s7, guarded by p2. -/
theorem test_workedAdd :
    let w : W64 := 0x104298E000000000
    let i := { inst0 [(6, 5), (7, 9)] with pred := 5 }
    let s := runs cmd0 [w] i
    (s.nextIssue 0 = some (.add 0 w)) ∧ fA w = 5 ∧ fB w = 6 ∧ fC w = 7
      ∧ then' (exec (.add 0 w) s) (fun t => on0 t fun j => j.s 5 == 14 && j.pc == 1) = true
      ∧ exec (.add 0 w) (runs cmd0 [w] (inst0 [(6, 5), (7, 9)])) =
          .next ((runs cmd0 [w] (inst0 [(6, 5), (7, 9)])).goes 0 { inst0 [(6, 5), (7, 9)] with pc := 1 }) :=
  ⟨by decide, by decide, by decide, by decide, by decide, rfl⟩

/-- The worked encoding of spec/06: opa me 3, acc2, t3, t2, zs, k=7424. -/
theorem test_workedOpa : let w : W64 := 0x40070C4000000000
    let w2 : W64 := 0xFE00000008001D00
    opOf w = 0x40 ∧ meNo w = 3 ∧ bankNo w = 2 ∧ fB w = 3 ∧ fC w = 2 ∧ opOf w2 = 0xFE ∧ fld w2 27 27 = 1
      ∧ opaK (inst0 []) w2 = 7424
      ∧ (runs cmd0 [w, w2] (inst0 [])).nextIssue 0 = some (.opa 0 w w2) := by decide +kernel

theorem test_moveAndCompare :
    (let w := word 0x18 5 0 0 1 7
     let i := inst0 [(5, 9)]
     (runs cmd0 [w] i).Issues 0 w cmd0 i [w] ∧ opOf w = 0x18 ∧ fld w 46 33 = 0
      ∧ then' (exec (.ldi 0 w) (runs cmd0 [w] i)) (fun t => on0 t fun j => j.s 5 == 0x700000009) = true)
    ∧ (let w := word 0x18 5 0 0 0 (2 ^ 32 - 1)
     let i := inst0 []
     then' (exec (.ldi 0 w) (runs cmd0 [w] i)) (fun t => on0 t fun j => j.s 5 == 0 - 1) = true)
    ∧ (let w := word 0x19 4 6 7 4 0
     let i := inst0 [(6, 0 - 1), (7, 1)]
     (runs cmd0 [w] i).Issues 0 w cmd0 i [w] ∧ opOf w = 0x19 ∧ fld w 48 47 = 0 ∧ fld w 32 32 = 0 ∧ fld w 30 0 = 0
      ∧ condInt (fld w 36 33) (i.s (fB w)) (i.opB w) = some true
      ∧ then' (exec (.cmp 0 w) (runs cmd0 [w] i)) (fun t => on0 t fun j => j.pred == 3) = true)
    ∧ (let w := word 0x19 0 6 7 4 0
     let i := inst0 [(6, 1), (7, 1)]
     then' (exec (.cmp 0 w) (runs cmd0 [w] i)) (fun t => on0 t fun j => j.predOf 0) = true)
    ∧ (let w := word 0x1C 5 0 0 0 2
     let i := inst0 []
     (runs cmd0 [w] i).Issues 0 w cmd0 i [w] ∧ opOf w = 0x1C ∧ fld w 46 12 = 0 ∧ (runs cmd0 [w] i).csr cmd0 0 i 2 = some 1
      ∧ then' (exec (.csrr 0 w) (runs cmd0 [w] i)) (fun t => on0 t fun j => j.s 5 == 1) = true)
    ∧ (let w := word 0x1D 5 0 0 0 0
     let i := inst0 []
     (runs cmd0 [w] i).Issues 0 w cmd0 i [w] ∧ opOf w = 0x1D ∧ fld w 46 0 = 0
      ∧ then' (exec (.csrw 0 w) (runs cmd0 [w] i)) (fun t => on0 t fun j => j.gen == 1) = true) := by
  refine ⟨?_, ?_, ?_, ?_, ?_, ?_⟩ <;> decide +kernel

theorem test_scalarLoadStore :
    (let w := word 0x1A 5 0 0 17 1
     let c := { cmd0 with args := [1, 2, 0xFE] }
     let i := { inst0 [] with args := [1, 2, 0xFE] }
     (runs c [w] i).Issues 0 w c i [w] ∧ opOf w = 0x1A ∧ rsvFaults w [(41, 37), (31, 31), (29, 24)] = []
      ∧ fld w 33 32 = 1 ∧ ((runs c [w] i).eaFaults c 0 w i 2 false ≠ []))
    ∧ (let w := word 0x1A 5 0 0 17 (0x40000000 + 2)
     let i := { inst0 [] with args := [1, 2, 0xFE, 0xFF] }
     (runs cmd0 [w] i).Issues 0 w cmd0 i [w] ∧ rsvFaults w [(41, 37), (31, 31), (29, 24)] = []
      ∧ (runs cmd0 [w] i).eaFaults cmd0 0 w i 2 false = []
      ∧ then' (exec (.lds 0 w) (runs cmd0 [w] i)) (fun t => on0 t fun j => j.s 5 == 0 - 2 && j.pc == 1) = true)
    ∧ (let w := word 0x1B 5 0 0 23 8
     let i := inst0 [(5, 0x0102030405060708)]
     let s := runsOn own0 cmd0 [w] i
     s.Issues 0 w cmd0 i [w] ∧ opOf w = 0x1B ∧ rsvFaults w [(41, 37), (31, 24)] = [] ∧ s.eaFaults cmd0 0 w i 8 true = []
      ∧ then' (exec (.sts 0 w) s) (fun t => decide (t.infl.map (fun x => (x.addr, x.val)) =
          (List.range 8).map (fun k => (0xF080000008 + k, BitVec.ofNat 8 (8 - k)))) && on0 t fun j => j.pc == 1) = true)
    ∧ (let w := word 0x20 5 0 0 16 0
     let i := { inst0 [] with args := [0x11, 0x22] }
     (runs cmd0 [w] i).Issues 0 w cmd0 i [w] ∧ opOf w = 0x20 ∧ rsvFaults w [(41, 37), (33, 24)] = []
      ∧ (runs cmd0 [w] i).eaFaults cmd0 0 w i 32 false = []
      ∧ then' (exec (.tdl 0 w) (runs cmd0 [w] i)) (fun t => on0 t fun j => smGet 0 j.desc 5 == 0x2211) = true)
    ∧ (let w := word 0x21 5 0 0 20 32
     let i := { inst0 [] with desc := [(5, 0x2211)] }
     let s := runsOn own0 cmd0 [w] i
     s.Issues 0 w cmd0 i [w] ∧ opOf w = 0x21 ∧ rsvFaults w [(41, 37), (33, 24)] = [] ∧ s.eaFaults cmd0 0 w i 32 true = []
      ∧ then' (exec (.tds 0 w) s) (fun t => decide (t.infl.length = 32
          ∧ (t.infl.map fun x => (x.addr, x.val)).take 2 = [(0xF080000020, 0x11), (0xF080000021, 0x22)])) = true) := by
  refine ⟨?_, ?_, ?_, ?_, ?_⟩ <;> decide +kernel

theorem test_descriptorField :
    (let w := word 0x22 5 6 0 0 0x01
     let i := inst0 [(6, 15)]
     (runs cmd0 [w] i).Issues 0 w cmd0 i [w] ∧ opOf w = 0x22 ∧ fld w 41 8 = 0 ∧ tdField (fld w 7 0) = some (48, 4)
      ∧ (i.s (fB w)).toNat < 2 ^ 4
      ∧ then' (exec (.tdset 0 w) (runs cmd0 [w] i)) (fun t => on0 t fun j => smGet 0 j.desc 5 == 0xF000000000000) = true)
    ∧ (let w := word 0x23 5 6 0 0 (8 + 4)
     let i := { inst0 [(6, 3)] with offs := [(44, 0xFFFFFFFF)] }
     (runs cmd0 [w] i).Issues 0 w cmd0 i [w] ∧ opOf w = 0x23 ∧ fld w 41 4 = 0 ∧ fld w 2 0 ≤ 4
      ∧ then' (exec (.tdoff 0 w) (runs cmd0 [w] i)) (fun t => on0 t fun j => smGet 0 j.offs 44 == 2) = true) := by
  refine ⟨?_, ?_⟩ <;> decide +kernel

theorem test_controlFlow :
    (let w := word 0 0 0 0 0 0
     let i := inst0 []
     (runs cmd0 [w] i).NextWord 0 w cmd0 i [w] ∧ fld w 55 52 = 0 ∧ fld w 51 0 = 0
      ∧ then' (exec (.nop 0 w) (runs cmd0 [w] i)) (fun t => on0 t fun j => j.pc == 1) = true)
    ∧ (let w := word 3 0 0 0 0 0xFFFFFFFE
     let i := { inst0 [] with pc := 2 }
     (runs cmd0 [0, 0, w] i).NextWord 0 w cmd0 i [0, 0, w] ∧ opOf w = 3 ∧ fld w 51 32 = 0
      ∧ then' (exec (.br 0 w) (runs cmd0 [0, 0, w] i)) (fun t => on0 t fun j => j.pc == 0) = true)
    ∧ (let w := word 4 2 0 0 0 3
     let i := inst0 []
     (runs cmd0 [w] i).NextWord 0 w cmd0 i [w] ∧ opOf w = 4 ∧ fld w 47 32 = 0 ∧ fld w 51 49 = 0 ∧ fld w 48 48 = 1
      ∧ then' (exec (.brp 0 w) (runs cmd0 [w] i)) (fun t => on0 t fun j => j.pc == 1) = true)
    ∧ (let w := word 5 5 0 0 0 1
     let i := inst0 [(5, 0xFFFFFFFF)]
     (runs cmd0 [w, 0, 0] i).NextWord 0 w cmd0 i [w, 0, 0] ∧ opOf w = 5 ∧ fld w 46 12 = 0 ∧ i.loops.length < 4
      ∧ 1 ≤ (i.s (fA w)).toNat ∧ (i.s (fA w)).toNat < 2 ^ 32 ∧ [w, 0, 0][i.pc + 1 + fld w 11 0]? = some 0
      ∧ opOf 0 ≠ 0x40 ∧ opOf 0 ≠ 0x30
      ∧ then' (exec (.loop 0 w) (runs cmd0 [w, 0, 0] i)) (fun t => on0 t fun j => decide (j.loops =
          [{ first := 1, last := 2, left := 0xFFFFFFFF }])) = true)
    ∧ (let w := word 6 0 0 0 0 1
     let i := { inst0 [] with calls := List.replicate 7 (0, 0) }
     (runs cmd0 [w] i).NextWord 0 w cmd0 i [w] ∧ opOf w = 6 ∧ fld w 51 32 = 0 ∧ i.calls.length < 8
      ∧ then' (exec (.call 0 w) (runs cmd0 [w] i)) (fun t => on0 t fun j => decide (j.pc = 1 ∧ j.calls.head? = some (1, 0))) = true)
    ∧ (let w := word 7 0 0 0 0 0
     let i := { inst0 [] with calls := [(5, 1)], loops := [⟨0, 0, 2⟩, ⟨0, 3, 2⟩] }
     (runs cmd0 [w] i).NextWord 0 w cmd0 i [w] ∧ opOf w = 7 ∧ fld w 51 0 = 0 ∧ i.calls = (5, 1) :: []
      ∧ then' (exec (.ret 0 w) (runs cmd0 [w] i)) (fun t => on0 t fun j => decide (j.pc = 5 ∧ j.loops = [⟨0, 3, 2⟩])) = true) := by
  refine ⟨?_, ?_, ?_, ?_, ?_, ?_⟩ <;> decide +kernel

theorem test_instanceEnd :
    (let w := word 2 0 0 0 0 0
     let i := inst0 []
     let s := runs cmd0 [w] i
     s.NextWord 0 w cmd0 i [w] ∧ opOf w = 2 ∧ fld w 55 52 = 0 ∧ fld w 51 0 = 0
      ∧ ((s.cl 0).asm.any fun a => a.2.isSome) = false ∧ then' (exec (.commit 0 w) s) (fun t => on0 t fun j => j.done) = true)
    ∧ (let w := word 1 0 0 0 0 0
     let i := inst0 []
     let s := runs cmd0 [w] i
     s.NextWord 0 w cmd0 i [w] ∧ opOf w = 1 ∧ fld w 55 52 = 0 ∧ fld w 51 0 = 0
      ∧ then' (exec (.halt 0 w) s) (fun t => t.cmds.list.isEmpty && (t.cl 0).issuing.isNone
          && decide (((t.queue 0 1).held.map fun e => e.status) = [stAborted])) = true)
    ∧ (let w := word 8 0 0 0 0 0
     let i := inst0 []
     let s := runs cmd0 [w] i
     s.NextWord 0 w cmd0 i [w] ∧ opListed w = false ∧ opOf w ≠ 0x37
      ∧ thenEnd (exec (.unassignedOpcode 0 w) s) (fun t => t.cmds.list.isEmpty
          && decide (((t.queue 0 1).held.map fun e => e.status) = [fInstruction])) = true) := by
  refine ⟨?_, ?_, ?_⟩ <;> decide +kernel

theorem test_guardAndReserved :
    (let w : W64 := word 0x52 1 2 3 31 0 ||| 0x0020000000000000
     let i := inst0 []
     let s := runs cmd0 [w] i
     s.NextWord 0 w cmd0 i [w] ∧ i.guard w = false ∧ 0x10 ≤ opOf w ∧ opListed w = true
      ∧ then' (exec (issueCommand 0 w 0) s) (fun t => on0 t fun j => j.pc == 1) = true)
    ∧ (let w : W64 := word 0x30 1 2 0 0 0 ||| 0x0020000000000000
     let i := inst0 []
     let s := runs cmd0 [w] i
     s.NextWord 0 w cmd0 i [w] ∧ i.guard w = false ∧ then' (exec (issueCommand 0 w 0) s) (fun t => on0 t fun j => j.pc == 2) = true)
    ∧ (let w := word 0x10 5 6 7 0 1
     let i := inst0 []
     let s := runs cmd0 [w] i
     s.Issues 0 w cmd0 i [w] ∧ opOf w = 0x10 ∧ aluFaults w 0 ≠ []
      ∧ thenEnd (exec (.add 0 w) s) (fun t => decide (((t.queue 0 1).held.map fun e => (e.status, e.loc)) = [(fInstruction, 0xC0000)]))
          = true)
    ∧ (let c := { cmd0 with faults := [⟨7, 3, none, 9⟩, ⟨2, 4, none, 8⟩] }
     let s := runs c [] (inst0 [])
     s.cmd c.id = some c ∧ c.st = .running ∧ c.faults = ⟨7, 3, none, 9⟩ :: [⟨2, 4, none, 8⟩] ∧ (∀ d ∈ s.cmds.list, d.id ≠ c.id → d.faults = [])
      ∧ firstFault ⟨7, 3, none, 9⟩ [⟨2, 4, none, 8⟩] = ⟨2, 4, none, 8⟩ ∧ (c.faults.any fun r => r.cl == 2) = true)
    ∧ (aluFaults (word 0x17 5 6 7 2 0) 1 ≠ [] ∧ aluFaults (word 0x11 5 6 7 1 0) 0 ≠ []) := by
  refine ⟨?_, ?_, ?_, ?_, ?_⟩ <;> decide +kernel

/-! ### Vectors -/

/-- A descriptor of rank 2 with bounds equal to its extents, layout order 0, no fill and no set. -/
def dsc (base fmt e0 e1 : Nat) : BitVec 256 :=
  BitVec.ofNat 256 (base + fmt * 2 ^ 48 + 2 * 2 ^ 52 + (e0 - 1) * 2 ^ 96 + (e1 - 1) * 2 ^ 116 + (e0 - 1) * 2 ^ 166
    + (e1 - 1) * 2 ^ 186)

/-- Address of the first byte of the own buffer of cluster 0. -/
def buf : Nat := 0xF080000000

/-- One elementwise word on v2 = a and v3 = b in lane 255 meets the hypotheses of its result; where `go` is set it runs and leaves r
in lane 255 of v1. -/
def lanes (go : Bool) (op : Nat) (rsv : List (Nat × Nat)) (mk : Cl → W64 → Instr) (lo : Nat) (a b r : W32) : Bool :=
  let w := word op 1 2 3 0 lo
  let i := { inst0 [(3, b.setWidth 64)] with vreg := [(767, a), (1023, b)] }
  let s := runs cmd0 [w] i
  decide (s.Issues 0 w cmd0 i [w] ∧ s.Room 0 cmd0 .vu ∧ opOf w = op ∧ rsvFaults w rsv = [])
    && (!go || then' (exec (mk 0 w) s) fun t => on0 t fun j => j.v 1 255 == r && j.pc == 1)

theorem test_elementwiseVector :
    lanes false 0x52 vewRsv .vadd 0 0x3F800000 0x40000000 0x40400000 = true
    ∧ lanes true 0x53 vewRsv .vsub 0x80000000 1 2 0xFFFFFFFF = true
    ∧ lanes false 0x54 vewRsv .vmul 0x40000000 0x40000000 0xC0400000 0xC0C00000 = true
    ∧ lanes true 0x55 vewRsv .vmax 0x80000000 1 0xFFFFFFFF 1 = true
    ∧ lanes false 0x56 vewRsv .vmin 0x80000000 0x80000000 1 0x80000000 = true
    ∧ lanes false 0x57 vewRsv .vand 0 0xFF 0x0F 0x0F = true
    ∧ lanes false 0x58 vewRsv .vor 0x80000000 0xF0 0x0F 0xFF = true
    ∧ lanes false 0x59 vewRsv .vxor 0 0xFF 0x0F 0xF0 = true
    ∧ lanes false 0x5A vewRsv .vshl 0 1 33 2 = true
    ∧ lanes true 0x5B [(36, 32), (29, 1)] .vshr 1 0x80000000 31 0xFFFFFFFF = true := by decide +kernel

/-- One vector word on an instance: its hypotheses hold, and where `go` is set the instance after it passes p. -/
def vec (go : Bool) (mk : Cl → W64 → Instr) (w : W64) (i : Inst) (h : State → Bool) (p : Inst → Bool) : Bool :=
  let s := runsOn own0 cmd0 [w] i
  decide (s.Issues 0 w cmd0 i [w] ∧ s.Room 0 cmd0 .vu) && h s
    && (!go || then' (exec (mk 0 w) s) fun t => on0 t fun j => p j && j.pc == 1)

theorem test_vectorRegister :
    vec true .vcmp (word 0x5C 1 2 3 18 0x80000000) { inst0 [] with vreg := [(512, 1)] }
      (fun _ => rsvFaults (word 0x5C 1 2 3 18 0x80000000) [(32, 32), (29, 0)] == []
        && fld (word 0x5C 1 2 3 18 0x80000000) 36 33 == 9) (fun j => j.v 1 0 == 0xFFFFFFFF) = true
    ∧ vec true .vsel (word 0x5D 1 2 3 4 0) { inst0 [] with vreg := [(512, 7), (513, 7), (768, 8), (769, 8), (1024, 1)] }
      (fun _ => true) (fun j => j.v 1 0 == 7 && j.v 1 1 == 8) = true
    ∧ vec false .vfma (word 0x5E 1 2 2 4 0) { inst0 [] with vreg := [(512, 0x40000000), (1024, 0x3F800000)] }
      (fun _ => true) (fun j => j.v 1 0 == 0x40A00000) = true
    ∧ vec false .vsf (word 0x5F 1 2 0 0 4) (inst0 []) (fun _ => fld (word 0x5F 1 2 0 0 4) 41 3 == 0) (fun _ => true) = true
    ∧ vec false .vbcast (word 0x66 1 2 0 0 (255 * 256 + 1)) { inst0 [] with vreg := [(767, 9)] }
      (fun _ => rsvFaults (word 0x66 1 2 0 0 (255 * 256 + 1)) [(41, 16), (7, 1)] == []) (fun j => j.v 1 0 == 9 && j.v 1 255 == 9)
        = true
    ∧ vec true .vred (word 0x60 1 2 0 0 0x80000100) { inst0 [] with vreg := [(256, 5), (512, 3), (767, 4)] }
      (fun _ => rsvFaults (word 0x60 1 2 0 0 0x80000100) [(41, 32), (30, 12), (9, 9)] == []
        && fld (word 0x60 1 2 0 0 0x80000100) 8 0 == 256) (fun j => j.v 1 0 == 7 && j.v 1 1 == 0) = true
    ∧ vec true .vred (word 0x60 1 2 0 0 0x401) { inst0 [] with vreg := [(512, 0x80000000)] }
      (fun _ => true) (fun j => j.v 1 0 == 0x80000000) = true
    ∧ vec true .vperm (word 0x64 1 2 3 0 0) { inst0 [] with vreg := [(767, 6), (768, 0xFFFFFFFF)] }
      (fun _ => true) (fun j => j.v 1 0 == 6 && j.v 1 1 == 0) = true
    ∧ vec false .vcvt (word 0x63 1 2 0 0 0x80000009) { inst0 [] with vreg := [(512, 3), (513, 0xFFFFFFF8)] }
      (fun _ => rsvFaults (word 0x63 1 2 0 0 0x80000009) [(41, 32), (30, 6)] == [])
      (fun j => j.v 1 0 == 3 && j.v 1 1 == 0xFFFFFFF8) = true := by
  refine ⟨?_, ?_, ?_, ?_, ?_, ?_, ?_, ?_, ?_⟩ <;> decide +kernel

theorem test_mergeAndSample :
    (let w := word 0x61 1 4 2 3 6
     let i := { inst0 [] with vreg := [(512, 0xFF800000), (514, 0x3F800000), (768, 0xFF800000), (770, 0x40000000)] }
     let s := runs cmd0 [w] i
     s.Issues 0 w cmd0 i [w] ∧ s.Room 0 cmd0 .vu ∧ opOf w = 0x61 ∧ fld w 31 3 = 0 ∧ fA w ≠ fC w ∧ smWf 0 i.vreg = true
      ∧ i.v (fC w) 0 = 0xFF800000 ∧ i.v (fD w) 0 = 0xFF800000 ∧ i.v (fD w) 2 = 0x40000000)
    ∧ (let w := word 0x62 1 2 3 4 0
     let i := { inst0 [(3, 1), (4, 0x3F800000)] with desc := [(2, dsc buf 0 2 1)] }
     let s := { runsOn own0 cmd0 [w] i with mem := [(buf + 6, 0x80), (buf + 7, 0x3F)] }
     let v := s.readView ⟨0, 0, ordVu⟩ (i.desc' 2) (i.desc' 2).logits
     s.Issues 0 w cmd0 i [w] ∧ s.Room 0 cmd0 .vu ∧ opOf w = 0x62 ∧ s.vsampFaults cmd0 0 w i = [] ∧ v.2 = []
      ∧ v.1 = [(0, 0), (0x3F800000, 0)] ∧ (f32 ((i.s (fD w) >>> 32).setWidth 32)).isZero = true
      ∧ largest [(f32 0, 0), (f32 0x3F800000, 1)] = some (f32 0x3F800000, 1))
    ∧ (let w := word 0x62 1 2 3 4 0
     let i := { inst0 [(3, 1024), (4, 0x3F8000003F800000)] with desc := [(2, dsc buf 0 1 1)] }
     let s := { runsOn own0 cmd0 [w] i with mem := [(buf + 2, 0x80), (buf + 3, 0xFF)] }
     let v := s.readView ⟨0, 0, ordVu⟩ (i.desc' 2) (i.desc' 2).logits
     s.Issues 0 w cmd0 i [w] ∧ s.vsampFaults cmd0 0 w i = [] ∧ v.2 = [] ∧ v.1 = [(0xFF800000, 0)]
      ∧ ([(f32 0xFF800000, 0)].all fun x => x.1.isNan || x.1 == .inf true) = true)
    ∧ (let w := word 0x62 1 2 3 4 0
     let i := { inst0 [(3, 1), (4, 0x3F8000003F800000)] with desc := [(2, dsc buf 0 2 1)] }
     let s := { runsOn own0 cmd0 [w] i with mem := [(buf + 2, 0x80), (buf + 3, 0xFF)] }
     let v := s.readView ⟨0, 0, ordVu⟩ (i.desc' 2) (i.desc' 2).logits
     s.Issues 0 w cmd0 i [w] ∧ s.vsampFaults cmd0 0 w i = [] ∧ v.2 = [] ∧ v.1 = [(0xFF800000, 0), (0, 0)]
      ∧ ([(f32 0xFF800000, 0), (f32 0, 1)].all fun x => x.1.isNan || x.1 == .inf true) = false
      ∧ (f32 ((i.s (fD w) >>> 32).setWidth 32)).isZero = false) := by
  refine ⟨?_, ?_, ?_, ?_⟩ <;> decide +kernel

theorem test_vectorMemory :
    (let w := word 0x50 1 2 0 0 0
     let i := { inst0 [] with desc := [(2, dsc buf 0 1 1)] }
     let s := runsOn own0 cmd0 [w] i
     let d := i.desc' 2
     s.Issues 0 w cmd0 i [w] ∧ s.Room 0 cmd0 .vu ∧ opOf w = 0x50 ∧ fld w 41 0 = 0 ∧ s.vuReadFaults cmd0 0 d d.run = []
      ∧ storeFaults d [d.run] = [] ∧ (s.readView ⟨0, 0, ordVu⟩ d d.run).2 = [])
    ∧ (let w := word 0x64 1 2 3 0 1
     let i := { inst0 [] with desc := [(2, dsc buf 8 1 1)] }
     let s := runsOn own0 cmd0 [w] i
     let d := i.desc' 2
     let ls := (i.vL (fC w)).map (fun x => d.along x.toInt)
     s.Issues 0 w cmd0 i [w] ∧ s.Room 0 cmd0 .vu ∧ opOf w = 0x64 ∧ fld w 36 1 = 0 ∧ fld w 0 0 = 1
      ∧ s.vuReadFaults cmd0 0 d ls = [] ∧ storeFaults d (cutN 16 ls) = [] ∧ (s.readView ⟨0, 0, ordVu⟩ d ls).2 = [])
    ∧ (let w := word 0x65 1 2 3 0 0x80000000
     let i := { inst0 [] with desc := [(3, dsc buf 0 8 1)] }
     let s := runsOn own0 cmd0 [w] i
     s.Issues 0 w cmd0 i [w] ∧ s.Room 0 cmd0 .vu ∧ opOf w = 0x65 ∧ s.vmaskFaults cmd0 0 w (i.desc' 3) = []
      ∧ (s.readBs ⟨0, 0, ordVu⟩ (i.desc' 3).maskAddrs).2 = [])
    ∧ (let w := word 0x51 1 2 0 0 0
     let i := { inst0 [] with desc := [(2, dsc buf 8 4 1)] }
     let s := runsOn own0 cmd0 [w] i
     s.Issues 0 w cmd0 i [w] ∧ s.Room 0 cmd0 .vu ∧ opOf w = 0x51 ∧ s.vstFaults cmd0 0 w (i.desc' 2) = []
      ∧ (s.placeWrites 0 0 [(buf, 0xFF, 0), (buf + 3, 0xFF, 0)]).2 = []) := by
  refine ⟨?_, ?_, ?_, ?_⟩ <;> decide +kernel

/-! ### The matrix engines -/

/-- A word of the matrix group for ME 7 and bank 3, with fields B and C. -/
def meWord (op b c low : Nat) : W64 := word op 31 b c 0 low

theorem test_bankLoad :
    (let w := meWord 0x41 0 0 1
     let i := inst0 []
     let s := runs cmd0 [w] i
     s.Issues 0 w cmd0 i [w] ∧ s.Room 0 cmd0 (meOf w) ∧ opOf w = 0x41 ∧ fld w 46 1 = 0 ∧ smWf ({} : Bank) (s.cl 0).banks = true
      ∧ then' (exec (.opz 0 w) s) (fun t => decide (((t.cl 0).bank 0 7 3).int = true) && on0 t fun j => j.bankOn 7 3) = true)
    ∧ (let w := meWord 0x44 2 0 (60 + 64)
     let i := { inst0 [] with vreg := [(767, 9)] }
     let s := runs cmd0 [w] i
     s.Issues 0 w cmd0 i [w] ∧ s.Room 0 cmd0 (meOf w) ∧ opOf w = 0x44 ∧ fld w 41 7 = 0 ∧ fld w 5 0 ≤ 60
      ∧ typeFaults i 7 3 ((s.cl 0).bank 0 7 3) (fld w 6 6 == 1) = [])
    ∧ (let w := meWord 0x42 2 0 (63 * 2 ^ 18 + 63 * 2 ^ 12)
     let i := { inst0 [] with desc := [(2, dsc buf 1 1 1)] }
     let s := { runsOn own0 cmd0 [w] i with mem := [(buf, 0x80), (buf + 1, 0x3F)] }
     s.Issues 0 w cmd0 i [w] ∧ s.Room 0 cmd0 (meOf w) ∧ opOf w = 0x42 ∧ s.acclFaults cmd0 0 w i = []
      ∧ (s.readView ⟨0, 0, ordMe⟩ (i.desc' 2) (acclLocs w (i.desc' 2))).2 = []
      ∧ then' (exec (.accl 0 w) s) (fun t => ((t.cl 0).bank 0 7 3).get 63 63 == 0x3F800000) = true) := by
  refine ⟨?_, ?_, ?_⟩ <;> decide +kernel

/-- A state in which an OPA with zero start and K = 1 issues over two operands of format f, and its instance. -/
def opaInst (f : Nat) : Inst := { inst0 [] with desc := [(2, dsc buf f 2 2), (3, dsc (buf + 64) f 2 2)] }
def opaState (f : Nat) : State :=
  { runsOn own0 cmd0 [meWord 0x40 2 3 0, 0xFE00000008000001] (opaInst f) with mem := [(buf, 3), (buf + 64, 5)] }

/-- The hypotheses of OPA's results on that state, for the class and kind of the pair. -/
abbrev OpaMet (f cl : Nat) (int : Bool) : Prop :=
  (opaState f).Issues2 0 (meWord 0x40 2 3 0) 0xFE00000008000001 cmd0 (opaInst f) [meWord 0x40 2 3 0, 0xFE00000008000001]
  ∧ (opaState f).Room 0 cmd0 (meOf (meWord 0x40 2 3 0)) ∧ opOf (meWord 0x40 2 3 0) = 0x40
  ∧ (opaState f).opaFaults cmd0 0 (meWord 0x40 2 3 0) 0xFE00000008000001 (opaInst f) = []
  ∧ pairClass f f = some (cl, int) ∧ smWf ({} : Bank) ((opaState f).cl 0).banks = true
  ∧ smWf 0 (((opaState f).cl 0).bank 0 7 3).el = true
  ∧ ((opaState f).readView ⟨0, 0, ordMe⟩ ((opaInst f).desc' 2) (opaLocs ((opaInst f).desc' 2) 1 (tileRows cl)).flatten).2 = []
  ∧ ((opaState f).readView ⟨0, 0, ordMe⟩ ((opaInst f).desc' 3) (opaLocs ((opaInst f).desc' 3) 1 (tileCols cl)).flatten).2 = []

theorem test_opaInteger : OpaMet 8 1 true := by decide +kernel
theorem test_opaFloat : OpaMet 1 0 false := by decide +kernel

/-- ACCS of one element of acc3 of ME 7, rows along dimension 1 and columns along dimension 0, with stochastic rounding. -/
theorem test_accs :
    let w : W64 := BitVec.ofNat 64 (0x43 * 2 ^ 56 + 31 * 2 ^ 47 + 2 * 2 ^ 42 + 57 * 2 ^ 36 + 56 * 2 ^ 30 + 2 ^ 29 + 63 * 2 ^ 18
      + 63 * 2 ^ 12)
    let i := { inst0 [] with desc := [(2, dsc buf 1 1 1)], bankInit := 0x80000000 }
    let s := runsOn { own0 with banks := [(31, { el := [(4095, 0x3F800000)] })] } cmd0 [w] i
    s.Issues 0 w cmd0 i [w] ∧ s.Room 0 cmd0 (meOf w) ∧ opOf w = 0x43 ∧ s.accsFaults cmd0 0 w i = []
      ∧ (s.placeWrites 0 0 (s.accsWrites cmd0 0 w i)).2 = [] ∧ smWf none (s.cl 0).asm = true
      ∧ then' (exec (.accs 0 w) s) (fun t => decide (t.infl.map (fun x => (x.addr, x.val)) = [(buf, 0x80), (buf + 1, 0x3F)])
          && on0 t fun j => j.gen == genSteps 1 1) = true := by decide +kernel

/-! ### The copy engine -/

/-- An instance with descriptors t1 and t2. -/
def inst12 (d1 d2 : BitVec 256) : Inst := { inst0 [] with desc := [(1, d1), (2, d2)] }

theorem test_copies :
    (let w := word 0x30 1 2 0 0 3
     let w2 : W64 := 0xFE00000000000000
     let i := inst12 (dsc buf 1 2 1) (dsc 0x1000 1 2 1)
     let s := { runsOn own0 cmd0 [w, w2] i with mem := [(0x1000, 5), (0x1003, 6)] }
     let as := (i.desc' 2).touched (i.desc' 2).locs
     let r := Claims.fetched s cmd0 0 w as
     let m := r.cpyMove i ⟨0, 0, ordCe 3⟩ w2 (i.desc' 2) (i.desc' 1)
     s.Issues2 0 w w2 cmd0 i [w, w2] ∧ s.Room 0 cmd0 (ceOf w) ∧ Idle s ∧ opOf w = 0x30
      ∧ s.cpyFaults cmd0 0 w w2 (i.desc' 2) (i.desc' 1) = [] ∧ Claims.InletsOpen s cmd0 0 as ∧ m.2.1 = []
      ∧ (∀ x ∈ m.1, r.otherPkg 0 x.1 = false) ∧ (r.placeWrites 0 0 m.1).2 = []
      ∧ then' (exec (.cpy 0 w w2) s) (fun t => decide (t.infl.map (fun x => (x.addr, x.val)) =
          [(buf, 5), (buf + 1, 0), (buf + 2, 0), (buf + 3, 6)]) && on0 t fun j => j.pc == 2) = true)
    ∧ (let w := word 0x32 1 0 0 0 0
     let c := { cmd0 with outs := [(0x2000, 64)] }
     let i := inst12 (dsc 0x2000 0 8 1 + 0x3F800000000000000000) 0
     let s := runs c [w] i
     s.Issues 0 w c i [w] ∧ s.Room 0 c (ceOf w) ∧ Idle s ∧ opOf w = 0x32 ∧ s.fillFaults c 0 w (i.desc' 1) = []
      ∧ (s.placeWrites 0 0 (fillWrites (i.desc' 1))).2 = []
      ∧ then' (exec (.fill 0 w) s) (fun t => decide (t.infl.length = 32
          ∧ (t.infl.map (fun x => (x.addr, x.val))).drop 30 = [(0x201E, 0x80), (0x201F, 0x3F)])) = true)
    ∧ (let w := word 0x33 1 0 0 0 4
     let i := inst12 (dsc 0x2000 0 8 1) 0
     let s := { runs cmd0 [w] i with memc := { separate := false }, tens := [(0, { leaves := [⟨0, 65536, 0, false, false, 2⟩] })] }
     s.Issues 0 w cmd0 i [w] ∧ s.Room 0 cmd0 (ceOf w) ∧ Idle s ∧ opOf w = 0x33 ∧ fld w 46 4 = 0 ∧ fld w 3 2 ≠ 3
      ∧ s.descFaults 0 false (i.desc' 1) = []
      ∧ then' (exec (.pref 0 w) s) (fun t => on0 t fun j => decide (j.hints = [{ va := 0, tier := 1 }])) = true)
    ∧ (let w := word 0x31 1 2 0 0 0
     let i := inst12 (dsc buf 8 4 1) (dsc 0 8 4 1 + BitVec.ofNat 256 (1023 * 2 ^ 86))
     let v : OwnerVer := { log2 := 16, entries := [(0x3000, 0, true)], frame := 0, since := some 0, cid := none }
     let s := { runsOn own0 cmd0 [w] i with tens := [(0, { owners := [(1023, [v])] })], mem := [(0x3001, 9)] }
     let as := s.ownedLocal v ((i.desc' 2).touched (i.desc' 2).locs)
     let r := Claims.fetched s cmd0 0 w as
     let m := r.cpyrMove cmd0 ⟨0, 0, ordCe 0⟩ v (i.desc' 2) (i.desc' 1)
     s.Issues 0 w cmd0 i [w] ∧ s.Room 0 cmd0 (ceOf w) ∧ Idle s ∧ opOf w = 0x31 ∧ s.ownerFor cmd0 (i.desc' 2).owner = some v
      ∧ s.cpyrFaults cmd0 0 w (i.desc' 2) (i.desc' 1) (some v) = [] ∧ Claims.InletsOpen s cmd0 0 as ∧ m.2.1 = []
      ∧ (r.placeWrites 0 0 m.1).2 = []
      ∧ then' (exec (.cpyr 0 w) s) (fun t => decide (t.infl.map (fun x => (x.addr, x.val)) =
          [(buf, 0), (buf + 1, 9), (buf + 2, 0), (buf + 3, 0)])) = true) := by
  refine ⟨?_, ?_, ?_, ?_⟩ <;> decide +kernel

/-- CPY of two elements to package 1, whose pages take them. -/
theorem test_remoteCopy (h : ∀ p a k, Config.remoteFault p a k = false) :
    let w := word 0x30 1 2 0 0 3
    let w2 : W64 := 0xFE00000000000000
    let i := inst12 (dsc 0xF00100000000 1 2 1) (dsc 0x1000 1 2 1)
    let y : YardRec := { id := 1, count := 2, hashes := [], cabling := [], pairing := [(0, some 0), (1, some 63)] }
    let s := { runsOn own0 cmd0 [w, w2] i with
      mem := [(0x1000, 5)]
      glb := { yard := some y, valid := true, count := 2, live := 3 }, fab := { routes := [(1, { ports := 1, hops := 1, valid := true })] } }
    let as := (i.desc' 2).touched (i.desc' 2).locs
    let r := Claims.fetched s cmd0 0 w as
    let m := r.cpyMove i ⟨0, 0, ordCe 3⟩ w2 (i.desc' 2) (i.desc' 1)
    s.Issues2 0 w w2 cmd0 i [w, w2] ∧ s.Room 0 cmd0 (ceOf w) ∧ Idle s ∧ opOf w = 0x30
      ∧ s.cpyFaults cmd0 0 w w2 (i.desc' 2) (i.desc' 1) = [] ∧ Claims.InletsOpen s cmd0 0 as ∧ r.reachable 1 = true
      ∧ (r.asOf cmd0.dispSeq).pairOf 0 1 = some 63 ∧ m.2.1 = [] ∧ m.1 ≠ []
      ∧ (∀ x ∈ m.1, isWindow x.1 = true ∧ r.window 0 x.1 = .remote 1 ∧ Config.remoteFault 1 x.1 r.freeIx = false) := by
  intro w w2 i y s as r m
  refine ⟨?_, ?_, ?_, ?_, ?_, ?_, ?_, ?_, ?_, ?_, fun x hx => ?_⟩
  iterate 10 decide +kernel
  have hm : ∀ x ∈ m.1, isWindow x.1 = true ∧ r.window 0 x.1 = .remote 1 := by decide +kernel
  exact ⟨(hm x hx).1, (hm x hx).2, h _ _ _⟩

/-- A VALID record for format 6, whose six symbols are coded. -/
def rec6 : List Byte := mkRecord 6 [1, 3, 3, 3, 4, 4]

theorem test_code :
    (let w := word 0x37 1 2 0 0 0
     let i := inst12 (BitVec.ofNat 256 (buf + 8 * 2 ^ 48 + 2 ^ 52 + 39 * 2 ^ 96 + 39 * 2 ^ 166)) (dsc 0x1000 6 4 1)
     let s := runsOn own0 cmd0 [w] i
     let a := i.desc' 2
     let b := i.desc' 1
     let r := Claims.fetched s cmd0 0 w (a.touched (a.locs.filter Option.isSome))
     let v := r.readView ⟨0, 0, ordCe 0⟩ a (a.locs.filter Option.isSome)
     let wr := ((((List.range (16 + 4 * numSyms a.fmt)).map fun k => b.at 9 [Int.ofNat k, 0, 0, 0, 0]).zip
        (histBytes a.fmt (a.locs.filter Option.isSome).length (histCounts a.fmt (v.1.map (·.1))))).flatMap fun x =>
          match x.1 with | some l => [(b.base + l.byte, (0xFF : Byte), x.2)] | none => [])
     s.Issues 0 w cmd0 i [w] ∧ s.Room 0 cmd0 (ceOf w) ∧ Idle s ∧ opOf w = 0x37 ∧ fld w 9 8 = 0 ∧ s.histFaults cmd0 0 w a b = [] ∧ v.2 = []
      ∧ Claims.InletsOpen s cmd0 0 (a.touched (a.locs.filter Option.isSome)) ∧ (r.placeWrites 0 0 wr).2 = [])
    ∧ (let w := word 0x37 1 2 0 0 (256 + 7 * 16)
     let i := inst12 (dsc 0 6 4 1 + BitVec.ofNat 256 (63 * 2 ^ 80)) (dsc 0x1000 8 40 1)
     let s := { runsOn own0 cmd0 [w] i with
       tens := [(0, { tsets := [(63, some { minGain := 0, records := [] })] })]
       mem := [(0x1000, 6), (0x1010, 9), (0x1014, 1)] }
     let a := i.desc' 2
     let r1 := Claims.fetched s cmd0 0 w (a.touched (a.recordAt 4))
     let ls := (a.recordAt (16 + 4 * numSyms 6)).drop (a.recordAt 4).length
     let r := Claims.fetched r1 cmd0 0 w (a.touched ls)
     Claims.InletsOpen s cmd0 0 (a.touched (a.recordAt 4)) ∧ Claims.InletsOpen r1 cmd0 0 (a.touched ls) ∧ s.Issues 0 w cmd0 i [w] ∧ s.Room 0 cmd0 (ceOf w) ∧ Idle s ∧ opOf w = 0x37 ∧ fld w 9 8 = 1 ∧ s.tableFaults cmd0 0 w a (i.desc' 1) = []
      ∧ fieldN (r1.recordBytes ⟨0, 0, ordCe 0⟩ a 4).1 0 4 = 6 ∧ fmtFloat 6 = true
      ∧ (r.recordBytes ⟨0, 0, ordCe 0⟩ a (16 + 4 * numSyms 6)).2 = [])
    ∧ (let w := word 0x37 1 2 0 0 512
     let i := inst12 (dsc buf 6 4 1 + BitVec.ofNat 256 (2 ^ 80)) (dsc 0x1000 6 4 1)
     let s := { runsOn own0 cmd0 [w] i with tens := [(0, { tsets := [(1, some { minGain := 0, records := [(0, rec6)] })] })] }
     let a := i.desc' 2
     let b := i.desc' 1
     let o := (encOrder a b).getD []
     let r := Claims.fetched s cmd0 0 w (a.touched a.locs)
     let v := r.readView ⟨0, 0, ordCe 0⟩ a (o.map fun x => a.at 9 x.2)
     let wr := ((r.encBlocks cmd0 w b ((o.zip v.1).map fun x => (x.1.1, x.2.1))).flatMap fun x =>
        byteWrites (b.slot x.1) (r.lineBytes (b.slot x.1) x.2.1))
     s.Issues 0 w cmd0 i [w] ∧ s.Room 0 cmd0 (ceOf w) ∧ Idle s ∧ opOf w = 0x37 ∧ fld w 9 8 = 2 ∧ s.encFaults cmd0 0 w a b = []
      ∧ (encOrder a b).isSome = true ∧ Claims.InletsOpen s cmd0 0 (a.touched a.locs) ∧ v.2 = [] ∧ (r.placeWrites 0 0 wr).2 = []) := by
  refine ⟨?_, ?_, ?_⟩ <;> decide +kernel

/-! ### Key/value instructions -/

/-- A layout of one layer and one head of 32 elements in FP8 for function 0, its pool at 0x200000 and its troughs at 0. -/
def lay0 : LayoutRec :=
  { layers := 1, heads := 1, dim := 32, format := 3, tset := 0, mask := 0xFF, poolBase := 0x200000, poolUnits := 64, troughBase := 0
    troughSlots := 4 }
/-- A running context with FILL settled tokens in places 0 upward, and its command. -/
def ctx0 (fill candMax : Nat) : Ctx := { state := 2, layout := 0, candMax := candMax, fill := fill, map := 0x10, len := fill, maxLen := 64 }
def kvCmd (x : Ctx) : Cmd := { cmd0 with batch := [9], snap := [x] }
def kvState (x : Ctx) (w : W64) (i : Inst) : State :=
  { runsOn own0 (kvCmd x) [w] i with
    serv := { ctxs := [(9, x)] }
    tens := [(0, { layouts := [(0, some lay0)] })] }

/-- The only free run is taken. -/
theorem takeRun_only (s : State) (l : LayoutRec) (u n k : Nat) (hn : l.poolUnits / u = n) (hr : l.returning = []) (hk : k < n)
    (h1 : runFree l.units u k = true) (h0 : ∀ r, r < n → r ≠ k → runFree l.units u r = false)
    (hm : k < sumN (l.units.map (·.2)) + 1) : s.takeRun l u = some (k * u) := by
  have hl : l.units ++ l.returning.map (fun x => (x.1, x.2.1)) = l.units := by simp [hr]
  simp only [State.takeRun, hl, hn]
  rw [if_neg (by omega)]
  by_cases hc : s.free 3 % n = k
  · rw [hc, if_pos h1]
  · rw [if_neg (by simp [h0 _ (Nat.mod_lt _ (by omega)) hc]),
      List.find?_range_eq_some.mpr ⟨h1, List.mem_range.mpr (by omega), fun r h => by simp [h0 r (by omega) (by omega)]⟩]
    rfl

/-- The layout with one unit. -/
def layK : LayoutRec := { lay0 with poolUnits := 1 }
theorem takeRun_layK (s : State) : s.takeRun layK (layK.u 0) = some 0 :=
  takeRun_only s layK 1 1 0 (by decide) rfl (by decide) (by decide) (by decide) (by decide)

theorem test_kva :
    let w := word 0x34 1 2 3 0 0
    let x := ctx0 1 16
    let i := { inst12 (dsc buf 3 32 1) (dsc (buf + 64) 3 32 1) with sreg := [(3, 1 + 0xE00 + 0x1000 + 0x40000000)] }
    let s := { kvState x w i with mem := [(buf, 7), (buf + 64, 9)] }
    let as := (i.desc' 1).touched (i.desc' 1).locs ++ (i.desc' 2).touched (i.desc' 2).locs
    let r := Claims.fetched s (kvCmd x) 0 w as
    let a := r.readView ⟨0, 0, ordCe 0⟩ (i.desc' 1) (i.desc' 1).locs
    let b := r.readView ⟨0, 0, ordCe 0⟩ (i.desc' 2) (i.desc' 2).locs
    let wr := kvaWrites lay0 x (i.s 3).toNat 3 3 a.1 b.1
    s.Issues 0 w (kvCmd x) i [w] ∧ s.Room 0 (kvCmd x) (ceOf w) ∧ Idle s ∧ opOf w = 0x34 ∧ s.slotCtx (kvCmd x) 0 = some (x, lay0)
      ∧ s.kvaFaults (kvCmd x) 0 w i x lay0 = [] ∧ Claims.InletsOpen s (kvCmd x) 0 as ∧ a.2 = [] ∧ b.2 = []
      ∧ (r.placeWrites 0 0 wr).2 = []
      ∧ (wr.map (fun y => (y.1, y.2.2))).take 1 = [(15 * 32, 7)] := by decide +kernel

theorem test_kvg :
    let w := word 0x35 1 2 3 0 0
    let x := ctx0 1 16
    let i := { inst12 (dsc buf 3 32 128) 0 with sreg := [(3, 1)] }
    let s := kvState x w i
    let sl := kvgSlots lay0 x 0 0 1
    let as := s.kvgSrc lay0 x 0 sl
    let r := Claims.fetched s (kvCmd x) 0 w as
    let bs := sl.map ((r.asOf (kvCmd x).dispSeq).kvgBytes ⟨0, 0, ordCe 0⟩ lay0 x.trough 0)
    let wr := (bs.zipIdx.flatMap fun b => byteWrites ((i.desc' (fA w)).slot b.2) b.1.1)
      ++ byteWrites ((i.desc' (fA w)).slot ((i.desc' (fA w)).bnd.getD 1 1 / lay0.bt)) (kvgMap lay0.bt 1 sl)
    s.Issues 0 w (kvCmd x) i [w] ∧ s.Room 0 (kvCmd x) (ceOf w) ∧ Idle s ∧ opOf w = 0x35 ∧ s.slotCtx (kvCmd x) 0 = some (x, lay0)
      ∧ s.kvgFaults (kvCmd x) 0 w i x lay0 = [] ∧ Claims.InletsOpen s (kvCmd x) 0 as ∧ bs.flatMap (·.2) = []
      ∧ (r.placeWrites 0 0 wr).2 = [] := by decide +kernel

theorem test_kvf :
    (let w := word 0x36 0 0 0 0 3
     let x := ctx0 1 15
     let i := inst0 []
     let s := kvState x w i
     let as := (s.kvfReads (kvCmd x) i [0]).flatMap (·.1)
     s.Issues 0 w (kvCmd x) i [w] ∧ s.Room 0 (kvCmd x) (ceOf w) ∧ opOf w = 0x36 ∧ fld w 51 2 = 0 ∧ i.settles = []
      ∧ s.kvfFaults (kvCmd x) 0 i [0] = [] ∧ Claims.InletsOpen s (kvCmd x) 0 as
      ∧ (Claims.fetched s (kvCmd x) 0 w as).slotCtx (kvCmd x) 0 = some (x, lay0)
      ∧ (flushPlaces x 0).1.length < x.mark
      ∧ then' (exec (.kvf 0 w) s) (fun t => on0 t fun j => j.pc == 1 && j.flushes.isEmpty) = true)
    ∧ (let w := word 0x36 0 0 0 0 3
     let x := ctx0 1 16
     let i := inst0 []
     let s := { kvState x w i with tens := [(0, { layouts := [(0, some layK)] })] }
     let as := (s.kvfReads (kvCmd x) i [0]).flatMap (·.1)
     let r := Claims.fetched s (kvCmd x) 0 w as
     let o := r.flushPage ⟨0, 0, ordCe 3⟩ layK 0 0 (flushPlaces x 0).1
     s.Issues 0 w (kvCmd x) i [w] ∧ s.Room 0 (kvCmd x) (ceOf w) ∧ Idle s ∧ x.mark ≤ (flushPlaces x 0).1.length
      ∧ s.kvfFaults (kvCmd x) 0 i [0] = [] ∧ Claims.InletsOpen s (kvCmd x) 0 as
      ∧ (r.ctx 9).pages.length < 512 ∧ r.slotCtx (kvCmd x) 0 = some (x, layK) ∧ o.faults = []
      ∧ (r.placeWrites 0 0 o.writes).2 = []) := by
  refine ⟨?_, ?_⟩ <;> decide +kernel

/-! ### Synchronisation -/

/-- A word of the sync group: counter, and fields below bit 46. -/
def sync (op ctr low : Nat) : W64 := BitVec.ofNat 64 (op * 2 ^ 56 + ctr * 2 ^ 46 + low)

/-- A registered gate of one layer in epoch 5. -/
def gate5 : GateRec := { man := { model := 0, epoch := 5, shard := 0, shards := 1, owner := 0, layers := [⟨0, 65536, 1, 0⟩] }, epoch := 5 }

theorem test_waitsBegin :
    (let w := sync 0x70 63 (2 ^ 45 + 3)
     let i := inst0 []
     let s := runs cmd0 [w] i
     s.Issues 0 w cmd0 i [w] ∧ opOf w = 0x70 ∧ fld w 44 32 = 0 ∧ (s.cl 0).mayUse 0 (ctrNo w) = true
      ∧ then' (exec (.wait 0 w) s) (fun t => on0 t fun j => decide (j.wait = some (.counter 63 3 true) ∧ j.pc = 1)
          && decide (smGet none (t.cl 0).sharedTag 63 = some 0)) = true)
    ∧ (let w : W64 := BitVec.ofNat 64 (0x73 * 2 ^ 56 + 2 * 2 ^ 50 + 7 * 2 ^ 47)
     let i := inst0 [(0, 5)]
     let s := runs cmd0 [w] i
     s.Issues 0 w cmd0 i [w] ∧ opOf w = 0x73 ∧ fld w 41 0 = 0 ∧ fld w 51 50 ≠ 3 ∧ fB w = 0
      ∧ exec (.bar 0 w) s = .next ({ s with cmds := { s.cmds with arrivals := [⟨1, 2, 7, 0, 0, 5⟩] } }.goes 0 (Inst.advance
        { i with wait := some (.barrier 2 7 5) } 1)))
    ∧ (let w : W64 := BitVec.ofNat 64 (0x73 * 2 ^ 56 + 3 * 2 ^ 50 + 7 * 2 ^ 47)
     let c := { cmd0 with gang := 3, gangSize := 2 }
     let i := inst0 [(0, 5)]
     let y : YardRec := { id := 1, count := 2, hashes := [], cabling := [], pairing := [(0, some 0), (1, some 63)] }
     let s := { runs c [w] i with glb := { yard := some y, valid := true, count := 2, live := 3 } }
     s.Issues 0 w c i [w] ∧ opOf w = 0x73 ∧ fld w 41 0 = 0 ∧ fld w 51 50 = 3 ∧ c.gangSize ≠ 0
      ∧ then' (exec (.bar 0 w) s) (fun t => decide (t.fab.outbox = [.barrier 1 (srcSeq 0) 0 0 3 7 0])
          && on0 t fun j => decide (j.wait = some (.barrier 3 7 5))) = true)
    ∧ (let w := word 0x74 5 0 0 0 (63 * 2 ^ 16)
     let i := inst0 []
     let s := { runs cmd0 [w] i with tens := [(0, { gates := [(63, some gate5)] })] }
     s.Issues 0 w cmd0 i [w] ∧ opOf w = 0x74 ∧ rsvFaults w [(46, 22), (15, 10)] = [] ∧ (∀ h, i.holds.head? = some h → h.2 ≤ fld w 9 0) ∧ s.gate 0 63 = some gate5
      ∧ fld w 9 0 < gate5.man.layers.length
      ∧ then' (exec (.gate 0 w) s) (fun t => on0 t fun j => decide (j.wait = some (.gate 5 63 0))
          && decide ((t.cmd 1).map (·.epoch) = some 5)) = true)
    ∧ (let w := word 0x75 5 0 0 0 0
     let i := inst0 [(5, 9)]
     let s := runs cmd0 [w] i
     s.Issues 0 w cmd0 i [w] ∧ opOf w = 0x75 ∧ fld w 46 0 = 0
      ∧ then' (exec (.tickw 0 w) s) (fun t => on0 t fun j => decide (j.wait = some (.tick 9))) = true)
    ∧ (let w := sync 0x76 0 0x3FFF
     let i := inst0 []
     let s := runs cmd0 [w] i
     s.Issues 0 w cmd0 i [w] ∧ opOf w = 0x76 ∧ fld w 51 14 = 0
      ∧ then' (exec (.fence 0 w) s) (fun t => on0 t fun j => decide (j.wait = some (.fence 0x3FFF))) = true) := by
  refine ⟨?_, ?_, ?_, ?_, ?_, ?_⟩
  · decide +kernel
  · exact ⟨by decide, by decide, by decide, by decide, by decide, rfl⟩
  all_goals decide +kernel

theorem test_signalsBegin :
    (let w := sync 0x71 31 (0x7F * 2 ^ 39 + 65535)
     let i := inst0 []
     let s := runs cmd0 [w] i
     s.Issues 0 w cmd0 i [w] ∧ opOf w = 0x71 ∧ fld w 38 16 = 0 ∧ s.sigFaults cmd0 0 (ctrNo w) (fld w 15 0) = []
      ∧ then' (exec (.sig 0 w) s) (fun t => decide (t.cmds.sigs = [⟨1, 0, 31, 65535, 0⟩]) && on0 t fun j => j.pc == 1) = true)
    ∧ (let w := sync 0x71 32 1
     let i := inst0 []
     let s := runs cmd0 [w] i
     s.sigFaults cmd0 0 (ctrNo w) (fld w 15 0) = []
      ∧ then' (exec (.sig 0 w) s) (fun t => decide (t.cmds.sigs = []) && on0 t fun j => decide (j.sigs = [⟨none, 0, 32, 1⟩])) = true)
    ∧ (let w := sync 0x72 0 1
     let i := inst0 []
     let s := runs cmd0 [w] i
     s.Issues 0 w cmd0 i [w] ∧ opOf w = 0x72 ∧ fld w 34 16 = 0 ∧ fld w 45 42 = (if s.glb.valid then s.glb.index else 0)
      ∧ s.sigFaults cmd0 (fld w 41 35) (ctrNo w) (fld w 15 0) = []
      ∧ then' (exec (.sigr 0 w) s) (fun t => decide (t.cmds.sigs = [⟨1, 0, 0, 1, 0⟩])) = true)
    ∧ (let w := sync 0x72 31 (15 * 2 ^ 42 + 95 * 2 ^ 35 + 1)
     let c := { cmd0 with gang := 3, gangSize := 2 }
     let i := inst0 []
     let s := { runs c [w] i with glb := { valid := true, count := 16, live := 0x8001 }, fab := { routes := [(15, { ports := 1, hops := 1, valid := true })] } }
     s.Issues 0 w c i [w] ∧ opOf w = 0x72 ∧ fld w 34 16 = 0 ∧ fld w 45 42 ≠ (if s.glb.valid then s.glb.index else 0)
      ∧ fld w 15 0 ≠ 0 ∧ fld w 41 35 < 96 ∧ ctrNo w < 32 ∧ c.gangSize ≠ 0 ∧ s.reachable (fld w 45 42) = true
      ∧ then' (exec (.sigr 0 w) s) (fun t => decide (t.fab.outbox = [.sigr 15 (srcSeq 0) 0 0 95 31 1 0 3])) = true) := by
  refine ⟨?_, ?_, ?_, ?_⟩ <;> decide +kernel

/-- A state whose instance on cluster 0 waits. -/
def waits (k : Cluster) (c : Cmd) (x : WaitOn) : State := runsOn k c [] { inst0 [] with wait := some x }

theorem test_waitsEnd :
    (let s := waits { shared := [(63, 5)], sharedTag := [(63, some 0)] } cmd0 (.counter 63 5 true)
     s.waiting 0 = some (cmd0, { inst0 [] with wait := some (.counter 63 5 true) }, .counter 63 5 true)
      ∧ (s.cl 0).counter 1 63 = 5 ∧ (s.cl 0).mayUse 0 63 = true ∧ smWf 0 (s.cl 0).shared = true
      ∧ then' (exec (.waitResolve 0) s) (fun t => decide ((t.cl 0).counter 1 63 = 0) && on0 t fun j => decide (j.wait = none)) = true)
    ∧ (let c := { cmd0 with epoch := 5 }
     let s := { waits {} c (.gate 4 0 0) with tens := [(0, { gates := [(0, some gate5)] })] }
     s.waiting 0 = some (c, { inst0 [] with wait := some (.gate 4 0 0) }, .gate 4 0 0) ∧ s.gate 0 0 = some gate5
      ∧ gate5.holdsEpoch 0 c.epoch = true
      ∧ then' (exec (.gatePass 0) s) (fun t => on0 t fun j => decide (j.wait = none) && j.s 4 == 5) = true)
    ∧ (let s := waits {} cmd0 (.tick 0)
     s.waiting 0 = some (cmd0, { inst0 [] with wait := some (.tick 0) }, .tick 0) ∧ 0 ≤ diff32 (BitVec.ofNat 32 s.tick) 0
      ∧ then' (exec (.tickwResolve 0) s) (fun t => on0 t fun j => decide (j.wait = none)) = true)
    ∧ (let s := { waits {} cmd0 (.fence 0x3FFF) with infl := [⟨0, 13, 0, 1, 0x80, 0xF0, 0xAB⟩, ⟨1, 13, 0, 1, 0x81, 0xFF, 1⟩]
                                                     mem := [(0x80, 0x11)] }
     s.waiting 0 = some (cmd0, { inst0 [] with wait := some (.fence 0x3FFF) }, .fence 0x3FFF) ∧ Memory.wf s.mem
      ∧ s.unacks 0 0x3FFF = false ∧ s.memc.rateBusy = false ∧ (∀ x ∈ s.infl, isRegs x.addr = false)
      ∧ s.memc.poison = [] ∧ s.memc.upset = [] ∧ s.infl.filter (fun y => y.addr == 0x80) = [⟨0, 13, 0, 1, 0x80, 0xF0, 0xAB⟩]
      ∧ then' (exec (.fenceResolve 0) s) (fun t => decide (t.mem = [(0x80, 0xA1)] ∧ t.infl = [⟨1, 13, 0, 1, 0x81, 0xFF, 1⟩])
          && on0 t fun j => decide (j.wait = none)) = true)
    ∧ (let s := { waits {} cmd0 (.fence 0x3FFF) with infl := [⟨0, 13, 0, 1, regBase, 0xFF, 1⟩] }
     s.waiting 0 = some (cmd0, { inst0 [] with wait := some (.fence 0x3FFF) }, .fence 0x3FFF) ∧ s.memc.loftGib ≤ 512
      ∧ (∃ x ∈ s.infl, x.cl = 0 ∧ (0x3FFF : BitVec 14).getLsbD x.writer = true ∧ isRegs x.addr = true)
      ∧ then' (exec (.fenceResolve 0) s) (fun t => on0 t fun j => decide (j.wait = some (.fence 0x3FFF))) = true)
    ∧ (let u : Unacked := { cmd := 1, op := 0, pkg := 1, src := 13, msg := .remoteWrite 1 13 0 0 63 [] }
     let s := { waits {} cmd0 (.fence 0x3FFF) with fab := { unacked := [u] } }
     s.waiting 0 = some (cmd0, { inst0 [] with wait := some (.fence 0x3FFF) }, .fence 0x3FFF)
      ∧ (∃ x ∈ s.fab.unacked, x.src / 16 = 0 ∧ (0x3FFF : BitVec 14).getLsbD (x.src % 16) = true)
      ∧ then' (exec (.fenceResolve 0) s) (fun t => on0 t fun j => decide (j.wait = some (.fence 0x3FFF))) = true) := by
  refine ⟨?_, ?_, ?_, ?_, ?_, ?_⟩
  iterate 4 decide +kernel
  · exact ⟨by decide +kernel, by decide, ⟨_, List.mem_singleton.mpr rfl, by decide⟩, by decide +kernel⟩
  · exact ⟨by decide +kernel, ⟨_, List.mem_singleton.mpr rfl, by decide⟩, by decide +kernel⟩

/-- A state whose instance on cluster 0 waits at a barrier where it has arrived. -/
def atBarrier (scope : Nat) : State :=
  let s := waits {} cmd0 (.barrier scope 7 0)
  { s with cmds := { s.cmds with arrivals := [⟨1, scope, 7, 0, 0, 0⟩] } }

/-- It has left the barrier. -/
def released (t : State) : Bool := decide (t.cmds.arrivals = []) && on0 t fun j => decide (j.wait = none)

theorem test_barrierRelease :
    ((atBarrier 0).alive = true ∧ (atBarrier 0).cmd 1 = some cmd0 ∧ cmd0.st = .running
      ∧ (((atBarrier 0).arrivals 1 0 7).any fun a => a.who == 0) = true ∧ (((atBarrier 0).cl 0).ops.any fun o => o.cmd == 1) = false
      ∧ then' (exec (.barrierRelease 1 0 7 0) (atBarrier 0)) released = true)
    ∧ (cmd0.place.filter (fun h => regionOf h == 0) = [0] ∧ allArrived ((atBarrier 1).arrivals 1 1 7) [0] = true
      ∧ then' (exec (.barrierRelease 1 1 7 0) (atBarrier 1)) released = true)
    ∧ (cmd0.place ≠ [] ∧ allArrived ((atBarrier 2).arrivals 1 2 7) cmd0.place = true
      ∧ then' (exec (.barrierRelease 1 2 7 0) (atBarrier 2)) released = true) := by
  refine ⟨?_, ?_, ?_⟩ <;> decide +kernel

theorem test_arrivals :
    (let s0 := runs cmd0 [] { inst0 [] with ctr := [(31, 0xFFFFFFFF)] }
     let s := { s0 with cmds := { s0.cmds with sigs := [⟨1, 0, 31, 2, 0⟩] } }
     s.alive = true ∧ s.cmds.sigs[0]? = some ⟨1, 0, 31, 2, 0⟩
      ∧ then' (exec (.signalArrival (.inFlight 0)) s) (fun t => decide (t.cmds.sigs = [] ∧ (t.cl 0).counter 1 31 = 0xFFFFFFFF)) = true)
    ∧ (let c := { cmd0 with gang := 3, gangSize := 2 }
     let y : YardRec := { id := 1, count := 2, hashes := [], cabling := [], pairing := [(0, some 0), (1, some 63)] }
     let s := { runs c [] (inst0 []) with glb := { yard := some y, valid := true, count := 2 } }
     s.member 3 = some c ∧ (s.asOf c.dispSeq).pairFrom 1 63 = some 0
      ∧ then' (exec (.signalArrival (.fabric 1 95 0 0 63 3 0 31 65535)) s) (fun t => (t.cl 0).counter 1 31 == 65535
          && then' (exec (.signalArrival (.fabric 1 95 0 0 63 3 0 31 65535)) t) (fun u => decide (u = t))) = true
      ∧ smGet 0 s.fab.seqIn (65536 * 1 + srcSeq 95) = 0 ∧ s.fab.early = [])
    ∧ (let c := { cmd0 with gang := 3, gangSize := 2 }
     let y : YardRec := { id := 1, count := 16, hashes := [], cabling := [], pairing := [(0, some 0), (15, some 63)] }
     let s := { runs c [] (inst0 []) with glb := { yard := some y, valid := true, count := 16 } }
     s.member 3 = some c ∧ (s.asOf c.dispSeq).pairFrom 15 63 = some c.fn
      ∧ then' (exec (.barArrivalMessage ⟨15, 0, 0⟩ 63 3 7 2) s) (fun t => decide (t.cmds.arrivals = [⟨1, 3, 7, 111, 2, 0⟩])
          && then' (exec (.barArrivalMessage ⟨15, 0, 0⟩ 63 3 7 2) t) (fun u => decide (u = t))) = true) := by
  refine ⟨?_, ?_, ?_⟩ <;> decide +kernel

/-- An operation of a unit. -/
def op0 (u : UnitId) : UnitOp := { unit := u, cmd := 1, id := 0, express := false }

/-- A VU operation whose expander is still to take block 0 of descriptor d. -/
def opX (d : BitVec 256) : UnitOp := { op0 .vu with feeds := [⟨16, d, [(0, 0, 3)]⟩] }

theorem test_unitEvents :
    (let o : UnitOp := { op0 (.me 7) with acc := (3, 2), duty := (1, 2) }
     let s := runsOn { ops := [o] } cmd0 [] (inst0 [])
     s.alive = true ∧ ((s.cl 0).ending (.me 7))[0]? = some o ∧ s.stabled 0 = false
      ∧ (o.remote.any fun p => (s.route p).ports == 0) = false ∧ (s.fab.unacked.any fun x => x.op == o.id) = false
      ∧ s.memc.late = [] ∧ s.memc.waiting = [] ∧ s.memc.chans = [] ∧ s.memc.rateBusy = false
      ∧ smWf ({} : Chan) s.memc.chans = true ∧ smWf ({} : Cluster) s.clusters = true
      ∧ then' (exec (.unitOperationComplete 0 (.me 7) ⟨0, none⟩) s) (fun t => (t.cl 0).ops.isEmpty) = true
      ∧ s.cmd 1 = some cmd0
      ∧ then' (exec (.unitOperationComplete 0 (.me 7) ⟨0, some .buffer⟩) s)
          (fun t => decide (t.far.front = [0]) && t.endFaulted.cmds.list.isEmpty) = true
      ∧ then' (exec (.unitOperationComplete 0 .vu ⟨0, some .sequencer⟩) s)
          (fun t => decide ((t.cmd 1).map (·.faults) = some [⟨0, fEcc, none, s.loc 0 3 0⟩])) = true)
    ∧ (let d : BitVec 256 := BitVec.ofNat 256 (0x1000 + 8 * 2 ^ 48 + 2 ^ 52 + 2 ^ 80)
     let s := { runsOn { ops := [opX d] } cmd0 [] (inst0 []) with mem := [(0x1000, 0x21), (0x1002, 1), (0x1005, 8)] }
     let h := s.readBs ⟨0, 0, ordVu⟩ (addrs ((descOf d []).slot 0) 16)
     s.expCmd 0 16 = some (cmd0, opX d) ∧ (opX d).nextBlk 16 d = some (0, 0, 3) ∧ h.2 = []
      ∧ hdrFaults (descOf d []).fmt (s.tset 0 (descOf d []).tset) (hdrOf h.1) = []
      ∧ then' (exec (.expanderBlockCheck 0 16 d 0) s) (fun t => decide ((smGet [] (t.cl 0).store 16).map (fun b => (b.desc, b.no, b.last)) = [(d, 0, 3)])) = true
      ∧ then' (exec (.expanderBlockCheck 0 16 d 1) s) (fun t => decide (smGet [] (t.cl 0).store 16 = [])) = true)
    ∧ (let d : BitVec 256 := BitVec.ofNat 256 (0x1000 + 8 * 2 ^ 48 + 2 ^ 52 + 2 ^ 80)
     let b : StoreBlk := ⟨d, 0, [], none, 0, 3⟩
     let s := { runsOn { ops := [opX d], store := [(16, [b])] } cmd0 [] (inst0 []) with mem := memPuts [] 0x1000 (storedBlock 8 [5]) }
     s.expCmd 0 16 = some (cmd0, opX d)
      ∧ (smGet [] (s.cl 0).store 16).find? (fun b => b.is d 0 && b.op == 0) = some b ∧ (s.readHeld ⟨0, 0, ordVu⟩ (descOf d []) b).2 = []
      ∧ then' (exec (.blockCrcCheck 0 16 d 0) s) (fun t => decide ((smGet [] (t.cl 0).store 16).map (·.els.map (·.take 1)) = [some [5]])) = true)
    ∧ (let s0 := runs cmd0 [] { inst0 [] with loaded := false }
     let s := { s0 with tens := [(0, { progs := [(0, [5, 6])] })] }
     (s.cl 0).issuing = some { inst0 [] with loaded := false } ∧ s.cmd 1 = some cmd0 ∧ s.stabled 0 = false
      ∧ then' (exec (.programImageLoad 0) s) (fun t => decide ((t.cl 0).image 0 0 = [5, 6]) && on0 t fun j => j.loaded) = true) := by
  refine ⟨?_, ?_, ?_, ?_⟩ <;> decide +kernel

/-! ### Queues -/

/-- A function that runs version 1.4, with its queues. -/
def fn0 (qs : SMap Queue) : FnBlk := { enable := true, state := 2, major := 1, minor := 4, busMaster := true, queues := qs }
/-- An active queue with rings of 4 entries. -/
def q4 : Queue := { cfg := 0x421, active := true }
/-- A state with that function and some commands. -/
def withFn (f : FnBlk) (l : List Cmd) : State := { State.reset with fns := [(0, f)], cmds := { list := l, nextId := 2 } }
/-- The grooms run. -/
def up (s : State) : State :=
  { s with grm := { s.grm with grooms := [(0, { state := 1 }), (1, { state := 1 }), (2, { state := 1 }), (3, { state := 1 })] } }

theorem test_doorbell :
    (let s := withFn (fn0 [(1, { q4 with sqHead := 0xFFFFFFFE })]) []
     s.alive = true ∧ (s.queue 0 1).active = true ∧ sqSize (s.queue 0 1) = 4 ∧ ((2 : W32) - (s.queue 0 1).sqHead).toNat ≤ sqSize (s.queue 0 1)
      ∧ then' (exec (.sqTail 0 1 2) s) (fun t => decide ((t.queue 0 1).sqTail = 2 ∧ (t.queue 0 1).marks = [(2, 1)])) = true
      ∧ sqSize (s.queue 0 1) < ((3 : W32) - (s.queue 0 1).sqHead).toNat
      ∧ then' (exec (.sqTail 0 1 3) s) (fun t => decide ((t.queue 0 1).sqTail = 0) && (t.queue 0 1).overrun) = true)
    ∧ (let s := withFn (fn0 [(1, { q4 with cqHead := 0xFFFFFFFF, cqTail := 3, cqFull := true })]) []
     ((3 : W32) - (s.queue 0 1).cqHead).toNat ≤ ((s.queue 0 1).cqTail - (s.queue 0 1).cqHead).toNat ∧ (s.queue 0 1).held = []
      ∧ then' (exec (.cqHead 0 1 3) s) (fun t => decide ((t.queue 0 1).cqHead = 3) && !(t.queue 0 1).cqFull) = true) := by
  refine ⟨?_, ?_⟩ <;> decide +kernel

/-- A command entry of phase MAINT, CID 9 and context 5, for cluster 95. -/
def entry5 : List Byte :=
  [9, 0, 0, 0, 4, 0, 0, 0, 0, 0, 5, 0, 1, 0xFF] ++ List.replicate 53 0 ++ [0x80] ++ List.replicate 60 0
/-- The command it is. -/
def cmd5 : Cmd :=
  { cmd0 with id := 2, cid := 9, phase := 4, batch := [5], mask := 0x800000000000000000000000, place := [], st := .queued, seq := 6 }

theorem test_entryFetch :
    let s := withFn (fn0 [(1, { q4 with sqTail := 1, marks := [(1, 6)] })]) []
    s.alive = true ∧ (s.queue 0 1).sqTail ≠ (s.queue 0 1).sqHead ∧ (s.fn 0).busMaster = true ∧ (s.queue 0 1).active = true
      ∧ (s.queue 0 1).cqFull = false ∧ bitN (fieldN entry5 3 1) 2 = false ∧ cfgPush (s.queue 0 1) = false ∧ (s.queue 0 1).closing = false
      ∧ (s.cmds.list.any fun d => d.fn == 0 && d.q == 1 && d.cid == BitVec.ofNat 16 (fieldN entry5 0 2)) = false
      ∧ parseEntry (s.queue 0 1).take.1 0 1 2 (s.queue 0 1).take.2 entry5 [] [] [] = some cmd5
      ∧ fieldN entry5 2 1 = 0 ∧ (s.fn 0).atLeast 1 2 = true ∧ cfgEnable (s.queue 0 1) = true ∧ s.submitFaults cmd5 = []
      ∧ cmd5.notBefore = none ∧ (∀ x ∈ cmd5.batch, (s.ctx x).cancelSeq < (s.queue 0 1).take.2)
      ∧ then' (exec (.entryFetch 0 1 (.entry entry5 [] [] [])) s) (fun t => decide (t.cmds.list = [cmd5])
          && decide ((t.queue 0 1).sqHead = 1)) = true
      ∧ then' (exec (.entryFetch 0 1 (.failed .poisoned)) s) (fun t => decide (t.cmds.list = [] ∧ (t.queue 0 1).sqHead = 1)
          && (t.fn 0).aer == 4) = true
      ∧ then' (exec (.entryFetch 0 1 (.listFailed .unsupported entry5)) s) (fun t => smGet 0 t.hostMem 16 == 9
          && smGet 0 t.hostMem 20 == fTranslation && (t.queue 0 1).cqTail == 1) = true := by
  decide +kernel

/-- A request entry, CID 9, code 0x31 with P0 = 4 and P1 = 5. -/
def entryR : List Byte := [9, 0, 1, 0, 0x31, 0] ++ List.replicate 18 0 ++ [4, 0, 0, 0, 0, 0, 0, 0, 5] ++ List.replicate 95 0

theorem test_otherFetches :
    (let s := withFn (fn0 [(0, { q4 with sqTail := 1, marks := [(1, 6)] })]) []
     let x := s.queue 0 0
     s.alive = true ∧ x.active = true ∧ x.sqTail ≠ x.sqHead ∧ (s.fn 0).busMaster = true ∧ x.cqFull = false ∧ cfgPush x = false ∧ x.closing = false
      ∧ cfgEnable x = true ∧ ((s.fn 0).reqs.any fun r => r.cid == BitVec.ofNat 16 (fieldN entryR 0 2)) = false
      ∧ fieldN entryR 2 1 = 1 ∧ zerosN entryR 3 4 = true ∧ zerosN entryR 6 8 = true ∧ zerosN entryR 20 24 = true
      ∧ (reqCodes.find? fun r => r.1 == fieldN entryR 4 2) = some (0x31, 3, 2) ∧ (s.fn 0).atLeast 1 3 = true
      ∧ zerosN entryR (24 + 8 * 2) 128 = true
      ∧ then' (exec (.entryFetch 0 0 (.entry entryR [] [] [])) s) (fun t => decide ((t.fn 0).reqs = [{ cid := 9, code := 0x31, ops := [4, 5] }])) = true)
    ∧ (let s := withFn (fn0 [(1, { q4 with cfg := 0x423, sqTail := 2, sqHead := 1, marks := [(2, 6)], push := [(768, 9), (771, 4)] })]) []
     let x := s.queue 0 1
     x.active = true ∧ x.sqTail ≠ x.sqHead ∧ cfgPush x = true ∧ bitN (fieldN (x.record 0 128) 3 1) 2 = true ∧ fieldN (x.record 0 128) 0 2 = 9) := by
  decide +kernel

theorem test_abort :
    (let s := { runs cmd0 [] (inst0 []) with fns := [(0, fn0 [(1, q4)])] }
     s.alive = true ∧ (s.queue 0 1).active = true ∧ (s.setLow 0 none).resetComing 0 = false ∧ (s.cmds.list.find? fun c => c.fn == 0 && c.q == 1 && c.cid == (7 : W32).setWidth 16)
        = some cmd0
      ∧ then' (exec (.abort 0 1 7) s) (fun t => t.cmds.list.isEmpty) = true)
    ∧ (let c := { cmd0 with st := .ready, readyBeat := 4 }
     let s := { withFn (fn0 [(1, q4)]) [c] with tim := { ns := 4000 } }
     c.st = .ready ∧ c.gangSize = 0 ∧ s.standing c = false
      ∧ then' (exec (.abort 0 1 7) s) (fun t => t.cmds.list.isEmpty) = true)
    ∧ (let c := { cmd0 with st := .ready, gang := 1, gangSize := 2 }
     let s := withFn (fn0 [(1, q4)]) [c]
     c.st = .ready ∧ c.gangSize ≠ 0 ∧ (s.cmds.list.find? fun c => c.fn == 0 && c.q == 1 && c.cid == (7 : W32).setWidth 16) = some c
      ∧ then' (exec (.abort 0 1 7) s) (fun t => decide (t.cmds.list = [{ c with heldAborts := 1 }])) = true)
    ∧ (let c := { cmd0 with st := .ready, readyBeat := 4 }
     let s := { withFn (fn0 [(1, q4)]) [c] with tim := { ns := 5000 } }
     c.gangSize = 0 ∧ s.standing c = true ∧ then' (exec (.abort 0 1 7) s) (fun t => decide (t.cmds.list = [c]) && (t.queue 0 1).cqTail == 1) = true) := by
  refine ⟨?_, ?_, ?_, ?_⟩ <;> decide +kernel

/-- A completion. -/
def compl0 : Compl := { result := 0, loc := 0, tick := 0, cid := 7, status := 0, kind := 0, detail := 0 }

theorem test_tickEvents :
    (let c := { cmd5 with notBefore := some 0, deadline := some 0xFFFFFFFF }
     let s := withFn (fn0 [(1, { q4 with cfg := 0x429, trel := [(0, compl0)] })]) [c]
     s.alive = true ∧ s.cmd 2 = some c ∧ s.ticksTo 0 ≤ 0 ∧ s.ticksTo 0xFFFFFFFF < 0 ∧ s.tickEdge = true ∧ s.resetComing 0 = false ∧ c.st ≠ .ready
      ∧ then' (exec (.notBeforeRelease 2) s) (fun t => decide ((t.cmd 2).map (·.notBefore) = some none)) = true
      ∧ then' (exec (.deadlineExpiry 2) s) (fun t => t.cmds.list.isEmpty) = true
      ∧ (∀ e ∈ (s.queue 0 1).trel, s.beat < (e.1 + 1) * 125 + cfgK (s.queue 0 1)))
    ∧ (let c := { cmd0 with st := .ready, deadline := some 1, readyBeat := 249 }
     let s := { withFn (fn0 [(1, q4)]) [c] with tim := { ns := 375000 } }
     s.cmd 1 = some c ∧ s.ticksTo 1 < 0 ∧ s.tickEdge = true ∧ s.resetComing 0 = false ∧ c.gangSize = 0 ∧ c.late = false
      ∧ then' (exec (.deadlineExpiry 1) s) (fun t => decide (t.cmds.list = [c])) = true)
    ∧ (let c := { cmd0 with st := .ready, deadline := some 1, readyBeat := 250 }
     let s := { withFn (fn0 [(1, q4)]) [c] with tim := { ns := 375000 } }
     c.gangSize = 0 ∧ c.late = true ∧ then' (exec (.deadlineExpiry 1) s) (fun t => t.cmds.list.isEmpty) = true)
    ∧ (let c := { cmd0 with st := .ready, deadline := some 1, readyBeat := 2, gangSize := 2 }
     let s := { withFn (fn0 [(1, q4)]) [c] with tim := { ns := 375000 } }
     c.gangSize ≠ 0 ∧ c.gangReady = false ∧ then' (exec (.deadlineExpiry 1) s) (fun t => t.cmds.list.isEmpty) = true)
    ∧ (let c := { cmd0 with st := .ready, deadline := some 1, readyBeat := 2, gangSize := 2, notices := [⟨15, 7, 5, 7⟩] }
     let s := { withFn (fn0 [(1, q4)]) [c] with tim := { ns := 375000 } }
     c.gangSize ≠ 0 ∧ c.gangReady = true ∧ then' (exec (.deadlineExpiry 1) s) (fun t => decide (t.cmds.list = [c])) = true)
    ∧ (let s := { withFn (fn0 [(1, { q4 with cfg := 0x429, trel := [(0, compl0)] })]) [] with tim := { ns := 125000 } }
     (s.queue 0 1).trel = [(0, compl0)] ∧ (0 + 1) * 125 + cfgK (s.queue 0 1) ≤ s.beat
      ∧ then' (exec (.tickRelease 0 1) s) (fun t => decide ((t.queue 0 1).trel = []) && (t.queue 0 1).cqTail == 1) = true) := by
  refine ⟨?_, ?_, ?_, ?_, ?_, ?_⟩ <;> decide +kernel

/-- A state whose one head may be dispatched: the command of that entry, with its context open. -/
def headState (c : Cmd) : State := up { withFn (fn0 [(1, q4)]) [c] with serv := { ctxs := [(5, { state := 1, maxLen := 16, candMax := 1 })], accts := [(0, { valid := true, balance := 1 })] } }

theorem test_dispatch :
    (let s := headState cmd5
     s.alive = true ∧ s.sched.paddock = false ∧ s.heads = [cmd5] ∧ s.cmd 2 = some cmd5 ∧ cmd5.clusters = [95] ∧ cmd5.express = false
      ∧ s.verdict cmd5 false = some none ∧ s.reservedBut cmd5 = [] ∧ (s.cl 95).isFree = true
      ∧ then' (exec .commandDispatch s) (fun t => (t.cl 95).issuing.isSome && (t.ctx 5).state == 2) = true)
    ∧ (let c := { cmd5 with express := true }
     let s0 := headState c
     let s := { s0 with sched := { s0.sched with express := [(0, { cap := 1 })] } }
     s.heads = [c] ∧ s.capped 0 = false ∧ s.verdict c true = some none ∧ (s.cl 95).isFree = true
      ∧ then' (exec .expressDispatch s) (fun t => (t.cl 95).issuing.isSome) = true)
    ∧ (let c := { cmd5 with express := true }
     let v := { cmd0 with place := [95], mask := 0x800000000000000000000000, seq := 1, q := 2 }
     let s0 := headState c
     let s := { s0 with
       sched := { s0.sched with express := [(0, { cap := 1 })] }, clusters := [(95, { issuing := some (inst0 []) })]
       cmds := { list := [v, c], nextId := 3 } }
     s.heads = [c] ∧ s.cmd 2 = some c ∧ s.capped 0 = false ∧ s.verdict c true = some none ∧ (s.cl 95).isFree = false ∧ s.expressOn 95 = false
      ∧ (∀ v ∈ s.victims c.clusters, s.stopComing v = false)
      ∧ then' (exec .expressDispatch s) (fun t => decide ((t.cl 95).issuing.map (·.cmd) = some 2)
          && decide ((t.cmd 1).map (·.st) = some .queued)) = true) := by
  refine ⟨?_, ?_, ?_⟩ <;> decide +kernel

/-! ### Readiness, commit, gangs -/

theorem test_readiness :
    (let i := { inst0 [] with done := true }
     let s := { runs cmd0 [] i with tim := { ns := 5000 } }
     s.alive = true ∧ s.cmd 1 = some cmd0 ∧ (s.cl 0).instOf 1 = some i ∧ cmd0.st = .running ∧ s.stabled 0 = false ∧ cmd0.faults = []
      ∧ (s.fab.waiting.any fun w => w.cmd == 1) = false ∧ ((s.cl 0).ops.any fun o => o.cmd == 1) = false
      ∧ cmd0.place.length ≤ cmd0.insts.length + 1
      ∧ then' (exec (.instanceReady 1 0) s) (fun t => decide ((t.cmd 1).map (fun c => (c.st, c.readyBeat)) = some (.ready, 5))
          && (t.cl 0).issuing.isNone) = true)
    ∧ (let i := { inst0 [] with done := true }
     let c := { cmd0 with place := [0, 1] }
     let s := runs c [] i
     c.insts.length + 1 < c.place.length ∧ (s.cl 0).instOf 1 = some i
      ∧ then' (exec (.instanceReady 1 0) s) (fun t => decide ((t.cmd 1).map (fun c => (c.st, c.insts.length)) = some (.running, 1))) = true)
    ∧ (let c := { cmd0 with st := .ready, readyBeat := 4 }
     let s := { withFn {} [c] with tim := { ns := 5000 } }
     s.cmd 1 = some c ∧ c.gangSize = 0 ∧ c.readyBeat + 1 ≤ s.beat ∧ s.resetComing c.fn = false ∧ c.late = false ∧ s.commitsBefore c = false
      ∧ then' (exec (.commandCommit 1) s) (fun t => t.cmds.list.isEmpty
          && decide (((t.queue 0 1).held.map fun e => e.status) = [0])) = true)
    ∧ (let c := { cmd0 with st := .ready, readyBeat := 250, deadline := some 1 }
     let s := { withFn {} [c] with tim := { ns := 260000 } }
     c.readyBeat + 1 ≤ s.beat ∧ c.late = true
      ∧ then' (exec (.commandCommit 1) s) (fun t => t.cmds.list.isEmpty
          && decide (((t.queue 0 1).held.map fun e => e.status) = [fDeadline])) = true)
    ∧ (let i := { inst0 [] with done := true }
     let c := { cmd0 with gang := 3, gangSize := 2, epoch := 5 }
     let s := { runs c [] i with tim := { ns := 5000 } }
     c.gangSize ≠ 0 ∧ c.place.length ≤ c.insts.length + 1
      ∧ then' (exec (.instanceReady 1 0) s) (fun t => decide (t.fab.outbox = [.ready 0 0 3 6 5])) = true) := by
  refine ⟨?_, ?_, ?_, ?_, ?_⟩ <;> decide +kernel

theorem test_commitSettles :
    let i := { inst0 [] with settles := [{ slot := 0, keep := 0x8001 }] }
    let c := { cmd0 with batch := [9], insts := [(0, i)], st := .ready }
    let s := { withFn (fn0 []) [c] with serv := { ctxs := [(9, { state := 2, len := 3, candMax := 16 })], accts := [(0, { balance := 20 })] } }
    c.batch = [9] ∧ c.insts = [(0, i)] ∧ i.flushes = [] ∧ c.report = none ∧ (s.ctx 9).state = 2 ∧ (s.fn (s.ctx 9).tenant).reqs = []
      ∧ smWf ({} : Ctx) s.serv.ctxs = true ∧ smWf ({} : Account) s.serv.accts = true ∧ smWf ({} : FnBlk) s.fns = true
      ∧ ((s.commit c).ctx 9).state = 1 ∧ ((s.commit c).ctx 9).len = 5 ∧ ((s.commit c).ctx 9).fill = 2
      ∧ ((s.commit c).acct 0).balance = -12 := by decide +kernel

theorem test_gang :
    (let c := { cmd0 with st := .ready, gang := 3, gangSize := 2, readyBeat := 7, epoch := 5, notices := [⟨15, 7, 5, 7⟩] }
     let y : YardRec := { id := 1, count := 16, hashes := [], cabling := [], pairing := [(0, some 0), (15, some 63)] }
     let s := { withFn {} [c] with tim := { ns := 10000 }, glb := { yard := some y, valid := true, count := 16 } }
     s.alive = true ∧ s.cmd 1 = some c ∧ c.inFlight = true ∧ (s.asOf c.dispSeq).pairFrom 15 63 = some c.fn
      ∧ (s.asOf c.dispSeq).pairFrom 15 62 ≠ some c.fn ∧ c.gangSize ≠ 0 ∧ c.gangSize ≤ c.notices.length + 1
      ∧ c.notices.foldl (fun m n => max m n.beat) (c.readyBeat + 1) = 8 ∧ 8 + 2 ≤ s.beat ∧ s.resetComing c.fn = false ∧ s.commitsBefore c = false
      ∧ (∀ n ∈ c.notices, n.epoch = c.epoch ∧ n.lat ≤ 8 + 2)
      ∧ then' (exec (.gangCommit 1) s) (fun t => t.cmds.list.isEmpty) = true
      ∧ s.gangCmd (3 : BitVec 16).toNat 15 63 = some c
      ∧ then' (exec (.gangReadyNotice 15 63 3 9 5) s) (fun t => decide ((t.cmd 1).map (·.notices) = some [⟨15, 9, 5, 10⟩])) = true
      ∧ s.member (3 : BitVec 16).toNat = some c ∧ c.heldAborts = 0 ∧ c.heldCancels = []
      ∧ then' (exec (.gangKillNotice 15 62 3 .rerun) s) (fun t => t.cmds.list.isEmpty) = true
      ∧ then' (exec (.gangKillNotice 15 63 3 .rerun) s) (fun t => decide ((t.cmd 1).map (·.st) = some .queued)) = true
      ∧ then' (exec (.gangKillNotice 15 63 3 .faulted) s) (fun t => t.cmds.list.isEmpty) = true)
    ∧ (let c := { cmd0 with st := .queued, place := [], gang := 3, gangSize := 2, notices := [⟨15, 7, 5, 7⟩] }
     let y : YardRec := { id := 1, count := 16, hashes := [], cabling := [], pairing := [(0, some 0), (15, some 63)] }
     let s := { withFn {} [c] with glb := { yard := some y, valid := true, count := 16 } }
     s.gangCmd (3 : BitVec 16).toNat 15 63 = some c ∧ c.inFlight = false ∧ s.pairFrom 15 63 = some c.fn
      ∧ then' (exec (.gangKillNotice 15 63 3 .rerun) s) (fun t => decide ((t.cmd 1).map (·.notices) = some [])) = true)
    ∧ (let c := { cmd0 with st := .draining, place := [] }
     let s := withFn {} [c]
     s.memc.rateBusy = false ∧ s.cmd 1 = some c ∧ then' (exec (.ceDrainComplete 1) s) (fun t => decide ((t.cmd 1).map (·.st) = some .queued)) = true) := by
  refine ⟨?_, ?_, ?_⟩ <;> decide +kernel

/-! ### Functions, resets and host accesses -/

/-- An image of SCH whose host-interface range is 1.0 to 1.4. -/
def img0 : Image := { cls := 2, version := 1, svn := 0, steppings := 1, hia := 0x01040100, yard := 0, peers := [], hash := 0 }
/-- A booted device whose grooms run, with function 0. -/
def booted (f : FnBlk) : State :=
  { withFn f [] with
    board := { booted := true, bootPending := false }
    far := { startupDone := true }
    grm := { grooms := [(0, { state := 1 }), (1, { state := 1 }), (2, { state := 1, running := some img0 }), (3, { state := 1 })] } }

theorem test_functionStart :
    (let s := booted {}
     s.alive = true ∧ s.present 0 = true ∧ s.mayStart 0 = true ∧ (s.fn 0).state = 0
      ∧ then' (exec (.fnCtrlEnable 0 true) s) (fun t => (t.fn 0).state == 1 && (t.fn 0).enable && !t.memc.separate) = true)
    ∧ (let s := booted { resetBeat := some 0 }
     s.mayStart 0 = false ∧ then' (exec (.fnCtrlEnable 0 true) s) (fun t => (t.fn 0).state == 0 && (t.fn 0).enable && t.memc.separate) = true)
    ∧ (let s := booted (fn0 [(1, q4)])
     s.present 0 = true ∧ (s.fn 0).state = 2
      ∧ then' (exec (.fnCtrlEnable 0 false) s) (fun t => (t.fn 0).state == 0 && !(t.queue 0 1).active) = true)
    ∧ (let s := booted { enable := true, state := 1, drv := 0x01030100 }
     s.schUp = true ∧ max (hiaLow (s.fn 0).drv) (hiaLow s.hiaFw) ≤ min (hiaHigh (s.fn 0).drv) (hiaHigh s.hiaFw)
      ∧ then' (exec (.negotiate 0) s) (fun t => (t.fn 0).state == 2 && (t.fn 0).major == 1 && (t.fn 0).minor == 3) = true)
    ∧ (let s := booted { enable := true, state := 1, drv := 0x02010200 }
     min (hiaHigh (s.fn 0).drv) (hiaHigh s.hiaFw) < max (hiaLow (s.fn 0).drv) (hiaLow s.hiaFw)
      ∧ then' (exec (.negotiate 0) s) (fun t => (t.fn 0).state == 3) = true) := by
  refine ⟨?_, ?_, ?_, ?_, ?_⟩ <;> decide +kernel

theorem test_queueStart :
    (let s := booted (fn0 [(1, { q4 with cfg := 0x420, active := false })])
     cfgEnable (s.queue 0 1) = false ∧ (s.fn 0).state ≠ 3 ∧ s.resetting 0 = false
      ∧ then' (exec (.queueEnable 0 1 true) s) (fun t => (t.queue 0 1).cfg == 0x421 && !(t.queue 0 1).active) = true)
    ∧ (let s := { booted (fn0 [(1, q4)]) with cmds := { list := [cmd5, { cmd5 with id := 3, q := 2 }], nextId := 4 } }
     cfgEnable (s.queue 0 1) = true
      ∧ then' (exec (.queueEnable 0 1 false) s) (fun t => decide (t.cmds.list.map (·.id) = [3])) = true)
    ∧ (let s := booted (fn0 [(1, { q4 with cfg := 0x841, active := false })])
     s.schUp = true ∧ (s.queue 0 1).active = false ∧ cfgEnable (s.queue 0 1) = true ∧ (s.fn 0).state = 2 ∧ (s.queue 0 1).refusal = 0
      ∧ s.queueRefusals 0 1 = [] ∧ then' (exec (.queueCheck 0 1) s) (fun t => (t.queue 0 1).active) = true)
    ∧ (let s := booted (fn0 [(1, { q4 with cfg := 0x821, active := false })])
     s.queueRefusals 0 1 = [3] ∧ then' (exec (.queueCheck 0 1) s) (fun t => !(t.queue 0 1).active) = true)
    ∧ (let s := booted {}
     s.present 0 = true ∧ (∀ e ∈ (s.fn 0).queues, e.2.held = [])
      ∧ then' (exec (.busMasterEnable 0 true) s) (fun t => (t.fn 0).busMaster) = true) := by
  refine ⟨?_, ?_, ?_, ?_, ?_⟩ <;> decide +kernel

/-- A state with a VF that runs. -/
def withVf : State :=
  { booted (fn0 []) with fns := [(0, fn0 []), (1, fn0 [(1, q4)])], board := { booted := true, bootPending := false, vfEnable := true } }

theorem test_reset :
    (let s := withVf
     s.alive = true ∧ s.tablesWf ∧ s.present 1 = true
      ∧ then' (exec (.flr ⟨1, .d3hot⟩) s) (fun t => (t.fn 1).state == 0 && (t.fn 0).state == 2 && (t.fn 1).d3hot) = true
      ∧ then' (exec (.flr ⟨1, .d0⟩) s) (fun t => (t.fn 1).state == 2 && !(t.fn 1).d3hot) = true)
    ∧ (let s := withVf
     then' (exec .fnReset s) (fun t => (t.fn 1).state == 2 && (t.fn 0).state == 0 && (t.fn 0).busMaster) = true
      ∧ then' (exec (.devReset .devReset) s) (fun t => (t.fn 1).state == 0 && (t.fn 0).busMaster && t.board.bootPending) = true
      ∧ then' (exec (.flr ⟨0, .flr⟩) s) (fun t => (t.fn 1).state == 0 && !(t.fn 0).busMaster && !t.board.vfEnable) = true)
    ∧ (let s := withVf
     s.sec.presence = 0 ∧ then' (exec .recover s) (fun t => t.sec.presence == 1 && (t.fn 0).recoverArmed) = true
      ∧ s.sec.bootMode = 0 ∧ s.board.vfEnable = true
      ∧ then' (exec (.vfEnable false) s) (fun t => (t.fn 1).state == 0 && (t.fn 0).state == 2 && !t.board.vfEnable) = true) := by
  refine ⟨?_, ?_, ?_⟩ <;> decide +kernel

theorem test_registerWrite :
    let s := withVf
    s.alive = true ∧ then' (exec (.registerWrite 0 ⟨.bar0, 0x10008⟩ 8 0x1122334455667788) s) (fun t => t.tim.todNext == 0x1122334455667788) = true
      ∧ then' (exec (.registerWrite 0 ⟨.bar0, 0x10008⟩ 4 0x55667788) s) (fun t => t.tim.todNext == 0
          && then' (exec (.registerWrite 0 ⟨.bar0, 0x1000C⟩ 4 0x11223344) t) (fun u => u.tim.todNext == 0x1122334455667788)
          && then' (exec (.registerWrite 0 ⟨.bar0, 0x10010⟩ 4 0) t) fun u =>
              then' (exec (.registerWrite 0 ⟨.bar0, 0x1000C⟩ 4 0x11223344) u) fun v => v.tim.todNext == 0x1122334400000000) = true
      ∧ then' (exec (.registerWrite 0 ⟨.bar0, 0x10008⟩ 2 5) s) (fun t => t.tim.todNext == 0) = true := by
  decide +kernel

theorem test_doorbellPage :
    let s := { withVf with fns := [(0, fn0 []), (1, fn0 [(1, { q4 with cfg := 0x423 })])] }
    s.present 1 = true ∧ cfgPush (s.queue 1 1) = true
      ∧ then' (exec (.registerWrite 1 ⟨.bar2, 0x1BF8⟩ 8 0x0900000000000007) s) (fun t => decide ((t.queue 1 1).push = [(0xBF8, 7), (0xBFF, 9)])) = true
      ∧ then' (exec (.registerWrite 1 ⟨.bar2, 0x1C00⟩ 4 2) s) (fun t => (t.queue 1 1).sqTail == 2) = true := by
  decide +kernel

theorem test_recoveryWindow :
    let s := { withVf with sec := { bootMode := 1 } }
    s.alive = true ∧ s.windowOpen = true ∧ (s.fn 0).recBase = 0 ∧ ([1, 2, 3] : List Byte) ≠ [] ∧ s.infl = [] ∧ s.memc.waiting = [] ∧ s.memc.poison = [] ∧ s.memc.upset = []
      ∧ s.memc.migs = [] ∧ Memory.wf s.mem
      ∧ then' (exec (.recoveryWindowAccess 0x1001 (.inl [1, 2, 3])) s) (fun t =>
          decide (t.mem = [(0x1001, 1), (0x1002, 2), (0x1003, 3)])) = true := by
  decide +kernel

/-- A unit's bytes in the register range (spec/09 R215): GLB_ID's second byte read, TIM_TOD_NEXT written whole in the next beat, and a
write of half of it. -/
theorem test_registerRange :
    let w := fun (o k : Nat) (b : Byte) => ({ cl := 0, writer := wCe 0, op := o, cmd := 1, addr := regBase + 0x10008 + k, mask := 0xFF, val := b } : PWrite)
    let s := { State.reset with infl := [w 1 0 1, w 1 1 2, w 1 2 3, w 1 3 4, w 1 4 5, w 1 5 6, w 1 6 7, w 1 7 8] }
    State.reset.rd (regBase + 1) = 0xB0 ∧ s.regBeat.tim.todNext = 0x0807060504030201 ∧ s.regBeat.infl = []
      ∧ (State.rd s.regBeat (regBase + 0x1000C)) = 5 := by
  decide +kernel

/-! ### Requests -/

/-- A function with its request queue. -/
def rq : State := { booted (fn0 [(0, q4)]) with tens := [(0, { quotaHbm := 4, quotaLoft := 4 })], memc := { separate := false } }
/-- The status of the completion that queue 0 of function 0 received last. -/
def answered (t : State) (st : Byte) : Bool := (t.queue 0 0).cqTail == 1 && smGet 0 t.hostMem 20 == st
/-- The bytes of 32-bit numbers, for parameter blocks. -/
def le (n : Nat) (x : Nat) : List Byte := leBytes n x
def zeros (n : Nat) : List Byte := List.replicate n 0

/-- The state with a request, CID 5, that function 0 has fetched. -/
def asked (s : State) (i : Instr) : State :=
  match requestOf i with
  | some r => s.modFn 0 fun b => { b with reqs := b.reqs ++ [{ cid := 5, code := r.1, len := (r.2.2.getD []).length, ops := r.2.1 }] }
  | none => s
/-- A state and a request of CID 5 that SCH takes, and whose answer has the status. -/
def takes (s : State) (minor : Nat) (i : Instr) (st : Byte) (p : State → Bool) : Bool :=
  decide (Claims.Taken (asked s i) 0 5 minor i) && then' (exec i (asked s i)) fun t => answered t st && p t
/-- The same for one that is kept. -/
def keeps (s : State) (minor : Nat) (i : Instr) (p : State → Bool) : Bool :=
  decide (Claims.Taken (asked s i) 0 5 minor i) && then' (exec i (asked s i)) fun t => (t.fn 0).reqs.length == 1 && p t
/-- A request to map 2 MiB of HBM, writable, and the state that takes it. -/
def map0 : Instr := .map 0 5 0x400000 0x200000 0x11
def rqm : State := asked rq map0

/-- Some frame is picked where one is free. -/
theorem pickFree_isSome (s : State) (i n k : Nat) (avail : Nat → Bool) (hk : k < n) (h : avail k = true) :
    ∃ r, s.pickFree i n avail = some r := by
  simp only [State.pickFree]
  rw [if_neg (by omega)]
  split
  · exact ⟨_, rfl⟩
  · exact Option.isSome_iff_exists.mp (List.find?_isSome.mpr ⟨k, List.mem_range.mpr hk, h⟩)

/-- A frame given leaves the tenant space with one frame more of one tier, and its leaves as they were. -/
theorem giveFrame_use (n : Nat) (u : Tenant → Tenant)
    (h : ∀ x, (u x).useHbm = x.useHbm ∧ (u x).useLoft = x.useLoft ∧ (u x).quotaHbm = x.quotaHbm ∧ (u x).quotaLoft = x.quotaLoft) :
    let t := ((rqm.giveFrame 0 n).bump).modTen 0 u
    (t.ten 0).useHbm ≤ (t.ten 0).quotaHbm ∧ (t.ten 0).useLoft ≤ (t.ten 0).quotaLoft := by
  have e1 : ∀ s : State, s.tens = rqm.tens → (s.modTen 0 fun k => k.charge (isLoftFrame n) 1).ten 0 =
      Tenant.charge { quotaHbm := 4, quotaLoft := 4 } (isLoftFrame n) 1 ∧
      smWf ({} : Tenant) (s.modTen 0 fun k => k.charge (isLoftFrame n) 1).tens = true := by
    intro s hs
    simp only [State.modTen, State.setTen, State.ten, hs]
    cases isLoftFrame n <;> exact ⟨by decide, by decide⟩
  have hm : ∀ (s : State) (g : Frame → Frame), (s.modFrame n g).tens = s.tens := fun _ _ => rfl
  have hz : ∀ (s : State) (a b : Nat), (s.zero a b).tens = s.tens := fun _ _ _ => rfl
  have e := e1 ((if ((rqm.frameAt n).holder = some 0 ∨ (rqm.frameAt n).zeroed = true) then rqm
    else rqm.zero (n * frameBytes) frameBytes).modFrame n fun y => {
      (if ((rqm.frameAt n).holder = some 0 ∨ (rqm.frameAt n).zeroed = true) then y else y.reach frameBytes) with
      holder := some 0, charged := true, zeroed := false }) (by rw [hm]; split <;> simp only [hz])
  intro t
  have e2 : t.ten 0 = u (((rqm.giveFrame 0 n).bump).ten 0) := State.ten_setTen_same _ _ _ e.2
  obtain ⟨h1, h2, h3, h4⟩ := h (((rqm.giveFrame 0 n).bump).ten 0)
  rw [e2, h1, h2, h3, h4]
  change ((rqm.giveFrame 0 n).ten 0).useHbm ≤ ((rqm.giveFrame 0 n).ten 0).quotaHbm ∧ ((rqm.giveFrame 0 n).ten 0).useLoft ≤ ((rqm.giveFrame 0 n).ten 0).quotaLoft
  have e3 : (rqm.giveFrame 0 n).ten 0 = _ := e.1
  rw [e3]
  cases isLoftFrame n <;> decide

theorem test_map :
    (Claims.Taken rqm 0 5 0 map0 ∧ (rqm.ten 0).over false = false ∧ bits 0x11 1 0 = 1 ∧ bits 0x11 3 2 ≤ 1 ∧ bits 0x11 7 6 ≠ 3 ∧ inWindows 0x400000 0x200000 = false
      ∧ ((rqm.ten 0).leaves.any fun l => overlaps l.va l.size 0x400000 0x200000) = false)
    ∧ ∃ t, rqm.mapMany 0 0x400000 0x200000 false true false 0 1 = some t ∧ (t.ten 0).useHbm ≤ (t.ten 0).quotaHbm
      ∧ (t.ten 0).useLoft ≤ (t.ten 0).quotaLoft := by
  refine ⟨by decide +kernel, ?_⟩
  obtain ⟨r, hr⟩ := pickFree_isSome rqm 1 ((rqm.tierFrames false).2 / 1) 0 (rqm.runOfFrames (rqm.tierFrames false).1 1)
    (by decide +kernel) (by decide +kernel)
  have e : rqm.mapOne 0 0x400000 0x200000 false true false 0 = some (((((rqm.giveFrame 0 ((rqm.tierFrames false).1 + 1 * r + 0))).bump).modTen 0
      fun n => { n with leaves := n.leaves ++ [{ va := 0x400000, size := 0x200000, pa := ((rqm.tierFrames false).1 + 1 * r) * frameBytes
                                                 w := true, pin := false, hint := 0 }] })) := by
    have e0 : rqm.mapOne 0 0x400000 0x200000 false true false 0 =
        (match rqm.pickFree 1 ((rqm.tierFrames false).2 / 1) (rqm.runOfFrames (rqm.tierFrames false).1 1) with
        | some r => some (((((rqm.giveFrame 0 ((rqm.tierFrames false).1 + 1 * r + 0))).bump).modTen 0
            fun n => { n with leaves := n.leaves ++ [{ va := 0x400000, size := 0x200000
                                                       pa := ((rqm.tierFrames false).1 + 1 * r) * frameBytes
                                                       w := true, pin := false, hint := 0 }] }))
        | none => none) := rfl
    rw [e0, hr]
  have u := giveFrame_use ((rqm.tierFrames false).1 + 1 * r + 0) (fun n => { n with leaves := n.leaves ++ [{
    va := 0x400000, size := 0x200000, pa := ((rqm.tierFrames false).1 + 1 * r) * frameBytes, w := true, pin := false, hint := 0 }] })
    fun _ => ⟨rfl, rfl, rfl, rfl⟩
  have m : rqm.mapMany 0 0x400000 0x200000 false true false 0 1 = rqm.mapOne 0 0x400000 0x200000 false true false 0 := by
    show (match rqm.mapOne 0 0x400000 0x200000 false true false 0 with
      | some s1 => some s1
      | none => none) = _
    rw [e]
  exact ⟨_, m.trans e, u⟩

theorem test_mapping :
    (let s0 := { rq with tens := [(0, { leaves := [⟨0x400000, 0x200000, 0x600000, true, false, 0⟩, ⟨0x800000, 65536, 0x820000, true, false, 0⟩], useHbm := 2 })] }
     let i := Instr.unmap 0 5 0x400000 0x200000
     let s := asked s0 i
     s.inPools 0 0x400000 0x200000 = false ∧ (0x400000 : W64).toNat % 65536 = 0
      ∧ ((s.ten 0).leaves.any fun l => overlaps l.va l.size 0x400000 0x200000
        && !(decide (0x400000 ≤ l.va) && decide (l.va + l.size ≤ 0x400000 + 0x200000))) = false ∧ smWf ({} : Tenant) s.tens = true
      ∧ takes s0 0 i stOk (fun t => (t.ten 0).leaves.length == 1 && (t.ten 0).useHbm == 1) = true)
    ∧ keeps rq 0 (.transfer 0 5 0x400000 0 3 1 []) (fun _ => true) = true
    ∧ (let i := Instr.transfer 0 5 0x400000 0 3 0 [1, 2, 3]
     let s := { rq with fns := [(0, { fn0 [(0, q4)] with reqs := [{ cid := 5, code := 3, begun := true, what := some i }] })], tens := [(0, { leaves := [⟨0x400000, 0x200000, 0x600000, true, false, 0⟩] })] }
     s.alive = true ∧ s.schUp = true ∧ (s.fn 0).busMaster = true ∧ ((s.fn 0).reqs.find? fun r => r.cid == 5 && r.begun).map (·.what) = some (some i)
      ∧ ((addrs 0x400000 3).flatMap fun a => s.hostFault 0 a true) = [] ∧ Idle s
      ∧ then' (exec (.transferDone 0 5) s) (fun t => answered t stOk && (t.fn 0).reqs.isEmpty
          && decide (t.mem = [(0x600000, 1), (0x600001, 2), (0x600002, 3)])) = true)
    ∧ (let i := Instr.transfer 0 5 0x400000 0x10000 2 1 []
     let s := { rq with mem := [(0x600001, 9)], fns := [(0, { fn0 [(0, q4)] with reqs := [{ cid := 5, code := 3, begun := true, what := some i }] })], tens := [(0, { leaves := [⟨0x400000, 0x200000, 0x600000, true, false, 0⟩] })] }
     ((addrs 0x400000 2).flatMap fun a => s.hostFault 0 a false) = [] ∧ Idle s
      ∧ then' (exec (.transferDone 0 5) s) (fun t => answered t stOk && smGet 0 t.hostMem 0x10001 == 9) = true) := by
  refine ⟨?_, ?_, ?_, ?_⟩ <;> decide +kernel

/-- A state whose function 0 has one request, begun. -/
def begun (s : State) (cid : BitVec 16) (i : Instr) : State :=
  { s with fns := [(0, { fn0 [(0, q4)] with reqs := [{ cid := cid, code := 0, begun := true, what := some i }] })] }
/-- A table record in use: E4M3, with the longest code for every symbol. -/
def tsetParam : List Byte := [7] ++ zeros 2111
/-- An owner table of one entry: BLOCK_LOG2 16, entry 1 of package 2. -/
def ownerParam : List Byte := [16, 0, 0, 0, 1, 0, 0, 0] ++ zeros 56 ++ le 8 (0x10040 + 2 * 2 ^ 48 + 2 ^ 52)

theorem test_tenantRequests :
    (let i := Instr.programLoad 0 5 (zeros 16)
     smGet [] ((asked rq i).ten 0).progs 0 = [] ∧ Claims.Taken (asked rq i) 0 5 0 i
      ∧ then' (exec i (asked rq i)) (fun t => (t.queue 0 0).cqTail == 1) = true)
    ∧ (let s0 := { rq with tens := [(0, { progs := [(3, [0x0200000000000000])] })], clusters := [(0, { progs := [⟨0, 3, [0x0200000000000000]⟩] })] }
     let i := Instr.programDrop 0 5 3
     let s := asked s0 i
     smGet [] (s.ten 0).progs 3 ≠ [] ∧ (s.cmds.list.any fun c => c.inFlight && c.fn == 0 && c.program == 3) = false
      ∧ takes s0 0 i stOk (fun t => (smGet [] (t.ten 0).progs 3).isEmpty && (t.cl 0).progs.isEmpty) = true)
    ∧ (tsetParam.length = 2112 ∧ fieldN tsetParam 0 1 < 64
      ∧ ((List.range 8).all fun i => recordOk ((tsetParam.drop (64 + 256 * i)).take 256)) = true
      ∧ takes rq 0 (.tsetInstall 0 5 2 tsetParam) stOk (fun t => ((t.tset 0 2).map (·.minGain)) == some 7) = true)
    ∧ (let s := rq
     16 ≤ fieldN ownerParam 0 1 ∧ fieldN ownerParam 0 1 ≤ 30 ∧ zerosN ownerParam 1 4 = true ∧ zerosN ownerParam 8 64 = true
      ∧ fieldN ownerParam 4 4 = 1 ∧ ownerParam.length = 64 + 8 ∧ ownerEntries 1 (ownerParam.drop 64) = some [(0x10040, 2, true)]
      ∧ 0 < diff32 ((9 : W64).setWidth 32) (BitVec.ofNat 32 s.frame)
      ∧ keeps s 2 (.ownerInstall 0 5 3 9 ownerParam) (fun t =>
          decide (smGet [] (t.ten 0).owners 3 = [⟨16, [(0x10040, 2, true)], 9, none, some 5⟩])) = true) := by
  refine ⟨?_, ?_, ?_, ?_⟩ <;> decide +kernel

theorem test_switches :
    (let v : OwnerVer := ⟨16, [(0x10040, 2, true)], 1, none, some 5⟩
     let s := { begun rq 5 (.ownerInstall 0 5 3 1 []) with tim := { ns := 10000000 }, tens := [(0, { owners := [(3, [v])] })] }
     s.frameEdge = true ∧ smGet [] (s.ten 0).owners 3 = [v] ∧ v.since = none ∧ diff32 v.frame (BitVec.ofNat 32 s.frame) ≤ 0
      ∧ then' (exec (.ownerTableSwitch 0 3) s) (fun t => answered t stOk
          && (smGet [] (t.ten 0).owners 3).map (·.since) == [some 1]) = true)
    ∧ takes rq 0 (.share 0 5 4 9) stOk (fun t => (t.ten 4).weight != 9
        && (({ t with tim := { ns := 1000 } } : State).policyBeat.ten 4).weight == 9) = true
    ∧ takes rq 3 (.expressCap 0 5 4 9) stOk (fun t =>
        (smGet {} ({ t with tim := { ns := 1000 } } : State).policyBeat.sched.express 4).cap == 9) = true
    ∧ (let s := { rq with sched := { rq.sched with writes := [(7, .share 4 9)] }, tim := { ns := 7000 } }
     s.beat ≤ 7 ∧ smWf ({} : Tenant) s.tens = true ∧ smWf ({} : Express) s.sched.express = true ∧ s.policyBeat = s) := by
  refine ⟨?_, ?_, ?_, ?_⟩ <;> decide +kernel

/-- A gate of two layers of 64 bytes, and the staging of its next epoch. -/
def man0 : Manifest := { model := 1, epoch := 1, shard := 0, shards := 1, owner := 0, layers := [⟨0x400000, 64, 4, 0⟩, ⟨0x410000, 64, 4, 0⟩] }
def man1 : Manifest := { man0 with epoch := 2, layers := [⟨0x420000, 64, 4, 0⟩, ⟨0x430000, 64, 4, 0⟩] }
def manParam (e base : Nat) : List Byte :=
  le 8 (1 + e * 2 ^ 32) ++ le 8 (1 + 2 ^ 14) ++ zeros 48 ++ le 6 base ++ le 5 64 ++ [4] ++ zeros 20
    ++ le 6 (base + 65536) ++ le 5 64 ++ [4] ++ zeros 20
/-- A tenant space with a page and such a gate. -/
def gated (r : Option GateRec) (bs : List Host.Cell) : State :=
  { rq with mem := bs, tens := [(0, { leaves := [⟨0x400000, 0x200000, 0x600000, true, false, 0⟩], gates := [(7, r)] })] }
def gate0 : GateRec := { man := man0, epoch := 1 }

theorem test_gateRequests :
    (let s := { gated none [] with tens := [(0, { leaves := [⟨0x400000, 0x200000, 0x600000, true, false, 0⟩] })] }
     s.gate 0 7 = none ∧ parseManifest (manParam 1 0x400000) = some man0 ∧ (asked s (.gateRegister 0 5 7 (manParam 1 0x400000))).manifestOk 0 man0 = true
      ∧ takes s 0 (.gateRegister 0 5 7 (manParam 1 0x400000)) stOk (fun t =>
          decide ((t.gate 0 7).map (·.man) = some man0) && ((t.ten 0).leaves.all fun l => l.pin && !l.w)) = true)
    ∧ (let s := gated (some gate0) []
     s.gate 0 7 = some gate0 ∧ gate0.state = 0 ∧ gate0.closing = false ∧ gate0.held = none ∧ parseManifest (manParam 2 0x420000) = some man1
      ∧ s.stagingOk 0 gate0 gate0.epoch man1 = true
      ∧ keeps s 0 (.gateSwap 0 5 7 (manParam 2 0x420000)) (fun t => decide ((t.gate 0 7).map (·.closing) = some true)) = true)
    ∧ takes (gated (some { gate0 with state := 1, held := some (9, man1) }) []) 0 (.gateSwap 0 5 7 (manParam 2 0x420000)) stAborted (fun _ => true) = true
    ∧ (let r := { gate0 with state := 2, attempts := 3, staging := some man1, swapCid := 9 }
     let s := gated (some r) []
     r.state = 2 ∧ takes s 0 (.gateResume 0 5 7) stOk (fun t => decide ((t.gate 0 7).map (·.state) = some 1)) = true
      ∧ (s.cmds.list.any fun c => c.inFlight && c.fn == 0 && s.usesGate c 7) = false)
    ∧ takes (gated (some gate0) []) 0 (.gateUnregister 0 5 7) stOk (fun t => (t.gate 0 7).isNone) = true := by
  refine ⟨?_, ?_, ?_, ?_, ?_⟩ <;> decide +kernel

theorem test_gateSwap :
    (let r := { gate0 with closing := true, staging := some man1, swapCid := 9 }
     let s := gated (some r) []
     s.alive = true ∧ s.gate 0 7 = some r ∧ s.frameEdge = true
      ∧ then' (exec (.gateClose 0 7) s) (fun t => decide ((t.gate 0 7).map (·.state) = some 1)) = true)
    ∧ (let r := { gate0 with state := 1, staging := some man1, swapCid := 9 }
     let s := gated (some r) []
     s.schUp = true ∧ s.gate 0 7 = some r ∧ r.copying = false ∧ s.oldOn 0 7 r.epoch r.front = []
      ∧ s.serves 95 = true ∧ (s.cl 95).full false (.ce 0) = false)
    ∧ (let r := { gate0 with state := 1, copying := true, attempts := 1, staging := some man1, swapCid := 9 }
     let s := { gated (some r) [(0x620000, 5)] with clusters := [(3, { maint := [.layer 0 7] })] }
     s.gate 0 7 = some r ∧ r.man.layers[r.front]? = some ⟨0x400000, 64, 4, 0⟩ ∧ man1.layers[r.front]? = some ⟨0x420000, 64, 4, 0⟩
      ∧ s.rdVa 0 0x420000 64 = .inl (5 :: zeros 63) ∧ r.swapped + 1 < r.man.layers.length
      ∧ then' (exec (.layerCopyCommit 0 7) s) (fun t => decide (t.mem = [(0x600000, 5), (0x620000, 5)])
          && decide ((t.gate 0 7).map (·.front) = some 1) && (t.cl 3).maint.isEmpty) = true ∧ s.alive = true ∧ s.schUp = true ∧ r.attempts < 3)
    ∧ (let r := { gate0 with state := 1, copying := true, attempts := 3, front := 1, swapped := 1, staging := some man1, swapCid := 9 }
     let s := begun (gated (some r) [(0x630000, 5)]) 9 (.gateSwap 0 9 7 [])
     s.gate 0 7 = some r ∧ s.rdVa 0 0x430000 64 = .inl (5 :: zeros 63) ∧ r.man.layers.length ≤ r.swapped + 1 ∧ r.held = none
      ∧ then' (exec (.layerCopyCommit 0 7) s) (fun t => answered t stOk && decide (t.mem = [(0x610000, 5), (0x630000, 5)])
          && decide ((t.gate 0 7).map (fun g => (g.state, g.epoch)) = some (0, 2))) = true ∧ 3 ≤ r.attempts) := by
  refine ⟨?_, ?_, ?_, ?_⟩ <;> decide +kernel

theorem test_gateHoldKill :
    let i := { inst0 [] with holds := [(7, 0)] }
    let c := { cmd0 with epoch := 1, insts := [] }
    let s := { gated (some { gate0 with state := 1, staging := some man1 }) [] with
      clusters := [(0, { issuing := some i })], cmds := { list := [c], nextId := 2 }, tim := { ns := 125000 * 17 } }
    s.alive = true ∧ s.schUp = true ∧ 0 + s.sched.holdLimit.toNat < s.tick
      ∧ ((s.oldOn 0 7 1 0).find? fun c => c.st == .running) = some c
      ∧ then' (exec (.gateHoldKill 0 7) s) (fun t => t.sched.holdKills == 1 && decide ((t.cmd 1).map (·.st) = some .queued)) = true := by
  decide +kernel

/-! ### Serving -/

/-- A tenant space with a layout of one layer, one head and 32 elements, its table set and its pages. -/
def lay1 : LayoutRec := { layers := 1, heads := 1, dim := 32, format := 3, tset := 1, mask := 0xFF, poolBase := 0x200000, poolUnits := 64, troughBase := 0, troughSlots := 4 }
def layParam : List Byte := le 8 (3 * 2 ^ 18 + 2 ^ 22 + 0xFF * 2 ^ 28) ++ le 8 0x200000 ++ le 4 64 ++ le 6 0 ++ le 2 4 ++ zeros 4
def leaves1 : List Leaf := [⟨0, 0x200000, 0x800000, true, false, 1⟩, ⟨0x200000, 0x200000, 0xA00000, true, false, 1⟩]
def ten1 : Tenant := { leaves := leaves1, tsets := [(1, some { minGain := 0, records := [] })], layouts := [(0, some lay1)] }
/-- A state whose function 0 has that tenant space, an account with balance 20 and some contexts. -/
def served (xs : List (Nat × Ctx)) : State :=
  { rq with memc := {}, tens := [(0, ten1)], serv := { ctxs := xs, accts := [(0, { valid := true, owner := some 0, rate := 5, cap := 22, balance := 20 })] } }
def open1 : Ctx := { state := 1, layout := 0, candMax := 4, maxLen := 64, trough := 1 }
def page1 (u : Nat) : Page := { addr := lay1.unitVa u, pkg := 0, size := 0, ro := false, first := 0, tokens := 2, tuse := 1 }

theorem test_layoutRequests :
    (let s0 := { served [] with tens := [(0, { ten1 with layouts := [] })] }
     let s := asked s0 (.layoutRegister 0 5 0 layParam)
     parseLayout layParam = some lay1 ∧ (s.tset 0 lay1.tset).isNone = false
      ∧ s.mappedAll 0 lay1.poolBase lay1.poolBytes = true ∧ s.mappedAll 0 lay1.troughBase lay1.troughBytes = true
      ∧ ((s.ten 0).leaves.any fun x => x.on lay1.troughBase lay1.troughBytes && !isHbm x.pa) = false ∧ s.layoutUsed 0 0 = false
      ∧ takes s0 0 (.layoutRegister 0 5 0 layParam) stOk (fun t => decide (t.layout 0 0 = some lay1)
          && decide ((t.ten 0).leaves.map (fun x => (x.w, x.pin, x.hint)) = [(false, true, 0), (false, false, 1)])) = true)
    ∧ ((served []).layout 0 0 = some lay1
      ∧ takes (served []) 0 (.layoutMask 0 5 0 3) stOk (fun t => decide ((t.layout 0 0).bind (·.maskNext) = some (1, 3))) = true
      ∧ takes (served []) 4 (.layoutRecode 0 5 0 7) stOk (fun _ => true) = true)
    ∧ (let s := begun (served []) 5 (.layoutRecode 0 5 0 0)
     Claims.Begun s 0 5 (.layoutRecode 0 5 0 0) ∧ s.recodePage 0 0 0 = none
      ∧ then' (exec (.pageRecodeEffect 0 5) s) (fun t => answered t stOk) = true) := by
  refine ⟨?_, ?_, ?_⟩ <;> decide +kernel

/-- The bytes of a page of two tokens of zeros in both planes, stored. -/
def pageBytes (u : Nat) : List Host.Cell :=
  (List.range 2).flatMap fun k => ((storedBlock 3 (List.replicate 64 0)).zipIdx.filter fun b => b.1 != 0).map fun b =>
    (lay1.blockVa (lay1.unitVa u) 0 k 0 + b.2, b.1)

/-- The layout with two units, of which the first is in use. -/
def lay2 : LayoutRec := { lay1 with poolUnits := 2, units := [(0, 1)], troughSlots := 2, slots := [0] }
theorem takeRun_lay2 (s : State) : s.takeRun lay2 (lay2.u 0) = some 1 :=
  takeRun_only s lay2 1 2 1 (by decide) rfl (by decide) (by decide) (by decide) (by decide)
/-- The same with three units, of which two are in use. -/
def lay3 : LayoutRec := { lay1 with poolUnits := 3, units := [(0, 1), (1, 1)] }
theorem takeRun_lay3 (s : State) : s.takeRun lay3 (lay3.u 1) = some 2 :=
  takeRun_only s lay3 1 3 2 (by decide) rfl (by decide) (by decide) (by decide) (by decide)
def served' (l : LayoutRec) (m : List Host.Cell) (xs : List (Nat × Ctx)) : State :=
  { served xs with mem := m, tens := [(0, { ten1 with layouts := [(0, some l)] })] }

set_option maxRecDepth 20000 in
theorem test_pageRecode :
    let s := begun (served' lay2 (pageBytes 0) [(9, { open1 with len := 2, pages := [page1 0] })]) 5 (.layoutRecode 0 5 0 0)
    let v := s.pull 0 (s.pageBytes 0 lay2 (page1 0))
    let rd := (List.range lay2.planes).map fun k => v.readPlane 0 lay2 (page1 0) k
    let w := v.codePage 0 lay2 (lay2.unitVa 1) 0 (rd.map (·.1))
    Claims.Begun s 0 5 (.layoutRecode 0 5 0 0) ∧ s.layout 0 0 = some lay2 ∧ s.recodePage 0 0 0 = some (page1 0) ∧ s.memc.rateBusy = false
      ∧ rd.map (fun x => x.1.length) = [64, 64] ∧ rd.flatMap (·.2) = [] ∧ (v.schWrites 0 w.1).2 = []
      ∧ keeps (served' lay2 (pageBytes 0) [(9, { open1 with len := 2, pages := [page1 0] })]) 4 (.layoutRecode 0 5 0 0) (fun _ => true) = true := by
  decide +kernel

theorem test_openContext :
    let i := Instr.openContext 0 5 0 0x400 64 0 0 0
    let s := asked (served' lay2 [] []) i
    Claims.Taken s 0 5 0 i ∧ s.acctOk 0 0 = true ∧ s.layout 0 (bits 0x400 3 0) = some lay2
      ∧ s.openPages 0 (bits 0x400 3 0) 0 0 = .inl ([], 0) ∧ s.ctxCount 0 < (s.ten 0).ctxQuota ∧ s.cached.length < 2048
      ∧ (s.ctx 0).state = 0 ∧ 1 < lay2.troughSlots ∧ 1 ∉ lay2.slots := by decide +kernel

theorem test_contextRequests :
    (let s := served [(9, open1)]
     s.reqCtx 0 9 = .inl 9 ∧ takes s 0 (.closeContext 0 5 9) stOk (fun t => (t.ctx 9).state == 4) = true
      ∧ (s.ctx 9).state = 1 ∧ (s.ctx 9).fill = 0 ∧ takes s 0 (.parkContext 0 5 9) stOk (fun t => (t.ctx 9).state == 3) = true
      ∧ takes s 0 (.cancelContext 0 5 9 0) stOk (fun t => (t.ctx 9).cancelSeq == 1) = true)
    ∧ (let s := { served [(9, { open1 with state := 2 })] with
         cmds := { list := [{ cmd0 with batch := [9], st := .ready, readyBeat := 4 }], nextId := 2 }, tim := { ns := 5000 } }
     s.reqCtx 0 9 = .inl 9 ∧ keeps s 0 (.closeContext 0 5 9) (fun _ => true) = true
      ∧ (s.cmds.list.any fun c => c.batch.contains 9 && (c.st == .ready) && c.gangSize != 0) = false
      ∧ takes s 0 (.cancelContext 0 5 9 0) stAlreadyDone (fun t => (t.ctx 9).cancelSeq == 1) = true
      ∧ keeps s 0 (.parkContext 0 5 9) (fun _ => true) = true
      ∧ takes { s with tim := { ns := 4000 } } 0 (.cancelContext 0 5 9 0) stOk (fun _ => true) = true)
    ∧ (let s := served [(9, { open1 with state := 3 })]
     s.reqCtx 0 9 = .inl 9 ∧ takes s 0 (.parkContext 0 5 9) stOk (fun t => (t.ctx 9).state == 3) = true)
    ∧ (let s := served [(9, { open1 with tag := 0x77 })]
     (s.ctx 9).state ≠ 3 ∧ takes s 0 (.query 0 5 9 0x10000) stOk (fun t => smGet 0 t.hostMem 0x10000 == 1
          && smGet 0 t.hostMem 0x10050 == 0x77) = true) := by
  refine ⟨?_, ?_, ?_, ?_⟩ <;> decide +kernel

/-- A prompt list at device address 0x10000 of one page of 2 tokens, and its page after it. -/
def promptMem : List Host.Cell :=
  [(0x10001, 2)] ++ ((storedBlock 3 (List.replicate 64 0)).zipIdx.filter fun b => b.1 != 0).map (fun b => (0x11000 + b.2, b.1))
    ++ ((storedBlock 3 (List.replicate 64 0)).zipIdx.filter fun b => b.1 != 0).map fun b => (0x11000 + pitchOf 3 + b.2, b.1)

theorem test_promptBegin :
    (let i := Instr.importPages 0 5 9 0x10000 1
     let s := asked (served' lay2 promptMem [(9, open1)]) i
     Claims.Taken s 0 5 0 i ∧ s.reqCtx 0 9 = .inl 9 ∧ (s.ctx 9).state = 1 ∧ (s.ctx 9).fill = 0 ∧ (s.acct 0).valid = true ∧ 0 < (s.acct 0).balance
      ∧ s.reqHeld 0 5 = false
      ∧ s.layout 0 (s.ctx 9).layout = some lay2 ∧ s.rdVa 0 0x10000 (16 * 1) = .inl (0 :: 2 :: zeros 14)
      ∧ promptPages 1 (0 :: 2 :: zeros 14) = some [(0, 2)] ∧ s.jobOf 0 5 = none ∧ s.pfxFull = false)
    ∧ (let i := Instr.loadVariant 0 5 0 0x10000 1
     let s := asked (served' lay2 promptMem []) i
     Claims.Taken s 0 5 0 i ∧ s.rdVa 0 0x10000 (16 * 1) = .inl (0 :: 2 :: zeros 14) ∧ s.pfxFull = false ∧ s.layout 0 0 = some lay2)
    ∧ ∀ s : State, s.layout 0 0 = some lay2 → takeRuns s 0 0 [(0, 2)] = some
        ((s.setLayout 0 0 (some { lay2 with units := lay2.units ++ [(1, lay2.u 0)] })).bump, [(1, 1)]) := by
  refine ⟨by decide +kernel, by decide +kernel, ?_⟩
  intro s h
  simp [takeRuns, h, takeRun_lay2]
  rfl

/-- The job such a request began. -/
def job1 (v : Option Nat) (x : Nat) : CopyJob := { fn := 0, cid := 5, variantOf := v, ctx := x, pages := [{ page1 1 with tuse := 0 }], runs := [(1, 1)] }
def withJob (s : State) (j : CopyJob) : State := { s with serv := { s.serv with jobs := [j] } }

set_option maxRecDepth 20000 in
theorem test_promptEffects :
    (let s := withJob (begun (served' lay2 promptMem [(9, { open1 with state := 2 })]) 5 (.importPages 0 5 9 0x10000 1)) (job1 none 9)
     Claims.Begun s 0 5 (.importPages 0 5 9 0x10000 1) ∧ s.jobOf 0 5 = some (job1 none 9) ∧ (s.ctx 9).state = 2
      ∧ s.layout 0 (s.ctx 9).layout = some lay2 ∧ (s.copyPages 0 lay2 0x11000 (job1 none 9).pages).2.2 = [])
    ∧ (let s := withJob (begun (served' lay2 promptMem []) 5 (.loadVariant 0 5 0 0x10000 1)) (job1 (some 0) 65536)
     Claims.Begun s 0 5 (.loadVariant 0 5 0 0x10000 1) ∧ s.jobOf 0 5 = some (job1 (some 0) 65536) ∧ s.layout 0 0 = some lay2
      ∧ (s.copyPages 0 lay2 0x11000 (job1 (some 0) 65536).pages).2.2 = [] ∧ s.pfxFull = false) := by
  refine ⟨?_, ?_⟩ <;> decide +kernel

/-- A prefix of that tenant space. -/
def pfx1 : Pfx := { tenant := 0, variantKind := false, layout := 0, serial := 1, pages := [], tokens := 2, onVariant := 0, onClient := 0, retired := false, mirrors := 0, own := [] }

theorem test_prefixes :
    (let s := served [(9, { open1 with len := 2, pages := [page1 0] })]
     s.reqCtx 0 9 = .inl 9 ∧ s.pfxFull = false ∧ ((s.ctx 9).pages.any fun p => p.first + p.tokens == 2) = true
      ∧ takes s 0 (.registerPrefix 0 5 9 2) stOk (fun t => t.serv.pfxs.length == 1 && (t.ctx 9).pages.all (·.ro)) = true)
    ∧ (let s := { served [] with glb := { valid := true, index := 0, live := 3, count := 2, yard := some { id := 1, count := 2, hashes := [], cabling := [], pairing := [(0, some 0), (1, some 0)] } }, fab := { routes := [(1, { ports := 1, hops := 1, valid := true })] } }
     s.pfxFull = false ∧ s.reachable 1 = true ∧ (s.layout 0 0).isNone = false ∧ s.pairOf 0 1 = some 0
      ∧ takes s 2 (.mirrorPrefix 0 5 1 0x1000 (some (zeros 16))) stOk (fun t => decide (t.fab.outbox = [.mirror 1 0x1000 true])
          && decide ((t.serv.pfxs.map (·.pages.map (·.pkg))) = [[1]])) = true
      ∧ takes s 2 (.mirrorPrefix 0 5 1 0x1000 none) fPermission (fun t => t.serv.pfxs.isEmpty) = true)
    ∧ (let s := { served [] with serv := { (served []).serv with pfxs := [pfx1] } }
     s.pfxOf 0 0x1000 false = some pfx1 ∧ takes s 0 (.retirePrefix 0 5 0x1000) stOk (fun t => t.serv.pfxs.isEmpty) = true) := by
  refine ⟨?_, ?_, ?_⟩ <;> decide +kernel

theorem freeSlot_lay2 (s : State) : s.freeSlot lay2 = some 1 := by
  show (if (2 : Nat) = 0 then none else if (!lay2.slots.contains (s.free 5 % 2)) = true then some (s.free 5 % 2)
    else (List.range 2).find? fun i => !lay2.slots.contains i) = some 1
  have hc := Nat.mod_lt (s.free 5) (show 0 < 2 by decide)
  rcases Nat.lt_succ_iff_lt_or_eq.mp hc with h | h
  · rw [show s.free 5 % 2 = 0 by omega]
    rfl
  · rw [h]
    rfl

set_option maxRecDepth 20000 in
theorem test_servingEvents :
    (let s := { served [(9, { open1 with lastTick := 0xFFFF0000 })] with sched := {} }
     s.schUp = true ∧ s.mayPark 9 = true ∧ (s.ctx 9).fill = 0 ∧ (s.parkCtx 9).isSome = true
      ∧ then' (exec (.contextPark 9) s) (fun t => (t.ctx 9).state == 3) = true)
    ∧ (let s := begun (served' lay2 [] [(9, { open1 with state := 3 })]) 5 (.query 0 5 9 0)
     s.schUp = true ∧ s.parkedNamed 9 = true ∧ s.cached.length < 2048 ∧ s.layout 0 0 = some lay2)
    ∧ (let s := served [(9, { open1 with state := 4 })]
     smWf ({} : Ctx) s.serv.ctxs = true ∧ (s.ctx 9).state = 4 ∧ (s.cmds.list.any fun k => k.inFlight && k.batch.contains 9) = false
      ∧ (s.serv.merges.any fun m => m.ctx == 9) = false ∧ (s.serv.jobs.any fun j => j.ctx == 9) = false
      ∧ then' (exec (.contextRelease 9) s) (fun t => decide (t.ctx 9 = {})) = true)
    ∧ (let s := { served [(9, open1)] with tim := { ns := 125000 } }
     s.tickEdge = true ∧ (s.acct 0).valid = true ∧ smWf ({} : Account) s.serv.accts = true
      ∧ then' (exec .accountRefill s) (fun t => (t.acct 0).balance == 22) = true
      ∧ then' (exec .deficitUpdate s) (fun t => t.cmds.list.isEmpty) = true)
    ∧ (let s := { served [] with tim := { ns := 125000 }, sched := { paddock := true, paddocks := [(2, { entries := 0, ends := 1, slices := [(0, { ticks := 4 })] })] } }
     s.tickEdge = true ∧ (s.paddockN 2).next = none ∧ (s.paddockN 2).ends ≤ s.tick
      ∧ then' (exec (.sliceChange 2) s) (fun t => (t.paddockN 2).ends == 6) = true)
    ∧ (let s := served []
     let next := fun (t : State) => { t with tim := { t.tim with ns := t.tim.ns + 1000 } }.policyBeat
     s.acctsAhead.acctOwner 0 = some 0 ∧ s.acctsAhead.acctOwner 1 = none ∧ s.sched.writes = []
      ∧ takes s 0 (.account 0 5 0 1 7 2 0) stOk (fun t => decide (t.acct 0 = s.acct 0) && ((next t).acct 0).balance == 7
          && ((next t).acct 0).weight == 2) = true
      ∧ takes s 0 (.account 0 5 1 1 7 2 0) stOk (fun t => ((next t).acct 1).balance == 7) = true
      ∧ takes s 0 (.account 0 5 0 1 7 2 1) stOk (fun t => (t.acct 0).valid && !((next t).acct 0).valid) = true)
    ∧ (let s := { served [(5, open1)] with tim := { ns := 1000 }, cmds := { list := [{ cmd5 with place := [] }], nextId := 3 } }
     s.tickEdge = false ∧ ((s.holdOver 0).cmds.list.map (·.hold)) = [1]) := by
  refine ⟨?_, ?_, ?_, ?_, ?_, ?_, ?_⟩ <;> decide +kernel

/-- A context whose trough a commit left at its mark. -/
def marked : State := served' lay2 [] [(9, { open1 with candMax := 16, fill := 1, len := 1 })]

set_option maxRecDepth 20000 in
theorem test_catchup : marked.schUp = true ∧ (marked.ctx 9).state = 1 ∧ (marked.ctx 9).mark ≤ (marked.ctx 9).fill
    ∧ (let s0 := served' { lay2 with poolUnits := 0 } [] [(9, { open1 with candMax := 16, fill := 1, len := 1 })]
     let k := { cmd5 with batch := [9] }
     let s := { s0 with cmds := { list := [k], nextId := 3 } }
     s.schUp = true ∧ (s.ctx 9).state = 1 ∧ (s.ctx 9).mark ≤ (s.ctx 9).fill ∧ (s.flushCtx 9).isNone = true ∧ s.flushStop 9 = some rQuota
      ∧ (s.heads.find? fun k => k.batch.contains 9) = some k
      ∧ then' (exec (.catchupFlush 9) s) (fun t => t.cmds.list.isEmpty) = true)
    ∧ (marked.flushCtx 9).isSome = true := by
  refine ⟨by decide +kernel, by decide +kernel, by decide +kernel, by decide +kernel, ?_⟩
  simp only [State.flushCtx, show marked.layout (marked.ctx 9).tenant (marked.ctx 9).layout = some lay2 by decide +kernel, takeRun_lay2]
  decide +kernel

set_option maxRecDepth 20000 in
theorem test_merges :
    (let s := served' lay3 [] [(9, { open1 with len := 4, pages := [page1 0, { page1 1 with first := 2 }] })]
     s.schUp = true ∧ s.serv.compactEnable = true ∧ s.serv.merges.length < s.serv.compactStreams ∧ s.flushesCtx 9 = false
      ∧ s.serves 95 = true ∧ (s.cl 95).full false (.ce 0) = false
      ∧ s.mergePair 9 0 = some (page1 0, { page1 1 with first := 2 }) ∧ s.layout 0 0 = some lay3)
    ∧ (let s0 := served' lay3 (pageBytes 0 ++ pageBytes 1) [(9, { open1 with len := 4, pages := [page1 0, { page1 1 with first := 2 }] })]
     let m : Merge := { ctx := 9, idx := 0, unit := 2, units := 1, seq := 0 }
     let s := { s0 with serv := { s0.serv with merges := [m] } }
     let v := s.pull 0 (s.pageBytes 0 lay3 (page1 0) ++ s.pageBytes 0 lay3 { page1 1 with first := 2 })
     let pl := (List.range lay3.planes).map fun k => (v.readPlane 0 lay3 (page1 0) k, v.readPlane 0 lay3 { page1 1 with first := 2 } k)
     let w := v.codePage 0 lay3 (lay3.unitVa m.unit) 1 (pl.map fun x => x.1.1 ++ x.2.1)
     s.shutTen 0 (s.pageBytes 0 lay3 (page1 0) ++ s.pageBytes 0 lay3 { page1 1 with first := 2 }
        ++ addrs (lay3.unitVa m.unit) (m.units * lay3.unitBytes)) = false
      ∧ (s.serv.merges.find? fun m => m.ctx == 9) = some m ∧ s.mergePair 9 0 = some (page1 0, { page1 1 with first := 2 })
      ∧ pl.flatMap (fun x => x.1.2 ++ x.2.2) = [] ∧ ((v.endMerge m).schWrites 0 w.1).2 = []) := by
  refine ⟨?_, ?_⟩ <;> decide +kernel

/-! ### Site time, yard, fabric, power -/

def timed (t : Tim) : State := { State.reset with tim := t }

theorem test_time :
    (let s := timed { todNext := 3000000000 }
     s.alive = true ∧ s.tim.todNext.toNat % 1000000000 = 0 ∧ then' (exec .arm s) (fun t => t.tim.arm) = true)
    ∧ (let s := timed { todNext := 3000000001, arm := true }
     then' (exec .arm s) (fun t => !t.tim.arm && t.tim.todRejected) = true)
    ∧ (let s := timed { ns := 1000, todNext := 3000000000, arm := true }
     s.board.pwrok = true ∧ s.board.tripped = false ∧ true ≠ s.tim.ppsFalling
      ∧ then' (exec (.ppsEdge true 7) s) (fun t => t.tim.ns == 3000000000 && t.tim.locked) = true)
    ∧ (let s := timed { ns := 3000000000, todNext := 3000000000, arm := true }
     then' (exec (.ppsEdge true 7) s) (fun t => t.tim.ns == 3000000000 && t.tim.locked && t.tim.slew == -70) = true)
    ∧ (let s := timed { ns := 4000000000, todNext := 3000000000, arm := true }
     then' (exec (.ppsEdge true 7) s) (fun t => !t.tim.locked && t.tim.todRejected && !t.tim.arm) = true)
    ∧ (let s := timed { ns := 3999999000, locked := true }
     then' (exec (.ppsEdge true 7) s) (fun t => t.tim.ppsError == BitVec.ofInt 32 (-993) && t.tim.slew == 9930) = true)
    ∧ (let s := timed { ns := 3999990000, locked := true, holdover := true, holdoverBeats := 1000001, ignored := 2 }
     edgeBound s.tim.holdoverBeats = 4000 ∧ edgeBound s.tim.holdoverBeats < ((secError (s.tim.ns + 7)).natAbs : Int)
      ∧ then' (exec (.ppsEdge true 7) s) (fun t => t.tim.ppsFault && !t.tim.locked) = true)
    ∧ (let s := timed { locked := true, edgeAge := some 1000002000 }
     then' (exec .holdoverEntry s) (fun t => t.tim.holdover) = true
      ∧ then' (exec .holdoverEntry (timed { locked := true, edgeAge := some 1000001999 })) (fun t => !t.tim.holdover) = true)
    ∧ then' (exec (.syncRef10Change true true) State.reset) (fun t => t.tim.ref10Ok) = true := by
  refine ⟨?_, ?_, ?_, ?_, ?_, ?_, ?_, ?_, ?_⟩ <;> decide +kernel

/-- A yard of two packages, of which this one is package 0; port 2 leads to port 3 of package 1; space 6 is its pairing with 4. -/
def yard0 : YardRec := { id := 9, count := 2, hashes := [11, 12], cabling := [(2, some (1, 3)), (11, some (0, 2))], pairing := [(0, some 6), (1, some 4)] }
/-- A state in that yard at a frame boundary, with one route and port 2 in the given state. -/
def yarded (p : Port) : State :=
  { State.reset with
    glb := { yard := some yard0, valid := true, count := 2, isLead := true, live := 3, whole := 3 }
    fab := { ports := [(2, p)], routes := [(1, { ports := 4, hops := 1, valid := true })] }
    grm := { grooms := [(1, { state := 1, running := some { img0 with cls := 1, yard := 0x00030001 } }), (2, { state := 1, running := some { img0 with yard := 0x00020001 } })] }
    tim := { ns := 10000000 } }

theorem test_yard :
    (let s := yarded {}
     s.alive = true ∧ s.glb.valid = true ∧ 1 < s.glb.count
      ∧ then' (exec (.presenceWord 1 1 4) s) (fun t => t.glb.heard == [(1, 1, 4)]) = true)
    ∧ (let s0 := yarded {}
     let s := { s0 with glb := { s0.glb with heard := [(1, 2, 4)] } }
     let h := [(1, 2, 4), (0, 1, 2)]
     s.frameEdge = true ∧ h = (s.glb.heard.filter fun h => h.1 != s.glb.index) ++ [(s.glb.index, s.yardRange.1, s.yardRange.2)]
      ∧ yardVersion h (if s.grm.protoSet then some s.grm.protoInUse.toNat else none) = some 2 ∧ groupOf h 2 = [1, 0]
      ∧ then' (exec .liveSetUpdate s) (fun t => t.glb.live == 3 && t.glb.isLead && t.grm.protoInUse == 2 && !t.glb.partitioned) = true) := by
  refine ⟨?_, ?_⟩ <;> decide +kernel

theorem test_links :
    (let s := yarded { state := 1 }
     s.alive = true ∧ (s.port 2).state = 1 ∧ halfGood (s.port 2).good = true
      ∧ then' (exec (.portTrainingDone 2 true) s) (fun t => (t.port 2).state == 2 && decide (t.fab.outbox = [.ident 2 s.glb.yardId 0 s.sec.idHash])) = true
      ∧ then' (exec (.portTrainingDone 2 false) s) (fun t => (t.port 2).state == 6 && (t.port 2).since == 10000000) = true
      ∧ halfGood 0x77 = false
      ∧ then' (exec (.portTrainingDone 2 true) (yarded { state := 1, good := 0x77 })) (fun t => (t.port 2).state == 6) = true)
    ∧ (let s := yarded { state := 2 }
     s.identOk 2 9 1 3 12 = true ∧ then' (exec (.ident 2 9 1 3 12) s) (fun t => (t.port 2).state == 3 && (t.port 2).nbrPkg == 1) = true
      ∧ then' (exec (.ident 2 9 1 3 11) s) (fun t => (t.port 2).state == 5) = true
      ∧ then' (exec (.ident 2 9 1 3 12) (yarded { state := 2, good := 0x77 })) (fun t => (t.port 2).state == 6) = true
      ∧ then' (exec (.ident 2 9 1 3 12) (yarded { state := 2, good := 0x7F })) (fun t => (t.port 2).state == 4) = true
      ∧ then' (exec (.linkFail 2 .signalLost) s) (fun t => (t.port 2).state == 6 && (t.port 2).downs == 1) = true
      ∧ then' (exec (.laneFailure 2 0xF7) s) (fun t => (t.port 2).state == 2 && (t.port 2).good == 0xF7) = true
      ∧ then' (exec (.laneFailure 2 0x77) s) (fun t => (t.port 2).state == 6) = true)
    ∧ (let s := { yarded { state := 5, good := 0x0F, since := 5 } with tim := { ns := 1000000005 } }
     then' (exec (.portRetrain 2) s) (fun t => (t.port 2).state == 1 && (t.port 2).good == 0xFF) = true
      ∧ then' (exec (.portRetrain 2) { s with tim := { ns := 1000000004 } }) (fun t => (t.port 2).state == 5) = true)
    ∧ (let s := yarded { state := 3 }
     s.glb.yard = some yard0 ∧ s.glb.valid = true ∧ s.pwrUp = true ∧ (s.port 2).inService = true
      ∧ then' (exec (.routeUpdate []) s) (fun t => (t.fab.nextRoutes.map fun m => (smGet {} m 1 : Route)) ==
          some { ports := 4, hops := 1, valid := true }) = true
      ∧ smWf ({} : Route) s.fab.routes = true
      ∧ then' (exec (.linkFail 2 .signalLost) s) (fun t => (t.port 2).state == 6 && !(t.route 1).valid) = true
      ∧ then' (exec (.flitReplay 2) s) (fun t => (t.port 2).replays == 1 && (t.port 2).state == 3) = true
      ∧ (s.port 2).good &&& 0xF7 ≠ 0xFF ∧ then' (exec (.laneFailure 2 0xF7) s) (fun t => (t.port 2).state == 4) = true
      ∧ then' (exec (.laneFailure 2 0xE7) s) (fun t => (t.port 2).state == 6) = true)
    ∧ (let s0 := yarded { state := 3 }
     let s := { s0 with fab := { s0.fab with routes := [(1, { ports := 0x14, hops := 1, valid := true })] }, far := { loops := [80] } }
     s.frameEdge = true ∧ s.mayTest 2 = true ∧ s.loopPort = some 2
      ∧ then' (exec (.fabricLoopback 2 .start) s) (fun t => (t.port 2).test && (t.route 1).ports == 0x10 && t.far.loops.isEmpty && t.far.nextPort == 3) = true)
    ∧ then' (exec (.fabricLoopback 2 .drained) (yarded { state := 3, test := true })) (fun t => (t.port 2).state == 7) = true
    ∧ then' (exec (.fabricLoopback 2 (.ended true)) (yarded { state := 7, test := true })) (fun t => (t.port 2).state == 1) = true
    ∧ (let s := { runs cmd0 [] (inst0 []) with fab := { waiting := [{ cmd := 1, pkg := 4, since := 0 }] }, tim := { ns := 10000001 } }
     s.cmd 1 = some cmd0 ∧ cmd0.st = .running ∧ s.fab.waiting.find? (s.overdue 1) = some { cmd := 1, pkg := 4, since := 0 }
      ∧ then' (exec (.routeWaitTimeout 1) s) (fun t => t.cmds.list.isEmpty) = true) := by
  refine ⟨?_, ?_, ?_, ?_, ?_, ?_, ?_, ?_⟩ <;> decide +kernel

/-- A set of links out of service that a route computation's hypotheses describe. -/
theorem test_linksOff : let s := yarded { state := 3 }
    ∃ off : Nat → Nat → Bool, (∀ q, off s.glb.index q = !s.carries q)
      ∧ ∀ a q, a ≠ s.glb.index → (off a q = true ↔ ∃ x ∈ ([(1, 5)] : List (Pk × Pt)), x.1.val = a ∧ x.2.val = q) := by
  refine ⟨fun a q => if a = 0 then !(yarded { state := 3 }).carries q else a == 1 && q == 5, fun _ => rfl, ?_⟩
  intro a q h
  have e : a ≠ 0 := h
  show (if a = 0 then !(yarded { state := 3 }).carries q else a == 1 && q == 5) = true ↔ _
  rw [if_neg e]
  constructor
  · intro h
    obtain ⟨h1, h2⟩ := Bool.and_eq_true_iff.mp h
    exact ⟨(1, 5), List.mem_singleton.mpr rfl, (beq_iff_eq.mp h1).symm, (beq_iff_eq.mp h2).symm⟩
  · rintro ⟨x, hx, rfl, rfl⟩
    rw [List.mem_singleton.mp hx]
    rfl

theorem test_remoteRequests :
    (let s := { yarded {} with mem := [(0x600001, 8)] }
     s.alive = true ∧ s.fab.early = [] ∧ smGet 0 s.fab.seqIn (65536 * 1 + 5 % 65536) = 0 ∧ (s.asOfFrame 1).pairFrom 1 4 = some 6 ∧ (s.asOfFrame 1).pairFrom 1 7 = none
      ∧ then' (exec (.remoteRequestArrival 1 5 0 ⟨4, 1⟩ (.read 0x600000 2)) s) (fun t => decide (t.fab.outbox = [.reply 1 5 0 (.inl [0, 8])])) = true
      ∧ then' (exec (.remoteRequestArrival 1 5 0 ⟨7, 1⟩ (.read 0x600000 2)) s) (fun t => decide (t.fab.outbox = [.reply 1 5 0 (.inr fRemote)])) = true)
    ∧ (let s := { yarded {} with clusters := [(0, { segs := [(0, some 6)] })] }
     then' (exec (.remoteRequestArrival 1 5 0 ⟨4, 1⟩ (.write [(0xF000000000, 0xF0, 0x77)])) s) (fun t =>
        decide (t.fab.outbox = [.reply 1 5 0 (.inl [])]) && t.mem.map (·.2) == [0x70]) = true)
    ∧ (let s := { yarded {} with serv := { pfxs := [{ tenant := 6, variantKind := false, layout := 0, serial := 1, pages := [], tokens := 2, onVariant := 0, onClient := 0, retired := false, mirrors := 0, own := [] }] } }
     (∀ x ∈ s.serv.pfxs, x.retired = false)
      ∧ then' (exec (.remoteRequestArrival 1 5 0 ⟨4, 1⟩ (.mirror 0x1006 true)) s) (fun t => decide (t.serv.pfxs.map (·.mirrors) = [1])) = true)
    ∧ (let s0 := yarded {}
     let s := { s0 with fab := { s0.fab with seqIn := [(65536 + 5, 3)] } }
     2 < smGet 0 s.fab.seqIn (65536 * 1 + 5 % 65536)
      ∧ then' (exec (.remoteRequestArrival 1 5 2 ⟨4, 1⟩ (.read 0x600000 2)) s) (fun t => t.fab.outbox.isEmpty) = true) := by
  refine ⟨?_, ?_, ?_, ?_⟩ <;> decide +kernel

def powered (p : Pwr) : State := { up State.reset with pwr := p, tim := { ns := 125000 } }

theorem test_power :
    (let s := powered { regions := [(0, { current := 4 })] }
     s.alive = true ∧ s.tickEdge = true ∧ s.tick % 80 ≠ 0 ∧ 8 * s.pwr.cap < 1400 ∧ s.topPoint = 4
      ∧ then' (exec (.limiterTick 1400) s) (fun t => t.pwr.ceiling == 3 && t.pwr.avg == 1400) = true)
    ∧ (let s := powered { ceiling := 0, duty := 3 }
     s.topPoint = 0 ∧ then' (exec (.limiterTick 1400) s) (fun t => t.pwr.capUnreachable) = true)
    ∧ (let s := powered { ceiling := 0, duty := 2 }
     100 * 100 < 95 * (8 * s.pwr.cap) ∧ then' (exec (.limiterTick 100) s) (fun t => t.pwr.duty == 1) = true)
    ∧ (let s := powered { ceiling := 2, est := [(3, 100)] }
     then' (exec (.limiterTick 100) s) (fun t => t.pwr.ceiling == 3) = true)
    ∧ (let s := powered { ceiling := 5 }
     s.topPoint = 0 ∧ 0 < s.pwr.ceiling ∧ then' (exec (.limiterTick 1400) s) (fun t => t.pwr.ceiling == 0) = true
      ∧ 95 * (8 * s.pwr.cap) ≤ 100 * 1216 ∧ 1216 ≤ 8 * s.pwr.cap
      ∧ then' (exec (.limiterTick 1216) s) (fun t => t.pwr.ceiling == 5 && t.pwr.duty == 0) = true)
    ∧ (let s := powered { ceiling := 0, duty := 2 }
     then' (exec (.limiterTick 1400) s) (fun t => t.pwr.duty == 3 && !t.pwr.capUnreachable) = true)
    ∧ (let s := powered { ceiling := 5, regions := [(0, { grant := 6, current := 3 }), (1, { grant := 1, current := 3 })] }
     smWf ({} : Region) s.pwr.regions = true ∧ smWf 750 s.pwr.rail = true ∧ (s.region 0).state = 0 ∧ s.pointOf 0 = 5 ∧ s.pointOf 1 = 1
      ∧ then' (exec (.opChange 0) s) (fun t => (t.region 0).rising == some 5 && (t.region 0).current == 3) = true
      ∧ then' (exec (.opChange 1) s) (fun t => (t.region 1).current == 1) = true)
    ∧ (let s := powered { regions := [(0, { current := 3, rising := some 5 })] }
     then' (exec (.opClockSwitch 0) s) (fun t => (t.region 0).current == 5) = true)
    ∧ (let s := powered {}
     s.pwrUp = true ∧ smWf (0 : BitVec 16) s.pwr.tempMax = true ∧ smWf 0 s.pwr.cool = true ∧ smWf ({} : Region) s.pwr.regions = true
      ∧ smWf 0 s.pwr.drop = true
      ∧ then' (exec (.grantUpdate 1000 900 800) s) (fun t => smGet 0 t.pwr.tempMax 1 == 900 && (t.region 7).grant == 0) = true)
    ∧ (let s := { State.reset with tim := { ns := 125000 }, pwr := { phaseNext := some (0, 3), vtripDie := 1, vtripAt := [(0, 125000)], cool := [(0, 3)] } }
     s.pwrUp = false ∧ s.tickEdge = true ∧ s.pwr.phaseNext = some (0, 3) ∧ s.tim.ns < smGet 0 s.pwr.vtripAt 0 + 10000000
      ∧ then' (exec (.grantUpdate 1600 1599 0) s) (fun t => smGet 0 t.pwr.cool 0 == 0 && smGet 0 t.pwr.cool 1 == 1) = true
      ∧ then' (exec (.grantUpdate 1000 900 800) (up s)) (fun t => t.pwr.phaseOp == 3 && t.pwr.vtripDie == 1) = true)
    ∧ (let s := powered {}
     s.glb.valid = false ∧ then' (exec (.pwrCabBudget 300) s) (fun t => t.pwr.budget == 300) = true)
    ∧ (let s := { powered {} with glb := { valid := true } }
     then' (exec (.pwrCabBudget 300) s) (fun t => t.pwr.budget == 160 && t.pwr.notLead) = true) := by
  refine ⟨?_, ?_, ?_, ?_, ?_, ?_, ?_, ?_, ?_, ?_, ?_, ?_⟩ <;> decide +kernel

theorem test_division :
    (let s := { up (yarded {}) with pwr := { budget := 600, reports := [(0, 300, 160, 650), (1, 500, 200, 650)] } }
     s.alive = true ∧ s.pwrUp = true ∧ s.frameEdge = true ∧ s.glb.valid = true ∧ s.glb.isLead = true ∧ s.glb.partitioned = false
      ∧ (s.pwr.reports.find? fun r => r.1 == 1) = some (1, 500, 200, 650)
      ∧ divide 600 ((setBits s.glb.live).map fun p => (s.pwr.reports.find? fun r => r.1 == p).getD (p, 0, 0, 650)) = ([(0, 236), (1, 363)], false)
      ∧ then' (exec .cabinetDivision s) (fun t => decide (t.fab.outbox = [.division 600 [(0, 236), (1, 363)]])) = true
      ∧ then' (exec (.demandReport 1 9 8 7) s) (fun t => decide ((t.pwr.reports.find? fun r => r.1 == 1) = some (1, 9, 8, 7))) = true)
    ∧ (let s := { up State.reset with tim := { ns := 10000000 }, pwr := { budget := 300, cap := 200 } }
     s.glb.valid = false ∧ then' (exec .cabinetDivision s) (fun t => t.pwr.next == 300 && t.pwr.nextAt == 82) = true)
    ∧ (let s := { up State.reset with glb := { valid := true, index := 1 }, pwr := { cap := 200 } }
     s.pwrUp = true ∧ s.glb.isLead = false ∧ (([(1, 170)] : List (Pk × BitVec 10)).map fun x => (x.1.val, x.2.toNat)).find? (fun x => x.1 == s.glb.index) = some (1, 170)
      ∧ then' (exec (.capApply (some (500, [(1, 170)]))) s) (fun t => t.pwr.next == 170 && t.pwr.lastB == 500) = true)
    ∧ (let s := powered { cap := 200, next := 170, nextAt := 1, est := [(0, 100), (1, 150), (2, 180)] }
     s.pwr.next ≠ 0 ∧ s.tickEdge = true ∧ s.pwr.nextAt ≤ s.tick
      ∧ then' (exec (.capApply none) s) (fun t => t.pwr.cap == 170) = true) := by
  refine ⟨?_, ?_, ?_, ?_⟩ <;> decide +kernel

theorem test_regions :
    (let s := powered {}
     s.alive = true ∧ s.pwrUp = true ∧ s.mayStable 3 = true ∧ (s.region 3).state = 0 ∧ max 1 s.pwr.stableLeast ≤ (s.runningRegions.filter (· != 3)).length
      ∧ then' (exec (.stableRegion 3) s) (fun t => (t.region 3).state == 1) = true
      ∧ smWf (0 : W64) s.pwr.droopEvents = true ∧ then' (exec (.droopDetect 3) s) (fun t => (t.region 3).halved && smGet 0 t.pwr.droopEvents 3 == 1) = true)
    ∧ (let s := powered { regions := [(3, { state := 1 })] }
     then' (exec (.wakeRegion 3) s) (fun t => (t.region 3).state == 2 && (t.region 3).wokenAt == 125
      && then' (exec (.wakeDone 3) t) fun u => (u.region 3).state == 2) = true)
    ∧ (let s := powered { regions := [(3, { state := 2, wokenAt := 75 })] }
     (s.region 3).stableNext = false ∧ (s.region 3).wokenAt + 50 ≤ s.beat
      ∧ then' (exec (.stableRegion 3) s) (fun t => (t.region 3).state == 2 && (t.region 3).stableNext
          && then' (exec (.wakeDone 3) t) fun u => (u.region 3).state == 1) = true ∧ then' (exec (.wakeDone 3) s) (fun t => (t.region 3).state == 0) = true)
    ∧ (let s := powered { regions := [(3, { halved := true, current := 5 })] }
     smWf ({} : Region) s.pwr.regions = true ∧ then' (exec (.droopEnd 3) s) (fun t => !(t.region 3).halved) = true
      ∧ 1600 ≤ (1679 : BitVec 16).toInt
      ∧ then' (exec (.thermalForce 2 1679) { s with pwr := { s.pwr with cool := [(2, 5)] } }) (fun t => smGet 0 t.pwr.cool 2 == 0 && t.pwr.force == 0) = true
      ∧ 1680 ≤ (1680 : BitVec 16).toInt ∧ then' (exec (.thermalForce 2 1680) s) (fun t => (t.region 3).current == 0 && t.pwr.force == 4) = true
      ∧ then' (exec (.voltageTrip 0) s) (fun t => (t.region 3).current == 0 && t.pwr.vtripDie == 1) = true
      ∧ 1840 ≤ (1840 : BitVec 16).toInt ∧ then' (exec (.thermtrip 1 1840) s) (fun t => !t.alive && t.pwr.thermtripSeen) = true
      ∧ then' (exec (.regulatorNotAnswering 4 false) s) (fun t => t.pwr.silent == 0x10) = true)
    ∧ (let s := powered { force := 2, cool := [(1, 2)] }
     s.tickEdge = true ∧ 2 ≤ smGet 0 s.pwr.cool 1 ∧ then' (exec (.thermalRelease 1) s) (fun t => t.pwr.force == 0) = true) := by
  refine ⟨?_, ?_, ?_, ?_, ?_⟩ <;> decide +kernel

/-! ### Memory -/

theorem test_memoryEvents :
    (let s := { State.reset with memc := { postponed := [(33, 8)] } }
     s.alive = true ∧ smWf (0 : Nat) s.memc.postponed = true
      ∧ then' (exec (.hbmRefresh 1 1 .makeUp) s) (fun t => smGet 0 t.memc.postponed 33 == 7) = true
      ∧ then' (exec (.hbmRefresh 1 1 .postpone) s) (fun t => smGet 0 t.memc.postponed 33 == 8) = true
      ∧ then' (exec (.hbmRefresh 1 1 .issue) s) (fun t => smGet 0 t.memc.postponed 33 == 8) = true
      ∧ then' (exec (.hbmRefresh 2 1 .postpone) s) (fun t => smGet 0 t.memc.postponed 65 == 1) = true)
    ∧ (let r : ChReq := { op := 1, cmd := 1, src := 0, express := false, burst := 0, delayed := true }
     let s := { State.reset with memc := { chans := [(0, { queue := [r] })] } }
     (s.bankRow r).1 = 0 ∧ (((s.chan 0).queue.dropWhile fun r => (s.bankRow r).1 != 0).any (·.delayed)) = true
      ∧ then' (exec (.hbmRefresh 0 0 .issue) s) (fun t => smGet 0 t.memc.postponed 0 == 1) = true)
    ∧ (let s := { State.reset with memc := { scrubHbm := 0x10001 } }
     let v := s.fetches 0 0 srcScrub false (List.replicate 32 0x200020)
     smWf ({} : Frame) v.memc.frames = true ∧ v.memc.poison.contains (0x200020 / 32) = false ∧ smGet 0 v.memc.upset (0x200020 / 32) = 0
      ∧ s.shut [0x200020] = false ∧ (0x200020 : BitVec 48).toNat = 32 * s.memc.scrubHbm ∧ s.memc.scrubHbm < hbmEnd / 32 ∧ smWf ({} : Frame) s.memc.frames = true
      ∧ then' (exec (.patrolScrubRead false 0x200020 .good) s) (fun t => t.memc.scrubHbm == 0x10002 && t.memc.eccCorr == 0) = true
      ∧ then' (exec (.patrolScrubRead false 0x200040 .corrected) s) (fun t => t.memc.scrubHbm == 0x10001 && t.memc.eccCorr == 0) = true
      ∧ isHbm (0x200020 : BitVec 48).toNat = true ∧ s.isLoft (0x200020 : BitVec 48).toNat = false ∧ s.memc.poison.contains (0x200020 / 32) = false
      ∧ then' (exec (.patrolScrubRead false 0x200020 .corrected) s) (fun t => t.memc.eccCorr == 1 && (t.frameAt 1).corrections == 1) = true
      ∧ then' (exec (.patrolScrubRead false 0x200020 .uncorrectable) s) (fun t => t.memc.poison == [0x10001] && t.memc.eccAddr == 0x200020) = true)
    ∧ (let s := { State.reset with memc := { rateAsked := true, rateTarget := 2 }, tim := { ns := 125000 } }
     s.tickEdge = true ∧ then' (exec .loftRateChange s) (fun t => t.memc.rateBusy && t.memc.rateNext == 2) = true)
    ∧ (let s := { State.reset with memc := { rateBusy := true, rateNext := 2, chFail := 2 } }
     smWf (0 : Nat) s.memc.chRate = true ∧ then' (exec .loftRateChangeEnd s) (fun t => t.memc.rateCurrent == 2
        && smGet 0 t.memc.chRate 0 == 2 && smGet 0 t.memc.chRate 1 == 0) = true)
    ∧ (let s := { State.reset with memc := { chFail := 0x11 } }
     then' (exec (.memChRetrain 0x12) s) (fun t => t.memc.retrain == 0x10) = true)
    ∧ (let s := { State.reset with memc := { chFail := 0x11, retrain := 0x10 } }
     s.memc.retrain.getLsbD 4 = true ∧ then' (exec (.loftRetrainDone 4 true) s) (fun t => t.memc.chFail == 1 && t.memc.retrain == 0) = true
      ∧ then' (exec (.loftTrainingLost 9) s) (fun t => t.memc.chFail == 0x211) = true)
    ∧ (let o : UnitOp := { unit := .ce 0, cmd := 1, id := 0, express := false, loft := 4 }
     let r : ChReq := { op := 0, cmd := 1, src := 0, express := false, burst := 0 }
     let s := { runsOn { ops := [o] } cmd0 [] (inst0 []) with
       memc := { missRow := [(2, 2)], chans := [(130, { queue := [r] })] }
       tim := { ns := 2000000 } }
     s.cmd 1 = some cmd0 ∧ cmd0.st = .running ∧ ((List.range 96).filterMap fun g => ((s.cl g).ops.find? fun o => o.cmd == 1 && !o.killed
        && (s.lateOn 2 o).isSome).bind fun o => (s.lateOn 2 o).map fun r => (g, o, r)).head? = some (0, o, r)
      ∧ r.issued + s.memc.tierTimeout.toNat ≤ s.beat ∧ 2 ≤ smGet 0 s.memc.missRow 2
      ∧ smGet 0 s.memc.missRow 3 < 2 ∧ smWf (0 : Nat) s.memc.missRow = true ∧ (s.loftMiss 3).memc.chFail = 0
      ∧ then' (exec (.loftRequestTimeout 1 2) s) (fun t => t.memc.chFail == 4 && t.memc.loftTimeouts == 1) = true)
    ∧ (let s := { State.reset with mem := [(0x1FFFFF, 1), (0x200000, 2), (0x400000, 3)] }
     s.frameFree 1 = true ∧ (1 : Nat) < hbmReserve / frameBytes ∧ Memory.wf s.mem
      ∧ then' (exec (.frameZero 0x200000) s) (fun t => decide (t.mem = [(0x1FFFFF, 1), (0x400000, 3)]) && (t.frameAt 1).zeroed) = true)
    ∧ (let s := { State.reset with tim := { ns := 10000000 }, memc := { frames := [(3, { count := 7 })] } }
     s.frameEdge = true ∧ smWf ({} : Frame) s.memc.frames = true
      ∧ then' (exec .accessCountHalve s) (fun t => (t.frameAt 3).count == 3) = true)
    ∧ (let r : ChReq := { op := 0, cmd := 1, src := 0, express := false, burst := 0x600000 / 64, bytes := 7 }
     let ch := (State.reset.chanOf 0x600000).getD 0
     let s := { State.reset with memc := { waiting := [r], frames := [(3, { count := 0xFFFF, part := 4090 })] } }
     let u := { State.reset with memc := { waiting := [r], frames := [(3, { part := 4090 })] } }
     s.closed ch = false ∧ (s.chan ch).pick (s.inlet ch) = some r ∧ (s.chan ch).queue.length < 32 ∧ s.infl.filter (·.of r) = []
      ∧ s.memc.upset = [] ∧ s.memc.poison = [] ∧ s.memc.loftBad = [] ∧ smWf ({} : Frame) s.memc.frames = true
      ∧ ((s.enter ch).frameAt 3).count = 0xFFFF ∧ ((s.enter ch).frameAt 3).part = 1 ∧ ((u.enter ch).frameAt 3).count = 1)
    ∧ (let s := { up State.reset with mem := [(cbAddr 0 65536, 7)] }
     s.schUp = true ∧ Memory.wf s.mem ∧ s.tablesWf ∧ smWf (none : Option Nat) (s.cl 0).segs = true ∧ smGet none (s.cl 0).segs 1 ≠ some 3
      ∧ then' (exec (.segmentRetag 0 1 (some 3)) s) (fun t => t.mem.isEmpty && smGet none (t.cl 0).segs 1 == some 3) = true) := by
  refine ⟨?_, ?_, ?_, ?_, ?_, ?_, ?_, ?_, ?_, ?_, ?_, ?_⟩ <;> decide +kernel

/-- A state whose tenant space 0 has a page in HBM frame 3, and a loft. -/
def moving (ms : List Migration) : State :=
  { up State.reset with
    mem := [(0x601000, 9)]
    tens := [(0, { leaves := [⟨0x400000, 0x200000, 0x600000, true, false, 1⟩], quotaLoft := 1, useHbm := 1, quotaHbm := 1 })]
    memc := { loftGib := 1, frames := [(3, { holder := some 0, charged := true })], migs := ms } }

set_option maxRecDepth 100000 in
theorem test_migration :
    (let s := moving []
     let b : BitVec 48 := BitVec.ofNat 48 loftBase
     s.alive = true ∧ s.schUp = true ∧ b.toNat % frameBytes = 0 ∧ (s.frameAt (0x600000 / frameBytes)).holder = some 0
      ∧ s.leavesIn 0 3 ≠ [] ∧ ((s.leavesIn 0 3).any (·.pin)) = false ∧ s.frameFree (b.toNat / frameBytes) = true ∧ s.isLoft b.toNat = true
      ∧ isLoftFrame (b.toNat / frameBytes) ≠ isLoftFrame 3 ∧ s.memc.chFail = 0
      ∧ (s.memc.migs.any fun x => x.src == 0x600000) = false ∧ (s.ten 0).over (isLoftFrame (b.toNat / frameBytes)) = false
      ∧ majorityTier (s.leavesIn 0 3) ≠ some (isLoftFrame 3) ∧ (s.memc.lost.any fun e => e.1 == 3) = false
      ∧ (s.ten 0).use (isLoftFrame (b.toNat / frameBytes)) + 1 ≤ (s.ten 0).quota (isLoftFrame (b.toNat / frameBytes))
      ∧ then' (exec (.migrationStart 0x600000 b) s) (fun t => t.memc.migs.length == 1 && (t.ten 0).useLoft == 1) = true)
    ∧ (let m : Migration := { tenant := 0, src := 0x600000, dst := loftBase, chunk := 1 }
     let s := moving [m]
     let v := s.fetches 0 0 srcMig false
        (((List.range 64).map fun k => m.src + 4096 * m.chunk + 64 * k).flatMap fun p => List.replicate 64 p)
     (s.memc.migs.find? fun m => m.src == (0x600000 : BitVec 48).toNat) = some m ∧ m.chunk < 512 ∧ s.shut [m.src, m.dst] = false
      ∧ s.pinned m = false ∧ (∀ ch ∈ s.chunkChans m, s.memc.chFail.getLsbD ch = false) ∧ v.memc.waiting = []
      ∧ ((v.memc.poison ++ v.memc.loftBad ++ (v.memc.upset.filter fun e => decide (2 ≤ e.2)).map (·.1)).filter fun w =>
        decide (m.src + 4096 * m.chunk ≤ 32 * w) && decide (32 * w < m.src + 4096 * m.chunk + 4096)) = []
      ∧ then' (exec (.migrationChunk 0x600000 .landed) s) (fun t => decide (t.mem = [(0x601000, 9), (loftBase + 0x1000, 9)])) = true)
    ∧ (let m : Migration := { tenant := 0, src := 0x600000, dst := loftBase, chunk := 512 }
     let s := moving [m]
     (s.memc.migs.find? fun m => m.src == (0x600000 : BitVec 48).toNat) = some m ∧ 512 ≤ m.chunk ∧ s.pinned m = false ∧ smWf ({} : Tenant) s.tens = true
      ∧ then' (exec (.migrationComplete 0x600000) s) (fun t => (t.ten 0).leaves.map (·.pa) == [loftBase] && (t.ten 0).useHbm == 0) = true) := by
  refine ⟨?_, ?_, ?_⟩ <;> decide +kernel

/-! ### Grooms and the tack room
The signed test records carry signatures under throw-away keys: for a digest e that is the abscissa of a point R, the key R - G with
r = s = e is valid, whose check needs few point additions. -/

/-- The cells of bytes from an address: those that are not 0. -/
def cells (a : Nat) : List Byte → List Host.Cell
  | [] => []
  | b :: bs => if b = 0 then cells (a + 1) bs else (a, b) :: cells (a + 1) bs

theorem smGet_cells_low (bs : List Byte) : ∀ a k, k < a → smGet 0 (cells a bs) k = 0 := by
  induction bs with
  | nil => exact fun _ _ _ => rfl
  | cons b bs ih =>
    intro a k h
    simp only [cells]
    split
    · exact ih _ _ (by omega)
    · simp only [smGet]
      rw [if_neg (by omega), if_pos h]

theorem memGet_cells (bs : List Byte) : ∀ a i, memGet (cells a bs) (a + i) = bs.getD i 0 := by
  induction bs with
  | nil => exact fun _ _ => rfl
  | cons b bs ih =>
    intro a i
    cases i with
    | zero =>
      simp only [cells]
      split
      · rename_i h
        rw [h]
        exact smGet_cells_low _ _ _ (by omega)
      · simp [memGet, smGet]
    | succ i =>
      have e : a + (i + 1) = a + 1 + i := by omega
      simp only [cells]
      split
      · rw [e, ih]
        rfl
      · simp only [memGet, smGet]
        rw [if_neg (by omega), if_neg (by omega), e]
        exact ih (a + 1) i

/-- Reads of a state whose memory is untranslated, whole and at rest. -/
structure Plain (s : State) (a : Nat) (bs : List Byte) : Prop where
  sep : s.memc.separate = true
  migs : s.memc.migs = []
  poison : s.memc.poison = []
  bad : s.memc.loftBad = []
  loft : s.memc.loftGib = 0
  lost : s.memc.lost = []
  upset : s.memc.upset = []
  infl : s.infl = []
  mem : s.mem = cells a bs

theorem Plain.quiet {s t : State} {a : Nat} {bs : List Byte} (h : Plain s a bs) (q : s.Quiet t) : Plain t a bs := by
  obtain ⟨m, rfl, hm⟩ := q
  simp only [Memc.plan, Prod.mk.injEq] at hm
  obtain ⟨h1, h2, h3, h4, h5, h6, h7⟩ := hm
  exact ⟨h1.trans h.sep, h2.trans h.migs, h3.trans h.poison, h4.trans h.bad, h6.trans h.loft, h7.trans h.lost, h5.trans h.upset, h.infl, h.mem⟩

theorem Plain.rd {s : State} {a : Nat} {bs : List Byte} (h : Plain s a bs) (i : Nat) (hx : a + i < 2 ^ 32) :
    s.rd (a + i) = bs.getD i 0 := by
  have r : isRegs (a + i) = false := by
    have : ¬ regBase ≤ a + i := by unfold regBase; omega
    simp [isRegs, this]
  simp only [State.rd, r, State.redirect, h.migs, List.find?_nil, State.raw, State.lostAt, h.lost, h.mem]
  exact memGet_cells _ _ _

theorem Plain.access {s : State} {a : Nat} {bs : List Byte} (h : Plain s a bs) (x : Nat) (hx : x < 2 ^ 32) :
    s.access 0 0 x true = .inl x := by
  have h1 : x / 4294967296 = 0 := Nat.div_eq_of_lt (by omega)
  have h2 : x / 1099511627776 = 0 := Nat.div_eq_of_lt (by omega)
  have h3 : x < 206158430208 := by omega
  have h4 : ¬ 274877906944 ≤ x := by omega
  simp [State.access, State.place, isWindow, h1, h2, h.sep, isHbm, hbmEnd, h3, State.memFault, State.redirect, h.migs, State.isLoft, h.loft,
    loftBase, h4, h.poison, h.bad, h.upset, smGet]

theorem Plain.rdVa {s : State} {a : Nat} {bs : List Byte} (h : Plain s a bs) : ∀ n k, a + k + n ≤ 2 ^ 32 →
    s.rdVa 0 (a + k) n = .inl ((List.range' k n).map fun i => bs.getD i 0) := by
  intro n
  induction n with
  | zero => exact fun _ _ => rfl
  | succ n ih =>
    intro k hk
    have e := ih (k + 1) (by omega)
    simp only [State.rdVa, h.access (a + k) (by omega)]
    have w : s.tagged 0 (a + k) (a + k) = true := by
      have h1 : (a + k) / 4294967296 = 0 := Nat.div_eq_of_lt (by omega)
      have h2 : (a + k) / 1099511627776 = 0 := Nat.div_eq_of_lt (by omega)
      simp [State.tagged, isWindow, h1, h2]
    rw [show a + k + 1 = a + (k + 1) from rfl, e, h.rd k (by omega), w]
    simp [List.range'_succ]

theorem range_getD (bs : List Byte) (n : Nat) : ∀ k, (List.range' k n).map (fun i => bs.getD i 0) = padTo n (bs.drop k) := by
  intro k
  apply List.ext_getElem
  · simp [padTo]
    omega
  · intro i h1 h2
    simp only [padTo, List.getElem_map, List.getElem_range', List.getElem_take, List.getElem_append, List.getElem_replicate,
      List.getElem_drop, List.length_drop]
    split
    · rw [List.getD_eq_getElem?_getD, show k + 1 * i = k + i by omega, List.getElem?_eq_getElem (by omega)]
      rfl
    · rw [List.getD_eq_getElem?_getD, List.getElem?_eq_none (by omega)]
      rfl

/-- A groom's read of such a memory, through its channel queues. -/
theorem Plain.schRead {s : State} {a : Nat} {bs : List Byte} (h : Plain s a bs) (k n : Nat) (hk : a + k + n ≤ 2 ^ 32) :
    ∃ t, s.schRead 0 (a + k) n = (t, .inl (padTo n (bs.drop k))) ∧ s.Quiet t := by
  have q : s.Quiet (s.pull 0 ((List.range n).map (a + k + ·)) srcGroom) :=
    s.fetches_quiet ⟨h.infl, h.poison, h.bad, h.upset⟩ _ _ _ _ _
  have e := (h.quiet q).rdVa n k hk
  rw [range_getD] at e
  exact ⟨_, by simp only [State.schRead, e], q⟩

/-- A read in two parts, the second where the first says. -/
theorem Plain.readTwo {s : State} {a : Nat} {bs : List Byte} (h : Plain s a bs) (n k m : Nat) (rest : List Byte → Nat × Nat)
    (hr : rest (padTo n bs) = (a + k, m)) (hn : a + n ≤ 2 ^ 32) (hm : a + k + m ≤ 2 ^ 32) :
    ∃ t, s.readTwo a n rest = (t, some (padTo n bs, padTo m (bs.drop k))) ∧ s.Quiet t := by
  obtain ⟨t, e, q⟩ := h.schRead 0 n (by omega)
  obtain ⟨u, e', q'⟩ := (h.quiet q).schRead k m hm
  rw [Nat.add_zero, List.drop_zero] at e
  exact ⟨u, by simp only [State.readTwo, e, hr, e'], q.trans q'⟩

/-- A signature block of the form above. -/
def sig (e x odd : Nat) (kind : Byte) : List Byte :=
  beBytes 66 e ++ beBytes 66 e ++ (BitVec.ofNat 8 (2 + odd) :: beBytes 66 x) ++ [kind] ++ zeros 56
/-- The hash of the key of such a block. -/
def keyHash (x odd : Nat) : BitVec 512 := hash512 (BitVec.ofNat 8 (2 + odd) :: beBytes 66 x)

def keyI : Nat := 0x1e8b3bb880555d44b03ab5e9e2176c59ae18b2e3817b80b57a4559e1573ad45f62d2fc37ecd4b3ba15a5d71c52b5a3733e49b22ec5d9f55c921534f68d014ded30f
/-- A SEC image: its manifest, version 1 for this stepping, over 4,096 bytes of zeros. -/
def manI : List Byte :=
  zeros 4 ++ le 4 1 ++ zeros 4 ++ le 4 0xB0 ++ zeros 8 ++ le 4 4096 ++ zeros 100
    ++ beBytes 64 0x2d23913d3759ef01704a86b4bee3ac8a29002313ecc98a7424425a78170f219577822fd77e4ae96313547696ad7d5949b58e12d5063ef2ee063b595740a3a12d
    ++ zeros 64 ++ sig 0x3457a39bbf21a30799e208fab5f14056bfbb035d74d357f27698c04dd2d56ed2981e7650854e4b545afa4f77cc63447461b59bf6416e6200b2dc975a848245ec keyI 1 0
def image : List Byte := padTo 512 manI ++ padTo 4096 []
/-- A state with the image at address 0 of the memory and its key's hash in the fuses; grooms run. -/
def imgState (b : Nat) : State :=
  { up State.reset with mem := cells 0 manI, sec := { bootMode := b, vendorHash := keyHash keyI 1 }, grm := { grooms := [(0, { state := 1 })] } }

theorem imgState_plain (b : Nat) : Plain (imgState b) 0 manI := ⟨rfl, rfl, rfl, rfl, rfl, rfl, rfl, rfl, rfl⟩

set_option maxRecDepth 100000 in
theorem image_checked : ((imgState 0).checkImage 0 image).isLeft = true := by decide +kernel

theorem checkImage_fuses (s u : State) (c : Nat) (bs : List Byte) (hv : s.sec.vendorHash = u.sec.vendorHash)
    (ha : s.sec.arb = u.sec.arb) : s.checkImage c bs = u.checkImage c bs := by
  unfold State.checkImage State.arb
  rw [hv, ha]

theorem image_check (b : Nat) : ∃ i, (imgState b).checkImage 0 image = .inl i := by
  have e : (imgState b).checkImage 0 image = (imgState 0).checkImage 0 image := checkImage_fuses _ _ _ _ rfl rfl
  have h := image_checked
  rw [← e] at h
  cases hc : (imgState b).checkImage 0 image with
  | inl i => exact ⟨i, rfl⟩
  | inr c =>
    rw [hc] at h
    cases h

theorem slot_memc (s : State) (m : Memc) (c : Nat) :
    ({ s.setLow 0 none with memc := m }).fls.slotUsable (imageSlot c (({ s.setLow 0 none with memc := m }).inactiveSlot c)) =
      s.fls.slotUsable (imageSlot c (s.inactiveSlot c)) := rfl

set_option maxRecDepth 100000 in
theorem test_stage : ∃ v bs i, (imgState 0).alive = true ∧ (imgState 0).secUp = true ∧ (imgState 0).grm.staging = none
    ∧ (imgState 0).grm.trialSet.getLsbD (imgState 0).grm.updClass = false ∧ (imgState 0).grm.updSrc.toNat % 64 = 0
    ∧ ((imgState 0).setLow 0 none).imageAt (imgState 0).grm.updSrc.toNat = (v, some bs)
    ∧ v.checkImage (imgState 0).grm.updClass bs = .inl i
    ∧ v.fls.slotUsable (imageSlot (imgState 0).grm.updClass (v.inactiveSlot (imgState 0).grm.updClass)) = true := by
  obtain ⟨i, hi⟩ := image_check 0
  have p : Plain ((imgState 0).setLow 0 none) 0 manI := ⟨rfl, rfl, rfl, rfl, rfl, rfl, rfl, rfl, rfl⟩
  have n : fieldN (padTo 512 manI) 24 4 = 4096 := by decide +kernel
  have l : manI.length = 512 := by decide +kernel
  obtain ⟨t, e, m, rfl, hm⟩ := p.readTwo 512 512 4096 (fun m => (0 + 512, min 0x400000 (fieldN m 24 4))) (by simp [n]) (by decide) (by decide)
  have c : State.checkImage { (imgState 0).setLow 0 none with memc := m } 0 image = .inl i := (checkImage_fuses _ _ _ _ rfl rfl).trans hi
  refine ⟨_, image, i, by decide, by decide +kernel, by decide, by decide, by decide, ?_, c,
    (slot_memc (imgState 0) m (imgState 0).grm.updClass).trans (by decide +kernel)⟩
  show State.imageAt ((imgState 0).setLow 0 none) 0 = _
  unfold State.imageAt
  rw [e, List.drop_eq_nil_of_le (by omega)]
  rfl

set_option maxRecDepth 100000 in
theorem test_romLoad :
    (∃ i, (imgState 2).alive = true ∧ (imgState 2).sec.bootMode = 2 ∧ (imgState 2).sec.clearing = false
      ∧ ((imgState 2).setLow 0 none).checkImage 0 ((imgState 2).rds 0 (4608 : BitVec 23).toNat) = .inl i)
    ∧ then' (exec (.secRomLoad 512) { State.reset with sec := { bootMode := 2 } }) (fun t => t.sec.romReject) = true := by
  refine ⟨?_, by decide +kernel⟩
  obtain ⟨i, hi⟩ := image_check 2
  refine ⟨i, by decide, by decide, by decide, ?_⟩
  have e : (imgState 2).rds 0 4608 = image := by
    have h : (imgState 2).rds 0 4608 = (List.range' 0 4608).map fun i => manI.getD i 0 := by
      rw [← List.range_eq_range']
      exact List.map_congr_left fun i hi => (imgState_plain 2).rd i (by have := List.mem_range.mp hi; omega)
    rw [h, range_getD]
    decide +kernel
  exact (congrArg _ e).trans ((checkImage_fuses _ _ _ _ rfl rfl).trans hi)

/-- A state in which class 0 is staged. -/
def stagedI : State := { up State.reset with grm := { grooms := [(0, { state := 1 })], updSet := 1, stagedBits := 1 } }
theorem stagedI_set : stagedI.resultingSet stagedI.grm.updSet = [] := by decide +kernel

theorem test_activate : stagedI.alive = true ∧ stagedI.secUp = true ∧ stagedI.grm.updState = 0 ∧ stagedI.grm.updSet ≠ 0
    ∧ stagedI.grm.updSet &&& ~~~ stagedI.grm.stagedBits = 0
    ∧ peersAgree ((stagedI.setLow 0 none).resultingSet stagedI.grm.updSet) = true
    ∧ (∀ i ∈ (stagedI.setLow 0 none).resultingSet stagedI.grm.updSet, (stagedI.setLow 0 none).holdsVersions i = true)
    ∧ (stagedI.setLow 0 none).holdsYard ((stagedI.setLow 0 none).resultingSet stagedI.grm.updSet) = true := by
  have e : (stagedI.setLow 0 none).resultingSet stagedI.grm.updSet = [] := stagedI_set
  rw [e]
  decide +kernel

theorem test_trial :
    (let s := { State.reset with tim := { ns := 10000000 }, grm := { grooms := [(0, { state := 1 })], activating := true, trialSet := 2 } }
     s.secUp = true ∧ s.frameEdge = true ∧ s.grm.ovlSwitch = none ∧ s.grm.ovlAt ≠ some s.frame
      ∧ then' (exec .trialStart s) (fun t => !t.grm.activating && t.grm.updState == 2) = true)
    ∧ (let s := { State.reset with grm := { grooms := [(1, { state := 3 })], updState := 2, trialSet := 2 } }
     s.grm.inTrial = true ∧ (s.groom 1).state = 3 ∧ (s.groom 1).ready = false ∧ s.sec.pressed = false
      ∧ then' (exec (.trialReady 1) s) (fun t => (t.groom 1).ready && t.grm.probEnd == some 60000000000) = true)
    ∧ (let s := { State.reset with tim := { ns := 1000000000 }, grm := { grooms := [(1, { state := 3 })], updState := 2, trialSet := 2 } }
     s.grm.inTrial = true ∧ s.grm.probEnd = none ∧ s.grm.trialStartNs + 1000000000 ≤ s.tim.ns)
    ∧ (let s := { State.reset with tim := { ns := 1000 }, grm := { grooms := [(0, { state := 1 }), (1, { state := 3, ready := true })], updState := 2, trialSet := 2, stagedBits := 6, probEnd := some 1000 } }
     s.secUp = true ∧ s.grm.probEnd = some 1000 ∧ 1000 ≤ s.tim.ns ∧ s.committing = false)
    ∧ (let s := { State.reset with grm := { grooms := [(1, { state := 1 })] } }
     s.groomUp 1 = true ∧ s.grm.trialSet.getLsbD 1 = false ∧ ((s.groom 1).expiries.filter fun t => decide (s.tim.ns < t + hourNs)).length < 2
      ∧ then' (exec (.watchdogExpiry 1) s) (fun t => (t.groom 1).restarts == 1 && (t.groom 1).down && (t.groom 1).state == 2) = true)
    ∧ (let s := { State.reset with grm := { grooms := [(1, { state := 3, ready := true })], updState := 2, trialSet := 2 } }
     s.groomUp 1 = true ∧ s.grm.inTrial = true ∧ s.committing = false ∧ s.grm.trialSet.getLsbD 1 = true)
    ∧ (let s := { State.reset with grm := { grooms := [(0, { state := 2, down := true })] }, sec := { romImage := true } }
     s.sec.pressed = false ∧ s.reloads 0 = true
      ∧ then' (exec (.groomBackInService 0) s) (fun t => (t.groom 0).state == 1 && !(t.groom 0).down) = true) := by
  refine ⟨?_, ?_, ?_, ?_, ?_, ?_, ?_⟩ <;> decide +kernel

/-- SEC's work at the end of its steps. -/
def endsJob (w : FlsWhat) (g : Grm) : State := { State.reset with grm := { g with grooms := (0, { state := 1 }) :: g.grooms }, fls := { jobs := [⟨w, []⟩] } }

theorem test_jobEnds :
    (let s := endsJob (.stage 2 true) { staging := some (2, true), updState := 1 }
     s.secUp = true ∧ s.fls.busy = false ∧ s.fls.seq = .read ∧ s.secStep.grm.staging = none ∧ s.secStep.grm.stagedBits = 4)
    ∧ (let s := endsJob (.load []) { cfgBusy := true }
     s.secUp = true ∧ s.fls.busy = false ∧ s.fls.seq = .read ∧ s.secStep.grm.cfgBusy = false)
    ∧ (let s := endsJob .trial { grooms := [(2, { state := 3, ready := true })], trialSet := 4, stagedBits := 4, updState := 2, probEnd := some 5 }
     s.secUp = true ∧ s.fls.busy = false ∧ s.secStep.grm.probEnd = none ∧ s.secStep.grm.trialSet = 0
      ∧ s.secStep.grm.stagedBits = 0 ∧ (s.secStep.groom 2).state = 1) := by
  refine ⟨?_, ?_, ?_⟩ <;> decide +kernel

/-- An erased sector holds no commit record. -/
theorem commitOf_erased (f : Fls) (h : f.arr = []) (n : Nat) : f.commitOf n = none := by
  have e : ∀ x, f.rds x 32 = List.replicate 32 0xFF := by
    intro x
    simp only [Fls.rds, Fls.rd, h, smGet]
    rfl
  have c : ¬ (BitVec.ofNat 32 (fieldN (List.replicate 32 (0xFF : Byte)) 28 4) = crc32c ((List.replicate 32 (0xFF : Byte)).take 28)
      ∧ fieldN (List.replicate 32 (0xFF : Byte)) 24 4 = 0xFFFFFFFF) := by decide +kernel
  have m : ∀ l : List Nat, l.filterMap (fun _ => (none : Option (Nat × Nat × List Byte))) = [] := by
    intro l
    simp
  simp only [Fls.commitOf, e, if_neg c, m]
  rfl

/-- A base of no entries, signed by the owner. -/
def baseB : List Byte := zeros 4 ++ le 4 1 ++ le 4 320 ++ zeros 52 ++ sig 0x91aa920e60250b089793423bb435bddc4b9e003497baa989572ae713e64561d0502d3b50a531ce436572b7d112de4e0e3a6afa3935bbb341d14704786c95674e 0x13a414b6e5d88f76e6cb07abaef568f95f0028c24c38d10af2534407f8035bb80280ba4b385ff8794f1cc11be59cab1124dda319e918370f86aada696752b917640 0 1
/-- A state with bytes at address 0 for SEC to read, and fuses. -/
def secState (bs : List Byte) (x : Sec) : State :=
  { State.reset with mem := cells 0 bs, sec := x, grm := { grooms := [(0, { state := 1 })] } }
theorem secState_plain (bs : List Byte) (x : Sec) : Plain ((secState bs x).setLow 0 none) 0 bs := ⟨rfl, rfl, rfl, rfl, rfl, rfl, rfl, rfl, rfl⟩

/-- A record's header and the whole of it, as SEC reads them. -/
theorem read_record (bs : List Byte) (x : Sec) (n : Nat) (rest : List Byte → Nat × Nat) (hn : bs.length = n) (h64 : 64 ≤ n)
    (h32 : n ≤ 2 ^ 32) (hr : rest (bs.take 64) = (0, n)) :
    ∃ m, ((secState bs x).setLow 0 none).readTwo 0 64 rest =
      ({ (secState bs x).setLow 0 none with memc := m }, some (bs.take 64, bs)) := by
  have p : padTo 64 bs = bs.take 64 := by simp [padTo, Nat.sub_eq_zero_of_le (by omega : 64 ≤ bs.length)]
  have w : padTo n (bs.drop 0) = bs := by simp [padTo, ← hn]
  obtain ⟨t, e, m, rfl, -⟩ := (secState_plain bs x).readTwo 64 0 n rest (by rw [p]; exact hr) (by decide) (by omega)
  rw [p, w] at e
  exact ⟨m, e⟩

/-- What the checks of a record use is not the memory's state. -/
theorem recordAt_of (s t : State) (bs : List Byte) (a : lengthOk (bs.take 64) = true)
    (e : s.readTwo 0 64 (fun h => (0, if lengthOk h then fieldN h 8 4 else 0)) = (t, some (bs.take 64, bs))) :
    s.recordAt 0 = (t, some bs) := by
  simp only [State.recordAt, Nat.zero_mod, ne_eq, not_true_eq_false, if_false, e, Option.bind_some, a, if_true]
theorem ownerRecord_of (s t : State) (bs : List Byte) (h0 : s.sec.ownerSrc.toNat = 0)
    (a : (decide (320 ≤ fieldN (bs.take 64) 8 4) && decide (fieldN (bs.take 64) 8 4 ≤ 0x10000)) = true)
    (e : s.readTwo 0 64 (fun h => (0, if (decide (320 ≤ fieldN h 8 4) && decide (fieldN h 8 4 ≤ 0x10000)) = true then fieldN h 8 4 else 0))
      = (t, some (bs.take 64, bs))) : s.ownerRecord = (t, some bs) := by
  simp only [State.ownerRecord, h0, Nat.zero_mod, ne_eq, not_true_eq_false, if_false, e, Option.bind_some, a, if_true]
theorem place_memc (s : State) (m : Memc) (p : Bool → SlotPlace) (b : Bool) :
    ({ s.setLow 0 none with memc := m }).fls.slotUsable (p b) = s.fls.slotUsable (p b)
    ∧ ({ s.setLow 0 none with memc := m }).fls.activeSlot p = s.fls.activeSlot p := ⟨rfl, rfl⟩
theorem readRecord_memc (s u : State) (y : Option W32) (bs : List Byte) (h : s.sec.idHash = u.sec.idHash) :
    s.readRecord y bs = u.readRecord y bs := by
  unfold State.readRecord
  rw [h]

def ownedB : Sec := { owners := [keyHash 0x13a414b6e5d88f76e6cb07abaef568f95f0028c24c38d10af2534407f8035bb80280ba4b385ff8794f1cc11be59cab1124dda319e918370f86aada696752b917640 0] }

set_option maxRecDepth 20000 in
theorem test_load : ∃ m v, v = ({ (secState baseB ownedB).setLow 0 none with memc := m } : State)
    ∧ ((secState baseB ownedB).setLow 0 none).recordAt (secState baseB ownedB).grm.cfgSrc.toNat = (v, some baseB)
    ∧ (secState baseB ownedB).alive = true ∧ (secState baseB ownedB).secUp = true ∧ (secState baseB ownedB).grm.cfgBusy = false
    ∧ (secState baseB ownedB).sec.owners ≠ [] ∧ ownerSigned v.sec.owner baseB = true
    ∧ (v.readRecord (some v.glb.yardId) baseB).isLeft = true ∧ v.grm.replacedSeq baseB = none
    ∧ v.fls.activeSlot (recordPlace baseB) = none ∧ v.fls.slotUsable (recordPlace baseB false) = true := by
  have l : baseB.length = 320 := by decide +kernel
  have a : lengthOk (baseB.take 64) = true := by decide +kernel
  have n : fieldN (baseB.take 64) 8 4 = 320 := by decide +kernel
  obtain ⟨m, e⟩ := read_record baseB ownedB 320 (fun h => (0, if lengthOk h then fieldN h 8 4 else 0)) l (by decide) (by decide) (by simp [a, n])
  have o : ownerSigned (secState baseB ownedB).sec.owner baseB = true := by decide +kernel
  have r : ((secState baseB ownedB).readRecord (some (secState baseB ownedB).glb.yardId) baseB).isLeft = true := by decide +kernel
  have k : (secState baseB ownedB).fls.slotUsable (recordPlace baseB false) = true := by decide +kernel
  have j : (secState baseB ownedB).fls.activeSlot (recordPlace baseB) = none := by
    simp only [Fls.activeSlot, commitOf_erased _ (show (secState baseB ownedB).fls.arr = [] from rfl)]
  have q : (secState baseB ownedB).grm.replacedSeq baseB = none := by decide +kernel
  refine ⟨m, _, rfl, recordAt_of _ _ _ a e, by decide +kernel, by decide +kernel, by decide +kernel, by decide +kernel, o, ?_, q,
    (place_memc _ m (recordPlace baseB) false).2.trans j, (place_memc _ m (recordPlace baseB) false).1.trans k⟩
  exact (congrArg Sum.isLeft (readRecord_memc _ (secState baseB ownedB) _ baseB rfl)).trans r

/-- A record that names a new owner key, the curve's base point, for the device whose identity hash is 0. -/
def ownerO : List Byte :=
  [2, 0, 0, 0] ++ le 4 2 ++ le 4 460 ++ zeros 52 ++ le 2 0xF0 ++ le 2 68 ++ p521Pack p521G ++ [0] ++ le 2 0xF1 ++ le 2 64 ++ zeros 64
    ++ sig 0x2923f58d478809db751529bdf0d3582305e9a94fe7878834e089f17d0e60784a10e0f17ce7eb817869ac3923bb974a299569042e63b18b1180cf594f7b70d05f 0x1a28808d7be45b85568cde1951316038bccc99615111aadf3a6d100e819176107612c415dcca0ae210a4c4deeb007f3ef6e6c724c3a044cc4bf33f0e0a9d03fc59c 1 1
/-- Its entries. -/
def entriesO : List (Nat × List Byte) := [(0xF0, p521Pack p521G ++ [0]), (0xF1, zeros 64)]
def ownedO : Sec := { owners := [keyHash 0x1a28808d7be45b85568cde1951316038bccc99615111aadf3a6d100e819176107612c415dcca0ae210a4c4deeb007f3ef6e6c724c3a044cc4bf33f0e0a9d03fc59c 1] }

set_option maxRecDepth 20000 in
theorem test_ownerArm : ∃ m w, w = ({ (secState ownerO ownedO).setLow 0 none with memc := m } : State)
    ∧ ((secState ownerO ownedO).setLow 0 none).ownerRecord = (w, some ownerO) ∧ (secState ownerO ownedO).secUp = true
    ∧ (secState ownerO ownedO).sec.presence = 0 ∧ w.ownerEntries 2 256 ownerO = some entriesO
    ∧ (lastEntry entriesO 0xF0 = some (p521Pack p521G ++ [0]) ∧ attestedTarget entriesO = some (secState ownerO ownedO).sec.idHash)
    ∧ (p521Pack p521G ++ [0]).length = 68 ∧ zerosN (p521Pack p521G ++ [0]) 67 68 = true ∧ entriesO.length = 2
    ∧ (p521Unpack ((p521Pack p521G ++ [0]).take 67)).isNone = false
    ∧ ownerSigned (some ((secState ownerO ownedO).sec.owner.getD 0)) ownerO = true ∧ (secState ownerO ownedO).sec.owners.length < 4 := by
  have l : ownerO.length = 460 := by decide +kernel
  have n : fieldN (ownerO.take 64) 8 4 = 460 := by decide +kernel
  obtain ⟨m, e⟩ := read_record ownerO ownedO 460
    (fun h => (0, if (decide (320 ≤ fieldN h 8 4) && decide (fieldN h 8 4 ≤ 0x10000)) = true then fieldN h 8 4 else 0)) l
    (by decide) (by decide) (by simp [n])
  have o : (secState ownerO ownedO).ownerEntries 2 256 ownerO = some entriesO := by decide +kernel
  refine ⟨m, _, rfl, ownerRecord_of _ _ _ rfl (by simp [n]) e, by decide +kernel, by decide +kernel, o, by decide +kernel, by decide +kernel,
    by decide +kernel, by decide +kernel, by decide +kernel, by decide +kernel, by decide +kernel⟩

/-- A debug record for the same device, with Womoro's block and the owner's. -/
def debugD : List Byte :=
  [3, 0, 0, 0] ++ le 4 10 ++ le 4 644 ++ zeros 52 ++ le 2 0xF1 ++ le 2 64 ++ zeros 64 ++ sig 0xa82eecd893ebc64af1e6ff2c7078ff14074809b5fce8bcf29947b19cc0b7a801c97cde8af2128e3655a8282d483098be982788b3a7ae59c3c153ed434eff3a24 0x19840efae9582325184d4d5105a7d0ab7cf197901f7aae57bd0f7ed55bc43cc23a0976a51a3ac20aaf5856a0cff24a5e287454c5d65ce768622c324b8fc590018d4 1 0
    ++ sig 0xfa8c8105f12df1350be4d1b59a80dd6302e38244fe25c19b8e5cf3662a1135ed139aba9814cb95404e5866eff078497a46ed662d8492d30ec1917509d8447130 0x14aaf64d20a4c4b09c398f91940ce94eceefbc0c3e943721b215b8daca7ab80ba61b1b689b098c2236167bebb1243c7fdf348f83ddb3b0d13e219771fbeb3bd7f23 1 1
def ownedD : Sec := { vendorHash := keyHash 0x19840efae9582325184d4d5105a7d0ab7cf197901f7aae57bd0f7ed55bc43cc23a0976a51a3ac20aaf5856a0cff24a5e287454c5d65ce768622c324b8fc590018d4 1, owners := [keyHash 0x14aaf64d20a4c4b09c398f91940ce94eceefbc0c3e943721b215b8daca7ab80ba61b1b689b098c2236167bebb1243c7fdf348f83ddb3b0d13e219771fbeb3bd7f23 1] }

set_option maxRecDepth 20000 in
theorem test_debug : ∃ m w, w = ({ (secState debugD ownedD).setLow 0 none with memc := m } : State)
    ∧ ((secState debugD ownedD).setLow 0 none).ownerRecord = (w, some debugD) ∧ (secState debugD ownedD).sec.jtagOff = false
    ∧ (secState debugD ownedD).secUp = true ∧ (secState debugD ownedD).sec.presence = 0
    ∧ ((w.ownerEntries 3 512 debugD).bind attestedTarget) = some (secState debugD ownedD).sec.idHash
    ∧ blockValid ((debugD.drop (debugD.length - 512)).take 256) (debugD.take (debugD.length - 512)) 0 (secState debugD ownedD).sec.vendorHash = true
    ∧ ownerSigned (secState debugD ownedD).sec.owner debugD = true := by
  have l : debugD.length = 644 := by decide +kernel
  have n : fieldN (debugD.take 64) 8 4 = 644 := by decide +kernel
  obtain ⟨m, e⟩ := read_record debugD ownedD 644
    (fun h => (0, if (decide (320 ≤ fieldN h 8 4) && decide (fieldN h 8 4 ≤ 0x10000)) = true then fieldN h 8 4 else 0)) l
    (by decide) (by decide) (by simp [n])
  have o : (((secState debugD ownedD).ownerEntries 3 512 debugD).bind attestedTarget) = some (secState debugD ownedD).sec.idHash := by
    decide +kernel
  exact ⟨m, _, rfl, ownerRecord_of _ _ _ rfl (by simp [n]) e, by decide +kernel, by decide +kernel, by decide +kernel, o,
    by decide +kernel, by decide +kernel⟩

/-- A stored record without entries. -/
def rec0 (q : W32) : Record := { bytes := [], seq := q, entries := [] }

theorem test_config :
    (let s := { State.reset with tim := { ns := 10000000 }, grm := { baseNext := some (rec0 7) } }
     s.alive = true ∧ s.frameEdge = true ∧ s.camEvents = false ∧ s.grm.baseNext = some (rec0 7))
    ∧ (let s := { State.reset with tim := { ns := 10000000 }, grm := { ovlRenew := true } }
     s.frameEdge = true ∧ s.camEvents = false ∧ s.grm.baseNext = none ∧ s.grm.ovlRenew = true)
    ∧ (let s := { up State.reset with grm := { grooms := [(0, { state := 1 })], base := some (rec0 1), overlays := [(2, some (rec0 3))] } }
     s.secUp = true ∧ (bits (0x500000002 : W64).toNat 3 0 < 8) ∧ s.grm.base.isNone = false ∧ (smGet none s.grm.overlays 2).isNone = false
      ∧ 0 < diff32 (BitVec.ofNat 32 (bits (0x500000002 : W64).toNat 63 32)) (BitVec.ofNat 32 s.frame)
      ∧ then' (exec (.grmOvlNext 0x500000002) s) (fun t => t.grm.ovlSwitch == some (2, 5) && t.grm.ovlNext == 2) = true)
    ∧ (let s := { State.reset with tim := { ns := 50000000 }, grm := { base := some (rec0 1), overlays := [(2, some (rec0 3))], ovlSwitch := some (2, 5) } }
     s.frameEdge = true ∧ s.camEvents = false ∧ diff32 5 (BitVec.ofNat 32 s.frame) ≤ 0) := by
  refine ⟨?_, ?_, ?_, ?_⟩ <;> decide +kernel

/-- An erased flash holds no image. -/
theorem slotImage_erased (s : State) (h : s.fls.arr = []) (c : Nat) (b : Bool) : s.slotImage c b = none := by
  simp only [State.slotImage, commitOf_erased s.fls h]

/-- Neither the health record nor the journal of an erased flash changes it. -/
theorem repaired_erased (s : State) (h : s.fls.arr = []) : s.readHealth.repairErases.fls.arr = [] := by
  have a : s.readHealth.fls.arr = [] := by
    unfold State.readHealth
    split <;> exact h
  have e : ∀ j k, s.readHealth.fls.journalEntry j k = none := by
    intro j k
    have r : ∀ x, s.readHealth.fls.rds x 16 = List.replicate 16 0xFF := by
      intro x
      simp only [Fls.rds, Fls.rd, a, smGet]
      rfl
    simp only [Fls.journalEntry, r]
    exact if_pos (.inl (by decide +kernel))
  have p : s.readHealth.fls.pending = [] := by simp [Fls.pending, Fls.journal, e]
  simp only [State.repairErases, p, List.foldl_nil, a]

/-- SEC's slots are empty in an erased flash: the boot ROM finds no image, which is ROM recovery. -/
theorem test_boot : State.reset.alive = true ∧ State.reset.board.bootPending = true ∧ State.reset.fls.busy = false
    ∧ (∀ b, State.reset.readHealth.repairErases.slotImage 0 b = none) :=
  ⟨by decide, by decide, by decide, slotImage_erased _ (repaired_erased _ rfl) 0⟩

theorem test_selfTest :
    (let s := { State.reset with board := { booted := true, bootPending := false } }
     let r : SelfTest := { clusters := 0x20, plls := 0, ports := 4, suspect := 0 }
     s.alive = true ∧ s.board.booted = true ∧ s.far.startupDone = false ∧ s.sec.bootMode ≠ 2 ∧ s.sec.clearing = false
      ∧ s.disabled 5 = false ∧ r.clusters.getLsbD 5 = true
      ∧ then' (exec (.startupSelfTest r) s) (fun t => t.disabled 5 && !t.disabled 6 && t.far.startupDone && !t.memc.separate) = true)
    ∧ (let s := { State.reset with mem := [(9, 4)], sec := { clearing := true, debugNext := true } }
     s.sec.clearing = true ∧ s.sec.debugNext = true
      ∧ then' (exec .memoryClearDone s) (fun t => t.mem.isEmpty && t.sec.debug && !t.sec.clearing) = true)
    ∧ (let s := { State.reset with mem := [(9, 4)], sec := { clearing := true } }
     then' (exec .memoryClearDone s) (fun t => t.mem.isEmpty && !t.sec.debug) = true) := by
  refine ⟨?_, ?_, ?_⟩ <;> decide +kernel

theorem test_presence :
    (let s := { up State.reset with sec := { presence := 2, armHash := 5, owners := [4] } }
     s.alive = true ∧ s.beat ≤ s.sec.armBeat + presenceBeats ∧ s.secUp = true
      ∧ then' (exec .recoverNPress s) (fun t => t.sec.owners == [4, 5] && t.sec.presence == 0 && t.sec.ownerDone) = true)
    ∧ (let s := { up State.reset with sec := { presence := 1 }, cmds := { list := [cmd5] } }
     s.sec.presence = 1 ∧ then' (exec .recoverNPress s) (fun t => t.sec.recNext && t.cmds.list.isEmpty && t.board.bootPending) = true)
    ∧ (let s := { State.reset with sec := { presence := 1 }, tim := { ns := 30000000000 } }
     s.sec.armBeat + presenceBeats ≤ s.beat ∧ then' (exec .presenceTimeout s) (fun t => t.sec.presence == 0) = true)
    ∧ (let s := State.reset
     (s.fn 3).attBusy = false ∧ then' (exec (.fnAttReq 3) s) (fun t => (t.fn 3).attBusy) = true) := by
  refine ⟨?_, ?_, ?_, ?_⟩ <;> decide +kernel

theorem test_attestation :
    (let s := { up State.reset with fns := [(3, { attBusy := true })] }
     s.secUp = true ∧ s.sec.attRun = none ∧ ((List.range 64).find? fun f => (s.fn f).attBusy) = some 3)
    ∧ (let s := { up State.reset with fns := [(0, { attBusy := true, attDst := 0x10000 })], sec := { attRun := some (0, [1, 2]) } }
     s.secUp = true ∧ s.sec.attRun = some (0, [1, 2]) ∧ smWf ({} : FnBlk) s.fns = true ∧ s.attFault 0 (s.fn 0).attDst.toNat = 0)
    ∧ (let s := { up State.reset with fns := [(3, { attBusy := true, attDst := 0x10001 })], sec := { attRun := some (3, [1, 2]) } }
     then' (exec .attestationReport s) (fun t => (t.fn 3).attCode == 1 && !(t.fn 3).attDone && t.mem.isEmpty) = true) := by
  refine ⟨?_, ?_, ?_⟩ <;> decide +kernel

/-! ### Flash, cameras, farrier and board -/

/-- A state whose flash is `f`. -/
def flash (f : Fls) : State := { State.reset with fls := f }
/-- An array of zeros at offset 0x40000, as far as a word reaches. -/
def worn : SMap Byte := [(0x40000, 0x0F), (0x40001, 0), (0x40002, 0), (0x40003, 0)]

theorem test_sequences :
    (let s := flash {}
     s.board.pwrok = true ∧ s.board.tripped = false ∧ s.fls.seq = .read ∧ s.fls.busy = false
      ∧ then' (exec (.wordProgram 0 [(0x2000AAA8, 0xAA), (0x20005554, 0x55), (0x2000AAA8, 0xA0), (0x20040000, 5)]) s)
          (fun t => t.fls.busy && t.fls.run == some (.word 0x40000 5) && t.fls.sector == 32 && t.fls.op == 1) = true
      ∧ then' (exec (.bufferProgram 0 [(0x2000AAA8, 0xAA), (0x20005554, 0x55), (0x2003E000, 0x25), (0x2003E000, 1),
          (0x2003E004, 7), (0x2003E008, 8), (0x2003E000, 0x29)]) s) (fun t => t.fls.run == some (.buffer [(0x3E004, 7), (0x3E008, 8)])) = true
      ∧ then' (exec (.bufferProgram 0 [(0x2000AAA8, 0xAA), (0x20005554, 0x55), (0x2003E000, 0x25), (0x2003E000, 1),
          (0x2003E0FC, 7), (0x2003E100, 8), (0x2003E000, 0x29)]) s) (fun t => t.fls.run == none && t.fls.seqErr) = true
      ∧ then' (exec (.sectorErase 0 [(0x2000AAA8, 0xAA), (0x20005554, 0x55), (0x2000AAA8, 0x80), (0x2000AAA8, 0xAA),
          (0x20005554, 0x55), (0x27FC0000, 0x30)]) s) (fun t => t.fls.run == some (.erase 542)) = true
      ∧ then' (exec (.flashStatus 0 [(0x2000AAA8, 0xAA), (0x20005554, 0x55), (0x2000AAA8, 0x70)]) s)
          (fun t => t.fls.statusNext && t.fls.seq == .read) = true)
    ∧ ({} : Fls).journalSteps 542 = [.entry 542 0]
    ∧ windowBase + sectorBase 542 + sectorSize 542 = windowBase + arrayBytes
    ∧ then' (exec (.flashReset 0 0x27FFFFFF) (flash { seq := .erase2 })) (fun t => t.fls.seq == .read && !t.fls.seqErr) = true
    ∧ then' (exec (.flashReset 1 0x20000000) (flash {})) (fun t => t.fls.denied == 1) = true
    ∧ then' (exec .seqTimeout (flash { seq := .program })) (fun t => t.fls.seq == .read && t.fls.seqErr) = true := by
  decide +kernel

/-- A journal whose sector 0 has room for one entry more: the next erase turns it. -/
theorem test_journalTurns :
    let s := flash (({} : Fls).prog 0x1FE0 (journalBytes 0 5))
    s.fls.journalSteps 542 = [.entry 1 1, .erase 1, .mark 1, .journal 542]
      ∧ then' (exec (.sectorErase 0 [(0x2000AAA8, 0xAA), (0x20005554, 0x55), (0x2000AAA8, 0x80), (0x2000AAA8, 0xAA),
          (0x20005554, 0x55), (0x27FC0000, 0x30)]) s) (fun t => !t.fls.busy && decide (t.fls.jobs = [⟨.other, eraseSteps 542⟩])) = true := by
  decide +kernel

theorem test_flashOp :
    (let s := flash { busy := true, run := some (.word 0x40000 0x33), arr := worn }
     smWf (0xFF : Byte) s.fls.arr = true
      ∧ then' (exec (.flashOpDone 0 true) s) (fun t => t.fls.rds 0x40000 4 == [3, 0, 0, 0] && t.fls.done && t.fls.progErr) = true)
    ∧ (let s := flash { busy := true, run := some (.erase 32), arr := worn, sector := 32 }
     s.fls.run = some (.erase 32)
      ∧ then' (exec (.flashOpDone 70 true) s) (fun t => t.fls.rd 0x40000 == 0xFF && t.fls.lastPulses == 64 && t.fls.wear) = true)
    ∧ (let s := flash { xo := [(0, { first := 32, last := 33, fetch := 2, valid := true })] }
     s.fls.refused 0 32 false = false ∧ s.fls.refused 1 31 false = false ∧ s.fls.refused 1 32 false = true
      ∧ s.fls.refused 1 33 true = false ∧ s.fls.refused 2 33 true = true
      ∧ then' (exec (.flashWindowRead 1 0x20040004 false) s) (fun t => t.fls.xoHit && t.fls.xoAddr == 0x40004) = true
      ∧ then' (exec (.flashWindowRead 1 0x20080000 true) s) (fun t => t == s) = true
      ∧ then' (exec (.flashWindowRead 2 0x20040004 true) s) (fun t => (t.groom 2).faulted) = true)
    ∧ (let s := flash { busy := true, sector := 542 }
     s.fls.refused 2 542 false = false ∧ s.fls.busyIn 542 = true
      ∧ then' (exec (.flashWindowRead 2 0x27FFFFFC false) s) (fun t => t.fls.busyHit) = true
      ∧ then' (exec (.flashWindowRead 2 0x27FFFFFC true) s) (fun t => decide (t.fls.fetches = [(2, 0x7FFFFFC)])) = true)
    ∧ (let s := { up State.reset with fls := { healthDirty := true, healthNs := some 5 }, tim := { ns := 3600000000005 } }
     s.alive = true ∧ s.secUp = true ∧ s.healthDue = true ∧ s.fls.jobs = [] ∧ { s with tim := { ns := 3600000000004 } }.healthDue = false) := by
  decide +kernel

/-- A sensor of 8 samples and 4 lines on virtual channel 3 of port 1. -/
def sens0 : SensRec :=
  { port := 1, slot := 2, vc := 3, dt := 0x2B, cfa := 0, stripes := false, width := 8, height := 4, maxFps := 30, latency := 2, pedestal := 0
    fill := 7, embOffset := 0xFFFF, i3c := 0, workVa := 0x200000 }
def frame0 : CamFrame := { count := 5, start := 0, buf := 1, lines := 3, received := 3, sens := sens0 }
def cams (x : Sensor) (bs : SMap Binding) : State :=
  { up State.reset with
    memc := { separate := false }
    cam := { sensors := [(10, x)], ports := [(1, { hpd := true, link := true })], binds := bs }
    tens := [(0, { leaves := [⟨0x200000, 0x200000, 0x400000, true, true, 1⟩] })] }
/-- A binding of sensor 10 with a ring of 2 slots. -/
def bind0 : BindRec :=
  { sensor := 10, kind := 0, tenant := 0, slots := 2, ringVa := 0x280000, counter := 0xFF, cluster := 0, vfmt := 0, outW := 0, outH := 0
    crop := [0, 0, 0, 0], ab := [] }

theorem test_camStart :
    (let s := cams {} []
     s.alive = true ∧ (s.camPort 1).hpd = true ∧ s.runningAt 1 3 = none ∧ s.sensorAt 1 3 = none ∧ (∀ i, i < 8 → (s.sensor (8 * 1 + i)).vc ≠ some 3)
      ∧ then' (exec (.camFrameStart 1 3) s) (fun t => (t.camPort 1).stray) = true)
    ∧ (let s := cams { vc := some 3, state := 2 } []
     s.runningAt 1 3 = none ∧ s.sensorAt 1 3 = none ∧ (s.sensor (8 * 1 + 2)).vc = some 3
      ∧ then' (exec (.camFrameStart 1 3) s) (fun t => !(t.camPort 1).stray) = true)
    ∧ (let s := cams { next := some (some sens0), state := 1, frameNo := 6 } []
     s.runningAt 1 3 = none ∧ s.sensorAt 1 3 = some (10, sens0) ∧ (s.sensor 10).state = 1 ∧ (s.sensor 10).waiting = []
      ∧ (s.sensor 10).cur = none ∧ s.areaFault sens0 = none
      ∧ then' (exec (.camFrameStart 1 3) s) (fun t => (t.sensor 10).cur.map (fun f => (f.count, f.buf, f.lines, f.sens)) == some (6, 0, 0, sens0)
          && (t.sensor 10).cfg == some sens0) = true) := by
  refine ⟨?_, ?_, ?_⟩ <;> decide +kernel

theorem test_camLine :
    (let s := cams { cfg := some sens0, state := 1, cur := some frame0 } []
     let px : List (BitVec 16) := [0x101, 2, 3, 4, 5, 6, 7, 8]
     (s.camPort 1).hpd = true ∧ s.runningAt 1 3 = some (10, frame0) ∧ (0x2B : Byte).toNat = sens0.dt ∧ px.length = sens0.width
      ∧ s.lineFault sens0 1 3 = none
      ∧ then' (exec (.camLine 1 3 0x2B px true true) s) (fun t => smGet 0 t.mem (0x400000 + 64 + 48) == 1
          && smGet 0 t.mem (0x400000 + 64 + 49) == 1 && smGet 0 t.mem (0x400000 + 64 + 62) == 8) = true
      ∧ then' (exec (.camLine 1 3 0x2B px true false) s) (fun t => smGet 0 t.mem (0x400000 + 64 + 48) == 7
          && (t.sensor 10).lineErrors == 1 && (t.sensor 10).crcErrors == 1) = true
      ∧ then' (exec (.camLine 1 3 0x2B [9] true true) s) (fun t => smGet 0 t.mem (0x400000 + 64 + 48) == 9
          && smGet 0 t.mem (0x400000 + 64 + 50) == 7 && (t.sensor 10).lineErrors == 1) = true
      ∧ then' (exec (.camLine 1 3 0x30 px true true) s) (fun t => t.mem.isEmpty && (t.sensor 10).crcErrors == 1) = true
      ∧ then' (exec (.camFrameEnd 1 3) s) (fun t => (t.sensor 10).cur == none && (t.sensor 10).truncated == 1
          && decide ((t.sensor 10).waiting.map (·.flags) = [9]) && smGet 0 t.mem (0x400000 + 64 + 48) == 7) = true)
    ∧ (let s := cams { cfg := some sens0, state := 1 } []
     s.runningAt 1 3 = none ∧ s.sensorAt 1 3 = some (10, sens0)
      ∧ then' (exec (.camLine 1 3 0x30 [] true true) s) (fun t => (t.sensor 10).crcErrors == 1) = true) := by
  refine ⟨?_, ?_⟩ <;> decide +kernel

theorem test_camTimes :
    (let s := { cams { cfg := some sens0, state := 1, cur := some frame0 } [] with tim := { ns := 66666667 } }
     (s.sensor 10).cur = some frame0 ∧ s.silent 10 2 sens0 = true ∧ s.silent 10 3 sens0 = false)
    ∧ (let s := { cams { cfg := some sens0, state := 1, cur := some frame0 } [] with tim := { ns := 100000000 } }
     (s.sensor 10).cfg = some sens0 ∧ (s.sensor 10).state = 1 ∧ s.silent 10 3 sens0 = true ∧ smWf ({} : Sensor) s.cam.sensors = true
      ∧ smWf ({} : CamPort) s.cam.ports = true
      ∧ then' (exec (.camPresenceTimeout 10) s) (fun t => (t.sensor 10).state == 0 && (t.sensor 10).frames == 1) = true
      ∧ then' (exec (.camHpd 1 false) s) (fun t => (t.sensor 10).state == 0 && !(t.camPort 1).link) = true)
    ∧ (let s := cams { cfg := some sens0, tag := 0xFFFF, frameNo := 4 } []
     s.groomUp 3 = true ∧ (s.sensor 10).record.isNone = false ∧ s.startComing 10 = false
      ∧ then' (exec (.camSettingsWrite 10) s) (fun t => (t.sensor 10).tag == 1 && (t.sensor 10).writes == [(3, 1)]) = true)
    ∧ (let s := { cams { next := some (some sens0) } [] with pending := [.camFrameStart 1 3] }
     (s.sensor 10).record.isNone = false ∧ s.startComing 10 = true
      ∧ then' (exec (.camSettingsWrite 10) s) (fun t => (t.sensor 10).writes == [(0, 1)]) = true) := by
  refine ⟨?_, ?_, ?_, ?_⟩ <;> decide +kernel

theorem test_camPipeline :
    (let f := { frame0 with lines := 64, sens := { sens0 with height := 64, stripes := true } }
     let s := cams { cfg := some f.sens, state := 1, cur := some f } []
     s.camWork = [(0, 10, true)] ∧ (s.sensor 10).cur = some f
      ∧ then' (exec .camPipelineRun s) (fun t => (t.sensor 10).cur == some { f with stripes := 1 }) = true)
    ∧ (let s := cams { cfg := some sens0, state := 1, waiting := [frame0] } []
     s.camWork = [(0, 10, false)] ∧ (s.sensor 10).waiting = frame0 :: [] ∧ frame0.sens.stripes = false)
    ∧ (let f := { frame0 with binds := [⟨4, bind0, 8⟩] }
     let s := cams { cfg := some sens0, state := 1, out := [f] } [(4, { cfg := some bind0, state := 3, seq := 8 })]
     (s.binding 4).cfg = some bind0 ∧ s.dueTo 4 = some (10, 0, f, ⟨4, bind0, 8⟩)
      ∧ then' (exec (.camDeliver 4) s) (fun t => (t.binding 4).seq == 9 && (t.sensor 10).out == [] && t.mem.isEmpty) = true) := by
  refine ⟨?_, ?_, ?_⟩ <;> decide +kernel

/-- A state whose farrier is `f`, all regions at OP4. -/
def far (f : Far) : State :=
  { up State.reset with
    far := f, memc := { separate := false }
    pwr := { regions := (List.range 8).map fun r => (r, { grant := 4, current := 4 }) } }

theorem test_slice :
    (let s := far { startupDone := true, nextCluster := 5 }
     s.alive = true ∧ s.tickEdge = true ∧ s.far.state = 0 ∧ s.memc.separate = false ∧ s.disabled 5 = false
      ∧ diff32 s.far.nextTick (BitVec.ofNat 32 s.tick) ≤ 0 ∧ s.sliceBar 5 = none
      ∧ then' (exec .farSliceStart s) (fun t => t.far.state == 1 && t.far.cluster == 5 && (t.cl 5).drained
          && ({ t with tim := { ns := 125000 } }).farScan.far.state == 2) = true)
    ∧ (let s := { far { startupDone := true, nextCluster := 5 } with pwr := {} }
     s.sliceBar 5 = some 0 ∧ then' (exec .farSliceStart s) (fun t => t.far.nextTick == 1 && smGet 0 t.far.deferred 0 == 1) = true)
    ∧ (let s := { far { startupDone := true, state := 2, cluster := 5, turn := 5, stepAt := 1 } with tim := { ns := 658 * 125000 } }
     s.far.stepAt + 657 ≤ s.tick
      ∧ then' (exec (.farSliceJudge true true true) s) (fun t => t.far.state == 3 && t.far.nextCluster == 6
          && ({ t with tim := { ns := 659 * 125000 } }).farReturn.far.state == 0) = true
      ∧ then' (exec (.farSliceJudge false true true) s) (fun t => t.far.repeating && !t.disabled 5) = true
      ∧ then' (exec (.farSliceJudge false true false) s) (fun t => t.far.verdict == 0 && t.far.nosig == 1) = true)
    ∧ (let s := { far { startupDone := true, state := 2, cluster := 5, repeating := true } with tim := { ns := 658 * 125000 } }
     then' (exec (.farSliceJudge true false true) s) (fun t => t.disabled 5 && t.far.failed == 1 && t.far.verdict == 2) = true
      ∧ then' (exec (.farSliceJudge true true true) s) (fun t => t.far.verdict == 1 && t.far.nextCluster == 5) = true)
    ∧ (let s := { far { startupDone := true, state := 2, cluster := 5 } with pwr := {} }
     (s.region (regionOf 5)).current < 3 ∧ ({ s with pwr := { force := 1 } } : State).forced (dieOf 5) = true
      ∧ then' (exec .farSliceAbandon s) (fun t => t.far.verdict == 3 && t.far.nextCluster == 5) = true)
    ∧ (let s := far {}
     then' (exec (.farReferenceCheck (.sensor 7) true) s) (fun t => t == s) = true
      ∧ then' (exec (.farReferenceCheck (.monitor 7) false) s) (fun t => t.far.suspect == 2 ^ 43) = true
      ∧ then' (exec (.farReferenceCheck (.lane 15) false) s) (fun t => t.far.pcieLow == 0x8000) = true) := by
  refine ⟨?_, ?_, ?_, ?_, ?_, ?_⟩ <;> decide +kernel

theorem test_board :
    (let s := { State.reset with board := { pwrok := false, tripped := true }, sec := { owners := [4] }, mem := [(9, 4)] }
     s.board.pwrok = false
      ∧ then' (exec (.sysPwrokRise false 1679) s) (fun t => !t.board.tripped && t.board.supplyFault && t.sec.owners == [4] && t.mem == []) = true
      ∧ then' (exec (.sysPwrokRise true 1680) s) (fun t => t.board.tripped && !t.board.supplyFault) = true)
    ∧ (let s := { State.reset with board := { supplyFault := true } }
     then' (exec (.railRecheck true) s) (fun t => !t.board.supplyFault) = true
      ∧ then' (exec (.railRecheck false) s) (fun t => t.board.supplyFault) = true)
    ∧ (let s := { State.reset with sec := { owners := [4] }, mem := [(9, 4)] }
     s.board.pwrok = true ∧ s.alive = true
      ∧ then' (exec .sysPwrokFall s) (fun t => !t.alive && t.sec.owners == [4] && t.mem == []) = true
      ∧ then' (exec (.perstN false) s) (fun t => !t.alive && t.sec.owners == [4]) = true
      ∧ then' (exec .vddAonRemoved s) (fun t => !t.board.aon && t.sec.owners == [4]) = true)
    ∧ then' (exec (.perstN true) { State.reset with board := { perst := false } }) (fun t => t.board.perst) = true := by
  decide +kernel

/-! ### Machine-wide rules -/

/-- A test of an answer that leaves the state as it is. -/
def unchanged' (i : Instr) (s : State) : Bool := match exec i s with | .next t => decide (t = s) | _ => false

theorem test_step :
    then' (Machine.step { State.reset with pending := [.recover, .arm], board := { supplyFault := true } }) (fun t => t.pending == [.arm]) = true
      ∧ then' (Machine.step State.reset) (fun t => t.tim.ns == 1000 && t.pending == []) = true
      ∧ (Instr.add 0 (word 0x10 5 6 7 0 0)).wf = true ∧ (Instr.add 0 (word 0x11 5 6 7 0 0)).wf = false := by decide +kernel

/-- Each instruction command leaves the state alone on a word of another opcode. -/
theorem test_illFormedOpcodes :
    (∀ e ∈ Claims.opcodes, unchanged' (e.2 0 (word 0x08 0 0 0 0 0) 0) State.reset = true)
    ∧ (∀ c ∈ [Instr.codeHist 0 (word 0x37 0 0 0 0 0x100), .codeTable 0 (word 0x37 0 0 0 0 0x200), .codeEnc 0 (word 0x37 0 0 0 0 0),
        .codeHist 0 (word 0x36 0 0 0 0 0), .codeTable 0 (word 0x36 0 0 0 0 0x100), .codeEnc 0 (word 0x36 0 0 0 0 0x200),
        .unassignedOpcode 0 (word 0x10 0 0 0 0 0)], unchanged' c State.reset = true) := by decide +kernel

/-- A register write of 3 bytes, and recovery accesses of no bytes and of 65, change nothing. -/
theorem test_illFormedAccesses :
    ∀ c ∈ [Instr.registerWrite 0 ⟨.bar0, 0⟩ 3 0, .recoveryWindowAccess 0 (.inl []), .recoveryWindowAccess 0 (.inl (List.replicate 65 0)),
      .recoveryWindowAccess 0 (.inr 0), .recoveryWindowAccess 0 (.inr 65)], c.wf = false ∧ unchanged' c State.reset = true := by
  decide +kernel

/-- Opcodes that the map does not list. -/
theorem test_opcodeMap :
    ∀ o ∈ [0x08, 0x1E, 0x38, 0x67, 0xF0, 0xFE, 0xFF],
      (runs cmd0 [word o 0 0 0 0 0] (inst0 [])).NextWord 0 (word o 0 0 0 0 0) cmd0 (inst0 []) [word o 0 0 0 0 0]
      ∧ (∀ e ∈ Claims.opcodes, opOf (word o 0 0 0 0 0) ≠ e.1)
      ∧ (runs cmd0 [word o 0 0 0 0 0] (inst0 [])).nextIssue 0 = some (.unassignedOpcode 0 (word o 0 0 0 0 0))
      ∧ thenEnd (exec (.unassignedOpcode 0 (word o 0 0 0 0 0)) (runs cmd0 [word o 0 0 0 0 0] (inst0 []))) (fun t => t.cmds.list.isEmpty) = true := by
  decide +kernel

theorem test_secondWord :
    (let w := word 0x30 1 2 0 0 3
     let i := inst12 (dsc buf 1 2 1) (dsc 0x1000 1 2 1)
     let s := fun (w2 : W64) => runsOn own0 cmd0 [w, w2] i
     let m := (s 0).cpyMove i ⟨0, 0, ordCe 3⟩ 0 (i.desc' 2) (i.desc' 1)
     Idle (s 0) ∧ (s 0).NextWord 0 w cmd0 i [w, 0] ∧ i.guard w = true ∧ opOf w = 0x30 ∧ (s 0).Room 0 cmd0 (ceOf w)
      ∧ (s 0).nextIssue 0 = some (.cpy 0 w 0) ∧ opOf 0 ≠ 0xFE
      ∧ (s 0).cpyFaults cmd0 0 w 0 (i.desc' 2) (i.desc' 1) = [] ∧ m.2.1 = [] ∧ ((s 0).placeWrites 0 0 m.1).2 = []
      ∧ (s 0).window 0 (i.desc' 1).base = .phys buf
      ∧ (s 0xFE00000000000000).cpyFaults cmd0 0 w 0xFE00000000000000 (i.desc' 2) (i.desc' 1) = []
      ∧ (s 0xFE00000000000000).NextWord 0 w cmd0 i [w, 0xFE00000000000000])
    ∧ (let w := meWord 0x40 2 3 0
     let s := { runsOn own0 cmd0 [w, 0x08000001] (opaInst 8) with mem := [(buf, 3), (buf + 64, 5)] }
     s.NextWord 0 w cmd0 (opaInst 8) [w, 0x08000001] ∧ s.Room 0 cmd0 (meOf w) ∧ (opaInst 8).guard w = true ∧ s.nextIssue 0 = some (.opa 0 w 0x08000001)
      ∧ s.opaFaults cmd0 0 w 0x08000001 (opaInst 8) = [])
    ∧ (let w : W64 := 0xFE00000000000000
     (runs cmd0 [w] (inst0 [])).nextIssue 0 = some (.unassignedOpcode 0 w)) := by
  refine ⟨?_, ?_, ?_⟩ <;> decide +kernel

theorem test_haltAborts :
    let w := word 1 0 0 0 0 0
    let s := { runs cmd0 [w] (inst0 []) with fns := [(0, fn0 [(1, q4)])] }
    s.NextWord 0 w cmd0 (inst0 []) [w] ∧ (s.queue 0 1).active = true
      ∧ (s.cmds.list.find? fun d => d.fn == 0 && d.q == 1 && d.cid == cmd0.cid) = some cmd0
      ∧ (∀ f, ∀ r ∈ (s.fn f).reqs, ∀ h k n, r.what ≠ some (.closeContext h k n))
      ∧ then' (exec (.halt 0 w) s) (fun t => t.cmds.list.isEmpty && (t.queue 0 1).cqTail == 1) = true := by
  refine ⟨by decide +kernel, by decide +kernel, by decide +kernel, ?_, by decide +kernel⟩
  intro f r hr
  have h : (({ runs cmd0 [word 1 0 0 0 0 0] (inst0 []) with fns := [(0, fn0 [(1, q4)])] } : State).fn f).reqs = [] := by
    simp only [State.fn, smGet]
    split <;> rfl
  rw [h] at hr
  cases hr

theorem test_cap :
    (let s := { State.reset with pwr := { cap := 400, next := 650, nextAt := 80, cooled := true }, pending := [.capApply none], tim := { ns := 10000000 } }
     160 ≤ s.pwr.cap ∧ s.pwr.cap ≤ 650 ∧ 160 ≤ s.pwr.next ∧ s.pwr.next ≤ 650
      ∧ then' (Machine.step s) (fun t => t.pwr.cap == 650 && t.pwr.next == 0) = true)
    ∧ (({ cooled := false } : Pwr).schedule 0 401).next = 400 := by decide +kernel

theorem test_resets :
    (let s := { State.reset with fns := [(3, { attBusy := true, attNonce := [(0, 1)], attDst := 5 })]
                                 sec := { attRun := some (3, []), presence := 1, owners := [4] }
                                 cam := { sensors := [(2, { frames := 7 })], binds := [(4, { cfg := some { bind0 with tenant := 3 }, state := 1, seq := 9 })] } }
     s.tablesWf ∧ (s.fn 3).attBusy = true ∧ s.sec.attRun = some (3, []) ∧ smWf ({} : Binding) s.cam.binds = true
      ∧ ((s.functionReset 3 false).binding 4).state ≠ 1 ∧ ((s.functionReset 2 false).binding 4).state = 1
      ∧ ((s.deviceReset false).binding 4).seq = 0#64 ∧ ((s.deviceReset false).fn 3).attCode = 3#4) := by decide +kernel

theorem test_fuses :
    (let s := { up State.reset with sec := { presence := 2, armHash := 5, owners := [4], arb := [(0, 3)] } }
     smWf (0 : Nat) s.sec.arb = true ∧ s.arb 0 = 3
      ∧ then' (exec .recoverNPress s) (fun t => t.sec.owners == [4] ++ [5] && t.arb 0 == 3) = true)
    ∧ (let s := { State.reset with tim := { ns := 7, locked := true } }
     s.board.pwrok = true ∧ s.board.tripped = false ∧ then' (exec .arm s) (fun t => t.tim.ns == 7) = true
      ∧ (idleBeat s).tim.ns = 1007)
    ∧ State.reset.safe := by decide +kernel

/-! ### Values worked out in the spec -/

/-- The location of ME 5 of cluster 61 on package 2 (spec/01). -/
theorem test_location : ({ State.reset with glb := { valid := true, index := 2 } } : State).loc 61 0 5 = 0x2A20A000 := by decide +kernel

/-- The destination descriptor of the transposing copy, and the source and destination of view index (5, 3) (spec/07 R177). -/
theorem test_transpose :
    (let d := descOf (0x00007000000000000 * 2 ^ 192 + 0xFC001FC000000000 * 2 ^ 128 + 0x03F0007F00000000 * 2 ^ 64 + 0x0C2100F0FF900000) []
     d.base = 0x00F0FF900000 ∧ d.fmt = 1 ∧ d.rank = 2 ∧ d.order = 24 ∧ d.ext = [128, 64, 1, 1, 1] ∧ d.bnd = [128, 64, 1, 1, 1]
      ∧ (d.at 9 [5, 3]).map (fun l => d.base + l.byte) = some 0x00F0FF900286)
    ∧ (let d := descOf (BitVec.ofNat 256 (0x001240000000 + 2 ^ 48 + 2 * 2 ^ 52 + 127 * 2 ^ 96 + 63 * 2 ^ 116 + 7423 * 2 ^ 166 + 191 * 2 ^ 186
         + 6 * 2 ^ 240)) [1024, 64]
     d.ext = [128, 64, 1, 1, 1] ∧ (d.at 9 [5, 3]).map Loc.byte = some 996874) := by decide +kernel

/-- Where the HBM4 address 0x0009_8765_4340 lies under CHXOR: channel 60, bank 18, row 9,757, column 13 (spec/10 R239). -/
theorem test_workedAddress : hbmAt 2 0x000987654340 = { chan := 60, bank := 18, row := 9757, col := 13 } := by decide +kernel

/-- The division of 1,200 W among packages that report 500, 500, 480 and 480 W (spec/17 R379). -/
theorem test_workedDivision : divide 1200 [(0, 500, 150, 650), (1, 500, 150, 650), (2, 480, 150, 650), (3, 480, 150, 650)] =
    ([(0, 304), (1, 304), (2, 295), (3, 295)], false) := by decide +kernel

end Sys2Proof.Tests
end

section
/-! SUPPORT. The opcode map (spec/05 R136): the opcodes it fills, the command that a word issues as, and what a word of no listed
opcode does. -/

namespace Sys2Proof.Machine

/-- The map fills seven ranges of opcodes; 0x37 is CODE's, whose mode names its command. -/
theorem listed_iff (o : Nat) : (∃ e ∈ Claims.opcodes, o = e.1) ↔
    o ≤ 0x07 ∨ (0x10 ≤ o ∧ o ≤ 0x1D) ∨ (0x20 ≤ o ∧ o ≤ 0x23) ∨ (0x30 ≤ o ∧ o ≤ 0x36) ∨ (0x40 ≤ o ∧ o ≤ 0x44)
      ∨ (0x50 ≤ o ∧ o ≤ 0x66) ∨ (0x70 ≤ o ∧ o ≤ 0x76) := by
  have ranges : Claims.opcodes.map Prod.fst = List.range' 0 8 ++ List.range' 0x10 14 ++ List.range' 0x20 4
      ++ List.range' 0x30 7 ++ List.range' 0x40 5 ++ List.range' 0x50 23 ++ List.range' 0x70 7 := rfl
  calc (∃ e ∈ Claims.opcodes, o = e.1) ↔ o ∈ Claims.opcodes.map Prod.fst := by simp only [List.mem_map, eq_comm]
    _ ↔ _ := by
      rw [ranges]
      simp only [List.mem_append, List.mem_range'_1]
      omega

/-- A word of a listed opcode issues as the command that the map names. -/
theorem issueCommand_listed : ∀ e ∈ Claims.opcodes, ∀ (g : Cl) (w w2 : W64), opOf w = e.1 → issueCommand g w w2 = e.2 g w w2 := by
  simp only [Claims.opcodes, List.forall_mem_append, List.forall_mem_cons, List.not_mem_nil, false_implies, implies_true, and_true]
  and_intros
  all_goals
    intro g w w2 h
    rw [issueCommand, h]
    rfl

/-- A CODE word issues as the command of its mode (spec/06 R149). -/
theorem issueCommand_code (g : Cl) (w w2 : W64) (h : opOf w = 0x37) : issueCommand g w w2 = match fld w 9 8 with
    | 0 => .codeHist g w | 1 => .codeTable g w | 2 => .codeEnc g w | _ => .unassignedOpcode g w := by
  rw [issueCommand, h]
  rfl

/-- A word of an opcode that the map does not list issues as an unassigned opcode. -/
theorem issueCommand_unlisted {g : Cl} {w w2 : W64} (h : ∀ e ∈ Claims.opcodes, opOf w ≠ e.1) (hc : opOf w ≠ 0x37) :
    issueCommand g w w2 = .unassignedOpcode g w := by
  have out := (not_congr (listed_iff (opOf w))).1 fun ⟨e, he, hw⟩ => h e he hw
  unfold issueCommand
  split
  case h_70 => rfl
  all_goals omega

theorem opListed_unlisted {w : W64} (h : ∀ e ∈ Claims.opcodes, opOf w ≠ e.1) (hc : opOf w ≠ 0x37) : opListed w = false := by
  have out := (not_congr (listed_iff (opOf w))).1 fun ⟨e, he, hw⟩ => h e he hw
  simp only [opListed, Bool.or_eq_false_iff, Bool.and_eq_false_iff, decide_eq_false_iff_not]
  omega

/-- An unassigned opcode raises FAULT_INSTRUCTION and does nothing else (spec/05 R132, R136). -/
theorem exec_unassignedOpcode_raises {s : State} {g : Cl} {w : W64} {c : Cmd} {i : Inst} {ws : List W64}
    (h : s.NextWord g w c i ws) (hl : opListed w = false) (hc : opOf w ≠ 0x37) :
    exec (.unassignedOpcode g w) s = .next (s.raise c g 3 0 fInstruction none none).bump := by
  obtain ⟨ha, hw⟩ := h
  have code : (opOf w == 0x37) = false := by simpa using hc
  show execUnassignedOpcode g w s = _
  unfold execUnassignedOpcode
  simp only [hl, ha, hw, code, bne_self_eq_false, Bool.false_and, Bool.false_eq_true, if_false]
  rw [State.finish_one _ _ _ _ fInstruction rfl]

/-- Settles O53: the map's own table row by row, and the ranges that it leaves out. -/
theorem opcodeMap : Obligations.OpcodeMap := by
  refine ⟨issueCommand_listed, issueCommand_code, ?_, ?_⟩
  · intro s g w w2 c i ws h hu hc
    exact ⟨issueCommand_unlisted hu hc, exec_unassignedOpcode_raises h (opListed_unlisted hu hc) hc⟩
  · intro o ho
    refine ⟨by omega, fun e he hoe => ?_⟩
    have inside := (listed_iff o).1 ⟨e, he, hoe⟩
    omega

end Sys2Proof.Machine
end

section
/-! SUPPORT. What the accesses of an instruction leave of the programs that run: the commands known, and the instance that issues on
a cluster. One lemma for each shared operation, composed by transitivity. -/

namespace Sys2Proof.Machine

/-- The commands are as they were, and an instance that issued on the cluster still does, as it was. -/
def State.StillIssues (s : State) (g : Nat) (t : State) : Prop :=
  t.cmds.list = s.cmds.list ∧ ∀ i, (s.cl g).issuing = some i → (t.cl g).issuing = some i

theorem State.StillIssues.of_same {s t : State} {g : Nat} (h : t.clusters = s.clusters) (k : t.cmds.list = s.cmds.list) :
    s.StillIssues g t := ⟨k, fun i hi => by rw [State.cl, h]; exact hi⟩

theorem State.StillIssues.refl (s : State) (g : Nat) : s.StillIssues g s := ⟨rfl, fun _ => id⟩

theorem State.StillIssues.trans {s t u : State} {g : Nat} (h : s.StillIssues g t) (k : t.StillIssues g u) : s.StillIssues g u :=
  ⟨k.1.trans h.1, fun i hi => k.2 i (h.2 i hi)⟩

theorem State.StillIssues.foldl {α : Type} {g : Nat} {f : State → α → State} (hf : ∀ (s : State) (a : α), s.StillIssues g (f s a)) :
    ∀ (l : List α) (s : State), s.StillIssues g (l.foldl f s)
  | [], s => .refl s g
  | a :: l, s => (hf s a).trans (State.StillIssues.foldl hf l (f s a))

/-- A fold over a state beside other data. -/
theorem State.StillIssues.foldl_fst {α β : Type} {g : Nat} {f : State × β → α → State × β}
    (hf : ∀ (x : State × β) (a : α), x.1.StillIssues g (f x a).1) :
    ∀ (l : List α) (x : State × β), x.1.StillIssues g (l.foldl f x).1
  | [], x => .refl x.1 g
  | a :: l, x => (hf x a).trans (State.StillIssues.foldl_fst hf l (f x a))

/-- The command of an instance is found after what leaves the commands alone. -/
theorem State.StillIssues.cmd {s t : State} {g : Nat} (h : s.StillIssues g t) (id : Nat) : t.cmd id = s.cmd id := by
  rw [State.cmd, State.cmd, h.1]

/-! ### Updates -/

/-- A change of the cluster that is none of its issuing instance. -/
theorem State.modCl_stillIssues (s : State) (g : Nat) {u : Cluster → Cluster} (hu : ∀ k, (u k).issuing = k.issuing) :
    s.StillIssues g (s.modCl g u) := by
  refine ⟨rfl, fun i hi => ?_⟩
  have issues : (u (s.cl g)).issuing = some i := (hu _).trans hi
  rw [State.modCl, State.cl_setCl_of_issuing issues, issues]

theorem State.bump_stillIssues (s : State) (g : Nat) : s.StillIssues g s.bump := .of_same rfl rfl
theorem State.put_stillIssues (s : State) (g pa : Nat) (m b : Byte) : s.StillIssues g (s.put pa m b) := .of_same rfl rfl
theorem State.setQueue_stillIssues (s : State) (g f q : Nat) (x : Queue) : s.StillIssues g (s.setQueue f q x) := .of_same rfl rfl
theorem State.fnCount_stillIssues (s : State) (g f k n : Nat) : s.StillIssues g (s.fnCount f k n) := .of_same rfl rfl
theorem State.accept_stillIssues (s : State) (g x wr op cmd : Nat) (ws : List (Nat × Byte × Byte)) :
    s.StillIssues g (s.accept x wr op cmd ws) := .of_same rfl rfl
theorem State.request'_stillIssues (s : State) (g op cmd src : Nat) (x r : Bool) (ps : List Nat) :
    s.StillIssues g (s.request' op cmd src x r ps) := .of_same rfl rfl
theorem State.noteRoutes_stillIssues (s : State) (g id : Nat) (ps : List Nat) : s.StillIssues g (s.noteRoutes id ps) := .of_same rfl rfl

/-! ### Notices of uncorrectable words (spec/10 R245-R247, spec/15 R352) -/

theorem State.msix_stillIssues (s : State) (g f v : Nat) : s.StillIssues g (s.msix f v) := by
  unfold State.msix
  dsimp only
  split
  · exact .of_same rfl rfl
  · exact .of_same rfl rfl

theorem State.writeCq_stillIssues (s : State) (g f q : Nat) (c : Compl) : s.StillIssues g (s.writeCq f q c) :=
  State.StillIssues.trans (.of_same rfl rfl) (State.msix_stillIssues _ g f _)

theorem State.deliver_stillIssues (s : State) (g f q : Nat) (c : Compl) : s.StillIssues g (s.deliver f q c) := by
  unfold State.deliver
  dsimp only
  split
  · split
    · exact s.fnCount_stillIssues g f 8 1
    · exact (s.setQueue_stillIssues g f q _).trans (State.fnCount_stillIssues _ g f 7 1)
  · exact s.writeCq_stillIssues g f q c

theorem State.complete_stillIssues (s : State) (g f q : Nat) (c : Compl) : s.StillIssues g (s.complete f q c) := by
  unfold State.complete
  dsimp only
  split
  · exact s.setQueue_stillIssues g f q _
  · exact s.deliver_stillIssues g f q c

theorem State.notice_stillIssues (s : State) (g t code : Nat) (arg : W64) : s.StillIssues g (s.notice t code arg) := by
  unfold State.notice
  split
  · exact .refl s g
  · split
    · exact s.complete_stillIssues g t 0 _
    · exact s.fnCount_stillIssues g t 8 1

theorem State.noticeFrame_stillIssues (s : State) (g code pa : Nat) : s.StillIssues g (s.noticeFrame code pa) := by
  refine State.StillIssues.foldl (fun s t => ?_) _ s
  split
  · exact s.notice_stillIssues g t code _
  · exact .refl s g

theorem State.eccError_stillIssues (s : State) (g pa source : Nat) : s.StillIssues g (s.eccError pa source) := by
  unfold State.eccError
  dsimp only
  split
  · refine State.StillIssues.trans ?_ (State.noticeFrame_stillIssues _ g 0x02 pa)
    exact .of_same rfl rfl
  · exact .of_same rfl rfl

theorem State.eccMet_stillIssues (s : State) (g : Nat) (ps : List Nat) (source : Nat) : s.StillIssues g (s.eccMet ps source) := by
  unfold State.eccMet
  split
  · exact .refl s g
  · exact s.eccError_stillIssues g _ source

/-! ### The channels (spec/10 R235-R238) -/

theorem State.judge_stillIssues (s : State) (g ch : Nat) (r : ChReq) : s.StillIssues g (s.judge ch r) := by
  unfold State.judge
  dsimp only
  repeat' split
  all_goals exact .of_same rfl rfl

theorem State.serveChan_stillIssues (s : State) (g ch n : Nat) : s.StillIssues g (s.serveChan ch n) :=
  (State.StillIssues.foldl (fun t r => t.judge_stillIssues g ch r) _ s).trans (.of_same rfl rfl)

theorem State.taken_stillIssues (s : State) (g source : Nat) (ws : List (Nat × Byte × Byte)) :
    s.StillIssues g (s.taken source ws).1 := by
  unfold State.taken
  dsimp only
  split
  · exact .refl s g
  · exact State.StillIssues.trans (.of_same rfl rfl) (State.StillIssues.foldl (fun s _ => s.eccError_stillIssues g _ source) _ _)

theorem State.apply_stillIssues (s : State) (g source : Nat) (ws : List (Nat × Byte × Byte)) : s.StillIssues g (s.apply source ws) :=
  (s.taken_stillIssues g source ws).trans (State.StillIssues.foldl (fun s _ => s.put_stillIssues g _ _ _) _ _)

theorem State.corrects_stillIssues (s : State) (g : Nat) (r : ChReq) : s.StillIssues g (s.corrects r) := by
  unfold State.corrects
  dsimp only
  repeat' split
  all_goals exact .of_same rfl rfl

theorem State.enter_stillIssues (s : State) (g ch : Nat) : s.StillIssues g (s.enter ch) := by
  unfold State.enter
  split
  · exact .refl s g
  · split
    · exact .refl s g
    · have served : s.StillIssues g (if (s.chan ch).queue.length < 32 then s else s.serveChan ch 1) := by
        split
        · exact .refl s g
        · exact s.serveChan_stillIssues g ch 1
      exact ((served.trans (State.apply_stillIssues _ g _ _)).trans (State.corrects_stillIssues _ g _)).trans (.of_same rfl rfl)

theorem State.enterN_stillIssues (g ch : Nat) : ∀ (n : Nat) (s : State), s.StillIssues g (s.enterN ch n)
  | 0, s => .refl s g
  | n + 1, s => (s.enter_stillIssues g ch).trans (State.enterN_stillIssues g ch n _)

theorem State.enterAll_stillIssues (g : Nat) (p : ChReq → Bool) : ∀ (n : Nat) (s : State), s.StillIssues g (s.enterAll p n)
  | 0, s => .refl s g
  | n + 1, s => by
    unfold State.enterAll
    split
    · exact .refl s g
    · split
      · exact (s.enter_stillIssues g _).trans (State.enterAll_stillIssues g p n _)
      · exact State.StillIssues.trans (.of_same rfl rfl) (State.enterAll_stillIssues g p n _)

theorem State.fetches_stillIssues (s : State) (g op cmd src : Nat) (x : Bool) (ps : List Nat) :
    s.StillIssues g (s.fetches op cmd src x ps) :=
  (s.request'_stillIssues g op cmd src x true ps).trans (State.enterAll_stillIssues g _ _ _)

theorem State.arriveCb_stillIssues (s : State) (g : Nat) : s.StillIssues g s.arriveCb := by
  unfold State.arriveCb
  dsimp only
  refine State.StillIssues.trans (State.StillIssues.foldl_fst (fun x a => ?_) _ (s, _)) (.of_same rfl rfl)
  split
  · exact x.1.put_stillIssues g _ _ _
  · exact .refl x.1 g

theorem State.arrive_stillIssues (s : State) (g : Nat) : s.StillIssues g s.arrive := by
  unfold State.arrive
  split
  · exact .refl s g
  · exact ((State.StillIssues.foldl (fun t ch => State.enterN_stillIssues g ch _ t) _ s).trans
      (State.arriveCb_stillIssues _ g)).trans (State.bump_stillIssues _ g)

theorem State.meets_stillIssues (s : State) (g : Nat) (u : Option UnitId) : s.StillIssues g (s.meets u) := by
  unfold State.meets
  split
  · exact s.arrive_stillIssues g
  · exact .refl s g

/-! ### Operations of a unit -/

theorem State.pushOp_stillIssues (s : State) (g : Nat) (o : UnitOp) : s.StillIssues g (s.pushOp g o) :=
  (s.modCl_stillIssues g (u := fun k => { k with ops := k.ops ++ [{ o with issued := s.beat }] }) fun _ => rfl).trans
    (.of_same rfl rfl)

theorem State.touchBank_stillIssues (s : State) (g t m b : Nat) : s.StillIssues g (s.touchBank g t m b) := by
  refine s.modCl_stillIssues g fun k => ?_
  unfold Cluster.touchBank
  split
  · rfl
  · rfl

theorem State.cacheView_stillIssues (s : State) (w : Who) (d : Desc) (ls : List (Option Loc)) :
    s.StillIssues w.g (s.cacheView w d ls) := by
  unfold State.cacheView
  split
  · exact .refl s w.g
  · refine State.StillIssues.foldl (fun s n => ?_) _ s
    dsimp only
    split
    · exact s.modCl_stillIssues w.g fun _ => rfl
    · exact .refl s w.g

theorem State.ceDone_stillIssues (s : State) (g : Nat) (c : Cmd) (st : Nat) (remote rd ws : List Nat) (slot : Option Nat)
    (held : Nat × Nat) : s.StillIssues g (s.ceDone g c st remote rd ws slot held) :=
  (((s.request'_stillIssues g _ _ _ _ _ _).trans (State.pushOp_stillIssues _ g _)).trans
    (State.noteRoutes_stillIssues _ g c.id remote)).trans (State.bump_stillIssues _ g)

/-! ### Writes of a copy (spec/07 R188) -/

theorem State.sendWrites_stillIssues (s : State) (c : Cmd) (g x st pkg : Nat) (ws : List (Nat × Byte × Byte)) :
    s.StillIssues g (s.sendWrites c x st pkg ws).1 := by
  unfold State.sendWrites
  repeat' split
  all_goals exact .of_same rfl rfl

theorem State.cpyWrites_stillIssues (s : State) (c : Cmd) (g x st : Nat) (ws : List (Nat × Byte × Byte)) :
    s.StillIssues g (s.cpyWrites c x st ws).1 := by
  unfold State.cpyWrites
  dsimp only
  refine State.StillIssues.trans ?_ (State.noteRoutes_stillIssues _ g c.id _)
  refine State.StillIssues.trans ?_ (State.StillIssues.foldl_fst (fun y p => ?_) _ _)
  · exact s.accept_stillIssues g x (wCe st) _ c.id _
  · exact y.1.sendWrites_stillIssues c g x st p _

end Sys2Proof.Machine
end

section
/-! SUPPORT. How an instruction of two words ends (spec/05 R133, R135): with a fault latched or the instance past both words where the
second word is one, with a fault alone where it is not. -/

namespace Sys2Proof.Machine

/-! ### The fault that is taken -/

theorem State.pickFault_mem (s : State) {fs : List Byte} (h : fs ≠ []) : ∃ f ∈ fs, s.pickFault fs = some f := by
  cases fs with
  | nil => exact absurd rfl h
  | cons f fs =>
    rw [State.pickFault]
    split
    · exact ⟨f, List.mem_cons_self, rfl⟩
    · refine ⟨_, ?_, rfl⟩
      have inside : s.free 0 % (f :: fs).length < (f :: fs).length := Nat.mod_lt _ (by simp)
      rw [State.choose, List.getD_eq_getElem?_getD, List.getElem?_eq_getElem inside, Option.getD_some]
      exact List.getElem_mem inside

theorem earlyFaults_ne_nil {fs : List Byte} (h : fs ≠ []) : earlyFaults fs ≠ [] := by
  unfold earlyFaults
  dsimp only
  split
  · exact h
  · exact mt List.isEmpty_iff.2 ‹_›

/-- Where one fault is met at issue, those of accesses are passed over. -/
theorem earlyFaults_not_late {fs : List Byte} {f : Byte} (h : f ∈ fs) (hf : lateFaults.contains f = false) :
    ∀ x ∈ earlyFaults fs, lateFaults.contains x = false := by
  have early : f ∈ fs.filter fun f => !lateFaults.contains f := List.mem_filter.2 ⟨h, by rw [hf]; rfl⟩
  intro x hx
  unfold earlyFaults at hx
  dsimp only at hx
  rw [if_neg (by simpa using List.ne_nil_of_mem early)] at hx
  simpa using (List.mem_filter.1 hx).2

/-- A result with faults raises one of them. -/
theorem State.finish_raises (s : State) (c : Cmd) (g : Nat) {r : Res} (h : r.faults ≠ []) :
    ∃ f ∈ (if r.owner.isSome then r.faults else earlyFaults r.faults),
      s.finish c g r = (r.st.raise c g r.kind r.unit f r.slot r.owner r.read).bump := by
  have ne : (if r.owner.isSome then r.faults else earlyFaults r.faults) ≠ [] := by
    split
    · exact h
    · exact earlyFaults_ne_nil h
  obtain ⟨f, hf, pick⟩ := s.pickFault_mem ne
  exact ⟨f, hf, by rw [State.finish, pick]⟩

/-! ### A latched fault -/

theorem State.cmd_setCmd {s : State} {c d : Cmd} (h : s.cmd c.id = some d) : (s.setCmd c).cmd c.id = some c := by
  have same : ((fun d : Cmd => d.id == c.id) ∘ fun d => if d.id == c.id then c else d) = fun d => d.id == c.id := by
    funext e
    by_cases he : e.id = c.id <;> simp [he]
  have hd : (d.id == c.id) = true := by simp [State.cmd_id h]
  unfold State.cmd at h ⊢
  rw [State.setCmd_cmds_list, List.find?_map, same, h, Option.map_some, if_pos hd]

theorem State.cmd_latchFault {s : State} {c : Cmd} (h : s.cmd c.id = some c) (r : FaultRec) :
    (s.latchFault c.id r).cmd c.id = some { c with faults := c.faults ++ [r] } := by
  rw [State.latchFault, h]
  exact State.cmd_setCmd (c := { c with faults := c.faults ++ [r] }) h

/-- The command of a raised fault holds its record after those it had. -/
theorem State.cmd_raise {s : State} {c : Cmd} (h : s.cmd c.id = some c) (g kind unit : Nat) (f : Byte) (slot owner : Option Nat)
    (read : List Nat) : ∃ r, (s.raise c g kind unit f slot owner read).cmd c.id = some { c with faults := c.faults ++ [r] } ∧ r.cl = g := by
  unfold State.raise
  dsimp only
  refine ⟨_, State.cmd_latchFault (State.StillIssues.cmd (g := g) ?_ c.id |>.trans h) _, rfl⟩
  split
  · exact s.eccMet_stillIssues g _ 0
  · exact .refl s g

/-! ### The end of an instruction -/

/-- The effect `r` of an instruction of instance `i`, on a state `s`, leaves the commands and the issuing instance to what comes after
it, and the instance where it was. -/
structure Res.StaysPut (r : Res) (s : State) (g : Nat) (i : Inst) : Prop where
  st : s.StillIssues g r.st
  cmd : r.inst.cmd = i.cmd
  pc : r.inst.pc = i.pc
  loops : r.inst.loops = i.loops

theorem Res.StaysPut.advance {r : Res} {s : State} {g : Nat} {i : Inst} (h : r.StaysPut s g i) (n : Nat) :
    (r.inst.advance n).pc = (i.advance n).pc := by
  simp only [Inst.advance, h.pc, h.loops]

/-- An instance that issues is replaced by one of its command. -/
theorem State.issuing_setInst {s : State} {g : Nat} {i j : Inst} (h : (s.cl g).issuing = some i) (hc : i.cmd = j.cmd) :
    ((s.modCl g fun k => k.setInst j).cl g).issuing = some j := by
  have issues : ((s.cl g).setInst j).issuing = some j := by rw [Cluster.setInst_issuing h hc]
  rw [State.modCl, State.cl_setCl_of_issuing issues, issues]

/-- An instruction with its second word in place goes on past both words, or latches a fault. -/
theorem State.issue_ends {s : State} {op : Nat} {g : Cl} {w w2 : W64} {unit : UnitId} {k : State → Cmd → Inst → Res}
    {c : Cmd} {i : Inst} {ws : List W64} (hop : opOf w = op) (h : s.Issues2 g w w2 c i ws)
    (hu : s.Room g c unit) (hs : (k (s.meets (some unit)) c i).stall = false)
    (hk : (k (s.meets (some unit)) c i).StaysPut (s.meets (some unit)) g i) :
    ∃ t : State, s.issue op 2 g w w2 (some unit) k = .next t ∧ ((∃ j, (t.cl g).issuing = some j ∧ j.pc = (i.advance 2).pc)
      ∨ ∃ r, t.cmd c.id = some { c with faults := c.faults ++ [r] } ∧ r.cl = g) := by
  obtain ⟨h1, h2, h3⟩ := h
  obtain ⟨hi, hid, -, -, -, -, -, -, hc, -⟩ := State.atIssue_spec h1.1.1
  have runs := State.issue_runs (n := 2) hop h1 (fun _ => ⟨h2, h3⟩) (by rintro u ⟨⟩; exact hu) hs
  generalize k (s.meets (some unit)) c i = r at runs hk
  have left := (s.meets_stillIssues g (some unit)).trans hk.st
  refine ⟨_, runs, ?_⟩
  by_cases hf : r.faults = []
  · left
    rw [State.finish_nil _ _ _ _ (by exact hf)]
    exact ⟨_, State.issuing_setInst (left.2 i hi) hk.cmd.symm, hk.advance 2⟩
  · right
    obtain ⟨f, -, raised⟩ := s.finish_raises c g (r := { r with inst := r.inst.advance 2 }) hf
    have known : r.st.cmd c.id = some c := (left.cmd c.id).trans (hid ▸ hc)
    rw [raised]
    exact State.cmd_raise known g r.kind r.unit f r.slot r.owner r.read

/-- A word that is no second word makes a two-word instruction do nothing but raise a fault that is met at issue:
FAULT_INSTRUCTION where its own effect meets none (spec/05 R133, R135). -/
theorem State.issue_noSecond {s : State} {op : Nat} {g : Cl} {w w2 : W64} {unit : UnitId} {k : State → Cmd → Inst → Res}
    {c : Cmd} {i : Inst} {ws : List W64} (hop : opOf w = op) (h : s.Issues g w c i ws) (h2 : ws[i.pc + 1]? = some w2)
    (h3 : opOf w2 ≠ 0xFE) (hu : s.Room g c unit) :
    ∃ (kd u : Nat) (f : Byte) (sl ow : Option Nat) (rd : List Nat),
      s.issue op 2 g w w2 (some unit) k = .next (s.raise c g kd u f sl ow rd).bump ∧ lateFaults.contains f = false
        ∧ (((k (s.meets (some unit)) c i).owner = none → (k (s.meets (some unit)) c i).faults = []) → f = fInstruction) := by
  obtain ⟨⟨ha, hw⟩, hg⟩ := h
  have second : secondFaults ws i.pc = [fInstruction] := by simp [secondFaults, h2, h3]
  have ends : s.issue op 2 g w w2 (some unit) k = .next (s.finish c g { k (s.meets (some unit)) c i with
      st := s, owner := none
      faults := [fInstruction] ++ (if (k (s.meets (some unit)) c i).owner.isSome then [] else (k (s.meets (some unit)) c i).faults) }) := by
    unfold State.issue
    rw [if_neg (by simp [hop])]
    simp only [ha, hw]
    rw [if_neg (by simp [h2]), if_neg (by simp [hg]), if_neg (by simp [hu])]
    simp only [second]
    rfl
  generalize k (s.meets (some unit)) c i = r at ends
  obtain ⟨f, hf, raised⟩ := s.finish_raises c g (r := { r with
    st := s, owner := none, faults := [fInstruction] ++ (if r.owner.isSome then [] else r.faults) }) (List.cons_ne_nil _ _)
  refine ⟨r.kind, r.unit, f, r.slot, none, r.read, by rw [ends, raised], ?_, fun clean => ?_⟩
  · exact earlyFaults_not_late (f := fInstruction) List.mem_cons_self (by decide) f hf
  · have alone : (if r.owner.isSome then [] else r.faults) = [] := by
      cases ho : r.owner with
      | none => exact clean ho
      | some p => rfl
    rw [alone] at hf
    simpa using hf

end Sys2Proof.Machine
end

section
/-! SUPPORT. What OPA and CPY do where they issue (spec/06 R150, R153), as far as their ends go; and the second words of both (spec/05
R135). -/

namespace Sys2Proof.Machine

/-! ### Counts and marks of an instance -/

@[simp] theorem Inst.count_cmd (i : Inst) (k n : Nat) : (i.count k n).cmd = i.cmd := rfl
@[simp] theorem Inst.count_pc (i : Inst) (k n : Nat) : (i.count k n).pc = i.pc := rfl
@[simp] theorem Inst.count_loops (i : Inst) (k n : Nat) : (i.count k n).loops = i.loops := rfl
@[simp] theorem Inst.initBank_cmd (i : Inst) (m b : Nat) : (i.initBank m b).cmd = i.cmd := rfl
@[simp] theorem Inst.initBank_pc (i : Inst) (m b : Nat) : (i.initBank m b).pc = i.pc := rfl
@[simp] theorem Inst.initBank_loops (i : Inst) (m b : Nat) : (i.initBank m b).loops = i.loops := rfl

/-! ### OPA -/

/-- Operands of no common class are a fault of an OPA (spec/04 R79). -/
theorem State.opaFaults_of_noPair {s : State} {c : Cmd} {g : Nat} {w w2 : W64} {i : Inst}
    (h : pairClass (i.desc' (fB w)).fmt (i.desc' (fC w)).fmt = none) : s.opaFaults c g w w2 i ≠ [] := by
  simp [State.opaFaults, h]

/-- OPA never stalls at its reads, leaves its instance in place, and meets no fault where its checks and its reads meet none. -/
theorem execOpa_issue (g : Cl) (w w2 : W64) : ∃ k, (execOpa g w w2 = fun s => s.issue 0x40 2 g w w2 (some (meOf w)) k)
    ∧ ∀ (u : State) (c : Cmd) (i : Inst), (k u c i).stall = false ∧ (k u c i).StaysPut u g i
      ∧ (u.opaFaults c g w w2 i = [] → (∀ cl int, pairClass (i.desc' (fB w)).fmt (i.desc' (fC w)).fmt = some (cl, int) →
          (u.readView ⟨c.fn, g, ordMe⟩ (i.desc' (fB w)) (opaLocs (i.desc' (fB w)) (opaK i w2) (tileRows cl)).flatten).2 = []
          ∧ (u.readView ⟨c.fn, g, ordMe⟩ (i.desc' (fC w)) (opaLocs (i.desc' (fC w)) (opaK i w2) (tileCols cl)).flatten).2 = []) →
        (k u c i).faults = []) := by
  unfold execOpa
  refine ⟨_, rfl, fun u c i => ?_⟩
  dsimp only
  split
  next noPair =>
    exact ⟨rfl, ⟨u.touchBank_stillIssues g _ _ _, rfl, rfl, rfl⟩, fun clean => absurd clean (State.opaFaults_of_noPair noPair)⟩
  next cl int pair =>
    split
    · exact ⟨rfl, ⟨u.touchBank_stillIssues g _ _ _, rfl, rfl, rfl⟩, fun clean _ => clean⟩
    · refine ⟨rfl, ⟨?_, by simp, by simp, by simp⟩, fun _ reads => ?_⟩
      · refine State.StillIssues.trans ?_ (State.bump_stillIssues _ g)
        refine State.StillIssues.trans ?_ (State.pushOp_stillIssues _ g _)
        refine State.StillIssues.trans ?_ (State.modCl_stillIssues _ g fun _ => rfl)
        exact (u.cacheView_stillIssues ⟨c.fn, g, ordMe⟩ _ _).trans (State.cacheView_stillIssues _ ⟨c.fn, g, ordMe⟩ _ _)
      · obtain ⟨col, row⟩ := reads cl int pair
        exact List.append_eq_nil_iff.2 ⟨col, row⟩

/-! ### CPY -/

theorem State.placeWrites_nil_iff {s : State} {t g : Nat} {ws : List (Nat × Byte × Byte)} :
    (s.placeWrites t g ws).2 = [] ↔ ∀ x ∈ ws, ∃ pa, s.access t g x.1 false = .inl pa := by
  induction ws with
  | nil => simp [State.placeWrites]
  | cons x ws ih =>
    rw [List.forall_mem_cons, ← ih, State.placeWrites]
    cases h : s.access t g x.1 false with
    | inl pa => simp
    | inr f => simp

/-- A copy that names no other package meets the faults of its writes here alone (spec/07 R188). -/
theorem State.cpyWrites_here {s : State} {c : Cmd} {g st : Nat} {ws : List (Nat × Byte × Byte)}
    (here : (s.cpyWrites c g st ws).2.2.head? = none) (clean : (s.placeWrites c.fn g ws).2 = []) :
    (s.cpyWrites c g st ws).2.1 = [] := by
  unfold State.cpyWrites at here ⊢
  dsimp only at here ⊢
  rw [List.head?_eq_none_iff] at here
  rw [here]
  have placed := fun p => State.placeWrites_nil_iff (ws := ws.filter p).2 fun x hx =>
    State.placeWrites_nil_iff.1 clean x (List.mem_filter.1 hx).1
  exact List.append_eq_nil_iff.2 ⟨placed _, rfl⟩

/-- A move counts in its instance and leaves it in place. -/
theorem State.cpyMove_inst (s : State) (i : Inst) (w : Who) (w2 : W64) (a b : Desc) :
    (s.cpyMove i w w2 a b).2.2.cmd = i.cmd ∧ (s.cpyMove i w w2 a b).2.2.pc = i.pc ∧ (s.cpyMove i w w2 a b).2.2.loops = i.loops := by
  unfold State.cpyMove
  dsimp only
  split
  · exact ⟨rfl, rfl, rfl⟩
  · split
    · simp only [Inst.countConv, Inst.count_cmd, Inst.count_pc, Inst.count_loops, and_self]
    · simp only [Inst.count_cmd, Inst.count_pc, Inst.count_loops, and_self]

/-- CPY leaves its instance in place, stalls at closed inlets alone, and meets no fault of its own where its checks, its reads and its
writes to this package meet none and it writes to no other. -/
theorem execCpy_issue (g : Cl) (w w2 : W64) : ∃ k, (execCpy g w w2 = fun s => s.issue 0x30 2 g w w2 (some (ceOf w)) k)
    ∧ ∀ (u : State) (c : Cmd) (i : Inst), (k u c i).StaysPut u g i
      ∧ (u.cpyFaults c g w w2 (i.desc' (fB w)) (i.desc' (fA w)) = [] →
        (Claims.InletsOpen u c g ((i.desc' (fB w)).touched (i.desc' (fB w)).locs) → (k u c i).stall = false)
        ∧ ∀ r m, r = Claims.fetched u c g w ((i.desc' (fB w)).touched (i.desc' (fB w)).locs) →
          m = r.cpyMove i ⟨c.fn, g, ordCe (stream w)⟩ w2 (i.desc' (fB w)) (i.desc' (fA w)) → m.2.1 = [] →
          (r.placeWrites c.fn g m.1).2 = [] → (k u c i).owner = none → (k u c i).faults = []) := by
  unfold execCpy
  refine ⟨_, rfl, fun u c i => ?_⟩
  dsimp only
  split
  next faults =>
    refine ⟨⟨.refl u g, rfl, rfl, rfl⟩, fun clean => ?_⟩
    rw [clean] at faults
    exact absurd faults Bool.false_ne_true
  next =>
    unfold State.ceReads
    dsimp only
    split
    next shut =>
      exact ⟨⟨.refl u g, rfl, rfl, rfl⟩, fun _ => ⟨fun opened => absurd shut (Bool.eq_false_iff.1 opened), fun _ _ _ _ _ _ _ => rfl⟩⟩
    next =>
      obtain ⟨hid, hpc, hloops⟩ := State.cpyMove_inst (Claims.fetched u c g w ((i.desc' (fB w)).touched (i.desc' (fB w)).locs)) i
        ⟨c.fn, g, ordCe (stream w)⟩ w2 (i.desc' (fB w)) (i.desc' (fA w))
      refine ⟨⟨?_, hid, hpc, hloops⟩, fun _ => ⟨fun _ => rfl, ?_⟩⟩
      · refine State.StillIssues.trans ?_ (State.ceDone_stillIssues _ g _ _ _ _ _ _ _)
        refine State.StillIssues.trans ?_ (State.cacheView_stillIssues _ ⟨c.fn, g, ordCe (stream w)⟩ _ _)
        exact (u.fetches_stillIssues g _ _ _ _ _).trans (State.cpyWrites_stillIssues _ c g g _ _)
      · rintro r m rfl rfl reads writes here
        exact List.append_eq_nil_iff.2 ⟨reads, State.cpyWrites_here here writes⟩

/-! ### Second words -/

theorem State.nextIssue_word {s : State} {g : Cl} {w : W64} {c : Cmd} {i : Inst} {ws : List W64} (h : s.NextWord g w c i ws) :
    s.nextIssue g = some (issueCommand g w (ws.getD (i.pc + 1) 0)) := by
  obtain ⟨ha, hw⟩ := h
  simp only [State.nextIssue, ha, hw]

/-- A word of a listed opcode issues as the command that the map names, with the word after it. -/
theorem State.nextIssue_listed {s : State} {g : Cl} {w w2 : W64} {c : Cmd} {i : Inst} {ws : List W64} (h : s.NextWord g w c i ws)
    (h2 : ws[i.pc + 1]? = some w2) {e : Nat × (Cl → W64 → W64 → Instr)} (he : e ∈ Claims.opcodes) (hop : opOf w = e.1) :
    s.nextIssue g = some (e.2 g w w2) := by
  rw [State.nextIssue_word h, List.getD_eq_getElem?_getD, h2, Option.getD_some, issueCommand_listed e he g w w2 hop]

theorem opa_mem_opcodes : (0x40, fun g w w2 => Instr.opa g w w2) ∈ Claims.opcodes := by simp [Claims.opcodes]
theorem cpy_mem_opcodes : (0x30, fun g w w2 => Instr.cpy g w w2) ∈ Claims.opcodes := by simp [Claims.opcodes]

/-- The map does not list the opcode of a second word. -/
theorem second_unlisted {w : W64} (h : opOf w = 0xFE) : ∀ e ∈ Claims.opcodes, opOf w ≠ e.1 := by
  intro e he hw
  have inside := (listed_iff (opOf w)).1 ⟨e, he, hw⟩
  omega

/-- Settles O54: both instructions through the two ends of an instruction of two words, with what their own effects meet; a second word
as an opcode that the map does not list. -/
theorem secondWord : Obligations.SecondWord := by
  intro s g w w2 c i ws h
  obtain ⟨opa, opa_issue, opa_effect⟩ := execOpa_issue g w w2
  obtain ⟨cpy, cpy_issue, cpy_effect⟩ := execCpy_issue g w w2
  have opa_runs : exec (.opa g w w2) s = s.issue 0x40 2 g w w2 (some (meOf w)) opa := congrFun opa_issue s
  have cpy_runs : exec (.cpy g w w2) s = s.issue 0x30 2 g w w2 (some (ceOf w)) cpy := congrFun cpy_issue s
  refine ⟨fun h2 => ⟨fun hop => ?_, fun hop => ?_⟩, fun h2 hg h3 => ⟨fun hop room clean => ?_, fun hop room clean opened => ?_⟩,
    fun h2 hg h3 => ⟨fun hop room => ?_, ?_⟩, fun hop => ⟨?_, ?_⟩⟩
  · exact State.nextIssue_listed h h2 opa_mem_opcodes hop
  · exact State.nextIssue_listed h h2 cpy_mem_opcodes hop
  · rw [opa_runs]
    obtain ⟨stall, stays, -⟩ := opa_effect s c i
    exact State.issue_ends hop ⟨⟨h, hg⟩, h2, h3⟩ room stall stays
  · rw [cpy_runs]
    obtain ⟨stays, issued⟩ := cpy_effect s.arrive c i
    exact State.issue_ends hop ⟨⟨h, hg⟩, h2, h3⟩ room ((issued clean).1 opened) stays
  · rw [opa_runs]
    obtain ⟨kd, u, f, sl, ow, rd, raised, early, own⟩ :=
      State.issue_noSecond (k := opa) hop ⟨h, hg⟩ h2 h3 room
    obtain ⟨-, -, faultless⟩ := opa_effect s c i
    exact ⟨kd, u, f, sl, ow, rd, raised, early, fun clean reads => own fun _ => faultless clean reads⟩
  · rintro v r m hop room rfl rfl rfl
    rw [cpy_runs]
    obtain ⟨kd, u, f, sl, ow, rd, raised, early, own⟩ :=
      State.issue_noSecond (k := cpy) hop ⟨h, hg⟩ h2 h3 room
    obtain ⟨-, issued⟩ := cpy_effect s.arrive c i
    exact ⟨kd, u, f, sl, ow, rd, raised, early, fun clean reads writes => own ((issued clean).2 _ _ rfl rfl reads writes)⟩
  · rw [State.nextIssue_word h, issueCommand_unlisted (second_unlisted hop) (by omega)]
  · exact exec_unassignedOpcode_raises h (opListed_unlisted (second_unlisted hop) (by omega)) (by omega)

end Sys2Proof.Machine
end

section
/-! SUPPORT. The power block (spec/17) is changed by PWR, by resets and at boot, and by nothing else. How a command that leaves it alone is
composed of operations that do: branches, folds, outcomes. -/

namespace Sys2Proof.Machine

/-! ### Branches and folds -/

@[simp] theorem State.ite_pwr (c : Prop) [Decidable c] (s t : State) : (if c then s else t).pwr = if c then s.pwr else t.pwr :=
  apply_ite State.pwr c s t

@[simp] theorem State.ite_fst_pwr {β : Type} (c : Prop) [Decidable c] (x y : State × β) :
    (if c then x else y).1.pwr = if c then x.1.pwr else y.1.pwr := apply_ite (fun x : State × β => x.1.pwr) c x y

@[simp] theorem Res.ite_st_pwr (c : Prop) [Decidable c] (x y : Res) :
    (if c then x else y).st.pwr = if c then x.st.pwr else y.st.pwr := apply_ite (fun x : Res => x.st.pwr) c x y

theorem Option.getD_pwr {o : Option State} {s : State} (h : ∀ t ∈ o, t.pwr = s.pwr) : (o.getD s).pwr = s.pwr := by
  cases o with
  | none => rfl
  | some t => exact h t rfl

/-- A fold of operations that each leave the power block. -/
@[simp] theorem State.foldl_pwr {α : Type} {f : State → α → State} (hf : ∀ s a, (f s a).pwr = s.pwr) (l : List α) (s : State) :
    (l.foldl f s).pwr = s.pwr := by
  induction l generalizing s with
  | nil => rfl
  | cons a l ih => exact (ih (f s a)).trans (hf s a)

/-- A fold over a state beside other data. -/
@[simp] theorem State.foldl_fst_pwr {α β : Type} {f : State × β → α → State × β} (hf : ∀ x a, (f x a).1.pwr = x.1.pwr) (l : List α)
    (x : State × β) : (l.foldl f x).1.pwr = x.1.pwr := by
  induction l generalizing x with
  | nil => rfl
  | cons a l ih => exact (ih (f x a)).trans (hf x a)

@[simp] theorem State.foldl_modCl_pwr {α : Type} (k : State → α → Nat) (u : State → α → Cluster → Cluster) (l : List α) (s : State) :
    (l.foldl (fun s a => s.modCl (k s a) (u s a)) s).pwr = s.pwr := State.foldl_pwr (fun s _ => s.modCl_pwr _ _) l s

@[simp] theorem State.foldl_modTen_pwr {α : Type} (k : State → α → Nat) (u : State → α → Tenant → Tenant) (l : List α) (s : State) :
    (l.foldl (fun s a => s.modTen (k s a) (u s a)) s).pwr = s.pwr := State.foldl_pwr (fun s _ => s.modTen_pwr _ _) l s

@[simp] theorem State.foldl_modCtx_pwr {α : Type} (x : State → α → Nat) (u : State → α → Ctx → Ctx) (l : List α) (s : State) :
    (l.foldl (fun s a => s.modCtx (x s a) (u s a)) s).pwr = s.pwr := State.foldl_pwr (fun s _ => s.modCtx_pwr _ _) l s

/-! ### Outcomes -/

/-- The power block of the next state, where there is one, satisfies `P`. -/
def Out.NextPwr (P : Pwr → Prop) (o : Out) : Prop := ∀ t, o = .next t → P t.pwr

/-- The power block of the next state is `p`. -/
abbrev Out.LeavesPwr (o : Out) (p : Pwr) : Prop := o.NextPwr (· = p)

section
variable {P : Pwr → Prop}

@[simp] theorem Out.nextPwr_next (t : State) : Out.NextPwr P (.next t) ↔ P t.pwr := by simp [Out.NextPwr]

@[simp] theorem Out.nextPwr_ite (c : Prop) [Decidable c] (a b : Out) :
    Out.NextPwr P (if c then a else b) ↔ (c → a.NextPwr P) ∧ (¬c → b.NextPwr P) := by
  split <;> simp [*]

theorem Out.LeavesPwr.nextPwr {o : Out} {p : Pwr} (h : o.LeavesPwr p) (hp : P p) : o.NextPwr P := fun t ht => h t ht ▸ hp

theorem andThen_nextPwr {o : Out} {k : State → Out} (ho : o.NextPwr P) (hk : ∀ u : State, P u.pwr → (k u).NextPwr P) :
    (andThen o k).NextPwr P := by
  unfold andThen
  split
  · exact hk _ (ho _ rfl)
  · exact ho

theorem whenAlive_nextPwr {s t : State} (hs : P s.pwr) (ht : P t.pwr) : (whenAlive s t).NextPwr P := by
  simp [whenAlive, hs, ht]

theorem whenHost_nextPwr {f : Nat} {s : State} {k : State → State} (hs : P s.pwr) (hk : ∀ u, P u.pwr → P (k u).pwr) :
    (whenHost f s k).NextPwr P := by
  simp [whenHost, hs, hk (s.setLow f none) hs]

end

@[simp] theorem whenAlive_pwr {s t : State} (h : t.pwr = s.pwr) : (whenAlive s t).LeavesPwr s.pwr := whenAlive_nextPwr rfl h

@[simp] theorem whenHost_pwr {f : Nat} {s : State} {k : State → State} (h : ∀ u, (k u).pwr = u.pwr) :
    (whenHost f s k).LeavesPwr s.pwr := whenHost_nextPwr rfl fun u hu => (h u).trans hu

@[simp] theorem whenSch_pwr {s t : State} (h : t.pwr = s.pwr) : (whenSch s t).LeavesPwr s.pwr := by
  simp [whenSch, h]

@[simp] theorem whenPowered_pwr {s t : State} (h : t.pwr = s.pwr) : (whenPowered s t).LeavesPwr s.pwr := by
  simp [whenPowered, h]

@[simp] theorem whenTicking_pwr {s t : State} (h : t.pwr = s.pwr) : (whenTicking s t).LeavesPwr s.pwr := by
  simp [whenTicking, h]

/-- Every state that SCH goes on with, whatever it does with a request, has the power block `p`. -/
def ReqOut.LeavesPwr (p : Pwr) : ReqOut → Prop
  | .done t _ _ | .held t | .begun t => t.pwr = p
  | .wait => True

@[simp] theorem ReqOut.leavesPwr_done (p : Pwr) (t : State) (st : Byte) (r : W64) :
    (ReqOut.done t st r).LeavesPwr p ↔ t.pwr = p := .rfl
@[simp] theorem ReqOut.leavesPwr_held (p : Pwr) (t : State) : (ReqOut.held t).LeavesPwr p ↔ t.pwr = p := .rfl
@[simp] theorem ReqOut.leavesPwr_begun (p : Pwr) (t : State) : (ReqOut.begun t).LeavesPwr p ↔ t.pwr = p := .rfl
@[simp] theorem ReqOut.leavesPwr_wait (p : Pwr) : ReqOut.wait.LeavesPwr p := trivial
@[simp] theorem State.no_leavesPwr (s : State) (st : Byte) (p : Pwr) : (s.no st).LeavesPwr p ↔ s.pwr = p := .rfl

@[simp] theorem ReqOut.leavesPwr_ite (c : Prop) [Decidable c] (a b : ReqOut) (p : Pwr) :
    (if c then a else b).LeavesPwr p ↔ (c → a.LeavesPwr p) ∧ (¬c → b.LeavesPwr p) := by
  split <;> simp [*]

end Sys2Proof.Machine
end

section
/-! SUPPORT. The shared operations and the instructions leave the power block alone: one lemma for each operation, tagged for `simp`, in the order
of the model. -/

namespace Sys2Proof.Machine

/-! ### Access to the blocks of the state -/

@[simp] theorem State.setLow_pwr (s : State) (f : Nat) (x : Option (Nat × W32)) : (s.setLow f x).pwr = s.pwr := by
  simp [State.setLow]

@[simp] theorem State.sendTo_pwr (s : State) (pkg src : Nat) (m : Nat → Msg) : (s.sendTo pkg src m).pwr = s.pwr := by
  simp [State.sendTo]

@[simp] theorem State.sendSure_pwr (s : State) (cmd op pkg src : Nat) (m : Nat → Msg) :
    (s.sendSure cmd op pkg src m).pwr = s.pwr := by simp [State.sendSure]

/-! ### Shared operations: memory, channels, completions, contexts, kills -/

@[simp] theorem State.put_pwr (s : State) (p : Nat) (mask val : Byte) : (s.put p mask val).pwr = s.pwr := by simp [State.put]
@[simp] theorem State.zero_pwr (s : State) (pa n : Nat) : (s.zero pa n).pwr = s.pwr := by simp [State.zero]
@[simp] theorem State.fnCount_pwr (s : State) (f k n : Nat) : (s.fnCount f k n).pwr = s.pwr := by simp [State.fnCount]
@[simp] theorem State.msix_pwr (s : State) (f v : Nat) : (s.msix f v).pwr = s.pwr := by simp [State.msix]
@[simp] theorem State.writeCq_pwr (s : State) (f qn : Nat) (c : Compl) : (s.writeCq f qn c).pwr = s.pwr := by simp [State.writeCq]
@[simp] theorem State.deliver_pwr (s : State) (f qn : Nat) (c : Compl) : (s.deliver f qn c).pwr = s.pwr := by simp [State.deliver]

@[simp] theorem State.complete_pwr (s : State) (f qn : Nat) (c : Compl) : (s.complete f qn c).pwr = s.pwr := by
  simp [State.complete]

@[simp] theorem State.drainHeld_pwr (s : State) (f qn n : Nat) : (s.drainHeld f qn n).pwr = s.pwr := by
  induction n generalizing s with
  | zero => rfl
  | succ n ih =>
    unfold State.drainHeld
    dsimp only
    split <;> simp [ih]

@[simp] theorem State.answer_pwr (s : State) (f : Nat) (cid : BitVec 16) (status : Byte) (result : W64) :
    (s.answer f cid status result).pwr = s.pwr := by simp [State.answer]

@[simp] theorem State.notice_pwr (s : State) (t : Nat) (code : Nat) (arg : W64) : (s.notice t code arg).pwr = s.pwr := by
  simp [State.notice]

@[simp] theorem State.noticeFrame_pwr (s : State) (code pa : Nat) : (s.noticeFrame code pa).pwr = s.pwr :=
  State.foldl_pwr (fun s t => by split <;> simp) _ s

@[simp] theorem State.eccError_pwr (s : State) (pa source : Nat) : (s.eccError pa source).pwr = s.pwr := by simp [State.eccError]
@[simp] theorem State.setChan_pwr (s : State) (ch : Nat) (c : Chan) : (s.setChan ch c).pwr = s.pwr := by simp [State.setChan]
@[simp] theorem State.judge_pwr (s : State) (ch : Nat) (r : ChReq) : (s.judge ch r).pwr = s.pwr := by simp [State.judge]
@[simp] theorem State.serveChan_pwr (s : State) (ch n : Nat) : (s.serveChan ch n).pwr = s.pwr := by simp [State.serveChan]

@[simp] theorem State.taken_pwr (s : State) (source : Nat) (ws : List (Nat × Byte × Byte)) : (s.taken source ws).1.pwr = s.pwr := by
  unfold State.taken
  dsimp only
  split
  · rfl
  · exact State.foldl_pwr (fun u w => u.eccError_pwr _ _) _ _

@[simp] theorem State.apply_pwr (s : State) (source : Nat) (ws : List (Nat × Byte × Byte)) : (s.apply source ws).pwr = s.pwr := by
  simp [State.apply]

@[simp] theorem State.corrects_pwr (s : State) (r : ChReq) : (s.corrects r).pwr = s.pwr := by simp [State.corrects]

@[simp] theorem State.enter_pwr (s : State) (ch : Nat) : (s.enter ch).pwr = s.pwr := by
  unfold State.enter
  repeat' split
  all_goals simp

@[simp] theorem State.enterN_pwr (s : State) (ch n : Nat) : (s.enterN ch n).pwr = s.pwr := by
  induction n generalizing s with
  | zero => rfl
  | succ n ih => simp [State.enterN, ih]

@[simp] theorem State.enterAll_pwr (s : State) (p : ChReq → Bool) (n : Nat) : (s.enterAll p n).pwr = s.pwr := by
  induction n generalizing s with
  | zero => rfl
  | succ n ih =>
    unfold State.enterAll
    repeat' split
    all_goals simp [ih]

@[simp] theorem State.arriveCb_pwr (s : State) : (s.arriveCb).pwr = s.pwr := by simp [State.arriveCb]
@[simp] theorem State.arrive_pwr (s : State) : (s.arrive).pwr = s.pwr := by simp [State.arrive]

@[simp] theorem State.request'_pwr (s : State) (op cmd src : Nat) (express read : Bool) (ps : List Nat) :
    (s.request' op cmd src express read ps).pwr = s.pwr := by simp [State.request']

@[simp] theorem State.fetches_pwr (s : State) (op cmd src : Nat) (express : Bool) (ps : List Nat) :
    (s.fetches op cmd src express ps).pwr = s.pwr := by simp [State.fetches]

@[simp] theorem State.pushes_pwr (s : State) (src : Nat) (ps : List Nat) : (s.pushes src ps).pwr = s.pwr := by simp [State.pushes]
@[simp] theorem State.remap_pwr (s : State) (f : Nat → Nat) : (s.remap f).pwr = s.pwr := by simp [State.remap]

@[simp] theorem State.accept_pwr (s : State) (g writer op cmd : Nat) (ws : List (Nat × Byte × Byte)) :
    (s.accept g writer op cmd ws).pwr = s.pwr := by simp [State.accept]

@[simp] theorem State.wrNow_pwr (s : State) (ws : List (Nat × Byte × Byte)) (src : Nat) : (s.wrNow ws src).pwr = s.pwr := by
  simp [State.wrNow]

@[simp] theorem State.wrVa_pwr (s : State) (t va : Nat) (bs : List Byte) (src : Nat) : (s.wrVa t va bs src).pwr = s.pwr := by
  simp [State.wrVa]

@[simp] theorem State.land_pwr (s : State) (p : PWrite → Bool) : (s.land p).pwr = s.pwr := by simp [State.land]
@[simp] theorem State.landKilled_pwr (s : State) (cmd : Nat) : (s.landKilled cmd).pwr = s.pwr := by simp [State.landKilled]

@[simp] theorem State.ctxIdle_pwr (s : State) (x : Nat) : (s.ctxIdle x).pwr = s.pwr := by
  unfold State.ctxIdle
  dsimp only
  repeat' split
  all_goals simp

@[simp] theorem State.answerHeld_pwr (s : State) (c : Cmd) (status : Byte) : (s.answerHeld c status).pwr = s.pwr := by
  simp [State.answerHeld]

@[simp] theorem State.completeCmd_pwr (s : State) (c : Cmd) (status : Byte) (loc : W32) :
    (s.completeCmd c status loc).pwr = s.pwr := by simp [State.completeCmd]

@[simp] theorem State.wrVaW_pwr (s : State) (t va : Nat) (bs : List Byte) : (s.wrVaW t va bs).pwr = s.pwr := by simp [State.wrVaW]

@[simp] theorem State.writeReport_pwr (s : State) (c : Cmd) (es : List (Nat × Byte × Nat × Nat)) :
    (s.writeReport c es).pwr = s.pwr := by
  unfold State.writeReport
  split <;> simp

@[simp] theorem State.abortQueued_pwr (s : State) (p : Cmd → Bool) : (s.abortQueued p).pwr = s.pwr := by simp [State.abortQueued]
@[simp] theorem State.endCtx_pwr (s : State) (x : Nat) : (s.endCtx x).pwr = s.pwr := by simp [State.endCtx]

@[simp] theorem State.returnRuns_pwr (s : State) (c : Cmd) (i : Inst) : (s.returnRuns c i).pwr = s.pwr :=
  State.foldl_pwr (fun s f => by dsimp only; split <;> simp) _ s

@[simp] theorem State.killRun_pwr (s : State) (c : Cmd) : (s.killRun c).pwr = s.pwr := by
  unfold State.killRun
  split
  · rfl
  · simp only [State.foldl_pwr, State.ctxIdle_pwr, State.landKilled_pwr, State.foldl_modCl_pwr, State.returnRuns_pwr, implies_true]
    exact State.foldl_pwr (fun u g => by split <;> simp) c.place s

@[simp] theorem State.tellGang_pwr (s : State) (c : Cmd) (k : GangCause) : (s.tellGang c k).pwr = s.pwr := by simp [State.tellGang]

@[simp] theorem State.killAgain_pwr (s : State) (c : Cmd) (cause : Nat) (tell : Bool) : (s.killAgain c cause tell).pwr = s.pwr := by
  simp [State.killAgain]

@[simp] theorem State.killRerun_pwr (s : State) (c : Cmd) (cause : Nat) (tell : Bool) : (s.killRerun c cause tell).pwr = s.pwr := by
  simp [State.killRerun]

@[simp] theorem State.killEnd_pwr (s : State) (c : Cmd) (status : Byte) (tell : Bool) : (s.killEnd c status tell).pwr = s.pwr := by
  simp [State.killEnd]

@[simp] theorem State.faultCmd_pwr (s : State) (c : Cmd) (code : Byte) (slot : Option Nat) (loc : W32) (tell : Bool) :
    (s.faultCmd c code slot loc tell).pwr = s.pwr := by simp [State.faultCmd]

@[simp] theorem State.eccMet_pwr (s : State) (ps : List Nat) (source : Nat) : (s.eccMet ps source).pwr = s.pwr := by
  unfold State.eccMet
  split <;> simp

@[simp] theorem State.pull_pwr (s : State) (t : Nat) (as : List Nat) (src : Nat) : (s.pull t as src).pwr = s.pwr := by
  simp [State.pull]

@[simp] theorem State.logged_pwr (s : State) (t : Nat) (as : List Nat) (fs : List Byte) (src : Nat) :
    (s.logged t as fs src).pwr = s.pwr := by simp [State.logged]

@[simp] theorem State.schRead_pwr (s : State) (t va n : Nat) (src : Nat) : (s.schRead t va n src).1.pwr = s.pwr := by
  unfold State.schRead
  dsimp only
  split <;> simp

@[simp] theorem State.latchFault_pwr (s : State) (id : Nat) (r : FaultRec) : (s.latchFault id r).pwr = s.pwr := by
  unfold State.latchFault
  split <;> simp

@[simp] theorem State.raise_pwr (s : State) (c : Cmd) (g kind unit : Nat) (code : Byte) (slot : Option Nat) (owner : Option Nat)
    (read : List Nat) :
    (s.raise c g kind unit code slot owner read).pwr = s.pwr := by simp [State.raise]

@[simp] theorem State.endFaulted_pwr (s : State) : s.endFaulted.pwr = s.pwr := by
  refine State.foldl_pwr (fun u c => ?_) _ s
  repeat' split
  all_goals simp

@[simp] theorem State.refuseCmd_pwr (s : State) (c : Cmd) (status : Byte) : (s.refuseCmd c status).pwr = s.pwr := by
  simp [State.refuseCmd]

@[simp] theorem State.logEvent_pwr (s : State) (code arg : Nat) : (s.logEvent code arg).pwr = s.pwr := by simp [State.logEvent]

@[simp] theorem State.failOps_pwr (s : State) (rs : List ChReq) : (s.failOps rs).pwr = s.pwr :=
  State.foldl_pwr (fun s g => State.foldl_pwr (fun s o => by split <;> simp) _ s) _ s

@[simp] theorem State.failChannel_pwr (s : State) (ch : Nat) : (s.failChannel ch).pwr = s.pwr := by simp [State.failChannel]
@[simp] theorem State.loftMiss_pwr (s : State) (ch : Nat) : (s.loftMiss ch).pwr = s.pwr := by simp [State.loftMiss]
@[simp] theorem State.settleLate_pwr (s : State) : (s.settleLate).pwr = s.pwr := by simp [State.settleLate]

/-! ### Operations of units -/

@[simp] theorem State.pushOp_pwr (s : State) (g : Nat) (o : UnitOp) : (s.pushOp g o).pwr = s.pwr := by simp [State.pushOp]

@[simp] theorem State.push_pwr (s : State) (g : Nat) (c : Cmd) (u : UnitId) (remote : List Nat) (loft : W32) (slot : Option Nat)
    (held : Nat × Nat) (feeds : List Feed) :
    (s.push g c u remote loft slot held feeds).pwr = s.pwr := by simp [State.push]

@[simp] theorem State.cacheView_pwr (s : State) (w : Who) (d : Desc) (ls : List (Option Loc)) : (s.cacheView w d ls).pwr = s.pwr := by
  unfold State.cacheView
  split
  · rfl
  · exact State.foldl_pwr (fun s n => by dsimp only; split <;> simp) _ s

/-! ### Issue (spec/05 R133, spec/06 R137) -/

@[simp] theorem State.finish_pwr (s : State) (c : Cmd) (g : Nat) (r : Res) : (s.finish c g r).pwr = r.st.pwr := by
  unfold State.finish
  split <;> simp

@[simp] theorem State.issueControl_pwr {s : State} {op g : Nat} {w : W64} {k : Cmd → List W64 → Inst → Res}
    (hk : ∀ c ws i, (k c ws i).st.pwr = s.pwr) : (s.issueControl op g w k).LeavesPwr s.pwr := by
  unfold State.issueControl
  dsimp only
  repeat' split
  all_goals simp [hk]

@[simp] theorem State.meets_pwr (s : State) (n : Option UnitId) : (s.meets n).pwr = s.pwr := by
  unfold State.meets
  split <;> simp

@[simp] theorem State.issue_pwr {s : State} {op n g : Nat} {w w2 : W64} {unit : Option UnitId} {k : State → Cmd → Inst → Res}
    (hk : ∀ u c i, (k u c i).st.pwr = u.pwr) : (s.issue op n g w w2 unit k).LeavesPwr s.pwr := by
  have effect (c : Cmd) (i : Inst) : (k (s.meets unit) c i).st.pwr = s.pwr := (hk _ c i).trans (s.meets_pwr unit)
  unfold State.issue
  split
  · simp
  · split
    · simp
    · split
      · simp
      · simp only [Out.nextPwr_ite, Out.nextPwr_next, State.finish_pwr, effect, implies_true, and_self]

/-! ### Control instructions (spec/06 R140, R141) -/

@[simp] theorem execNop_pwr (g : Cl) (w : W64) (s : State) : (execNop g w s).LeavesPwr s.pwr := by simp [execNop]
@[simp] theorem execHalt_pwr (g : Cl) (w : W64) (s : State) : (execHalt g w s).LeavesPwr s.pwr := by simp [execHalt]
@[simp] theorem execCommit_pwr (g : Cl) (w : W64) (s : State) : (execCommit g w s).LeavesPwr s.pwr := by simp [execCommit]
@[simp] theorem execBr_pwr (g : Cl) (w : W64) (s : State) : (execBr g w s).LeavesPwr s.pwr := by simp [execBr]
@[simp] theorem execBrp_pwr (g : Cl) (w : W64) (s : State) : (execBrp g w s).LeavesPwr s.pwr := by simp [execBrp]
@[simp] theorem execLoop_pwr (g : Cl) (w : W64) (s : State) : (execLoop g w s).LeavesPwr s.pwr := by simp [execLoop]
@[simp] theorem execCall_pwr (g : Cl) (w : W64) (s : State) : (execCall g w s).LeavesPwr s.pwr := by simp [execCall]

@[simp] theorem execRet_pwr (g : Cl) (w : W64) (s : State) : (execRet g w s).LeavesPwr s.pwr := by
  refine State.issueControl_pwr fun c ws i => ?_
  split <;> simp

@[simp] theorem execUnassignedOpcode_pwr (g : Cl) (w : W64) (s : State) : (execUnassignedOpcode g w s).LeavesPwr s.pwr := by
  unfold execUnassignedOpcode
  split
  · simp
  · split
    · simp
    · split <;> simp

/-! ### Copy instructions and CODE (spec/06 R149-R152) -/

@[simp] theorem State.sendReads_pwr (s : State) (c : Cmd) (g st : Nat) (as : List (Nat × Nat)) : (s.sendReads c g st as).pwr = s.pwr :=
  State.foldl_pwr (fun s p => by split <;> simp) _ s

@[simp] theorem State.sendWrites_pwr (s : State) (c : Cmd) (g st pkg : Nat) (ws : List (Nat × Byte × Byte)) :
    (s.sendWrites c g st pkg ws).1.pwr = s.pwr := by
  unfold State.sendWrites
  repeat' split
  all_goals simp

@[simp] theorem State.ceWrites_pwr (s : State) (c : Cmd) (g st : Nat) (ws : List (Nat × Byte × Byte)) :
    (s.ceWrites c g st ws).1.pwr = s.pwr := by simp [State.ceWrites]

@[simp] theorem State.noteRoutes_pwr (s : State) (id : Nat) (pkgs : List Nat) : (s.noteRoutes id pkgs).pwr = s.pwr := by
  simp [State.noteRoutes]

@[simp] theorem State.ceReads_pwr {s : State} {c : Cmd} {g st : Nat} {i : Inst} {as : List Nat} {k : State → Res}
    (hk : ∀ u, (k u).st.pwr = u.pwr) : (s.ceReads c g st i as k).st.pwr = s.pwr := by
  simp [State.ceReads, hk]

@[simp] theorem State.ceDone_pwr (s : State) (g : Nat) (c : Cmd) (st : Nat) (remote : List Nat) (rd ws : List Nat)
    (slot : Option Nat) (held : Nat × Nat) :
    (s.ceDone g c st remote rd ws slot held).pwr = s.pwr := by simp [State.ceDone]

@[simp] theorem State.cpyWrites_pwr (s : State) (c : Cmd) (g st : Nat) (ws : List (Nat × Byte × Byte)) :
    (s.cpyWrites c g st ws).1.pwr = s.pwr := by simp [State.cpyWrites]

@[simp] theorem execCpy_pwr (g : Cl) (w w2 : W64) (s : State) : (execCpy g w w2 s).LeavesPwr s.pwr := by simp [execCpy]

@[simp] theorem execCpyr_pwr (g : Cl) (w : W64) (s : State) : (execCpyr g w s).LeavesPwr s.pwr := by
  refine State.issue_pwr fun u c i => ?_
  dsimp only
  split <;> simp

@[simp] theorem execFill_pwr (g : Cl) (w : W64) (s : State) : (execFill g w s).LeavesPwr s.pwr := by simp [execFill]
@[simp] theorem execPref_pwr (g : Cl) (w : W64) (s : State) : (execPref g w s).LeavesPwr s.pwr := by simp [execPref]
@[simp] theorem execCodeHist_pwr (g : Cl) (w : W64) (s : State) : (execCodeHist g w s).LeavesPwr s.pwr := by simp [execCodeHist]

@[simp] theorem execCodeTable_pwr (g : Cl) (w : W64) (s : State) : (execCodeTable g w s).LeavesPwr s.pwr := by
  unfold execCodeTable
  split
  · simp
  · refine State.issue_pwr fun u c i => ?_
    dsimp only
    split
    · rfl
    · refine State.ceReads_pwr fun v => ?_
      split
      · simp
      · exact State.ceReads_pwr fun v => by simp

@[simp] theorem execCodeEnc_pwr (g : Cl) (w : W64) (s : State) : (execCodeEnc g w s).LeavesPwr s.pwr := by simp [execCodeEnc]

/-! ### Scalar instructions (spec/06 R142-R146) -/

@[simp] theorem execAlu_pwr (op d : Nat) (f : W64 → W64 → W64) (g : Nat) (w : W64) (s : State) :
    (execAlu op d f g w s).LeavesPwr s.pwr := by simp [execAlu]

@[simp] theorem execAdd_pwr (g : Cl) (w : W64) (s : State) : (execAdd g w s).LeavesPwr s.pwr := by simp [execAdd]
@[simp] theorem execSub_pwr (g : Cl) (w : W64) (s : State) : (execSub g w s).LeavesPwr s.pwr := by simp [execSub]
@[simp] theorem execMul_pwr (g : Cl) (w : W64) (s : State) : (execMul g w s).LeavesPwr s.pwr := by simp [execMul]
@[simp] theorem execAnd_pwr (g : Cl) (w : W64) (s : State) : (execAnd g w s).LeavesPwr s.pwr := by simp [execAnd]
@[simp] theorem execOr_pwr (g : Cl) (w : W64) (s : State) : (execOr g w s).LeavesPwr s.pwr := by simp [execOr]
@[simp] theorem execXor_pwr (g : Cl) (w : W64) (s : State) : (execXor g w s).LeavesPwr s.pwr := by simp [execXor]
@[simp] theorem execShl_pwr (g : Cl) (w : W64) (s : State) : (execShl g w s).LeavesPwr s.pwr := by simp [execShl]
@[simp] theorem execShr_pwr (g : Cl) (w : W64) (s : State) : (execShr g w s).LeavesPwr s.pwr := by simp [execShr]
@[simp] theorem execLdi_pwr (g : Cl) (w : W64) (s : State) : (execLdi g w s).LeavesPwr s.pwr := by simp [execLdi]

@[simp] theorem execCmp_pwr (g : Cl) (w : W64) (s : State) : (execCmp g w s).LeavesPwr s.pwr :=
  State.issue_pwr fun u c i => by split <;> rfl

@[simp] theorem State.eaWrite_pwr (s : State) (c : Cmd) (g : Nat) (w : W64) (i : Inst) (bs : List Byte) :
    (s.eaWrite c g w i bs).pwr = s.pwr := by simp [State.eaWrite]

@[simp] theorem execLds_pwr (g : Cl) (w : W64) (s : State) : (execLds g w s).LeavesPwr s.pwr := by
  refine State.issue_pwr fun u c i => ?_
  split <;> simp

@[simp] theorem execSts_pwr (g : Cl) (w : W64) (s : State) : (execSts g w s).LeavesPwr s.pwr := by simp [execSts]

@[simp] theorem execCsrr_pwr (g : Cl) (w : W64) (s : State) : (execCsrr g w s).LeavesPwr s.pwr :=
  State.issue_pwr fun u c i => by split <;> simp

@[simp] theorem execCsrw_pwr (g : Cl) (w : W64) (s : State) : (execCsrw g w s).LeavesPwr s.pwr := by simp [execCsrw]

/-! ### The key/value cache (spec/12 R276-R286) -/

@[simp] theorem State.addHist_pwr (s : State) (t : Nat) (l : LayoutRec) (hist : List Nat) (elems : Nat) :
    (s.addHist t l hist elems).pwr = s.pwr := by
  unfold State.addHist
  dsimp only
  split <;> simp

@[simp] theorem execKva_pwr (g : Cl) (w : W64) (s : State) : (execKva g w s).LeavesPwr s.pwr := by
  refine State.issue_pwr fun u c i => ?_
  dsimp only
  split <;> simp

theorem State.kvf_pwr (s : State) (c : Cmd) (g st : Nat) (i : Inst) (done as l : List Nat) {t : State} {j : Inst}
    {ds bs : List Nat} {fs : List Byte} {k : Option Nat} (h : s.kvf c g st i done as l = .go t j ds bs fs k) : t.pwr = s.pwr := by
  induction l generalizing s i done as with
  | nil =>
    rw [State.kvf, KvfOut.go.injEq] at h
    rw [← h.1]
  | cons x l ih =>
    unfold State.kvf at h
    dsimp only at h
    split at h
    · exact ih _ _ _ _ h
    · split at h
      · exact ih _ _ _ _ h
      · split at h
        · cases h
        · split at h
          · split at h <;> cases h
          · split at h
            · rw [KvfOut.go.injEq] at h
              simp [← h.1]
            · simpa using ih _ _ _ _ h

@[simp] theorem execKvf_pwr (g : Cl) (w : W64) (s : State) : (execKvf g w s).LeavesPwr s.pwr := by
  refine State.issue_pwr fun u c i => ?_
  dsimp only
  split
  · rfl
  · generalize (if (i.settles.map (·.slot)).eraseDups.contains 0 then (i.settles.map (·.slot)).eraseDups
      else 0 :: (i.settles.map (·.slot)).eraseDups) = slots
    split
    · rfl
    · refine State.ceReads_pwr fun v => ?_
      split
      · rfl
      · simp
      · rename_i h
        have went := State.kvf_pwr _ _ _ _ _ _ _ _ h
        split <;> simp [went]

@[simp] theorem execKvg_pwr (g : Cl) (w : W64) (s : State) : (execKvg g w s).LeavesPwr s.pwr := by
  refine State.issue_pwr fun u c i => ?_
  dsimp only
  split <;> simp

/-! ### Descriptor instructions (spec/06 R147, R148) -/

@[simp] theorem execTdl_pwr (g : Cl) (w : W64) (s : State) : (execTdl g w s).LeavesPwr s.pwr := State.issue_pwr fun u _ _ => u.bump_pwr
@[simp] theorem execTds_pwr (g : Cl) (w : W64) (s : State) : (execTds g w s).LeavesPwr s.pwr := by simp [execTds]

@[simp] theorem execTdset_pwr (g : Cl) (w : W64) (s : State) : (execTdset g w s).LeavesPwr s.pwr := by
  unfold execTdset
  split <;> simp

@[simp] theorem execTdoff_pwr (g : Cl) (w : W64) (s : State) : (execTdoff g w s).LeavesPwr s.pwr := by simp [execTdoff]

/-! ### Matrix instructions (spec/06 R153-R155) -/

@[simp] theorem State.touchBank_pwr (s : State) (g t m b : Nat) : (s.touchBank g t m b).pwr = s.pwr := by simp [State.touchBank]

@[simp] theorem State.pushMe_pwr (s : State) (g : Nat) (c : Cmd) (m b path : Nat) (before : Bank) (f : UnitOp → UnitOp) :
    (s.pushMe g c m b path before f).pwr = s.pwr := by simp [State.pushMe]

@[simp] theorem execOpa_pwr (g : Cl) (w w2 : W64) (s : State) : (execOpa g w w2 s).LeavesPwr s.pwr := by
  refine State.issue_pwr fun u c i => ?_
  dsimp only
  split <;> simp

@[simp] theorem execOpz_pwr (g : Cl) (w : W64) (s : State) : (execOpz g w s).LeavesPwr s.pwr := by simp [execOpz]
@[simp] theorem execAccl_pwr (g : Cl) (w : W64) (s : State) : (execAccl g w s).LeavesPwr s.pwr := by simp [execAccl]
@[simp] theorem execAccw_pwr (g : Cl) (w : W64) (s : State) : (execAccw g w s).LeavesPwr s.pwr := by simp [execAccw]
@[simp] theorem execAccs_pwr (g : Cl) (w : W64) (s : State) : (execAccs g w s).LeavesPwr s.pwr := by simp [execAccs]

/-! ### Vector instructions (spec/06 R156-R161) -/

@[simp] theorem State.vuDone_pwr (s : State) (g : Nat) (c : Cmd) (cy : Nat) (i : Inst) (feeds : List Feed) :
    (s.vuDone g c cy i feeds).1.pwr = s.pwr := by simp [State.vuDone]

@[simp] theorem State.vuOp_pwr (s : State) (op g : Nat) (w : W64) (cy : Nat) (k : Cmd → Inst → List Byte × Inst) :
    (s.vuOp op g w cy k).LeavesPwr s.pwr := State.issue_pwr fun u c i => by simp

@[simp] theorem execVew_pwr (op : Nat) (rsv : List (Nat × Nat)) (f : Bool → W32 → W32 → W32) (g : Nat) (w : W64) (s : State) :
    (execVew op rsv f g w s).LeavesPwr s.pwr := by simp [execVew]

@[simp] theorem execVadd_pwr (g : Cl) (w : W64) (s : State) : (execVadd g w s).LeavesPwr s.pwr := by simp [execVadd]
@[simp] theorem execVsub_pwr (g : Cl) (w : W64) (s : State) : (execVsub g w s).LeavesPwr s.pwr := by simp [execVsub]
@[simp] theorem execVmul_pwr (g : Cl) (w : W64) (s : State) : (execVmul g w s).LeavesPwr s.pwr := by simp [execVmul]
@[simp] theorem execVmax_pwr (g : Cl) (w : W64) (s : State) : (execVmax g w s).LeavesPwr s.pwr := by simp [execVmax]
@[simp] theorem execVmin_pwr (g : Cl) (w : W64) (s : State) : (execVmin g w s).LeavesPwr s.pwr := by simp [execVmin]
@[simp] theorem execVand_pwr (g : Cl) (w : W64) (s : State) : (execVand g w s).LeavesPwr s.pwr := by simp [execVand]
@[simp] theorem execVor_pwr (g : Cl) (w : W64) (s : State) : (execVor g w s).LeavesPwr s.pwr := by simp [execVor]
@[simp] theorem execVxor_pwr (g : Cl) (w : W64) (s : State) : (execVxor g w s).LeavesPwr s.pwr := by simp [execVxor]
@[simp] theorem execVshl_pwr (g : Cl) (w : W64) (s : State) : (execVshl g w s).LeavesPwr s.pwr := by simp [execVshl]
@[simp] theorem execVshr_pwr (g : Cl) (w : W64) (s : State) : (execVshr g w s).LeavesPwr s.pwr := by simp [execVshr]
@[simp] theorem execVcmp_pwr (g : Cl) (w : W64) (s : State) : (execVcmp g w s).LeavesPwr s.pwr := by simp [execVcmp]
@[simp] theorem execVsel_pwr (g : Cl) (w : W64) (s : State) : (execVsel g w s).LeavesPwr s.pwr := by simp [execVsel]
@[simp] theorem execVfma_pwr (g : Cl) (w : W64) (s : State) : (execVfma g w s).LeavesPwr s.pwr := by simp [execVfma]
@[simp] theorem execVsf_pwr (g : Cl) (w : W64) (s : State) : (execVsf g w s).LeavesPwr s.pwr := by simp [execVsf]
@[simp] theorem execVbcast_pwr (g : Cl) (w : W64) (s : State) : (execVbcast g w s).LeavesPwr s.pwr := s.vuOp_pwr _ _ _ _ _
@[simp] theorem execVred_pwr (g : Cl) (w : W64) (s : State) : (execVred g w s).LeavesPwr s.pwr := s.vuOp_pwr _ _ _ _ _
@[simp] theorem execVmrg_pwr (g : Cl) (w : W64) (s : State) : (execVmrg g w s).LeavesPwr s.pwr := by simp [execVmrg]
@[simp] theorem execVcvt_pwr (g : Cl) (w : W64) (s : State) : (execVcvt g w s).LeavesPwr s.pwr := by simp [execVcvt]

@[simp] theorem State.vuLoad_pwr (s : State) (c : Cmd) (g : Nat) (i : Inst) (a cy : Nat) (d : Desc) (n : Nat) (ls : List
    (Option Loc)) :
    (s.vuLoad c g i a cy d n ls).st.pwr = s.pwr := by simp [State.vuLoad]

@[simp] theorem execVld_pwr (g : Cl) (w : W64) (s : State) : (execVld g w s).LeavesPwr s.pwr := by simp [execVld]
@[simp] theorem execVst_pwr (g : Cl) (w : W64) (s : State) : (execVst g w s).LeavesPwr s.pwr := by simp [execVst]
@[simp] theorem execVperm_pwr (g : Cl) (w : W64) (s : State) : (execVperm g w s).LeavesPwr s.pwr := by simp [execVperm]
@[simp] theorem execVmask_pwr (g : Cl) (w : W64) (s : State) : (execVmask g w s).LeavesPwr s.pwr := by simp [execVmask]

@[simp] theorem execVsamp_pwr (g : Cl) (w : W64) (s : State) : (execVsamp g w s).LeavesPwr s.pwr := by
  refine State.issue_pwr fun u c i => ?_
  dsimp only
  split
  · rfl
  · dsimp only
    rw [State.vuDone_pwr, State.cacheView_pwr]

end Sys2Proof.Machine
end

section
/-! SUPPORT. Host queues, synchronisation, commits, requests, memory and serving leave the power block alone. -/

namespace Sys2Proof.Machine

/-! ### Host queues (spec/15 R340-R350) -/

@[simp] theorem State.sawEntry_pwr (s : State) (q : Queue) (admin : Bool) (e exts batch args : List Byte) :
    (s.sawEntry q admin e exts batch args).pwr = s.pwr := by simp [State.sawEntry]

@[simp] theorem State.logAer_pwr (s : State) (f : Nat) (w : ReadFault) : (s.logAer f w).pwr = s.pwr := by simp [State.logAer]

@[simp] theorem execSqTail_pwr (f : Fn) (q : Qn) (tail : W32) (s : State) : (execSqTail f q tail s).LeavesPwr s.pwr := by
  simp [execSqTail]

@[simp] theorem execCqHead_pwr (f : Fn) (q : Qn) (head : W32) (s : State) : (execCqHead f q head s).LeavesPwr s.pwr := by
  simp [execCqHead]

@[simp] theorem State.takeCommand_pwr (s : State) (f qn seq : Nat) (e exts batch args : List Byte) :
    (s.takeCommand f qn seq e exts batch args).pwr = s.pwr := by
  unfold State.takeCommand
  dsimp only
  repeat' split
  all_goals simp

@[simp] theorem State.takeRequest_pwr (s : State) (f : Nat) (e : List Byte) : (s.takeRequest f e).pwr = s.pwr := by
  unfold State.takeRequest
  repeat' split
  all_goals simp

@[simp] theorem execEntryFetch_pwr (f : Fn) (q : Qn) (data : Fetched) (s : State) :
    (execEntryFetch f q data s).LeavesPwr s.pwr := by
  unfold execEntryFetch
  dsimp only
  repeat' split
  all_goals simp

@[simp] theorem State.dropQueued_pwr (s : State) (c : Cmd) (status : Byte) : (s.dropQueued c status).pwr = s.pwr := by
  simp [State.dropQueued]

@[simp] theorem execAbort_pwr (f : Fn) (q : Qn) (v : W32) (s : State) : (execAbort f q v s).LeavesPwr s.pwr := by
  refine whenAlive_pwr ?_
  dsimp only
  repeat' split
  all_goals simp

@[simp] theorem execNotBeforeRelease_pwr (id : Nat) (s : State) : (execNotBeforeRelease id s).LeavesPwr s.pwr := by
  refine whenAlive_pwr ?_
  repeat' split
  all_goals simp

@[simp] theorem execTickRelease_pwr (f : Fn) (q : Qn) (s : State) : (execTickRelease f q s).LeavesPwr s.pwr := by
  simp [execTickRelease]

@[simp] theorem execQueueEnable_pwr (f : Fn) (q : Qn) (v : Bool) (s : State) : (execQueueEnable f q v s).LeavesPwr s.pwr := by
  simp [execQueueEnable]

@[simp] theorem execQueueCheck_pwr (f : Fn) (q : Qn) (s : State) : (execQueueCheck f q s).LeavesPwr s.pwr := by
  unfold execQueueCheck
  split <;> simp

/-! ### Dispatch (spec/14 R316-R331) -/

@[simp] theorem State.endHead_pwr (s : State) (c : Cmd) (st : Byte) : (s.endHead c st).pwr = s.pwr := by simp [State.endHead]

@[simp] theorem execProgramImageLoad_pwr (g : Cl) (s : State) : (execProgramImageLoad g s).LeavesPwr s.pwr := by
  refine whenAlive_pwr ?_
  repeat' split
  all_goals simp

/-! ### Synchronisation (spec/05 R125-R131) -/

@[simp] theorem State.resume_pwr (s : State) (g : Nat) (i : Inst) : (s.resume g i).pwr = s.pwr := by simp [State.resume]
@[simp] theorem execWait_pwr (g : Cl) (w : W64) (s : State) : (execWait g w s).LeavesPwr s.pwr := by simp [execWait]

@[simp] theorem execWaitResolve_pwr (g : Cl) (s : State) : (execWaitResolve g s).LeavesPwr s.pwr := by
  unfold execWaitResolve
  split <;> simp

@[simp] theorem State.sigLocal_pwr (s : State) (c : Cmd) (i : Inst) (t n inc : Nat) : (s.sigLocal c i t n inc).1.pwr = s.pwr := by
  simp [State.sigLocal]

@[simp] theorem execSig_pwr (g : Cl) (w : W64) (s : State) : (execSig g w s).LeavesPwr s.pwr := by simp [execSig]
@[simp] theorem execSigr_pwr (g : Cl) (w : W64) (s : State) : (execSigr g w s).LeavesPwr s.pwr := by simp [execSigr]

theorem State.gangTraffic_pwr {s u : State} {c : Cmd} {pkg t : Nat} (h : u.pwr = s.pwr) : (s.gangTraffic c pkg t u).pwr = s.pwr := by
  simp [State.gangTraffic, h]

@[simp] theorem State.farSignal_pwr (s : State) (pkg t gang g ctr inc : Nat) (frame : W32) :
    (s.farSignal pkg t gang g ctr inc frame).pwr = s.pwr := by
  unfold State.farSignal
  split <;> split <;> simp

@[simp] theorem State.farArrival_pwr (s : State) (pkg t gang num : Nat) (beat : W32) :
    (s.farArrival pkg t gang num beat).pwr = s.pwr := by
  unfold State.farArrival
  split
  · rfl
  · exact State.gangTraffic_pwr rfl

@[simp] theorem State.sendArrival_pwr (s : State) (c : Cmd) (g num : Nat) : (s.sendArrival c g num).pwr = s.pwr := by
  simp [State.sendArrival]

@[simp] theorem execBar_pwr (g : Cl) (w : W64) (s : State) : (execBar g w s).LeavesPwr s.pwr := by simp [execBar]

@[simp] theorem State.releaseAll_pwr (s : State) (id scope num : Nat) (cls : List Nat) : (s.releaseAll id scope num cls).pwr = s.pwr := by
  refine State.foldl_pwr (fun u g => ?_) _ s
  repeat' split
  all_goals simp

@[simp] theorem execBarrierRelease_pwr (id : Nat) (scope : Fin 4) (num : Fin 8) (g : Cl) (s : State) :
    (execBarrierRelease id scope num g s).LeavesPwr s.pwr := by
  unfold execBarrierRelease
  repeat' split
  all_goals simp

@[simp] theorem execGate_pwr (g : Cl) (w : W64) (s : State) : (execGate g w s).LeavesPwr s.pwr := by
  refine State.issue_pwr fun u c i => ?_
  dsimp only
  split <;> simp

@[simp] theorem execGatePass_pwr (g : Cl) (s : State) : (execGatePass g s).LeavesPwr s.pwr := by
  unfold execGatePass
  repeat' split
  all_goals simp

@[simp] theorem execTickw_pwr (g : Cl) (w : W64) (s : State) : (execTickw g w s).LeavesPwr s.pwr := by simp [execTickw]

@[simp] theorem execTickwResolve_pwr (g : Cl) (s : State) : (execTickwResolve g s).LeavesPwr s.pwr := by
  unfold execTickwResolve
  split <;> simp

@[simp] theorem execFence_pwr (g : Cl) (w : W64) (s : State) : (execFence g w s).LeavesPwr s.pwr := by simp [execFence]

@[simp] theorem execFenceResolve_pwr (g : Cl) (s : State) : (execFenceResolve g s).LeavesPwr s.pwr := by
  unfold execFenceResolve
  split <;> simp

/-! ### Ends of operations, commits and gangs (spec/05 R112-R124) -/

@[simp] theorem State.upsetFault_pwr (s : State) (g id : Nat) (slot : Option Nat) (l : W32) :
    (s.upsetFault g id slot l).pwr = s.pwr := by
  unfold State.upsetFault
  split <;> simp

@[simp] theorem State.upsetIssue_pwr (s : State) (g : Nat) (u : UnitId) (upset : Option Upset) :
    (s.upsetIssue g u upset).pwr = s.pwr := by
  unfold State.upsetIssue
  split <;> simp

@[simp] theorem State.memoryMet_pwr (s : State) (g : Nat) (o : UnitOp) (pa : Nat) (n : EccResult) :
    (s.memoryMet g o pa n).pwr = s.pwr := by
  unfold State.memoryMet
  repeat' split
  all_goals simp

@[simp] theorem State.serveOp_pwr (s : State) (op : Nat) : (s.serveOp op).pwr = s.pwr := by simp [State.serveOp]

@[simp] theorem State.countHeld_pwr (s : State) (g : Nat) (o : UnitOp) : (s.countHeld g o).pwr = s.pwr := by
  unfold State.countHeld
  repeat' split
  all_goals simp

@[simp] theorem execUnitOperationComplete_pwr (g : Cl) (u : UnitId) (e : OpEnd) (s : State) :
    (execUnitOperationComplete g u e s).LeavesPwr s.pwr := by
  unfold execUnitOperationComplete
  repeat' split
  all_goals simp

theorem State.expFault_pwr {s t : State} {c : Cmd} {o : UnitOp} {g x : Nat} {fs : List Byte} (h : t.pwr = s.pwr) :
    (s.expFault c o g x fs t).pwr = s.pwr := by
  unfold State.expFault
  split <;> simp [h]

@[simp] theorem execExpanderBlockCheck_pwr (g : Cl) (x : Fin 17) (d : BitVec 256) (n : Nat) (s : State) :
    (execExpanderBlockCheck g x d n s).LeavesPwr s.pwr := by
  refine whenAlive_pwr ?_
  split
  · rfl
  · dsimp only
    split
    · rfl
    · split
      · rfl
      · exact State.expFault_pwr (by simp)

@[simp] theorem execBlockCrcCheck_pwr (g : Cl) (x : Fin 17) (d : BitVec 256) (n : Nat) (s : State) :
    (execBlockCrcCheck g x d n s).LeavesPwr s.pwr := by
  refine whenAlive_pwr ?_
  split
  · rfl
  · dsimp only
    split
    · rfl
    · exact State.expFault_pwr (by simp)

@[simp] theorem execInstanceReady_pwr (id : Nat) (g : Cl) (s : State) : (execInstanceReady id g s).LeavesPwr s.pwr := by
  unfold execInstanceReady
  split <;> simp

@[simp] theorem State.commitSig_pwr (s : State) (c : Cmd) (g : Nat) (x : HeldSig) : (s.commitSig c g x).pwr = s.pwr := by
  unfold State.commitSig
  split <;> simp

@[simp] theorem State.commitCounts_pwr (s : State) (c : Cmd) : (s.commitCounts c).pwr = s.pwr := by
  have counted (l : List (Nat × Nat)) (u : State) :
      (l.foldl (fun v e => v.fnCount c.fn e.1 (deltaOf (c.insts.map (·.2)) e.2)) u).pwr = u.pwr :=
    State.foldl_pwr (fun v e => v.fnCount_pwr _ _ _) l u
  simp [State.commitCounts, counted, -List.foldl_cons]

@[simp] theorem State.dropRec_pwr (s : State) (t n : Nat) (p : Nat → Bool) : (s.dropRec t n p).pwr = s.pwr := by
  simp [State.dropRec]

@[simp] theorem State.commitTable_pwr (s : State) (t : Nat) (x : HeldTable) : (s.commitTable t x).pwr = s.pwr := by
  unfold State.commitTable
  split <;> simp

@[simp] theorem State.commitHint_pwr (s : State) (t : Nat) (h : Hint) : (s.commitHint t h).pwr = s.pwr := by simp [State.commitHint]

@[simp] theorem State.freeRuns_pwr (s : State) (t l : Nat) (rs : List (Nat × Nat)) : (s.freeRuns t l rs).pwr = s.pwr := by
  unfold State.freeRuns
  split <;> simp

@[simp] theorem State.commitSlot_pwr (s : State) (c : Cmd) (k x : Nat) : (s.commitSlot c k x).1.pwr = s.pwr := by
  unfold State.commitSlot
  dsimp only
  split <;> simp

@[simp] theorem State.commitSlots_pwr (s : State) (c : Cmd) (l : List (Nat × Nat)) : (s.commitSlots c l).1.pwr = s.pwr := by
  induction l generalizing s with
  | nil => rfl
  | cons x l ih => simp [State.commitSlots, ih]

@[simp] theorem State.reapRuns_pwr (s : State) : (s.reapRuns).pwr = s.pwr := by simp [State.reapRuns]
@[simp] theorem State.reapOwners_pwr (s : State) : (s.reapOwners).pwr = s.pwr := by simp [State.reapOwners]
@[simp] theorem State.reap_pwr (s : State) : (s.reap).pwr = s.pwr := by simp [State.reap]
@[simp] theorem State.commit_pwr (s : State) (c : Cmd) : (s.commit c).pwr = s.pwr := by simp [State.commit]

@[simp] theorem execCommandCommit_pwr (id : Nat) (s : State) : (execCommandCommit id s).LeavesPwr s.pwr := by
  unfold execCommandCommit
  split <;> simp

@[simp] theorem execDeadlineExpiry_pwr (id : Nat) (s : State) : (execDeadlineExpiry id s).LeavesPwr s.pwr := by
  refine whenAlive_pwr ?_
  repeat' split
  all_goals simp

@[simp] theorem State.mapLayouts_pwr (s : State) (f : LayoutRec → LayoutRec) : (s.mapLayouts f).pwr = s.pwr := by
  simp [State.mapLayouts]

@[simp] theorem execCeDrainComplete_pwr (id : Nat) (s : State) : (execCeDrainComplete id s).LeavesPwr s.pwr := by
  unfold execCeDrainComplete
  dsimp only
  repeat' split
  all_goals simp

@[simp] theorem execGangReadyNotice_pwr (pkg : Pk) (tenant : Fn) (gang : BitVec 16) (beat : W64) (epoch : W32) (s : State) :
    (execGangReadyNotice pkg tenant gang beat epoch s).LeavesPwr s.pwr := by
  refine whenAlive_pwr ?_
  split
  · rfl
  · exact State.gangTraffic_pwr (by simp)

@[simp] theorem State.killMember_pwr (s : State) (c : Cmd) (k : GangCause) : (s.killMember c k).pwr = s.pwr := by
  unfold State.killMember
  split
  · simp
  · cases k <;> simp

@[simp] theorem execGangCommit_pwr (id : Nat) (s : State) : (execGangCommit id s).LeavesPwr s.pwr := by
  unfold execGangCommit
  split <;> simp

@[simp] theorem State.forget_pwr (s : State) (c : Cmd) (pkg : Nat) : (s.forget c pkg).pwr = s.pwr := by simp [State.forget]

@[simp] theorem execGangKillNotice_pwr (pkg : Pk) (tenant : Fn) (gang : BitVec 16) (cause : GangCause) (s : State) :
    (execGangKillNotice pkg tenant gang cause s).LeavesPwr s.pwr := by
  refine whenAlive_pwr ?_
  split
  · rfl
  · exact State.gangTraffic_pwr (by simp)

/-! ### Requests (spec/15 R351) -/

@[simp] theorem State.keepReq_pwr (s : State) (f : Nat) (cid : BitVec 16) (begun : Bool) (i : Instr) :
    (s.keepReq f cid begun i).pwr = s.pwr := by simp [State.keepReq]

theorem State.request_pwr {s : State} {f : Nat} {cid : BitVec 16} {minor : Nat} {inRec : Bool} {i : Instr} {k : ReqOut}
    (h : k.LeavesPwr s.pwr) : (s.request f cid minor inRec i k).LeavesPwr s.pwr := by
  unfold State.request
  refine whenAlive_pwr ?_
  cases k <;> simp_all

@[simp] theorem State.dropImages_pwr (s : State) (f p : Nat) : (s.dropImages f p).pwr = s.pwr := by simp [State.dropImages]

@[simp] theorem execProgramLoad_pwr (f : Fn) (cid : BitVec 16) (image : List Byte) (s : State) :
    (execProgramLoad f cid image s).LeavesPwr s.pwr := by
  refine State.request_pwr ?_
  split
  · simp
  · split <;> simp

@[simp] theorem execProgramDrop_pwr (f : Fn) (cid : BitVec 16) (prog : W64) (s : State) :
    (execProgramDrop f cid prog s).LeavesPwr s.pwr := State.request_pwr (by simp)

@[simp] theorem execTsetInstall_pwr (f : Fn) (cid : BitVec 16) (tset : W64) (param : List Byte) (s : State) :
    (execTsetInstall f cid tset param s).LeavesPwr s.pwr := State.request_pwr (by simp)

@[simp] theorem execOwnerInstall_pwr (f : Fn) (cid : BitVec 16) (table frame : W64) (param : List Byte) (s : State) :
    (execOwnerInstall f cid table frame param s).LeavesPwr s.pwr := by
  refine State.request_pwr ?_
  dsimp only
  repeat' split
  all_goals simp

@[simp] theorem execOwnerTableSwitch_pwr (t : Fn) (table : Fin 1024) (s : State) :
    (execOwnerTableSwitch t table s).LeavesPwr s.pwr := by simp [execOwnerTableSwitch]

@[simp] theorem State.policy_pwr (s : State) (p : Policy) : (s.policy p).pwr = s.pwr := by simp [State.policy]

@[simp] theorem execShare_pwr (f : Fn) (cid : BitVec 16) (tenant weight : W64) (s : State) :
    (execShare f cid tenant weight s).LeavesPwr s.pwr := State.request_pwr (by simp)

@[simp] theorem execExpressCap_pwr (f : Fn) (cid : BitVec 16) (fn cap : W64) (s : State) :
    (execExpressCap f cid fn cap s).LeavesPwr s.pwr := State.request_pwr (by simp)

/-! ### Translation, frames and migration (spec/09) -/

@[simp] theorem State.modFrame_pwr (s : State) (n : Nat) (f : Frame → Frame) : (s.modFrame n f).pwr = s.pwr := by
  simp [State.modFrame]

@[simp] theorem State.giveFrame_pwr (s : State) (t n : Nat) : (s.giveFrame t n).pwr = s.pwr := by simp [State.giveFrame]
@[simp] theorem State.dropFrame_pwr (s : State) (t n : Nat) : (s.dropFrame t n).pwr = s.pwr := by simp [State.dropFrame]

theorem State.mapOne_pwr (s : State) (t va size : Nat) (loft w pin : Bool) (hint : Nat) :
    ∀ u ∈ s.mapOne t va size loft w pin hint, u.pwr = s.pwr := by
  unfold State.mapOne
  dsimp only
  repeat' split
  all_goals simp

theorem State.mapMany_pwr (s : State) (t va size : Nat) (loft w pin : Bool) (hint n : Nat) :
    ∀ u ∈ s.mapMany t va size loft w pin hint n, u.pwr = s.pwr := by
  induction n generalizing s va with
  | zero => simp [State.mapMany]
  | succ n ih =>
    unfold State.mapMany
    split
    · rename_i u h
      exact fun v hv => (ih u _ v hv).trans (s.mapOne_pwr _ _ _ _ _ _ _ u h)
    · simp

@[simp] theorem execMap_pwr (f : Fn) (cid : BitVec 16) (va bytes p2 : W64) (s : State) :
    (execMap f cid va bytes p2 s).LeavesPwr s.pwr := by
  refine State.request_pwr ?_
  simp only [ReqOut.leavesPwr_ite, State.no_leavesPwr, implies_true, true_and]
  intro _ _ _
  split
  · simp
  · rename_i t mapped
    have kept : t.pwr = s.pwr := s.mapMany_pwr _ _ _ _ _ _ _ _ t mapped
    split <;> simp [kept]

@[simp] theorem State.abandon_pwr (s : State) (m : Migration) : (s.abandon m).pwr = s.pwr := by simp [State.abandon]

@[simp] theorem State.unmapLeaves_pwr (s : State) (t : Nat) (p : Leaf → Bool) : (s.unmapLeaves t p).pwr = s.pwr := by
  simp [State.unmapLeaves]

@[simp] theorem execUnmap_pwr (f : Fn) (cid : BitVec 16) (va bytes : W64) (s : State) :
    (execUnmap f cid va bytes s).LeavesPwr s.pwr := State.request_pwr (by simp)

@[simp] theorem execTransfer_pwr (f : Fn) (cid : BitVec 16) (va host bytes dir : W64) (data : List Byte) (s : State) :
    (execTransfer f cid va host bytes dir data s).LeavesPwr s.pwr := State.request_pwr (by simp)

@[simp] theorem execTransferDone_pwr (f : Fn) (cid : BitVec 16) (s : State) : (execTransferDone f cid s).LeavesPwr s.pwr := by
  unfold execTransferDone
  dsimp only
  repeat' split
  all_goals simp

@[simp] theorem execFrameZero_pwr (frame : BitVec 48) (s : State) : (execFrameZero frame s).LeavesPwr s.pwr := by
  simp [execFrameZero]

@[simp] theorem execAccessCountHalve_pwr (s : State) : (execAccessCountHalve s).LeavesPwr s.pwr := by simp [execAccessCountHalve]

@[simp] theorem execMigrationStart_pwr (src dst : BitVec 48) (s : State) : (execMigrationStart src dst s).LeavesPwr s.pwr := by
  unfold execMigrationStart
  dsimp only
  split <;> simp

@[simp] theorem State.missed_pwr (s : State) (ch : Nat) (r : ChReq) : (s.missed ch r).pwr = s.pwr := by simp [State.missed]

@[simp] theorem execLoftRequestTimeout_pwr (id : Nat) (ch : Fin 32) (s : State) :
    (execLoftRequestTimeout id ch s).LeavesPwr s.pwr := by
  unfold execLoftRequestTimeout
  dsimp only
  repeat' split
  all_goals simp

@[simp] theorem execLoftTrainingLost_pwr (ch : Fin 32) (s : State) : (execLoftTrainingLost ch s).LeavesPwr s.pwr := by
  simp [execLoftTrainingLost]

@[simp] theorem State.sourceBad_pwr (s : State) (m : Migration) (w : Nat) : (s.sourceBad m w).pwr = s.pwr := by
  simp [State.sourceBad]

@[simp] theorem execMigrationChunk_pwr (src : BitVec 48) (res : ChunkResult) (s : State) :
    (execMigrationChunk src res s).LeavesPwr s.pwr := by
  unfold execMigrationChunk
  dsimp only
  repeat' split
  all_goals simp

@[simp] theorem execMigrationComplete_pwr (src : BitVec 48) (s : State) : (execMigrationComplete src s).LeavesPwr s.pwr := by
  unfold execMigrationComplete
  split <;> simp

@[simp] theorem execSegmentRetag_pwr (g : Cl) (seg : Fin 96) (tag : Option Fn) (s : State) :
    (execSegmentRetag g seg tag s).LeavesPwr s.pwr := by simp [execSegmentRetag]

/-! ### Gates (spec/11) -/

@[simp] theorem State.handOn_pwr (s : State) (t : Nat) (l : Leaf) : (s.handOn t l).pwr = s.pwr := by
  unfold State.handOn
  split <;> simp

theorem State.beginMaint_pwr (s : State) (m : Maint) : ∀ t ∈ s.beginMaint m, t.pwr = s.pwr := by
  unfold State.beginMaint
  dsimp only
  split <;> simp

@[simp] theorem State.endMaint_pwr (s : State) (m : Maint) : (s.endMaint m).pwr = s.pwr := by simp [State.endMaint]

@[simp] theorem execGateRegister_pwr (f : Fn) (cid : BitVec 16) (gt : W64) (param : List Byte) (s : State) :
    (execGateRegister f cid gt param s).LeavesPwr s.pwr := by
  refine State.request_pwr ?_
  split <;> simp

@[simp] theorem execGateSwap_pwr (f : Fn) (cid : BitVec 16) (gt : W64) (param : List Byte) (s : State) :
    (execGateSwap f cid gt param s).LeavesPwr s.pwr := by
  refine State.request_pwr ?_
  split <;> simp

@[simp] theorem execGateResume_pwr (f : Fn) (cid : BitVec 16) (gt : W64) (s : State) : (execGateResume f cid gt s).LeavesPwr s.pwr := by
  refine State.request_pwr ?_
  split <;> simp

@[simp] theorem State.dropGate_pwr (s : State) (t g : Nat) (r : GateRec) : (s.dropGate t g r).pwr = s.pwr := by
  unfold State.dropGate
  dsimp only
  split <;> simp

@[simp] theorem execGateUnregister_pwr (f : Fn) (cid : BitVec 16) (gt : W64) (s : State) :
    (execGateUnregister f cid gt s).LeavesPwr s.pwr := by
  refine State.request_pwr ?_
  split <;> simp

@[simp] theorem execGateClose_pwr (t : Fn) (gt : Fin 64) (s : State) : (execGateClose t gt s).LeavesPwr s.pwr := by
  unfold execGateClose
  split <;> simp

@[simp] theorem execLayerCopyStart_pwr (t : Fn) (gt : Fin 64) (s : State) : (execLayerCopyStart t gt s).LeavesPwr s.pwr := by
  refine whenSch_pwr ?_
  split
  · rfl
  · split
    · rfl
    · split
      · rfl
      · rename_i u begun
        simpa using s.beginMaint_pwr _ u begun

@[simp] theorem State.copyFails_pwr (s : State) (t g : Nat) (r : GateRec) : (s.copyFails t g r).pwr = s.pwr := by
  simp [State.copyFails]

@[simp] theorem execLayerCopyFail_pwr (t : Fn) (gt : Fin 64) (s : State) : (execLayerCopyFail t gt s).LeavesPwr s.pwr := by
  unfold execLayerCopyFail
  split <;> simp

@[simp] theorem execLayerCopyCommit_pwr (t : Fn) (gt : Fin 64) (s : State) : (execLayerCopyCommit t gt s).LeavesPwr s.pwr := by
  unfold execLayerCopyCommit
  dsimp only
  repeat' split
  all_goals simp

@[simp] theorem execGateHoldKill_pwr (t : Fn) (gt : Fin 64) (s : State) : (execGateHoldKill t gt s).LeavesPwr s.pwr := by
  unfold execGateHoldKill
  repeat' split
  all_goals simp

/-! ### Layouts, flushes and merges (spec/12) -/

@[simp] theorem State.lockPools_pwr (s : State) (t : Nat) (l : LayoutRec) : (s.lockPools t l).pwr = s.pwr := by
  simp [State.lockPools]

@[simp] theorem State.unlockPools_pwr (s : State) (t : Nat) (l : LayoutRec) : (s.unlockPools t l).pwr = s.pwr := by
  simp [State.unlockPools]

@[simp] theorem execLayoutRegister_pwr (f : Fn) (cid : BitVec 16) (layout : W64) (param : List Byte) (s : State) :
    (execLayoutRegister f cid layout param s).LeavesPwr s.pwr := by
  refine State.request_pwr ?_
  dsimp only
  repeat' split
  all_goals simp

@[simp] theorem execLayoutMask_pwr (f : Fn) (cid : BitVec 16) (layout mask : W64) (s : State) :
    (execLayoutMask f cid layout mask s).LeavesPwr s.pwr := by
  refine State.request_pwr ?_
  split
  · simp
  · split <;> simp

@[simp] theorem State.schWrites_pwr (s : State) (t : Nat) (ws : List (Nat × Byte × Byte)) : (s.schWrites t ws).1.pwr = s.pwr := by
  simp [State.schWrites]

theorem State.flushCtx_pwr (s : State) (x : Nat) : ∀ t ∈ s.flushCtx x, t.pwr = s.pwr := by
  unfold State.flushCtx
  dsimp only
  repeat' split
  all_goals simp

theorem State.parkCtx_pwr (s : State) (x : Nat) : ∀ t ∈ s.parkCtx x, t.pwr = s.pwr := by
  unfold State.parkCtx
  dsimp only
  split
  · simp
  · rename_i u h
    have flushed : u.pwr = s.pwr := by
      split at h
      · cases h; rfl
      · exact s.flushCtx_pwr x u h
    split <;> simp [flushed]

@[simp] theorem execContextPark_pwr (ctx : Fin 65536) (s : State) : (execContextPark ctx s).LeavesPwr s.pwr := by
  refine whenSch_pwr ?_
  split
  · exact Option.getD_pwr (s.parkCtx_pwr ctx)
  · rfl

@[simp] theorem execContextUnpark_pwr (ctx : Fin 65536) (s : State) : (execContextUnpark ctx s).LeavesPwr s.pwr := by
  refine whenSch_pwr ?_
  dsimp only
  repeat' split
  all_goals simp

@[simp] theorem execCatchupFlush_pwr (ctx : Fin 65536) (s : State) : (execCatchupFlush ctx s).LeavesPwr s.pwr := by
  refine whenSch_pwr ?_
  dsimp only
  split
  · rfl
  · split
    · rename_i t flushed
      exact s.flushCtx_pwr ctx t flushed
    · repeat' split
      all_goals simp

@[simp] theorem execMergeStart_pwr (ctx : Fin 65536) (i : Nat) (s : State) : (execMergeStart ctx i s).LeavesPwr s.pwr := by
  refine whenSch_pwr ?_
  dsimp only
  split
  · rfl
  · split
    · split
      · rfl
      · split
        · rfl
        · rename_i u begun
          simpa using State.beginMaint_pwr _ _ u begun
    · rfl

@[simp] theorem State.endMerge_pwr (s : State) (m : Merge) : (s.endMerge m).pwr = s.pwr := by simp [State.endMerge]
@[simp] theorem State.killMerge_pwr (s : State) (m : Merge) : (s.killMerge m).pwr = s.pwr := by simp [State.killMerge]

@[simp] theorem State.killMaint_pwr (s : State) (p : Nat → Bool) : (s.killMaint p).pwr = s.pwr := by
  refine State.foldl_pwr (fun u m => ?_) _ s
  repeat' split
  all_goals simp

@[simp] theorem execMergeEffect_pwr (ctx : Fin 65536) (s : State) : (execMergeEffect ctx s).LeavesPwr s.pwr := by
  unfold execMergeEffect
  dsimp only
  repeat' split
  all_goals simp

@[simp] theorem State.replacePage_pwr (s : State) (t n : Nat) (old : Page) (addr : Nat) (tuse : BitVec 8) :
    (s.replacePage t n old addr tuse).pwr = s.pwr := by simp [State.replacePage]

@[simp] theorem execLayoutRecode_pwr (f : Fn) (cid : BitVec 16) (layout record : W64) (s : State) :
    (execLayoutRecode f cid layout record s).LeavesPwr s.pwr := by
  refine State.request_pwr ?_
  split
  · simp
  · split <;> simp

@[simp] theorem execPageRecodeEffect_pwr (f : Fn) (cid : BitVec 16) (s : State) :
    (execPageRecodeEffect f cid s).LeavesPwr s.pwr := by
  unfold execPageRecodeEffect
  dsimp only
  repeat' split
  all_goals simp

/-! ### Contexts, prompts, prefixes and accounts (spec/13) -/

@[simp] theorem State.sweepOnce_pwr (s : State) : (s.sweepOnce).pwr = s.pwr := by
  unfold State.sweepOnce
  repeat' split
  all_goals simp

@[simp] theorem State.sweepPfx_pwr (s : State) (n : Nat) : (s.sweepPfx n).pwr = s.pwr := by
  induction n generalizing s with
  | zero => rfl
  | succ n ih => simp [State.sweepPfx, ih]

@[simp] theorem State.holdOver_pwr (s : State) (a : Nat) : (s.holdOver a).pwr = s.pwr := by simp [State.holdOver]

@[simp] theorem State.putAcct_pwr (s : State) (f a rate cap weight : Nat) (clear : Bool) :
    (s.putAcct f a rate cap weight clear).pwr = s.pwr := by simp [State.putAcct]

@[simp] theorem State.applyPolicy_pwr (s : State) (p : Policy) : (s.applyPolicy p).pwr = s.pwr := by
  unfold State.applyPolicy
  split <;> simp

theorem State.cacheEntry_pwr (s : State) : ∀ t ∈ s.cacheEntry, t.pwr = s.pwr := by
  unfold State.cacheEntry
  split
  · simp
  · split
    · exact s.parkCtx_pwr _
    · simp

@[simp] theorem execOpenContext_pwr (f : Fn) (cid : BitVec 16) (acct lay maxLen variant client tag : W64) (s : State) :
    (execOpenContext f cid acct lay maxLen variant client tag s).LeavesPwr s.pwr := by
  refine State.request_pwr ?_
  simp only [ReqOut.leavesPwr_ite, State.no_leavesPwr, implies_true, true_and]
  intro _ _
  split
  · simp
  · split
    · simp
    · simp only [ReqOut.leavesPwr_ite, State.no_leavesPwr, implies_true, true_and]
      intro _ _
      split
      · split <;> simp
      · rename_i t entered
        have kept : t.pwr = s.pwr := s.cacheEntry_pwr t entered
        repeat' split
        all_goals simp [kept]

@[simp] theorem execCloseContext_pwr (f : Fn) (cid : BitVec 16) (ctx : W64) (s : State) :
    (execCloseContext f cid ctx s).LeavesPwr s.pwr := by
  refine State.request_pwr ?_
  split <;> simp

@[simp] theorem execParkContext_pwr (f : Fn) (cid : BitVec 16) (ctx : W64) (s : State) :
    (execParkContext f cid ctx s).LeavesPwr s.pwr := by
  refine State.request_pwr ?_
  split
  · simp
  · split
    · split
      · rename_i t parked
        exact s.parkCtx_pwr _ t parked
      · split <;> simp
    all_goals simp

@[simp] theorem State.cancelRun_pwr (s : State) (x : Nat) (now : Bool) (c : Cmd) : (s.cancelRun x now c).pwr = s.pwr := by
  simp [State.cancelRun]

@[simp] theorem State.cancelIn_pwr (s : State) (x : Nat) (now : Bool) (cid : BitVec 16) (c : Cmd) :
    (s.cancelIn x now cid c).pwr = s.pwr := by
  unfold State.cancelIn
  split <;> simp

@[simp] theorem execCancelContext_pwr (f : Fn) (cid : BitVec 16) (ctx flags : W64) (s : State) :
    (execCancelContext f cid ctx flags s).LeavesPwr s.pwr := by
  refine State.request_pwr ?_
  split <;> simp

@[simp] theorem execQuery_pwr (f : Fn) (cid : BitVec 16) (ctx host : W64) (s : State) : (execQuery f cid ctx host s).LeavesPwr s.pwr := by
  refine State.request_pwr ?_
  split <;> simp

theorem takeRuns_pwr (s : State) (t n : Nat) (ps : List (Nat × Nat)) : ∀ r ∈ takeRuns s t n ps, r.1.pwr = s.pwr := by
  induction ps generalizing s with
  | nil => simp [takeRuns]
  | cons p ps ih =>
    unfold takeRuns
    split
    · simp
    · split
      · simp
      · split
        · simp
        · rename_i taken
          simpa using ih _ _ taken

theorem State.beginCopy_pwr (s : State) (f : Nat) (cid : BitVec 16) (lay : Nat) (va count : W64) (room first : Nat)
    (variantOf : Option Nat) (ctx : Nat) : (s.beginCopy f cid lay va count room first variantOf ctx).LeavesPwr s.pwr := by
  unfold State.beginCopy
  dsimp only
  split
  · simp
  · split
    · simp
    · split
      · simp
      · split
        · simp
        · split
          · simp
          · split
            · split <;> simp
            · rename_i taken
              simpa using takeRuns_pwr _ _ _ _ _ taken

@[simp] theorem execImportPages_pwr (f : Fn) (cid : BitVec 16) (ctx va count : W64) (s : State) :
    (execImportPages f cid ctx va count s).LeavesPwr s.pwr := by
  refine State.request_pwr ?_
  split
  · simp
  · rename_i x _
    have copied := s.beginCopy_pwr f cid (s.ctx x).layout va count (512 - (s.ctx x).pages.length) (s.ctx x).len none x
    simp only [ReqOut.leavesPwr_ite, State.no_leavesPwr, ReqOut.leavesPwr_wait, implies_true, true_and]
    intro _ _ _ _
    split
    · rename_i t begun
      rw [begun] at copied
      split
      · simp
      · exact copied
    · exact copied

@[simp] theorem execLoadVariant_pwr (f : Fn) (cid : BitVec 16) (layout va count : W64) (s : State) :
    (execLoadVariant f cid layout va count s).LeavesPwr s.pwr := by
  refine State.request_pwr ?_
  split
  · simp
  · split
    · simp
    · exact s.beginCopy_pwr _ _ _ _ _ _ _ _ _

@[simp] theorem State.copyPages_pwr (s : State) (f : Nat) (l : LayoutRec) (src : Nat) (ps : List Page) :
    (s.copyPages f l src ps).1.pwr = s.pwr := by
  induction ps generalizing s src with
  | nil => rfl
  | cons p ps ih => simp [State.copyPages, ih]

@[simp] theorem State.dropJob_pwr (s : State) (j : CopyJob) : (s.dropJob j).pwr = s.pwr := by simp [State.dropJob]

@[simp] theorem execImportEffect_pwr (f : Fn) (cid : BitVec 16) (s : State) : (execImportEffect f cid s).LeavesPwr s.pwr := by
  unfold execImportEffect
  dsimp only
  repeat' split
  all_goals simp

@[simp] theorem execVariantLoadEffect_pwr (f : Fn) (cid : BitVec 16) (s : State) :
    (execVariantLoadEffect f cid s).LeavesPwr s.pwr := by
  unfold execVariantLoadEffect
  dsimp only
  repeat' split
  all_goals simp

@[simp] theorem execRegisterPrefix_pwr (f : Fn) (cid : BitVec 16) (ctx len : W64) (s : State) :
    (execRegisterPrefix f cid ctx len s).LeavesPwr s.pwr := by
  refine State.request_pwr ?_
  dsimp only
  repeat' split
  all_goals simp

@[simp] theorem execMirrorPrefix_pwr (f : Fn) (cid : BitVec 16) (pkg handle : W64) (pages : Option (List Byte)) (s : State) :
    (execMirrorPrefix f cid pkg handle pages s).LeavesPwr s.pwr := by
  refine State.request_pwr ?_
  dsimp only
  repeat' split
  all_goals simp

@[simp] theorem execRetirePrefix_pwr (f : Fn) (cid : BitVec 16) (handle : W64) (s : State) :
    (execRetirePrefix f cid handle s).LeavesPwr s.pwr := by
  refine State.request_pwr ?_
  split <;> simp

@[simp] theorem execContextRelease_pwr (ctx : Fin 65536) (s : State) : (execContextRelease ctx s).LeavesPwr s.pwr := by
  unfold execContextRelease
  dsimp only
  repeat' split
  all_goals simp

@[simp] theorem execAccount_pwr (f : Fn) (cid : BitVec 16) (acct rate cap weight clear : W64) (s : State) :
    (execAccount f cid acct rate cap weight clear s).LeavesPwr s.pwr := State.request_pwr (by simp)

@[simp] theorem execAccountRefill_pwr (s : State) : (execAccountRefill s).LeavesPwr s.pwr := by simp [execAccountRefill]

end Sys2Proof.Machine
end

section
/-! SUPPORT. The yard, the cameras, the grooms, the resets and the registers, PWR's own work apart, leave the power block alone. -/

namespace Sys2Proof.Machine

/-! ### The yard and its links (spec/01, spec/16) -/

@[simp] theorem execPresenceWord_pwr (pkg : Pk) (lo hi : BitVec 16) (s : State) :
    (execPresenceWord pkg lo hi s).LeavesPwr s.pwr := by simp [execPresenceWord]

@[simp] theorem State.failReads_pwr (s : State) (ps : List Nat) (hit : Cmd → Nat → Nat → Bool) : (s.failReads ps hit).pwr = s.pwr :=
  State.foldl_pwr (fun s c => by split <;> simp) _ s

@[simp] theorem State.resend_pwr (s : State) : (s.resend).pwr = s.pwr := by simp [State.resend]
@[simp] theorem State.ackBeat_pwr (s : State) : (s.ackBeat).pwr = s.pwr := by simp [State.ackBeat]

@[simp] theorem State.applyRoutes_pwr (s : State) : (s.applyRoutes).pwr = s.pwr := by
  unfold State.applyRoutes
  split <;> simp

@[simp] theorem State.depart_pwr (s : State) (gone : List Nat) : (s.depart gone).pwr = s.pwr := by
  unfold State.depart
  split
  · rfl
  · refine (State.foldl_pwr (fun s c => ?_) _ _).trans ((State.foldl_pwr (fun s u => ?_) _ _).trans (State.failReads_pwr _ _ _))
    all_goals split <;> simp

@[simp] theorem execPortTrainingDone_pwr (p : Pt) (ok : Bool) (s : State) : (execPortTrainingDone p ok s).LeavesPwr s.pwr := by
  simp [execPortTrainingDone]

@[simp] theorem execIdent_pwr (p : Pt) (yard : W32) (pkg : Pk) (port : Pt) (hash : BitVec 512) (s : State) :
    (execIdent p yard pkg port hash s).LeavesPwr s.pwr := by simp [execIdent]

@[simp] theorem execPortRetrain_pwr (p : Pt) (s : State) : (execPortRetrain p s).LeavesPwr s.pwr := by simp [execPortRetrain]

@[simp] theorem execRouteUpdate_pwr (down : List (Pk × Pt)) (s : State) : (execRouteUpdate down s).LeavesPwr s.pwr := by
  unfold execRouteUpdate
  split <;> simp

@[simp] theorem State.failLink_pwr (s : State) (p : Nat) : (s.failLink p).pwr = s.pwr := by simp [State.failLink]

@[simp] theorem execLinkFail_pwr (p : Pt) (_cause : LinkCause) (s : State) : (execLinkFail p _cause s).LeavesPwr s.pwr := by
  simp [execLinkFail]

@[simp] theorem execFlitReplay_pwr (p : Pt) (s : State) : (execFlitReplay p s).LeavesPwr s.pwr := by simp [execFlitReplay]

@[simp] theorem execLaneFailure_pwr (p : Pt) (good : BitVec 8) (s : State) : (execLaneFailure p good s).LeavesPwr s.pwr := by
  simp [execLaneFailure]

@[simp] theorem execRouteWaitTimeout_pwr (id : Nat) (s : State) : (execRouteWaitTimeout id s).LeavesPwr s.pwr := by
  unfold execRouteWaitTimeout
  split <;> simp

@[simp] theorem State.remoteWrite_pwr (s : State) (t : Nat) (ws : List (BitVec 48 × Byte × Byte)) : (s.remoteWrite t ws).1.pwr = s.pwr := by
  unfold State.remoteWrite
  dsimp only
  split
  · rfl
  · split
    · rfl
    · exact State.foldl_pwr (fun s x => by split <;> rfl) _ s

@[simp] theorem State.applyRemote_pwr (s : State) (pkg src seq tenant : Nat) (frame : W32) (req : RemoteReq) :
    (s.applyRemote pkg src seq tenant frame req).pwr = s.pwr := by
  unfold State.applyRemote
  dsimp only
  split
  · simp
  · cases req with
    | read va len =>
      dsimp only
      rw [State.send_pwr, State.bump_pwr]
      split <;> simp
    | write ws =>
      have written := s.remoteWrite_pwr ‹_› ws
      dsimp only
      split
      all_goals
        rename_i e
        rw [e] at written
        exact written
    | mirror h made => simp

@[simp] theorem State.applyFab_pwr (s : State) (pkg src seq : Nat) (n : FabReq) : (s.applyFab pkg src seq n).pwr = s.pwr := by
  unfold State.applyFab
  split <;> simp

@[simp] theorem State.applyEarly_pwr (s : State) (pair pkg src n : Nat) : (s.applyEarly pair pkg src n).pwr = s.pwr := by
  induction n generalizing s with
  | zero => rfl
  | succ n ih =>
    unfold State.applyEarly
    dsimp only
    split <;> simp [ih]

@[simp] theorem State.arriveFab_pwr (s : State) (pkg src seq : Nat) (q : FabReq) : (s.arriveFab pkg src seq q).pwr = s.pwr := by
  simp [State.arriveFab]

@[simp] theorem execRemoteRequestArrival_pwr (pkg : Pk) (src : Nat) (seq : Nat) (who : Asker) (req : RemoteReq) (s : State) :
    (execRemoteRequestArrival pkg src seq who req s).LeavesPwr s.pwr := by simp [execRemoteRequestArrival]

@[simp] theorem execBarArrivalMessage_pwr (src : FabSource) (tenant : Fn) (gang : BitVec 16) (num : Fin 8) (beat : W32)
    (s : State) :
    (execBarArrivalMessage src tenant gang num beat s).LeavesPwr s.pwr := by simp [execBarArrivalMessage]

@[simp] theorem execSignalArrival_pwr (src : SigSource) (s : State) : (execSignalArrival src s).LeavesPwr s.pwr := by
  refine whenAlive_pwr ?_
  repeat' split
  all_goals simp

@[simp] theorem execFabricLoopback_pwr (p : Pt) (ph : LoopPhase) (s : State) : (execFabricLoopback p ph s).LeavesPwr s.pwr := by
  unfold execFabricLoopback
  split <;> simp

/-! ### Cameras (spec/21) -/

@[simp] theorem State.setSensor_pwr (s : State) (n : Nat) (x : Sensor) : (s.setSensor n x).pwr = s.pwr := by simp [State.setSensor]

@[simp] theorem State.setBinding_pwr (s : State) (n : Nat) (x : Binding) : (s.setBinding n x).pwr = s.pwr := by
  simp [State.setBinding]

@[simp] theorem State.setCamPort_pwr (s : State) (p : Nat) (x : CamPort) : (s.setCamPort p x).pwr = s.pwr := by
  simp [State.setCamPort]

@[simp] theorem State.applyCam_pwr (s : State) (entry : Option (List Byte)) : (s.applyCam entry).pwr = s.pwr := by
  simp [State.applyCam]

@[simp] theorem State.putLine_pwr (s : State) (r : SensRec) (buf i : Nat) (px : List (BitVec 16)) :
    (s.putLine r buf i px).pwr = s.pwr := by simp [State.putLine]

@[simp] theorem State.endFrame_pwr (s : State) (n : Nat) (cut : Bool) : (s.endFrame n cut).pwr = s.pwr := by
  unfold State.endFrame
  dsimp only
  split <;> simp

@[simp] theorem State.leavePresent_pwr (s : State) (n : Nat) : (s.leavePresent n).pwr = s.pwr := by simp [State.leavePresent]
@[simp] theorem State.camFault_pwr (s : State) (n : Nat) (f : Byte) : (s.camFault n f).pwr = s.pwr := by simp [State.camFault]

@[simp] theorem State.startBindings_pwr (s : State) (n : Nat) (r : SensRec) : (s.startBindings n r).pwr = s.pwr := by
  refine State.foldl_pwr (fun u b => ?_) _ s
  extract_lets x new mine
  generalize (!mine new && !mine x.cfg) = other
  cases new <;> simp

@[simp] theorem State.strayFrame_pwr (s : State) (p vc : Nat) : (s.strayFrame p vc).pwr = s.pwr := by simp [State.strayFrame]

@[simp] theorem State.heardAt_pwr (s : State) (p vc : Nat) (dt : Option Byte) : (s.heardAt p vc dt).pwr = s.pwr := by
  unfold State.heardAt
  split <;> simp

@[simp] theorem State.startFrame_pwr (s : State) (n : Nat) (r : SensRec) : (s.startFrame n r).pwr = s.pwr := by
  simp [State.startFrame]

@[simp] theorem execCamFrameStart_pwr (p : Fin 2) (vc : Fin 32) (s : State) : (execCamFrameStart p vc s).LeavesPwr s.pwr := by
  unfold execCamFrameStart
  dsimp only
  repeat' split
  all_goals simp

@[simp] theorem execCamLine_pwr (p : Fin 2) (vc : Fin 32) (dt : Byte) (px : List (BitVec 16)) (hdrOk crcOk : Bool) (s : State) :
    (execCamLine p vc dt px hdrOk crcOk s).LeavesPwr s.pwr := by
  unfold execCamLine
  dsimp only
  repeat' split
  all_goals simp

@[simp] theorem execCamFrameEnd_pwr (p : Fin 2) (vc : Fin 32) (s : State) : (execCamFrameEnd p vc s).LeavesPwr s.pwr := by
  unfold execCamFrameEnd
  dsimp only
  repeat' split
  all_goals simp

@[simp] theorem execCamSilenceTimeout_pwr (n : Fin 16) (s : State) : (execCamSilenceTimeout n s).LeavesPwr s.pwr := by
  unfold execCamSilenceTimeout
  split <;> simp

@[simp] theorem execCamPresenceTimeout_pwr (n : Fin 16) (s : State) : (execCamPresenceTimeout n s).LeavesPwr s.pwr := by
  unfold execCamPresenceTimeout
  split <;> simp

@[simp] theorem execCamHpd_pwr (p : Fin 2) (level : Bool) (s : State) : (execCamHpd p level s).LeavesPwr s.pwr := by
  simp [execCamHpd]

@[simp] theorem execCamSettingsWrite_pwr (n : Fin 16) (s : State) : (execCamSettingsWrite n s).LeavesPwr s.pwr := by
  simp [execCamSettingsWrite]

@[simp] theorem State.mendLines_pwr (s : State) (r : SensRec) (f : CamFrame) : (s.mendLines r f).1.pwr = s.pwr :=
  State.foldl_fst_pwr (fun a i => by split <;> simp) _ (s, f)

@[simp] theorem State.runFrame_pwr (s : State) (n : Nat) (f : CamFrame) (rest : List CamFrame) :
    (s.runFrame n f rest).pwr = s.pwr := by
  unfold State.runFrame
  dsimp only
  repeat' split
  all_goals simp

@[simp] theorem execCamPipelineRun_pwr (s : State) : (execCamPipelineRun s).LeavesPwr s.pwr := by
  unfold execCamPipelineRun
  dsimp only
  repeat' split
  all_goals simp

@[simp] theorem State.camWrite_pwr (s : State) (t va : Nat) (bs : List Byte) : (s.camWrite t va bs).1.pwr = s.pwr := by
  simp [State.camWrite]

@[simp] theorem State.camSignal_pwr (s : State) (n : Nat) (b : BindRec) : (s.camSignal n b).pwr = s.pwr := by simp [State.camSignal]

@[simp] theorem State.deliverTo_pwr (s : State) (d : CamDue) (f : CamFrame) : (s.deliverTo d f).pwr = s.pwr := by
  unfold State.deliverTo
  extract_lets b x same s0 base w w2
  have counted : s0.pwr = s.pwr := by
    unfold s0
    split <;> simp
  have written : w2.1.pwr = s0.pwr := by
    unfold w2
    split <;> simp [w]
  clear_value w2 s0
  split
  · exact counted
  · rw [State.bump_pwr, ← counted, ← written]
    split <;> simp

@[simp] theorem execCamDeliver_pwr (n : Fin 64) (s : State) : (execCamDeliver n s).LeavesPwr s.pwr := by
  unfold execCamDeliver
  split <;> simp

/-! ### The flash array (spec/20) -/

@[simp] theorem State.loseSector_pwr (s : State) (n : Nat) : (s.loseSector n).pwr = s.pwr := by simp [State.loseSector]

@[simp] theorem State.eraseDone_pwr (s : State) (n p : Nat) (ok : Bool) : (s.eraseDone n p ok).pwr = s.pwr := by
  simp [State.eraseDone]

@[simp] theorem State.programDone_pwr (s : State) (ws : List (Nat × W32)) (ok : Bool) : (s.programDone ws ok).pwr = s.pwr := by
  simp [State.programDone]

@[simp] theorem State.repairErases_pwr (s : State) : (s.repairErases).pwr = s.pwr := by simp [State.repairErases]

@[simp] theorem execWordProgram_pwr (c : Gc) (ws : List (W32 × W32)) (s : State) : (execWordProgram c ws s).LeavesPwr s.pwr := by
  simp [execWordProgram]

@[simp] theorem execBufferProgram_pwr (c : Gc) (ws : List (W32 × W32)) (s : State) :
    (execBufferProgram c ws s).LeavesPwr s.pwr := by simp [execBufferProgram]

@[simp] theorem execSectorErase_pwr (c : Gc) (ws : List (W32 × W32)) (s : State) : (execSectorErase c ws s).LeavesPwr s.pwr := by
  unfold execSectorErase
  dsimp only
  repeat' split
  all_goals simp

@[simp] theorem execFlashStatus_pwr (c : Gc) (ws : List (W32 × W32)) (s : State) : (execFlashStatus c ws s).LeavesPwr s.pwr := by
  simp [execFlashStatus]

@[simp] theorem execFlashReset_pwr (c : Gc) (addr : W32) (s : State) : (execFlashReset c addr s).LeavesPwr s.pwr := by
  simp [execFlashReset]

@[simp] theorem execSeqTimeout_pwr (s : State) : (execSeqTimeout s).LeavesPwr s.pwr := by simp [execSeqTimeout]
@[simp] theorem State.faultGroom_pwr (s : State) (c : Nat) : (s.faultGroom c).pwr = s.pwr := by simp [State.faultGroom]
@[simp] theorem State.fetchesGo_pwr (s : State) (f : Fls) : (s.fetchesGo f).pwr = s.pwr := by simp [State.fetchesGo]

@[simp] theorem execFlashOpDone_pwr (pulses : Nat) (ok : Bool) (s : State) : (execFlashOpDone pulses ok s).LeavesPwr s.pwr := by
  unfold execFlashOpDone
  repeat' split
  all_goals simp

@[simp] theorem execFlashWindowRead_pwr (c : Gc) (addr : W32) (fetch : Bool) (s : State) :
    (execFlashWindowRead c addr fetch s).LeavesPwr s.pwr := by simp [execFlashWindowRead]

@[simp] theorem State.writeHealth_pwr (s : State) : (s.writeHealth).pwr = s.pwr := by simp [State.writeHealth]
@[simp] theorem execHealthRecordWrite_pwr (s : State) : (execHealthRecordWrite s).LeavesPwr s.pwr := by simp [execHealthRecordWrite]

@[simp] theorem State.readHealth_pwr (s : State) : s.readHealth.pwr = s.pwr := by
  unfold State.readHealth
  split <;> rfl

/-! ### Deficits and slices (spec/14 R319-R325) -/

@[simp] theorem State.grantDeficits_pwr (s : State) : s.grantDeficits.pwr = s.pwr := by
  unfold State.grantDeficits
  generalize List.range 64 = ts
  refine (State.foldl_pwr (fun u e => ?_) _ _).trans (State.foldl_pwr (fun u t => ?_) _ s)
  · exact u.setAcct_pwr _ _
  · exact u.modTen_pwr _ _

@[simp] theorem execDeficitUpdate_pwr (s : State) : (execDeficitUpdate s).LeavesPwr s.pwr := by simp [execDeficitUpdate]

@[simp] theorem State.killAll_pwr (s : State) (cause : Nat) (p : Cmd → Bool) : (s.killAll cause p).pwr = s.pwr :=
  State.foldl_pwr (fun s c => by split <;> simp) _ s

@[simp] theorem execSliceChange_pwr (n : Fin 8) (s : State) : (execSliceChange n s).LeavesPwr s.pwr := by
  unfold execSliceChange
  dsimp only
  repeat' split
  all_goals simp

/-! ### What a configuration brings into effect (spec/18 R401-R403) -/

@[simp] theorem State.cablePorts_pwr (s : State) (cab : Nat → Option (Nat × Nat)) : (s.cablePorts cab).pwr = s.pwr :=
  State.foldl_pwr (fun s p => by dsimp only; split <;> simp) _ s

@[simp] theorem State.applyYard_pwr (s : State) (y : Option YardRec) : (s.applyYard y).pwr = s.pwr := by
  unfold State.applyYard
  dsimp only
  repeat' split
  all_goals simp

@[simp] theorem State.applyMode_pwr (s : State) (g : Grm) : (s.applyMode g).pwr = s.pwr := by simp [State.applyMode]

@[simp] theorem State.applySch_pwr (s : State) (g : Grm) (shares caps : Bool) : (s.applySch g shares caps).pwr = s.pwr := by
  simp [State.applySch]

@[simp] theorem State.applySec_pwr (s : State) (g : Grm) : (s.applySec g).pwr = s.pwr :=
  State.foldl_pwr (fun u c => u.setGroom_pwr c _) _ s

/-! ### Grooms, staging and trials (spec/18 R390-R404) -/

@[simp] theorem State.readTwo_pwr (s : State) (va n : Nat) (rest : List Byte → Nat × Nat) :
    (s.readTwo va n rest).1.pwr = s.pwr := by
  unfold State.readTwo
  dsimp only
  split <;> simp

@[simp] theorem State.imageAt_pwr (s : State) (va : Nat) : (s.imageAt va).1.pwr = s.pwr := by simp [State.imageAt]
@[simp] theorem State.updCode_pwr (s : State) (c : Nat) : (s.updCode c).pwr = s.pwr := by simp [State.updCode]

@[simp] theorem State.restartFrom_pwr (s : State) (c : Nat) (b : Bool) (i : Option Image) (st : Nat) :
    (s.restartFrom c b i st).pwr = s.pwr := by
  unfold State.restartFrom
  split <;> simp

@[simp] theorem State.secLost_pwr (s : State) : (s.secLost).pwr = s.pwr := by
  unfold State.secLost
  dsimp only
  split <;> simp

@[simp] theorem State.revert_pwr (s : State) : (s.revert).pwr = s.pwr := by simp [State.revert]

@[simp] theorem execWatchdogExpiry_pwr (c : Gc) (s : State) : (execWatchdogExpiry c s).LeavesPwr s.pwr := by
  refine whenAlive_pwr ?_
  dsimp only
  repeat' split
  all_goals simp

@[simp] theorem State.backInService_pwr (s : State) (c : Nat) : (s.backInService c).pwr = s.pwr := by simp [State.backInService]

@[simp] theorem execStage_pwr (s : State) : (execStage s).LeavesPwr s.pwr := by
  refine whenAlive_pwr ?_
  dsimp only
  repeat' split
  all_goals simp

@[simp] theorem State.stageEnds_pwr (s : State) (c : Nat) : (s.stageEnds c).pwr = s.pwr := by simp [State.stageEnds]
@[simp] theorem execActivate_pwr (s : State) : (execActivate s).LeavesPwr s.pwr := by simp [execActivate]

@[simp] theorem execTrialStart_pwr (s : State) : (execTrialStart s).LeavesPwr s.pwr := by
  refine whenAlive_pwr ?_
  dsimp only
  split
  · rfl
  · refine (State.foldl_pwr (fun u c => ?_) _ _).trans ?_
    · split <;> rfl
    · simp

@[simp] theorem execTrialTimeout_pwr (s : State) : (execTrialTimeout s).LeavesPwr s.pwr := by simp [execTrialTimeout]
@[simp] theorem State.raiseArb_pwr (s : State) (c svn : Nat) : (s.raiseArb c svn).pwr = s.pwr := by simp [State.raiseArb]

@[simp] theorem execProbationEnd_pwr (s : State) : (execProbationEnd s).LeavesPwr s.pwr := by
  unfold execProbationEnd
  split <;> simp

@[simp] theorem State.trialEnds_pwr (s : State) : (s.trialEnds).pwr = s.pwr := by simp [State.trialEnds]
@[simp] theorem State.cfgRefuse_pwr (s : State) (c : Nat) : (s.cfgRefuse c).pwr = s.pwr := by simp [State.cfgRefuse]
@[simp] theorem State.recordAt_pwr (s : State) (va : Nat) : (s.recordAt va).1.pwr = s.pwr := by simp [State.recordAt]

@[simp] theorem execLoad_pwr (s : State) : (execLoad s).LeavesPwr s.pwr := by
  refine whenAlive_pwr ?_
  dsimp only
  repeat' split
  all_goals simp

@[simp] theorem State.loadEnds_pwr (s : State) (bs : List Byte) : (s.loadEnds bs).pwr = s.pwr := by
  unfold State.loadEnds
  split <;> simp

@[simp] theorem State.dropLoad_pwr (s : State) (code : Nat) : (s.dropLoad code).pwr = s.pwr := by simp [State.dropLoad]

@[simp] theorem State.endJob_pwr (s : State) (ok : Bool) : (s.endJob ok).pwr = s.pwr := by
  unfold State.endJob
  repeat' split
  all_goals simp

@[simp] theorem State.secStep_pwr (s : State) : (s.secStep).pwr = s.pwr := by
  unfold State.secStep
  repeat' split
  all_goals simp

@[simp] theorem State.logRing_pwr (s : State) : (s.logRing).pwr = s.pwr := by simp [State.logRing]
@[simp] theorem execGrmOvlNext_pwr (v : W64) (s : State) : (execGrmOvlNext v s).LeavesPwr s.pwr := by simp [execGrmOvlNext]

/-! ### Resets and loss of power (spec/15 R356, spec/23 R476) -/

@[simp] theorem State.discardCmds_pwr (s : State) (f : Nat) : (s.discardCmds f).pwr = s.pwr := by simp [State.discardCmds]
@[simp] theorem State.dropServing_pwr (s : State) (t : Nat) : (s.dropServing t).pwr = s.pwr := by simp [State.dropServing]

@[simp] theorem State.zeroHists_pwr (s : State) (t : Nat) : (s.zeroHists t).pwr = s.pwr :=
  State.foldl_pwr (fun s e => by split <;> simp) _ s

@[simp] theorem State.dropTenant_pwr (s : State) (t : Nat) : (s.dropTenant t).pwr = s.pwr := by
  simp [State.dropTenant]

@[simp] theorem State.resetFn_pwr (s : State) (f : Nat) (keepBm : Bool) : (s.resetFn f keepBm).pwr = s.pwr := by
  unfold State.resetFn
  dsimp only
  split <;> simp

@[simp] theorem State.functionReset_pwr (s : State) (f : Nat) (keepBm : Bool) : (s.functionReset f keepBm).pwr = s.pwr := by
  simp [State.functionReset]

@[simp] theorem State.landReset_pwr (s : State) : (s.landReset).pwr = s.pwr := by simp [State.landReset]
@[simp] theorem State.resetFns_pwr (s : State) (keepBm : Bool) : (s.resetFns keepBm).pwr = s.pwr := by simp [State.resetFns]
@[simp] theorem State.resetTens_pwr (s : State) : (s.resetTens).pwr = s.pwr := by simp [State.resetTens]
@[simp] theorem State.resetFar_pwr (s : State) : (s.resetFar).pwr = s.pwr := by simp [State.resetFar]

@[simp] theorem State.cutFlash_pwr (s : State) : (s.cutFlash).pwr = s.pwr := by
  unfold State.cutFlash
  dsimp only
  split <;> simp

/-! ### The tack room (spec/19) -/

@[simp] theorem State.startGroom_pwr (s : State) (c : Nat) (b : Bool) (i : Image) : (s.startGroom c b i).pwr = s.pwr := by
  simp [State.startGroom]

@[simp] theorem execMemoryClearDone_pwr (s : State) : (execMemoryClearDone s).LeavesPwr s.pwr := by simp [execMemoryClearDone]
@[simp] theorem State.ownerRefuse_pwr (s : State) (c : Nat) : (s.ownerRefuse c).pwr = s.pwr := by simp [State.ownerRefuse]

@[simp] theorem State.armPresence_pwr (s : State) (k : Nat) (h : BitVec 512) : (s.armPresence k h).pwr = s.pwr := by
  simp [State.armPresence]

@[simp] theorem State.ownerRecord_pwr (s : State) : (s.ownerRecord).1.pwr = s.pwr := by simp [State.ownerRecord]

@[simp] theorem execSecOwnerArm_pwr (s : State) : (execSecOwnerArm s).LeavesPwr s.pwr := by
  refine whenAlive_pwr ?_
  dsimp only
  repeat' split
  all_goals simp

@[simp] theorem execSecOwnerDebug_pwr (s : State) : (execSecOwnerDebug s).LeavesPwr s.pwr := by
  refine whenAlive_pwr ?_
  dsimp only
  repeat' split
  all_goals simp

@[simp] theorem execPresenceTimeout_pwr (s : State) : (execPresenceTimeout s).LeavesPwr s.pwr := by simp [execPresenceTimeout]
@[simp] theorem execFnAttReq_pwr (f : Fn) (s : State) : (execFnAttReq f s).LeavesPwr s.pwr := by simp [execFnAttReq]

@[simp] theorem execAttestationReport_pwr (s : State) : (execAttestationReport s).LeavesPwr s.pwr := by
  unfold execAttestationReport
  repeat' split
  all_goals simp

/-! ### Functions (spec/15 R354-R359) -/

@[simp] theorem State.toNormal_pwr (s : State) : (s.toNormal).pwr = s.pwr := by simp [State.toNormal]

@[simp] theorem execFnCtrlEnable_pwr (f : Fn) (v : Bool) (s : State) : (execFnCtrlEnable f v s).LeavesPwr s.pwr := by
  simp [execFnCtrlEnable]

@[simp] theorem State.resumeBindings_pwr (s : State) (t : Nat) : (s.resumeBindings t).pwr = s.pwr := by simp [State.resumeBindings]
@[simp] theorem execNegotiate_pwr (f : Fn) (s : State) : (execNegotiate f s).LeavesPwr s.pwr := by simp [execNegotiate]
@[simp] theorem execFnReset_pwr (s : State) : (execFnReset s).LeavesPwr s.pwr := by simp [execFnReset]

@[simp] theorem execRecover_pwr (s : State) : (execRecover s).LeavesPwr s.pwr := by
  refine whenHost_pwr fun u => ?_
  split <;> rfl

@[simp] theorem execBusMasterEnable_pwr (f : Fn) (v : Bool) (s : State) : (execBusMasterEnable f v s).LeavesPwr s.pwr := by
  simp [execBusMasterEnable]

@[simp] theorem execVfEnable_pwr (v : Bool) (s : State) : (execVfEnable v s).LeavesPwr s.pwr := by simp [execVfEnable]

/-! ### The farrier (spec/22) -/

@[simp] theorem State.clearCluster_pwr (s : State) (g : Nat) (free : Bool) : (s.clearCluster g free).pwr = s.pwr := by
  simp [State.clearCluster]

@[simp] theorem State.modHealth_pwr (s : State) (g : Nat) (f : ClusterHealth → ClusterHealth) : (s.modHealth g f).pwr = s.pwr := by
  simp [State.modHealth]

@[simp] theorem State.disableCluster_pwr (s : State) (g cause : Nat) : (s.disableCluster g cause).pwr = s.pwr := by
  simp [State.disableCluster]

@[simp] theorem State.suspects_pwr (s : State) (m : W64) : (s.suspects m).pwr = s.pwr := by simp [State.suspects]

@[simp] theorem execStartupSelfTest_pwr (res : SelfTest) (s : State) : (execStartupSelfTest res s).LeavesPwr s.pwr := by
  refine whenAlive_pwr ?_
  split
  · rfl
  · simp only [State.toNormal_pwr, State.suspects_pwr]
    refine (State.foldl_pwr (fun u p => ?_) _ _).trans ((State.foldl_pwr (fun u g => ?_) _ _).trans (State.foldl_pwr (fun u g => ?_) _ s))
    all_goals simp

@[simp] theorem State.farScan_pwr (s : State) : (s.farScan).pwr = s.pwr := by simp [State.farScan]
@[simp] theorem State.endSlice_pwr (s : State) (result : Nat) : (s.endSlice result).pwr = s.pwr := by simp [State.endSlice]
@[simp] theorem State.farReturn_pwr (s : State) : (s.farReturn).pwr = s.pwr := by simp [State.farReturn]
@[simp] theorem State.planSlice_pwr (s : State) : (s.planSlice).pwr = s.pwr := by simp [State.planSlice]

@[simp] theorem execFarSliceJudge_pwr (logic memory stored : Bool) (s : State) :
    (execFarSliceJudge logic memory stored s).LeavesPwr s.pwr := by simp [execFarSliceJudge]

@[simp] theorem execFarSliceAbandon_pwr (s : State) : (execFarSliceAbandon s).LeavesPwr s.pwr := by simp [execFarSliceAbandon]

@[simp] theorem execFarReferenceCheck_pwr (part : AnalogPart) (ok : Bool) (s : State) :
    (execFarReferenceCheck part ok s).LeavesPwr s.pwr := by
  unfold execFarReferenceCheck
  repeat' split
  all_goals simp

/-! ### Board events (spec/23) -/

@[simp] theorem execRailRecheck_pwr (railsOk : Bool) (s : State) : (execRailRecheck railsOk s).LeavesPwr s.pwr := by
  simp [execRailRecheck]

/-! ### The channel controllers (spec/10 R241-R249) -/

@[simp] theorem execHbmRefresh_pwr (ch : Fin 128) (bank : Fin 32) (act : RefreshAct) (s : State) :
    (execHbmRefresh ch bank act s).LeavesPwr s.pwr := by
  unfold execHbmRefresh
  split <;> simp

@[simp] theorem execLoftRefresh_pwr (_ch : Fin 32) (_rank : Fin 2) (s : State) : (execLoftRefresh _ch _rank s).LeavesPwr s.pwr := by
  simp [execLoftRefresh]

@[simp] theorem execPatrolScrubRead_pwr (loft : Bool) (pa : BitVec 48) (res : EccResult) (s : State) :
    (execPatrolScrubRead loft pa res s).LeavesPwr s.pwr := by
  unfold execPatrolScrubRead
  dsimp only
  repeat' split
  all_goals simp

@[simp] theorem execLoftRateChange_pwr (s : State) : (execLoftRateChange s).LeavesPwr s.pwr := by simp [execLoftRateChange]
@[simp] theorem execLoftRateChangeEnd_pwr (s : State) : (execLoftRateChangeEnd s).LeavesPwr s.pwr := by simp [execLoftRateChangeEnd]

@[simp] theorem execMemChRetrain_pwr (mask : W32) (s : State) : (execMemChRetrain mask s).LeavesPwr s.pwr := by
  simp [execMemChRetrain]

@[simp] theorem execLoftRetrainDone_pwr (ch : Fin 32) (ok : Bool) (s : State) : (execLoftRetrainDone ch ok s).LeavesPwr s.pwr := by
  simp [execLoftRetrainDone]

/-! ### Site time (spec/02) -/

@[simp] theorem execPpsEdge_pwr (rising : Bool) (off : Fin 1000) (s : State) : (execPpsEdge rising off s).LeavesPwr s.pwr := by
  simp [execPpsEdge]

@[simp] theorem execArm_pwr (s : State) : (execArm s).LeavesPwr s.pwr := by simp [execArm]

@[simp] theorem execHoldoverEntry_pwr (s : State) : (execHoldoverEntry s).LeavesPwr s.pwr := by
  unfold execHoldoverEntry
  split <;> simp

@[simp] theorem execSyncRef10Change_pwr (present inRange : Bool) (s : State) :
    (execSyncRef10Change present inRange s).LeavesPwr s.pwr := by simp [execSyncRef10Change]

/-! ### Registers (spec/15 R338, R339) -/

@[simp] theorem State.setHigh_pwr (s : State) (f : Nat) (l : List (Nat × W32)) : (s.setHigh f l).pwr = s.pwr := by
  simp [State.setHigh]

@[simp] theorem State.read32_pwr (s : State) (f off : Nat) : (s.read32 f off).1.pwr = s.pwr := by
  unfold State.read32
  dsimp only
  repeat' split
  all_goals simp

@[simp] theorem State.hostRead_pwr (s : State) (f off size : Nat) : (s.hostRead f off size).1.pwr = s.pwr := by
  unfold State.hostRead
  repeat' split
  all_goals simp

@[simp] theorem State.timWrite_pwr (s : State) (o : Nat) (v : W64) : (s.timWrite o v).LeavesPwr s.pwr := by
  have armed (t : Tim) : (execArm { s with tim := t }).LeavesPwr s.pwr := execArm_pwr _
  simp [State.timWrite, armed]

@[simp] theorem State.schWrite_pwr (s : State) (o : Nat) (v : W64) : (s.schWrite o v).LeavesPwr s.pwr := by simp [State.schWrite]

@[simp] theorem State.memWrite_pwr (s : State) (o : Nat) (v : W64) : (s.memWrite o v).LeavesPwr s.pwr := by
  unfold State.memWrite
  repeat' split
  all_goals simp

@[simp] theorem State.grmWrite_pwr (s : State) (o : Nat) (v : W64) : (s.grmWrite o v).LeavesPwr s.pwr := by
  unfold State.grmWrite
  dsimp only
  split
  case h_2 =>
    refine andThen_nextPwr ?_ fun u same => ?_
    · split
      · exact execStage_pwr _
      · simp
    · split
      · exact same ▸ execActivate_pwr u
      · simpa using same
  all_goals simp

@[simp] theorem State.queueWrite_pwr (s : State) (f q k : Nat) (v : W64) : (s.queueWrite f q k v).LeavesPwr s.pwr := by
  unfold State.queueWrite
  dsimp only
  split
  case h_3 =>
    split
    · simp
    · split
      · exact execQueueEnable_pwr _ _ _ _
      · simp
  all_goals simp

@[simp] theorem State.msixWrite_pwr (s : State) (f e k : Nat) (v : W64) : (s.msixWrite f e k v).pwr = s.pwr := by
  unfold State.msixWrite
  split <;> simp

@[simp] theorem State.doorbellWrite_pwr (s : State) (f : Fn) (off size : Nat) (v : W64) :
    (s.doorbellWrite f off size v).LeavesPwr s.pwr := by simp [State.doorbellWrite]

@[simp] theorem State.recMissed_pwr (s : State) : (s.recMissed).pwr = s.pwr := by simp [State.recMissed]

@[simp] theorem State.readParts_pwr (s : State) (ps : List (Nat × Nat)) : (s.readParts ps).1.pwr = s.pwr := by
  simp [State.readParts]

@[simp] theorem State.windowRead_pwr (s : State) (off n : Nat) : (s.windowRead off n).1.pwr = s.pwr := by simp [State.windowRead]

/-! ### A beat -/

@[simp] theorem State.policyBeat_pwr (s : State) : (s.policyBeat).pwr = s.pwr := by simp [State.policyBeat]
@[simp] theorem State.dramBeat_pwr (s : State) : (s.dramBeat).pwr = s.pwr := by simp [State.dramBeat]
@[simp] theorem State.spoil_pwr (s : State) : (s.spoil).pwr = s.pwr := by simp [State.spoil]

end Sys2Proof.Machine
end

section
/-! SUPPORT. The range of a cap (spec/17 R378): what schedules, applies and lowers one, and the operations that change the power block and
neither cap. -/

namespace Sys2Proof.Machine

/-! ### The range -/

/-- The cap in effect lies in its range, and so does the one that waits, if one does (spec/17 R378). -/
def Pwr.CapOk (p : Pwr) : Prop := 160 ≤ p.cap ∧ p.cap ≤ 650 ∧ (p.next = 0 ∨ 160 ≤ p.next ∧ p.next ≤ 650)

/-- Only the two caps count. -/
theorem Pwr.capOk_congr {p q : Pwr} (hc : p.cap = q.cap) (hn : p.next = q.next) : p.CapOk ↔ q.CapOk := by
  simp only [Pwr.CapOk, hc, hn]

theorem Pwr.inRange_bounds (p : Pwr) (c : Nat) : 160 ≤ p.inRange c ∧ p.inRange c ≤ 650 := by
  unfold Pwr.inRange
  split <;> omega

/-- Without a cold plate a cap above 400 W is taken as 400 W (spec/17 R378). -/
theorem Pwr.inRange_uncooled {p : Pwr} {c : Nat} (h : p.cooled = false) (hc : 400 < c) : p.inRange c = 400 := by
  simp only [Pwr.inRange, h, Bool.false_eq_true, if_false]
  omega

/-- A cap that is scheduled waits in its range, unless it is the one in effect. -/
theorem Pwr.schedule_next (p : Pwr) (frame c : Nat) :
    (p.schedule frame c).next = if p.inRange c = p.cap then 0 else p.inRange c := by
  unfold Pwr.schedule
  split <;> simp [*]

theorem Pwr.schedule_capOk {p : Pwr} (h : p.CapOk) (frame c : Nat) : (p.schedule frame c).CapOk := by
  obtain ⟨lo, hi, -⟩ := h
  have same : (p.schedule frame c).cap = p.cap := by
    unfold Pwr.schedule
    dsimp only
    split <;> rfl
  refine ⟨same ▸ lo, same ▸ hi, ?_⟩
  rw [Pwr.schedule_next]
  split
  · exact .inl rfl
  · exact .inr (p.inRange_bounds c)

/-- A waiting cap that takes effect leaves none waiting. -/
theorem Pwr.CapOk.applied {p q : Pwr} (h : p.CapOk) (waits : p.next ≠ 0) (hc : q.cap = p.next) (hn : q.next = 0) : q.CapOk := by
  obtain ⟨-, -, none | ⟨lo, hi⟩⟩ := h
  · exact absurd none waits
  · exact ⟨hc ▸ lo, hc ▸ hi, .inl hn⟩

/-- A package found to lack its cold plate takes a cap in effect above 400 W as 400 W. -/
theorem Pwr.CapOk.lowered {p q : Pwr} (h : p.CapOk) (hc : q.cap = min 400 p.cap) (hn : q.next = p.next) : q.CapOk := by
  obtain ⟨lo, hi, waiting⟩ := h
  exact ⟨by omega, by omega, hn ▸ waiting⟩

theorem Pwr.reset_capOk {p : Pwr} (h : p.CapOk) : p.reset.CapOk := ⟨h.1, h.2.1, .inl rfl⟩

@[simp] theorem Pwr.ite_capOk (c : Prop) [Decidable c] (p q : Pwr) :
    (if c then p else q).CapOk ↔ if c then p.CapOk else q.CapOk := by
  split <;> rfl

theorem Pwr.limit_capOk (p : Pwr) (top avg : Nat) : (p.limit top avg).CapOk ↔ p.CapOk := by
  unfold Pwr.limit
  extract_lets cap q
  have same : q.CapOk ↔ p.CapOk := by
    unfold q
    split <;> exact Pwr.capOk_congr rfl rfl
  clear_value q
  rw [← same]
  repeat' split
  all_goals exact Pwr.capOk_congr rfl rfl

/-! ### What changes the power block and neither cap -/

theorem State.foldl_capOk {α : Type} {f : State → α → State} (hf : ∀ s a, (f s a).pwr.CapOk ↔ s.pwr.CapOk) (l : List α) (s : State) :
    (l.foldl f s).pwr.CapOk ↔ s.pwr.CapOk := by
  induction l generalizing s with
  | nil => rfl
  | cons a l ih => exact (ih (f s a)).trans (hf s a)

@[simp] theorem State.setRegion_capOk (s : State) (r : Nat) (x : Region) : (s.setRegion r x).pwr.CapOk ↔ s.pwr.CapOk := .rfl

theorem State.foldl_setRegion_capOk {α : Type} (r : State → α → Nat) (x : State → α → Region) (l : List α) (s : State) :
    (l.foldl (fun s a => s.setRegion (r s a) (x s a)) s).pwr.CapOk ↔ s.pwr.CapOk :=
  State.foldl_capOk (fun s _ => s.setRegion_capOk _ _) l s

@[simp] theorem oneBeat_capOk (s : State) : (oneBeat s).pwr.CapOk ↔ s.pwr.CapOk := by
  unfold oneBeat
  split
  · rfl
  · exact Pwr.capOk_congr rfl rfl

@[simp] theorem State.sendDemand_capOk (s : State) : s.sendDemand.pwr.CapOk ↔ s.pwr.CapOk := by
  unfold State.sendDemand
  split
  · rfl
  · simp only [State.bump_pwr, State.ite_pwr, State.send_pwr]
    split
    · exact Pwr.capOk_congr rfl rfl
    · rfl

@[simp] theorem State.setRail_capOk (s : State) (d : Nat) : (s.setRail d).pwr.CapOk ↔ s.pwr.CapOk := by
  unfold State.setRail
  split
  · rfl
  · exact Pwr.capOk_congr rfl rfl

@[simp] theorem State.changePoint_capOk (s : State) (r : Nat) : (s.changePoint r).pwr.CapOk ↔ s.pwr.CapOk := by
  simp [State.changePoint]

@[simp] theorem State.tempRead_capOk (s : State) (d : Nat) (t : BitVec 16) : (s.tempRead d t).pwr.CapOk ↔ s.pwr.CapOk :=
  Pwr.capOk_congr rfl rfl

@[simp] theorem State.endVtrip_capOk (s : State) (d : Nat) : (s.endVtrip d).pwr.CapOk ↔ s.pwr.CapOk := by
  unfold State.endVtrip
  split <;> exact Pwr.capOk_congr rfl rfl

@[simp] theorem State.newEstimates_capOk (s : State) : s.newEstimates.pwr.CapOk ↔ s.pwr.CapOk := by
  unfold State.newEstimates
  split
  · exact Pwr.capOk_congr rfl rfl
  · rfl

@[simp] theorem State.addEnergy_capOk (s : State) (avg : Nat) : (s.addEnergy avg).pwr.CapOk ↔ s.pwr.CapOk := Pwr.capOk_congr rfl rfl

@[simp] theorem State.noteCaps_capOk (s : State) (caps : List (Nat × Nat)) : (s.noteCaps caps).pwr.CapOk ↔ s.pwr.CapOk := by
  unfold State.noteCaps
  split
  · rfl
  · exact Pwr.capOk_congr rfl rfl

@[simp] theorem State.stable_capOk (s : State) (r : Nat) : (s.stable r).pwr.CapOk ↔ s.pwr.CapOk := by
  simp [State.stable]

@[simp] theorem State.wake_capOk (s : State) (r : Nat) : (s.wake r).pwr.CapOk ↔ s.pwr.CapOk := s.setRegion_capOk r _

@[simp] theorem State.forceDie_capOk (s : State) (d : Nat) : (s.forceDie d).pwr.CapOk ↔ s.pwr.CapOk :=
  (State.setRail_capOk _ d).trans (State.foldl_setRegion_capOk _ _ _ s)

@[simp] theorem State.dispatch_capOk (s : State) (c : Cmd) (express : Bool) (place : List Nat) :
    (s.dispatch c express place).pwr.CapOk ↔ s.pwr.CapOk := by
  simp [State.dispatch, State.foldl_setRegion_capOk]

@[simp] theorem State.arbitrate_capOk (s : State) (l : List Cmd) : (s.arbitrate l).pwr.CapOk ↔ s.pwr.CapOk := by
  induction l generalizing s with
  | nil => rfl
  | cons c l ih =>
    unfold State.arbitrate
    dsimp only
    repeat' split
    all_goals simp [ih]

@[simp] theorem State.express_capOk (s : State) (l : List Cmd) : (s.express l).pwr.CapOk ↔ s.pwr.CapOk := by
  induction l generalizing s with
  | nil => rfl
  | cons c l ih =>
    unfold State.express
    repeat' split
    all_goals simp [ih]

@[simp] theorem State.applyPwr_capOk (s : State) (g : Grm) : (s.applyPwr g).pwr.CapOk ↔ s.pwr.CapOk := Pwr.capOk_congr rfl rfl

@[simp] theorem State.reconfigure_capOk (s : State) (g : Grm) (boot renew : Bool) :
    (s.reconfigure g boot renew).pwr.CapOk ↔ s.pwr.CapOk := by
  simp [State.reconfigure]

/-! ### Resets, boot and the press (spec/17 R378, spec/18 R402) -/

theorem State.deviceReset_capOk {s : State} (h : s.pwr.CapOk) (keepBm : Bool) : (s.deviceReset keepBm).pwr.CapOk := by
  have kept : (((s.landReset).resetFns keepBm).resetTens).resetFar.pwr = s.pwr := by simp
  exact Pwr.reset_capOk (kept ▸ h)

theorem State.powerUp_capOk (s : State) : s.powerUp.pwr.CapOk := by
  simp [State.powerUp, Pwr.CapOk]

theorem State.applyMaps_capOk {s : State} (h : s.pwr.CapOk) : s.applyMaps.pwr.CapOk := by
  unfold State.applyMaps
  extract_lets f m s1
  have kept : s1.pwr = s.pwr := by
    unfold s1
    split <;> rfl
  rw [← kept] at h
  split
  · rename_i x _
    cases bitN x 16 with
    | true => exact (Pwr.capOk_congr rfl rfl).1 h
    | false => exact h.lowered rfl rfl
  · exact h.lowered rfl rfl

theorem State.loadStored_capOk {s : State} (h : s.pwr.CapOk) : s.loadStored.pwr.CapOk :=
  State.applyMaps_capOk ((State.reconfigure_capOk s _ true false).2 h)

theorem State.secBoot_capOk {s : State} (h : s.pwr.CapOk) (b : Bool) (i : Image) (recovery : Bool) :
    (s.secBoot b i recovery).pwr.CapOk := by
  unfold State.secBoot
  extract_lets s0 s1 board s2 s3 set s4 mode sec
  have logged : s2.pwr = s.pwr := by
    unfold s2 s1 s0
    split <;> simp
  clear_value s2
  have raised : s3.pwr = s2.pwr := State.foldl_pwr (fun u c => by split <;> simp) _ s2
  clear_value s3 set
  have started : s4.pwr = s3.pwr := by
    unfold s4
    split
    · exact State.foldl_pwr (fun u x => u.startGroom_pwr _ _ _) _ s3
    · rfl
  clear_value s4
  refine State.loadStored_capOk ?_
  rw [← logged, ← raised, ← started] at h
  exact h

theorem State.pressActs_capOk {s : State} (h : s.pwr.CapOk) : s.pressActs.pwr.CapOk := by
  unfold State.pressActs
  split
  · exact State.deviceReset_capOk (by exact h) true
  · simpa using h
  · exact State.deviceReset_capOk (by exact h) true
  · exact h

theorem State.takePress_capOk {s : State} (h : s.pwr.CapOk) (c : Nat) : (s.takePress c).pwr.CapOk := by
  unfold State.takePress
  split
  · exact State.pressActs_capOk h
  · exact h

end Sys2Proof.Machine
end

section
/-! SUPPORT. Every command and every beat keeps the caps in their range (spec/17 R378). -/

namespace Sys2Proof.Machine

/-! ### Commands of PWR (spec/17) -/

theorem execCapApply_capOk (recv : Option (BitVec 14 × List (Pk × BitVec 10))) {s : State} (h : s.pwr.CapOk) :
    (execCapApply recv s).NextPwr Pwr.CapOk := by
  refine whenAlive_nextPwr h ?_
  split
  · rename_i b caps
    split
    · exact h
    · dsimp only
      have noted := (s.noteCaps_capOk (caps.map fun x => (x.1.val, x.2.toNat))).2 h
      split
      · exact Pwr.schedule_capOk (by exact noted) _ _
      · exact noted
  · dsimp only
    split
    · exact h
    · rename_i due
      exact h.applied (fun none => due (.inl none)) rfl rfl

theorem execCabinetDivision_capOk {s : State} (h : s.pwr.CapOk) : (execCabinetDivision s).NextPwr Pwr.CapOk := by
  refine whenAlive_nextPwr h ?_
  split
  · exact h
  · split
    · exact Pwr.schedule_capOk h _ _
    · split
      · exact h
      · extract_lets B rs d own s1 old p
        have sent : p.CapOk := (s.noteCaps_capOk d.1).2 h
        clear_value own p
        dsimp only
        split
        · exact Pwr.schedule_capOk sent _ _
        · exact sent

theorem execPwrCabBudget_capOk (v : W32) {s : State} (h : s.pwr.CapOk) : (execPwrCabBudget v s).NextPwr Pwr.CapOk := by
  refine whenHost_nextPwr h fun u hu => ?_
  dsimp only
  split
  · exact hu
  · split <;> exact hu

theorem execDemandReport_capOk (pkg : Pk) (demand floor largest : Nat) {s : State} (h : s.pwr.CapOk) :
    (execDemandReport pkg demand floor largest s).NextPwr Pwr.CapOk := by
  refine whenAlive_nextPwr h ?_
  split <;> exact h

theorem execLimiterTick_capOk (avg : BitVec 16) {s : State} (h : s.pwr.CapOk) : (execLimiterTick avg s).NextPwr Pwr.CapOk := by
  refine whenAlive_nextPwr h ?_
  split
  · exact h
  · have counted : (s.addEnergy avg.toNat).newEstimates.pwr.CapOk := by simpa using h
    exact ((Pwr.limit_capOk _ (s.addEnergy avg.toNat).newEstimates.topPoint avg.toNat).2 counted)

theorem execGrantUpdate_capOk (t0 t1 tio : BitVec 16) {s : State} (h : s.pwr.CapOk) :
    (execGrantUpdate t0 t1 tio s).NextPwr Pwr.CapOk := by
  refine whenAlive_nextPwr h ?_
  split
  · exact h
  · extract_lets ts cool _ s1 phases _ read
    split
    · exact (State.foldl_setRegion_capOk _ _ _ s1).2 h
    · have heard : read.pwr.CapOk := by
        refine (State.foldl_capOk (fun u x => u.tempRead_capOk _ _) _ _).2 ?_
        dsimp only
        split
        · split <;> exact h
        · exact h
      refine (State.foldl_setRegion_capOk _ _ _ _).2 ((State.endVtrip_capOk _ 1).2 ((State.endVtrip_capOk _ 0).2 ?_))
      exact heard

theorem execOpChange_capOk (r : Rg) {s : State} (h : s.pwr.CapOk) : (execOpChange r s).NextPwr Pwr.CapOk :=
  whenAlive_nextPwr h (by split <;> simpa using h)

theorem execOpClockSwitch_capOk (r : Rg) {s : State} (h : s.pwr.CapOk) : (execOpClockSwitch r s).NextPwr Pwr.CapOk := by
  refine whenAlive_nextPwr h ?_
  dsimp only
  split <;> simpa using h

theorem execStableRegion_capOk (r : Rg) {s : State} (h : s.pwr.CapOk) : (execStableRegion r s).NextPwr Pwr.CapOk :=
  whenAlive_nextPwr h (by simpa using h)

theorem execWakeRegion_capOk (r : Rg) {s : State} (h : s.pwr.CapOk) : (execWakeRegion r s).NextPwr Pwr.CapOk :=
  whenAlive_nextPwr h (by simpa using h)

theorem execWakeDone_capOk (r : Rg) {s : State} (h : s.pwr.CapOk) : (execWakeDone r s).NextPwr Pwr.CapOk :=
  whenAlive_nextPwr h (by simpa using h)

theorem execDroopDetect_capOk (r : Rg) {s : State} (h : s.pwr.CapOk) : (execDroopDetect r s).NextPwr Pwr.CapOk := by
  refine whenAlive_nextPwr h ?_
  dsimp only
  split <;> exact h

theorem execDroopEnd_capOk (r : Rg) {s : State} (h : s.pwr.CapOk) : (execDroopEnd r s).NextPwr Pwr.CapOk :=
  whenAlive_nextPwr h h

theorem execThermalForce_capOk (d : Fin 3) (reading : BitVec 16) {s : State} (h : s.pwr.CapOk) :
    (execThermalForce d reading s).NextPwr Pwr.CapOk := by
  refine whenAlive_nextPwr h ?_
  split
  · exact h
  · split
    · exact h
    · exact (State.foldl_capOk State.forceDie_capOk _ _).2 h

theorem execThermalRelease_capOk (d : Fin 3) {s : State} (h : s.pwr.CapOk) : (execThermalRelease d s).NextPwr Pwr.CapOk := by
  refine whenAlive_nextPwr h ?_
  split <;> exact h

theorem execVoltageTrip_capOk (d : Fin 2) {s : State} (h : s.pwr.CapOk) : (execVoltageTrip d s).NextPwr Pwr.CapOk :=
  whenAlive_nextPwr h ((State.forceDie_capOk _ _).2 h)

theorem execThermtrip_capOk (d : Fin 3) (reading : BitVec 16) {s : State} (h : s.pwr.CapOk) :
    (execThermtrip d reading s).NextPwr Pwr.CapOk := by
  rw [execThermtrip, Out.nextPwr_next]
  split <;> exact h

theorem execRegulatorNotAnswering_capOk (rail : Fin 12) (answers : Bool) {s : State} (h : s.pwr.CapOk) :
    (execRegulatorNotAnswering rail answers s).NextPwr Pwr.CapOk := whenAlive_nextPwr h h

/-! ### Dispatch, the live set and the test slices -/

theorem execCommandDispatch_capOk {s : State} (h : s.pwr.CapOk) : (execCommandDispatch s).NextPwr Pwr.CapOk :=
  whenAlive_nextPwr h (by simpa using h)

theorem execExpressDispatch_capOk {s : State} (h : s.pwr.CapOk) : (execExpressDispatch s).NextPwr Pwr.CapOk :=
  whenAlive_nextPwr h (by simpa using h)

theorem execFarSliceStart_capOk {s : State} (h : s.pwr.CapOk) : (execFarSliceStart s).NextPwr Pwr.CapOk := by
  refine whenAlive_nextPwr h ?_
  dsimp only
  split
  · exact h
  · split
    · split <;> simpa using h
    · simpa using h

theorem execLiveSetUpdate_capOk {s : State} (h : s.pwr.CapOk) : (execLiveSetUpdate s).NextPwr Pwr.CapOk := by
  refine whenAlive_nextPwr h ?_
  split
  · exact h
  · simp only [State.sendDemand_capOk, State.send_pwr, State.depart_pwr, State.applyRoutes_pwr]
    repeat' split
    all_goals exact h

/-! ### Configuration, resets, boot and power -/

theorem execConfigApply_capOk {s : State} (h : s.pwr.CapOk) : (execConfigApply s).NextPwr Pwr.CapOk := by
  refine whenAlive_nextPwr h ?_
  dsimp only
  split
  · exact h
  · exact (State.reconfigure_capOk _ _ _ _).2 h

theorem execOverlaySwitch_capOk {s : State} (h : s.pwr.CapOk) : (execOverlaySwitch s).NextPwr Pwr.CapOk := by
  refine whenAlive_nextPwr h ?_
  split
  · exact h
  · split <;> simpa using h

theorem execDevReset_capOk (cause : ResetCause) {s : State} (h : s.pwr.CapOk) : (execDevReset cause s).NextPwr Pwr.CapOk :=
  whenAlive_nextPwr h (State.deviceReset_capOk h _)

theorem execFlr_capOk (r : FnReset) {s : State} (h : s.pwr.CapOk) : (execFlr r s).NextPwr Pwr.CapOk := by
  have reset : (if r.fn.val = 0 then s.deviceReset false else s.functionReset r.fn false).pwr.CapOk := by
    split
    · exact State.deviceReset_capOk h false
    · simpa using h
  refine whenAlive_nextPwr h ?_
  split
  · exact h
  · split
    · exact h
    · dsimp only
      split <;> exact reset

theorem execPerstN_capOk (level : Bool) {s : State} (h : s.pwr.CapOk) : (execPerstN level s).NextPwr Pwr.CapOk := by
  unfold execPerstN
  split
  · exact (Out.nextPwr_next s).2 h
  · rw [Out.nextPwr_next]
    show (if !level && s.alive then s.deviceReset false else s).pwr.CapOk
    split
    · exact State.deviceReset_capOk h false
    · exact h

theorem execSysPwrokRise_capOk (railsOk : Bool) (hottest : BitVec 16) {s : State} (h : s.pwr.CapOk) :
    (execSysPwrokRise railsOk hottest s).NextPwr Pwr.CapOk := by
  unfold execSysPwrokRise
  split
  · exact (Out.nextPwr_next s).2 h
  · exact (Out.nextPwr_next _).2 s.powerUp_capOk

theorem execSysPwrokFall_capOk {s : State} (h : s.pwr.CapOk) : (execSysPwrokFall s).NextPwr Pwr.CapOk := by
  unfold execSysPwrokFall
  split
  · exact (Out.nextPwr_next _).2 s.powerUp_capOk
  · exact (Out.nextPwr_next s).2 h

theorem execVddAonRemoved_capOk {s : State} (h : s.pwr.CapOk) : (execVddAonRemoved s).NextPwr Pwr.CapOk := by
  have off : (if s.board.pwrok then s.powerUp else s).pwr.CapOk := by
    split
    · exact s.powerUp_capOk
    · exact h
  exact (Out.nextPwr_next _).2 (by exact off)

theorem execBoot_capOk {s : State} (h : s.pwr.CapOk) : (execBoot s).NextPwr Pwr.CapOk := by
  refine whenAlive_nextPwr h ?_
  split
  · exact h
  · dsimp only
    split
    · exact State.secBoot_capOk (by simpa using h) _ _ _
    · simpa using h

theorem execSecRomLoad_capOk (len : BitVec 23) {s : State} (h : s.pwr.CapOk) : (execSecRomLoad len s).NextPwr Pwr.CapOk := by
  refine whenHost_nextPwr h fun u hu => ?_
  split
  · exact hu
  · split
    · exact State.secBoot_capOk (by exact hu) false _ true
    · exact hu

theorem execRecoverNPress_capOk {s : State} (h : s.pwr.CapOk) : (execRecoverNPress s).NextPwr Pwr.CapOk := by
  refine whenAlive_nextPwr h ?_
  split
  · exact h
  · split
    · exact State.pressActs_capOk h
    · exact h

theorem execTrialReady_capOk (c : Gc) {s : State} (h : s.pwr.CapOk) : (execTrialReady c s).NextPwr Pwr.CapOk := by
  refine whenAlive_nextPwr h ?_
  dsimp only
  split
  · exact h
  · exact State.takePress_capOk (by exact h) c

theorem execGroomBackInService_capOk (c : Gc) {s : State} (h : s.pwr.CapOk) :
    (execGroomBackInService c s).NextPwr Pwr.CapOk :=
  whenAlive_nextPwr h (State.takePress_capOk (by simpa using h) c)

/-! ### Register writes (spec/15 R342-R344) -/

theorem State.pwrWrite_capOk {s : State} (h : s.pwr.CapOk) (o : Nat) (v : W64) : (s.pwrWrite o v).NextPwr Pwr.CapOk := by
  unfold State.pwrWrite
  dsimp only
  split
  · exact execPwrCabBudget_capOk _ h
  · split
    · exact (Out.nextPwr_next _).2 h
    · split <;> exact (Out.nextPwr_next _).2 h

theorem State.secWrite_capOk {s : State} (h : s.pwr.CapOk) (o : Nat) (v : W64) : (s.secWrite o v).NextPwr Pwr.CapOk := by
  unfold State.secWrite
  dsimp only
  split
  · exact (Out.nextPwr_next _).2 h
  · split
    · refine andThen_nextPwr ?_ fun u hu => ?_
      · split
        · exact (execSecOwnerArm_pwr s).nextPwr h
        · exact (Out.nextPwr_next _).2 h
      · split
        · exact (execSecOwnerDebug_pwr u).nextPwr hu
        · exact (Out.nextPwr_next u).2 hu
    · split
      · exact (Out.nextPwr_next _).2 h
      · split
        · exact (Out.nextPwr_next _).2 h
        · split
          · exact execSecRomLoad_capOk _ h
          · exact (Out.nextPwr_next _).2 h

theorem State.fnCtrl_capOk {s : State} (h : s.pwr.CapOk) (f : Fn) (v : W64) : (s.fnCtrl f v).NextPwr Pwr.CapOk := by
  unfold State.fnCtrl
  split
  · exact execDevReset_capOk _ h
  · refine andThen_nextPwr ?_ fun u hu => andThen_nextPwr ?_ fun w hw => ?_
    · split
      · exact (execFnReset_pwr s).nextPwr h
      · exact (Out.nextPwr_next s).2 h
    · split
      · exact (execRecover_pwr u).nextPwr hu
      · exact (Out.nextPwr_next u).2 hu
    · split
      · exact (execFnCtrlEnable_pwr f _ w).nextPwr hw
      · exact (Out.nextPwr_next w).2 hw

theorem State.fnWrite_capOk {s : State} (h : s.pwr.CapOk) (f : Fn) (o : Nat) (v : W64) (lo : Bool) :
    (s.fnWrite f o v lo).NextPwr Pwr.CapOk := by
  unfold State.fnWrite
  dsimp only
  split
  · exact State.fnCtrl_capOk h f v
  · split <;> exact (Out.nextPwr_next _).2 h
  · exact (Out.nextPwr_next _).2 h
  · split
    · exact (execFnAttReq_pwr f s).nextPwr h
    · exact (Out.nextPwr_next _).2 h
  · exact (Out.nextPwr_next _).2 h
  · exact (Out.nextPwr_next _).2 h
  · split
    · exact (Out.nextPwr_next _).2 h
    · split
      · exact (State.queueWrite_pwr s _ _ _ v).nextPwr h
      · split
        · exact (Out.nextPwr_next _).2 (by simpa using h)
        · exact (Out.nextPwr_next _).2 h

theorem State.regWrite_capOk {s : State} (h : s.pwr.CapOk) (f : Fn) (off : Nat) (v : W64) (lo : Bool) :
    (s.regWrite f off v lo).NextPwr Pwr.CapOk := by
  have none : Out.NextPwr Pwr.CapOk (.next s) := (Out.nextPwr_next s).2 h
  unfold State.regWrite
  split
  · split
    · exact State.fnWrite_capOk h f _ v lo
    · exact none
  · split
    · split
      · exact State.fnWrite_capOk h f _ v lo
      · exact none
    · dsimp only
      split
      · exact (State.timWrite_pwr s _ v).nextPwr h
      · exact State.pwrWrite_capOk h _ v
      · exact (State.schWrite_pwr s _ v).nextPwr h
      · exact (State.memWrite_pwr s _ v).nextPwr h
      · exact State.secWrite_capOk h _ v
      · exact (State.grmWrite_pwr s _ v).nextPwr h
      · exact none

theorem State.write32_capOk {s : State} (h : s.pwr.CapOk) (f : Fn) (off : Nat) (w : W32) : (s.write32 f off w).NextPwr Pwr.CapOk := by
  unfold State.write32
  split
  · exact (Out.nextPwr_next s).2 h
  · exact State.regWrite_capOk (by exact h) f off _ true
  · exact (Out.nextPwr_next _).2 h
  · exact State.regWrite_capOk (by exact h) f _ _ _

theorem State.hostWrite_capOk {s : State} (h : s.pwr.CapOk) (f : Fn) (off size : Nat) (v : W64) :
    (s.hostWrite f off size v).NextPwr Pwr.CapOk := by
  unfold State.hostWrite
  split
  · exact State.write32_capOk h f off _
  · split
    · split
      · exact State.regWrite_capOk (by exact h) f off v true
      · exact andThen_nextPwr (State.write32_capOk h f off _) fun u hu => State.write32_capOk hu f _ _
    · exact (Out.nextPwr_next s).2 h

theorem execRegisterWrite_capOk (f : Fn) (at' : BarOff) (size : Nat) (v : W64) {s : State} (h : s.pwr.CapOk) :
    (execRegisterWrite f at' size v s).NextPwr Pwr.CapOk := by
  unfold execRegisterWrite
  split
  · exact (Out.nextPwr_next s).2 h
  · split
    · exact State.hostWrite_capOk h f _ size v
    · exact (State.doorbellWrite_pwr s f _ size v).nextPwr h

theorem State.writeParts_capOk (bs : List (Nat × Byte)) (ps : List (Nat × Nat)) {s : State} (h : s.pwr.CapOk) :
    (s.writeParts bs ps).NextPwr Pwr.CapOk := by
  induction ps generalizing s with
  | nil => exact (Out.nextPwr_next s).2 h
  | cons p ps ih =>
    unfold State.writeParts
    refine andThen_nextPwr (State.hostWrite_capOk ?_ _ _ _ _) fun u hu => ih hu
    split
    · exact h
    · simpa using h

theorem execRecoveryWindowAccess_capOk (off : W32) (data : List Byte ⊕ Nat) {s : State} (h : s.pwr.CapOk) :
    (execRecoveryWindowAccess off data s).NextPwr Pwr.CapOk := by
  unfold execRecoveryWindowAccess
  cases data with
  | inl bs =>
    dsimp only
    split
    · exact (Out.nextPwr_next s).2 h
    · exact State.writeParts_capOk _ _ (by simpa using h)
  | inr k =>
    dsimp only
    split
    · exact (Out.nextPwr_next s).2 h
    · exact (Out.nextPwr_next _).2 (by simpa using h)

/-! ### A step -/

theorem State.regBeat_capOk {s : State} (h : s.pwr.CapOk) : s.regBeat.pwr.CapOk := by
  refine List.foldlRecOn (motive := fun t : State => t.pwr.CapOk) _ _ h fun t ht k _ => ?_
  dsimp only
  split
  · rename_i u written
    exact State.writeParts_capOk _ _ ht u written
  · exact ht

theorem idleBeat_capOk {s : State} (h : s.pwr.CapOk) : (idleBeat s).pwr.CapOk := by
  have beaten : (oneBeat (if s.alive then s.policyBeat else s)).pwr.CapOk := by simpa using h
  unfold idleBeat
  dsimp only
  generalize oneBeat (if s.alive then s.policyBeat else s) = u at beaten ⊢
  split
  · simpa using State.regBeat_capOk beaten
  · exact beaten

theorem exec_capOk (i : Instr) {s : State} (h : s.pwr.CapOk) : Out.NextPwr Pwr.CapOk (exec i s) := by
  cases i
  case capApply recv => exact execCapApply_capOk recv h
  case cabinetDivision => exact execCabinetDivision_capOk h
  case pwrCabBudget v => exact execPwrCabBudget_capOk v h
  case demandReport pkg demand floor largest => exact execDemandReport_capOk pkg demand floor largest h
  case limiterTick avg => exact execLimiterTick_capOk avg h
  case grantUpdate t0 t1 tio => exact execGrantUpdate_capOk t0 t1 tio h
  case opChange r => exact execOpChange_capOk r h
  case opClockSwitch r => exact execOpClockSwitch_capOk r h
  case stableRegion r => exact execStableRegion_capOk r h
  case wakeRegion r => exact execWakeRegion_capOk r h
  case wakeDone r => exact execWakeDone_capOk r h
  case droopDetect r => exact execDroopDetect_capOk r h
  case droopEnd r => exact execDroopEnd_capOk r h
  case thermalForce d reading => exact execThermalForce_capOk d reading h
  case thermalRelease d => exact execThermalRelease_capOk d h
  case voltageTrip d => exact execVoltageTrip_capOk d h
  case thermtrip d reading => exact execThermtrip_capOk d reading h
  case regulatorNotAnswering rail answers => exact execRegulatorNotAnswering_capOk rail answers h
  case commandDispatch => exact execCommandDispatch_capOk h
  case expressDispatch => exact execExpressDispatch_capOk h
  case farSliceStart => exact execFarSliceStart_capOk h
  case liveSetUpdate => exact execLiveSetUpdate_capOk h
  case configApply => exact execConfigApply_capOk h
  case overlaySwitch => exact execOverlaySwitch_capOk h
  case devReset cause => exact execDevReset_capOk cause h
  case flr r => exact execFlr_capOk r h
  case perstN level => exact execPerstN_capOk level h
  case sysPwrokRise railsOk hottest => exact execSysPwrokRise_capOk railsOk hottest h
  case sysPwrokFall => exact execSysPwrokFall_capOk h
  case vddAonRemoved => exact execVddAonRemoved_capOk h
  case boot => exact execBoot_capOk h
  case secRomLoad len => exact execSecRomLoad_capOk len h
  case recoverNPress => exact execRecoverNPress_capOk h
  case trialReady c => exact execTrialReady_capOk c h
  case groomBackInService c => exact execGroomBackInService_capOk c h
  case registerWrite f at' size v => exact execRegisterWrite_capOk f at' size v h
  case recoveryWindowAccess off data => exact execRecoveryWindowAccess_capOk off data h
  all_goals exact Out.LeavesPwr.nextPwr (by simp [exec]) h

/-- A step keeps the caps in their range. -/
theorem step_capOk {s : State} (h : s.pwr.CapOk) : Out.NextPwr Pwr.CapOk (step s) := by
  unfold step
  split
  · exact (Out.nextPwr_next _).2 (idleBeat_capOk h)
  · exact exec_capOk _ h

/-- Settles O56: what a step does to the caps, PWR's own commands, resets and the boot apart from all that leaves the power block
alone. -/
theorem capStaysInRange : Obligations.CapStaysInRange := by
  refine ⟨by decide, fun s t lo hi waiting stepped => step_capOk ⟨lo, hi, waiting⟩ t stepped, fun p frame c cold high => ?_⟩
  rw [Pwr.schedule_next, Pwr.inRange_uncooled cold high]
  split
  · rename_i same
    exact .inr ⟨rfl, same.symm⟩
  · rename_i other
    exact .inl ⟨rfl, fun same => other same.symm⟩

end Sys2Proof.Machine
end

section
/-! SUPPORT. What a function-level reset does with commands, contexts and mappings leaves the tack room, the cameras and the attestation
registers of every function alone (spec/15 R357, R360). One lemma for each operation, composed by transitivity. -/

/-! Proofs are checked one after another, as the tests are: a thread for each of them would be too many. -/

set_option Elab.async false

namespace Sys2Proof.Machine

/-- A function's attestation registers (spec/19 R414). -/
def FnBlk.att (b : FnBlk) : Bool × Bool × BitVec 4 × W64 × SMap W32 := (b.attBusy, b.attDone, b.attCode, b.attDst, b.attNonce)

/-- The tack room and the camera block are as they were, and so are the attestation registers of every function of a table in its
canonical form, which it keeps. -/
structure State.Spares (s t : State) : Prop where
  sec : t.sec = s.sec
  cam : t.cam = s.cam
  fnsWf : smWf ({} : FnBlk) s.fns = true → smWf ({} : FnBlk) t.fns = true
  att : smWf ({} : FnBlk) s.fns = true → ∀ f, (t.fn f).att = (s.fn f).att

theorem State.Spares.of_same {s t : State} (h : (t.sec, t.cam, t.fns) = (s.sec, s.cam, s.fns) := by rfl) : s.Spares t := by
  simp only [Prod.mk.injEq] at h
  obtain ⟨sec, cam, fns⟩ := h
  exact ⟨sec, cam, fun wf => by rwa [fns], fun _ f => by rw [State.fn, State.fn, fns]⟩

theorem State.Spares.refl (s : State) : s.Spares s := .of_same

theorem State.Spares.trans {s t u : State} (h : s.Spares t) (k : t.Spares u) : s.Spares u :=
  ⟨k.sec.trans h.sec, k.cam.trans h.cam, fun wf => k.fnsWf (h.fnsWf wf), fun wf f => (k.att (h.fnsWf wf) f).trans (h.att wf f)⟩

theorem State.Spares.foldl {α : Type} {f : State → α → State} (hf : ∀ (s : State) (a : α), s.Spares (f s a)) :
    ∀ (l : List α) (s : State), s.Spares (l.foldl f s)
  | [], s => .refl s
  | a :: l, s => (hf s a).trans (State.Spares.foldl hf l (f s a))

/-! ### Functions and their completions (spec/15 R345, R350, R352) -/

/-- A change of a function that is none of its attestation registers. -/
theorem State.modFn_spares (s : State) (f : Nat) {u : FnBlk → FnBlk} (hu : ∀ b, (u b).att = b.att) : s.Spares (s.modFn f u) := by
  refine ⟨rfl, rfl, fun wf => smWf_smPut _ _ _ _ wf, fun wf g => ?_⟩
  by_cases hg : g = f
  · subst hg
    rw [State.modFn, State.fn_setFn_same _ _ _ wf, hu]
  · rw [State.modFn, State.fn_setFn_other _ _ _ _ hg wf]

theorem State.fnCount_spares (s : State) (f k n : Nat) : s.Spares (s.fnCount f k n) := s.modFn_spares f fun _ => rfl
theorem State.setQueue_spares (s : State) (f q : Nat) (x : Queue) : s.Spares (s.setQueue f q x) := s.modFn_spares f fun _ => rfl

theorem State.msix_spares (s : State) (f v : Nat) : s.Spares (s.msix f v) := by
  unfold State.msix
  dsimp only
  split
  · exact s.modFn_spares f (u := fun b => { b with msixPend := putBit b.msixPend v true }) fun _ => rfl
  · exact .of_same

theorem State.writeCq_spares (s : State) (f q : Nat) (c : Compl) : s.Spares (s.writeCq f q c) := by
  refine State.Spares.trans ?_ (State.msix_spares _ f _)
  exact State.Spares.trans .of_same (State.setQueue_spares _ f q _)

theorem State.deliver_spares (s : State) (f q : Nat) (c : Compl) : s.Spares (s.deliver f q c) := by
  unfold State.deliver
  dsimp only
  split
  · split
    · exact s.fnCount_spares f 8 1
    · exact (s.setQueue_spares f q _).trans (State.fnCount_spares _ f 7 1)
  · exact s.writeCq_spares f q c

theorem State.complete_spares (s : State) (f q : Nat) (c : Compl) : s.Spares (s.complete f q c) := by
  unfold State.complete
  dsimp only
  split
  · exact s.setQueue_spares f q _
  · exact s.deliver_spares f q c

theorem State.answer_spares (s : State) (f : Nat) (cid : BitVec 16) (status : Byte) (result : W64) :
    s.Spares (s.answer f cid status result) :=
  (s.modFn_spares f (u := fun b => { b with reqs := b.reqs.filter fun r => r.cid != cid }) fun _ => rfl).trans
    (State.complete_spares _ f 0 _)

theorem State.notice_spares (s : State) (t code : Nat) (arg : W64) : s.Spares (s.notice t code arg) := by
  unfold State.notice
  split
  · exact .refl s
  · split
    · exact s.complete_spares t 0 _
    · exact s.fnCount_spares t 8 1

/-! ### Writes and the channels (spec/10 R235-R247) -/

theorem State.eccError_spares (s : State) (pa source : Nat) : s.Spares (s.eccError pa source) := by
  unfold State.eccError
  dsimp only
  split
  · refine State.Spares.trans .of_same (State.Spares.foldl (fun u t => ?_) _ _)
    split
    · exact u.notice_spares t _ _
    · exact .refl u
  · exact .of_same

/-- Bytes put one after another. -/
theorem State.puts_spares {α : Type} (a : α → Nat) (m v : α → Byte) (l : List α) (s : State) :
    s.Spares (l.foldl (fun s x => s.put (a x) (m x) (v x)) s) := State.Spares.foldl (fun _ _ => .of_same) l s

theorem State.serveChan_spares (s : State) (ch n : Nat) : s.Spares (s.serveChan ch n) := by
  refine State.Spares.trans (State.Spares.foldl (fun u r => ?_) _ s) .of_same
  unfold State.judge
  dsimp only
  repeat' split
  all_goals exact .of_same

theorem State.apply_spares (s : State) (source : Nat) (ws : List (Nat × Byte × Byte)) : s.Spares (s.apply source ws) := by
  refine State.Spares.trans ?_ (State.puts_spares _ _ _ _ _)
  unfold State.taken
  dsimp only
  split
  · exact .refl s
  · exact State.Spares.trans .of_same (State.Spares.foldl (fun u w => u.eccError_spares _ _) _ _)

theorem State.corrects_spares (s : State) (r : ChReq) : s.Spares (s.corrects r) := by
  unfold State.corrects
  dsimp only
  repeat' split
  all_goals exact .of_same

theorem State.enter_spares (s : State) (ch : Nat) : s.Spares (s.enter ch) := by
  unfold State.enter
  split
  · exact .refl s
  · split
    · exact .refl s
    · have served : s.Spares (if (s.chan ch).queue.length < 32 then s else s.serveChan ch 1) := by
        split
        · exact .refl s
        · exact s.serveChan_spares ch 1
      exact ((served.trans (State.apply_spares _ _ _)).trans (State.corrects_spares _ _)).trans .of_same

theorem State.enterAll_spares (p : ChReq → Bool) : ∀ (n : Nat) (s : State), s.Spares (s.enterAll p n)
  | 0, s => .refl s
  | n + 1, s => by
    unfold State.enterAll
    split
    · exact .refl s
    · split
      · exact (s.enter_spares _).trans (State.enterAll_spares p n _)
      · exact State.Spares.trans .of_same (State.enterAll_spares p n _)

theorem State.wrVa_spares (s : State) (t va : Nat) (bs : List Byte) (src : Nat) : s.Spares (s.wrVa t va bs src) := by
  refine State.Spares.trans ?_ (State.enterAll_spares _ _ _)
  exact (State.puts_spares (fun x : Nat × Byte × Byte => x.1) (·.2.1) (·.2.2) _ s).trans .of_same

/-! ### Commands (spec/02 R44) -/

theorem State.landKilled_spares (s : State) (cmd : Nat) : s.Spares (s.landKilled cmd) := by
  unfold State.landKilled
  split
  · exact .refl s
  · exact (State.puts_spares (fun x : PWrite × Nat => x.1.addr) (·.1.mask) (·.1.val) _ s).trans .of_same

theorem State.ctxIdle_spares (s : State) (x : Nat) : s.Spares (s.ctxIdle x) := by
  unfold State.ctxIdle
  dsimp only
  split
  · split
    · exact State.Spares.trans .of_same (State.answer_spares _ _ _ _ _)
    · exact .of_same
  · exact .refl s

theorem State.returnRuns_spares (s : State) (c : Cmd) (i : Inst) : s.Spares (s.returnRuns c i) := by
  refine State.Spares.foldl (fun s f => ?_) _ s
  dsimp only
  split
  · exact .of_same
  · exact .refl s

theorem State.killRun_spares (s : State) (c : Cmd) : s.Spares (s.killRun c) := by
  unfold State.killRun
  split
  · exact .refl s
  · refine State.Spares.trans ?_ (State.Spares.foldl (fun s x => s.ctxIdle_spares x) _ _)
    refine State.Spares.trans (t := State.landKilled _ c.id) ?_ .of_same
    refine State.Spares.trans ?_ (State.landKilled_spares _ _)
    refine State.Spares.trans ?_ (State.Spares.foldl (fun _ _ => .of_same) _ _)
    refine State.Spares.trans ?_ (State.Spares.foldl (fun s (x : Nat × Inst) => s.returnRuns_spares c x.2) _ _)
    refine State.Spares.foldl (fun s g => ?_) _ s
    split
    · exact s.returnRuns_spares c _
    · exact .refl s

theorem State.discardCmds_spares (s : State) (f : Nat) : s.Spares (s.discardCmds f) :=
  State.Spares.foldl (fun s c => (s.killRun_spares c).trans .of_same) _ s

/-! ### Contexts and prefixes (spec/13 R315) -/

theorem State.freeRuns_spares (s : State) (t l : Nat) (rs : List (Nat × Nat)) : s.Spares (s.freeRuns t l rs) := by
  unfold State.freeRuns
  split
  · exact .refl s
  · exact .of_same

theorem State.sweepOnce_spares (s : State) : s.Spares s.sweepOnce := by
  unfold State.sweepOnce
  split
  · exact .refl s
  · extract_lets v s1 s2
    have freed : s.Spares s2 := State.Spares.trans (t := s1) .of_same (s1.freeRuns_spares _ _ _)
    clear_value s2
    split
    · exact freed.trans .of_same
    · exact freed

theorem State.sweepPfx_spares : ∀ (n : Nat) (s : State), s.Spares (s.sweepPfx n)
  | 0, s => .refl s
  | n + 1, s => s.sweepOnce_spares.trans (State.sweepPfx_spares n s.sweepOnce)

theorem State.dropServing_spares (s : State) (t : Nat) : s.Spares (s.dropServing t) := by
  unfold State.dropServing
  exact State.Spares.trans .of_same (State.sweepPfx_spares _ _)

/-! ### Mappings and layouts (spec/09 R234, spec/12 R282) -/

theorem State.zeroHists_spares (s : State) (t : Nat) : s.Spares (s.zeroHists t) := by
  refine State.Spares.foldl (fun u e => ?_) _ s
  split
  · exact u.wrVa_spares t _ _ _
  · exact .refl u

theorem State.unmapLeaves_spares (s : State) (t : Nat) (p : Leaf → Bool) : s.Spares (s.unmapLeaves t p) := by
  unfold State.unmapLeaves
  refine State.Spares.trans ?_ (State.Spares.foldl (fun _ _ => .of_same) _ _)
  exact (State.Spares.foldl (f := State.abandon) (fun _ _ => .of_same) _ s).trans .of_same

end Sys2Proof.Machine
end

section
/-! SUPPORT. What a lookup answers in a table whose every entry was changed. -/

namespace Sys2Proof.Machine

theorem smAbove_smMap {v : Type} [DecidableEq v] (d : v) {k : Nat} {m : SMap v} (f : Nat → v → v) (h : smAbove k m) :
    smAbove k (smMap d m f) := by
  refine smAbove_filter _ fun e he => ?_
  obtain ⟨e', he', rfl⟩ := List.mem_map.1 he
  exact h e' he'

/-- An entry reads as changed, and one that is not listed as the default, where the change leaves that. -/
theorem smGet_smMap {v : Type} [DecidableEq v] (d : v) (m : SMap v) (f : Nat → v → v) (k : Nat) (hf : f k d = d)
    (h : smWf d m = true) : smGet d (smMap d m f) k = f k (smGet d m k) := by
  induction m with
  | nil => exact hf.symm
  | cons e m ih =>
    obtain ⟨j, x⟩ := e
    obtain ⟨-, above, wf⟩ := (smWf_cons d j x m).1 h
    have gone (hk : k ≤ j) : smGet d (smMap d m f) k = d := smGet_above d _ k (smAbove_smMap d f (smAbove_le hk above))
    have cons : smMap d ((j, x) :: m) f = if f j x = d then smMap d m f else (j, f j x) :: smMap d m f := by
      by_cases hx : f j x = d <;> simp [smMap, hx]
    rw [cons]
    rcases Nat.lt_trichotomy j k with hjk | rfl | hkj
    · have other : smGet d ((j, x) :: m) k = smGet d m k := by
        rw [smGet, if_neg (by omega), if_neg (by omega)]
      rw [other, ← ih wf]
      split
      · rfl
      · rw [smGet, if_neg (by omega), if_neg (by omega)]
    · have same : smGet d ((j, x) :: m) j = x := by rw [smGet, if_pos rfl]
      rw [same]
      split
      · rename_i lost
        rw [gone (Nat.le_refl j), lost]
      · rw [smGet, if_pos rfl]
    · have before : smGet d ((j, x) :: m) k = d := by rw [smGet, if_neg (by omega), if_pos hkj]
      rw [before, hf]
      split
      · exact gone (Nat.le_of_lt hkj)
      · rw [smGet, if_neg (by omega), if_pos hkj]

end Sys2Proof.Machine
end

section
/-! SUPPORT. What a function-level reset and a device reset make of the tack room, of the attestation registers and of the cameras (spec/19
R422, spec/21 R457, R458). -/

/-! Proofs are checked one after another, as the tests are: a thread for each of them would be too many. -/

set_option Elab.async false

namespace Sys2Proof.Machine

/-! ### Bindings into a tenant space that is reset (spec/21 R457) -/

/-- A binding into the tenant space that was ACTIVE is SUSPENDED. -/
def Binding.suspend (t : Nat) (b : Binding) : Binding :=
  match b.cfg with
  | some r => if r.tenant = t ∧ b.state = 1 then { b with state := 3 } else b
  | none => b

/-- Every binding of the block, suspended where it is into the tenant space. -/
def Cam.suspend (c : Cam) (t : Nat) : Cam := { c with binds := smMap {} c.binds fun _ b => b.suspend t }

theorem Binding.suspend_state (t : Nat) (b : Binding) :
    ∃ x, b.suspend t = { b with state := x } ∧ (x ≠ b.state → ∃ r, b.cfg = some r ∧ r.tenant = t) := by
  unfold Binding.suspend
  split
  · rename_i r cfg
    split
    · rename_i into
      exact ⟨3, rfl, fun _ => ⟨r, cfg, into.1⟩⟩
    · exact ⟨b.state, rfl, fun changed => absurd rfl changed⟩
  · exact ⟨b.state, rfl, fun changed => absurd rfl changed⟩

/-! ### Function-level reset (spec/15 R357) -/

/-- A tenant space is dropped: beside what is spared, bindings into it are suspended. -/
theorem State.dropTenant_suspends (s : State) (t : Nat) :
    ∃ (u : State) (x : Sched), s.Spares u ∧ s.dropTenant t = { u with sched := x, cam := u.cam.suspend t } := by
  unfold State.dropTenant
  generalize List.range 96 = gs
  refine ⟨_, _, ?_, rfl⟩
  refine State.Spares.trans ?_ (State.Spares.foldl (fun _ _ => .of_same) _ _)
  exact ((s.zeroHists_spares t).trans (State.unmapLeaves_spares _ t _)).trans .of_same

theorem State.resetFn_cam (s : State) (f : Nat) (keepBm : Bool) : (s.resetFn f keepBm).cam = s.cam := by
  unfold State.resetFn
  dsimp only
  repeat' split
  all_goals rfl

theorem State.resetFn_fns (s : State) (f : Nat) (keepBm : Bool) :
    (s.resetFn f keepBm).fns
      = smPut {} s.fns f { busMaster := keepBm && (s.fn f).busMaster, resetBeat := some s.beat, aer := (s.fn f).aer } := by
  unfold State.resetFn
  dsimp only
  repeat' split
  all_goals rfl

/-- A report that is begun is abandoned if it is the function's own. -/
theorem State.resetFn_attRun (s : State) (f : Nat) (keepBm : Bool) :
    (s.resetFn f keepBm).sec.attRun = s.sec.attRun.filter fun r => r.1 != f := by
  unfold State.resetFn
  simp only [State.setFn_sec]
  split
  · rename_i g b run
    split
    · rename_i own
      simp [Option.filter, run, own]
    · rename_i other
      simp [Option.filter, run, other]
  · rename_i idle
    simp [idle]

/-- A function-level reset is the reset of the function's block, with what is spared before and after, and the suspension. -/
theorem State.functionReset_resetFn (s : State) (f : Nat) (keepBm : Bool) : ∃ (u v : State) (x : Sched),
    s.Spares u ∧ (u.resetFn f keepBm).Spares v ∧ s.functionReset f keepBm = { v with sched := x, cam := v.cam.suspend f } := by
  obtain ⟨v, x, spared, eq⟩ := (((s.discardCmds f).resetFn f keepBm).dropServing f).dropTenant_suspends f
  exact ⟨_, v, x, s.discardCmds_spares f, (State.dropServing_spares _ f).trans spared, eq⟩

theorem State.functionReset_cam (s : State) (f : Nat) (keepBm : Bool) : (s.functionReset f keepBm).cam = s.cam.suspend f := by
  obtain ⟨u, v, x, before, after, eq⟩ := s.functionReset_resetFn f keepBm
  rw [eq]
  show v.cam.suspend f = _
  rw [after.cam, State.resetFn_cam, before.cam]

theorem State.functionReset_attRun (s : State) (f : Nat) (keepBm : Bool) :
    (s.functionReset f keepBm).sec.attRun = s.sec.attRun.filter fun r => r.1 != f := by
  obtain ⟨u, v, x, before, after, eq⟩ := s.functionReset_resetFn f keepBm
  rw [eq]
  show v.sec.attRun = _
  rw [after.sec, State.resetFn_attRun, before.sec]

/-- The attestation registers of the function that is reset take their reset values, those of every other are kept. -/
theorem State.functionReset_att {s : State} (wf : smWf ({} : FnBlk) s.fns = true) (f g : Nat) (keepBm : Bool) :
    ((s.functionReset f keepBm).fn g).att = if g = f then FnBlk.att {} else (s.fn g).att := by
  obtain ⟨u, v, x, before, after, eq⟩ := s.functionReset_resetFn f keepBm
  have wfu := before.fnsWf wf
  have wfr : smWf ({} : FnBlk) (u.resetFn f keepBm).fns = true := by
    rw [State.resetFn_fns]
    exact smWf_smPut _ _ _ _ wfu
  rw [eq]
  show (v.fn g).att = _
  rw [after.att wfr, State.fn, State.resetFn_fns]
  split
  · rename_i own
    rw [own, smGet_smPut_same _ _ _ _ wfu]
    rfl
  · rename_i other
    rw [smGet_smPut_other _ _ _ _ _ other wfu]
    exact before.att wf g

/-! ### Device reset (spec/15 R356) -/

theorem State.landReset_spares (s : State) : s.Spares s.landReset :=
  (State.puts_spares (fun x : PWrite × Nat => x.1.addr) (·.1.mask) (·.1.val) _ s).trans .of_same

theorem State.deviceReset_sec (s : State) (keepBm : Bool) : (s.deviceReset keepBm).sec = s.sec.reset :=
  congrArg Sec.reset s.landReset_spares.sec

theorem State.deviceReset_binds (s : State) (keepBm : Bool) : (s.deviceReset keepBm).cam.binds = [] := rfl
theorem State.deviceReset_sensors (s : State) (keepBm : Bool) : (s.deviceReset keepBm).cam.sensors = [] := rfl

/-- What a device reset leaves of a function. -/
def FnBlk.reset (b : FnBlk) (keepBm : Bool) : FnBlk :=
  { busMaster := keepBm && b.busMaster, attCode := if b.attBusy then 3 else 0, aer := b.aer }

theorem State.deviceReset_fn {s : State} (wf : smWf ({} : FnBlk) s.fns = true) (f : Nat) (keepBm : Bool) :
    (s.deviceReset keepBm).fn f = (s.landReset.fn f).reset keepBm :=
  smGet_smMap ({} : FnBlk) s.landReset.fns (fun _ b => b.reset keepBm) f (by simp [FnBlk.reset]) (s.landReset_spares.fnsWf wf)

/-- A pending request of a function reads CODE 3, and every other attestation register its reset value. -/
theorem State.deviceReset_att {s : State} (wf : smWf ({} : FnBlk) s.fns = true) (f : Nat) (keepBm : Bool) :
    ((s.deviceReset keepBm).fn f).att = FnBlk.att { attCode := if (s.fn f).attBusy then 3 else 0 } := by
  have busy : (s.landReset.fn f).attBusy = (s.fn f).attBusy := congrArg Prod.fst (s.landReset_spares.att wf f)
  rw [State.deviceReset_fn wf, ← busy]
  rfl

/-! ### The two clauses -/

/-- A device reset and a function-level reset, seen from the tack room (spec/19 R422). -/
theorem resetAndTackRoom : Claims.ResetAndTackRoom := by
  intro s ⟨_, fnsWf, _⟩
  refine ⟨fun k => ?_, fun f k => ?_⟩
  · rw [State.deviceReset_sec]
    refine ⟨rfl, rfl, rfl, fun f busy => ?_, rfl, rfl, rfl, rfl, rfl, rfl, rfl⟩
    have regs := State.deviceReset_att fnsWf f k
    simp only [FnBlk.att, Prod.mk.injEq, busy, if_true] at regs
    obtain ⟨busy', -, code, -, -⟩ := regs
    exact ⟨busy', code⟩
  · have own := State.functionReset_att fnsWf f f k
    simp only [FnBlk.att, if_true, Prod.mk.injEq] at own
    obtain ⟨busy, done, code, dst, nonce⟩ := own
    refine ⟨busy, done, code, nonce, dst, fun b run => ?_, fun g b run other => ?_, fun g other => ?_⟩
    · rw [State.functionReset_attRun, run]
      simp
    · rw [State.functionReset_attRun, run]
      simp [other]
    · have regs := State.functionReset_att fnsWf f g k
      simp only [FnBlk.att, if_neg other, Prod.mk.injEq] at regs
      obtain ⟨busy, done, code, dst, nonce⟩ := regs
      exact ⟨busy, code, nonce, dst, done⟩

/-- A device reset and a function-level reset, seen from the camera block (spec/21 R458). -/
theorem resetAndCameras : Claims.ResetAndCameras := by
  intro s
  refine ⟨fun k n => ?_, fun f k => ?_⟩
  · rw [State.binding, State.sensor, State.deviceReset_binds, State.deviceReset_sensors]
    exact ⟨rfl, rfl, rfl, rfl, rfl, rfl, rfl, rfl⟩
  · simp only [State.binding, State.functionReset_cam]
    refine ⟨rfl, rfl, rfl, fun wf n => ?_⟩
    have read : smGet {} (s.cam.suspend f).binds n = (smGet {} s.cam.binds n).suspend f := 
      smGet_smMap {} s.cam.binds (fun _ b => b.suspend f) n rfl wf
    rw [read]
    exact Binding.suspend_state f _

/-- Settles O57: what the two resets make of the tack room, and what they make of the cameras. -/
theorem resetsKeepTheirPromises : Obligations.ResetsKeepTheirPromises := ⟨resetAndTackRoom, resetAndCameras⟩

end Sys2Proof.Machine
end
